-- ==== Sys2Proof/Word.lean ====
section
/-! DEFINITION. The widths the spec gives its values (00_scope.md R5, R6, R7): plain bit vectors, bit 0 least significant. -/

namespace Sys2Proof

/-- A byte of memory or of an instruction (20_memory.md R40). -/
abbrev Byte := BitVec 8

/-- A quadword: a linear address, `RIP`, or a general register's home (10_state.md R23, R25). -/
abbrev Quad := BitVec 64

/-- The 128 bits of an XMM register or of an `m128` operand (10_state.md R20). -/
abbrev XWord := BitVec 128

end Sys2Proof
end

