-- ==== Sys2Proof/Config.lean ====
section
/-! DEFINITION. What the spec leaves to an implementation or to the launch (00_scope.md R5; 92_eei_decisions.md, "Parameters left
OPEN"), and the free values: constants without a body, so that nothing can be proved of the values they take. The parameters
are fields of State (arguments of a run); this file declares their types. -/

namespace Sys2Proof

/-- `MODE` (00_scope.md R5, D2). `mode16` stands for every mode the spec refuses: real-address mode, virtual-8086 mode and
16-bit protected mode (00_scope.md R4); it is the mode after reset (10_state.md R33). -/
inductive Mode where
  | mode16
  | mode32
  | mode64
  deriving DecidableEq, Repr

/-- `VA_BITS`: the number of implemented linear-address bits (00_scope.md R5, D6). -/
inductive VaBits where
  | b48
  | b57
  deriving DecidableEq, Repr

/-- The number that `VA_BITS` stands for. -/
def VaBits.toNat : VaBits → Nat
  | .b48 => 48
  | .b57 => 57

/-- `NAN_DP` (00_scope.md R5, 43_dot_product.md R152, U3): which NaN a dot product returns when several are involved.
`tree` and `host` are the spec's named values; `draw` is any NaN of U3's set, a free value for each result field. -/
inductive NanDp where
  | tree
  | host
  | draw
  deriving DecidableEq, Repr

/-- `ROUND_IMM_HI` (00_scope.md R5, 46_round.md R180, U1): what a non-zero `imm8[7:4]` of ROUND* does. -/
inductive RoundImmHi where
  | ignore
  | refuse
  deriving DecidableEq, Repr

/-- The memory types of 20_memory.md R48. No rule's result depends on one (D8). -/
inductive MemType where
  | wb
  | wt
  | wp
  | wc
  | uc
  | ucMinus
  deriving DecidableEq, Repr

/-- What the protection key of a page lets data accesses do (60_exceptions.md R206; log 14). -/
inductive KeyRights where
  | all
  | noWrite
  | nothing
  deriving DecidableEq, Repr

/-- What a byte of memory that nothing has written reads as. DESIGN CHOICE (log 3), unsafe: the spec's launch memory has
"initial contents" and gives none. -/
def Config.unlistedByte : Byte := 0

/-- FREE VALUE (U3, log 8): the choice among the NaN candidates for result field `k` of the `n`-th drawn dot product. -/
opaque Config.nanChoice : (n k : Nat) → Nat

/-- FREE VALUE (U4, log 9): which of the unmasked exceptions an unmasked floating-point fault is said to be caused by. -/
opaque Config.faultCause : (n : Nat) → Nat

/-- FREE VALUE (U4, log 9): whether an unmasked I or D of a later add of a dot product, which no faulting operation feeds, comes
before an unmasked O, U or P of an earlier operation. -/
opaque Config.faultLater : (n : Nat) → Bool

/-- FREE VALUE (U4, log 9): the further `MXCSR` flags an unmasked floating-point fault records. -/
opaque Config.faultFlags : (n : Nat) → BitVec 6

/-- FREE VALUE (U12, log 10): #SS(0) (true) or #GP(0) (false) for a 16-byte operand through SS that is both outside its
segment's reach and misaligned. -/
opaque Config.stackFaultFirst : (n : Nat) → Bool

end Sys2Proof
end

