-- ==== Sys2Proof/Syntax.lean ====
section
/-! DEFINITION. The instructions: one constructor per row of spec/opcode_table.json, in its order, over the operand forms of
30_encoding.md R74 and the addressing forms of R65 to R67. -/

namespace Sys2Proof

/-- A register number 0 to 15: an XMM register or a general register, as the operand's place says (30_encoding.md R65, R74). -/
abbrev Reg := Fin 16

/-- A segment override byte (30_encoding.md R62). -/
inductive SegOverride where
  | es
  | cs
  | ss
  | ds
  | fs
  | gs
  deriving DecidableEq, Repr

/-- The bytes before the opcode escape that an instruction carries beside the mandatory `66` (30_encoding.md R60, R62, R64):
a segment override, the address-size byte `67`, and the four bits W R X B of a REX byte. -/
structure Enc where
  seg    : Option SegOverride
  addr32 : Bool
  rex    : Option (BitVec 4)
  deriving DecidableEq, Repr

/-- The displacement that follows ModR/M or SIB (30_encoding.md R67); its width is ModR/M.mod. -/
inductive Disp where
  | none
  | d8 (d : BitVec 8)
  | d32 (d : BitVec 32)
  deriving DecidableEq, Repr

/-- A memory operand as ModR/M and SIB spell it (30_encoding.md R65, R66). -/
inductive Mem where
  /-- `[base + disp]` without a SIB byte. -/
  | base (b : Reg) (disp : Disp)
  /-- `[base + index * 2^scale + disp]` with a SIB byte; no index when `X.index` is 4. -/
  | sib (b : Reg) (scale : BitVec 2) (index : Option Reg) (disp : Disp)
  /-- `[index * 2^scale + disp32]`: SIB with base field 101 under mod 00. -/
  | sibNoBase (scale : BitVec 2) (index : Option Reg) (d : BitVec 32)
  /-- mod 00, rm 101: `[RIP_next + disp32]` in mode64, `[disp32]` in mode32. -/
  | disp32 (d : BitVec 32)
  deriving DecidableEq, Repr

/-- The operand ModR/M names: a register (XMM or general, as the format says) or memory (30_encoding.md R65). -/
inductive Rm where
  | reg (r : Reg)
  | mem (m : Mem)
  deriving DecidableEq, Repr

/-- The 49 instructions. `dst` and `src` are the first and second operand of the source's syntax line; PTEST's `dst` is its
first source and is not written (30_encoding.md R74). -/
inductive Instr where
  /-- MPSADBW (R100): `66 0F 3A 42 /r ib`, format RMI; memory form 16 bytes, 16-byte aligned. -/
  | mpsadbw (e : Enc) (dst : Reg) (src : Rm) (imm : Byte)
  /-- PHMINPOSUW (R101): `66 0F 38 41 /r`, format RM; memory form 16 bytes, 16-byte aligned. -/
  | phminposuw (e : Enc) (dst : Reg) (src : Rm)
  /-- PMOVSXBW (R103): `66 0F 38 20 /r`, format RM; memory form 8 bytes. -/
  | pmovsxbw (e : Enc) (dst : Reg) (src : Rm)
  /-- PMOVZXBW (R104): `66 0F 38 30 /r`, format RM; memory form 8 bytes. -/
  | pmovzxbw (e : Enc) (dst : Reg) (src : Rm)
  /-- PMOVSXBD (R105): `66 0F 38 21 /r`, format RM; memory form 4 bytes. -/
  | pmovsxbd (e : Enc) (dst : Reg) (src : Rm)
  /-- PMOVZXBD (R106): `66 0F 38 31 /r`, format RM; memory form 4 bytes. -/
  | pmovzxbd (e : Enc) (dst : Reg) (src : Rm)
  /-- PMOVSXWD (R107): `66 0F 38 23 /r`, format RM; memory form 8 bytes. -/
  | pmovsxwd (e : Enc) (dst : Reg) (src : Rm)
  /-- PMOVZXWD (R108): `66 0F 38 33 /r`, format RM; memory form 8 bytes. -/
  | pmovzxwd (e : Enc) (dst : Reg) (src : Rm)
  /-- PMOVSXBQ (R109): `66 0F 38 22 /r`, format RM; memory form 2 bytes. -/
  | pmovsxbq (e : Enc) (dst : Reg) (src : Rm)
  /-- PMOVZXBQ (R110): `66 0F 38 32 /r`, format RM; memory form 2 bytes. -/
  | pmovzxbq (e : Enc) (dst : Reg) (src : Rm)
  /-- PMOVSXWQ (R111): `66 0F 38 24 /r`, format RM; memory form 4 bytes. -/
  | pmovsxwq (e : Enc) (dst : Reg) (src : Rm)
  /-- PMOVZXWQ (R112): `66 0F 38 34 /r`, format RM; memory form 4 bytes. -/
  | pmovzxwq (e : Enc) (dst : Reg) (src : Rm)
  /-- PMOVSXDQ (R113): `66 0F 38 25 /r`, format RM; memory form 8 bytes. -/
  | pmovsxdq (e : Enc) (dst : Reg) (src : Rm)
  /-- PMOVZXDQ (R114): `66 0F 38 35 /r`, format RM; memory form 8 bytes. -/
  | pmovzxdq (e : Enc) (dst : Reg) (src : Rm)
  /-- PMINSB (R121): `66 0F 38 38 /r`, format RM; memory form 16 bytes, 16-byte aligned. -/
  | pminsb (e : Enc) (dst : Reg) (src : Rm)
  /-- PMINUW (R122): `66 0F 38 3A /r`, format RM; memory form 16 bytes, 16-byte aligned. -/
  | pminuw (e : Enc) (dst : Reg) (src : Rm)
  /-- PMINSD (R123): `66 0F 38 39 /r`, format RM; memory form 16 bytes, 16-byte aligned. -/
  | pminsd (e : Enc) (dst : Reg) (src : Rm)
  /-- PMINUD (R124): `66 0F 38 3B /r`, format RM; memory form 16 bytes, 16-byte aligned. -/
  | pminud (e : Enc) (dst : Reg) (src : Rm)
  /-- PMAXSB (R125): `66 0F 38 3C /r`, format RM; memory form 16 bytes, 16-byte aligned. -/
  | pmaxsb (e : Enc) (dst : Reg) (src : Rm)
  /-- PMAXUW (R126): `66 0F 38 3E /r`, format RM; memory form 16 bytes, 16-byte aligned. -/
  | pmaxuw (e : Enc) (dst : Reg) (src : Rm)
  /-- PMAXSD (R127): `66 0F 38 3D /r`, format RM; memory form 16 bytes, 16-byte aligned. -/
  | pmaxsd (e : Enc) (dst : Reg) (src : Rm)
  /-- PMAXUD (R128): `66 0F 38 3F /r`, format RM; memory form 16 bytes, 16-byte aligned. -/
  | pmaxud (e : Enc) (dst : Reg) (src : Rm)
  /-- PMULDQ (R129): `66 0F 38 28 /r`, format RM; memory form 16 bytes, 16-byte aligned. -/
  | pmuldq (e : Enc) (dst : Reg) (src : Rm)
  /-- PMULLD (R130): `66 0F 38 40 /r`, format RM; memory form 16 bytes, 16-byte aligned. -/
  | pmulld (e : Enc) (dst : Reg) (src : Rm)
  /-- PACKUSDW (R131): `66 0F 38 2B /r`, format RM; memory form 16 bytes, 16-byte aligned. -/
  | packusdw (e : Enc) (dst : Reg) (src : Rm)
  /-- PCMPEQQ (R132): `66 0F 38 29 /r`, format RM; memory form 16 bytes, 16-byte aligned. -/
  | pcmpeqq (e : Enc) (dst : Reg) (src : Rm)
  /-- INSERTPS (R140): `66 0F 3A 21 /r ib`, format RMI; memory form 4 bytes. -/
  | insertps (e : Enc) (dst : Reg) (src : Rm) (imm : Byte)
  /-- EXTRACTPS (R141): `66 0F 3A 17 /r ib`, format MRI-G; memory form 4 bytes. -/
  | extractps (e : Enc) (dst : Rm) (src : Reg) (imm : Byte)
  /-- PINSRB (R142): `66 0F 3A 20 /r ib`, format RMI-G; memory form 1 byte. -/
  | pinsrb (e : Enc) (dst : Reg) (src : Rm) (imm : Byte)
  /-- PINSRD (R143): `66 0F 3A 22 /r ib`, format RMI-G; memory form 4 bytes. -/
  | pinsrd (e : Enc) (dst : Reg) (src : Rm) (imm : Byte)
  /-- PINSRQ (R144): `66 REX.W 0F 3A 22 /r ib`, format RMI-G; memory form 8 bytes. -/
  | pinsrq (e : Enc) (dst : Reg) (src : Rm) (imm : Byte)
  /-- PEXTRB (R145): `66 0F 3A 14 /r ib`, format MRI-G; memory form 1 byte. -/
  | pextrb (e : Enc) (dst : Rm) (src : Reg) (imm : Byte)
  /-- PEXTRW (R146): `66 0F 3A 15 /r ib`, format MRI-G; memory form 2 bytes. -/
  | pextrw (e : Enc) (dst : Rm) (src : Reg) (imm : Byte)
  /-- PEXTRD (R147): `66 0F 3A 16 /r ib`, format MRI-G; memory form 4 bytes. -/
  | pextrd (e : Enc) (dst : Rm) (src : Reg) (imm : Byte)
  /-- PEXTRQ (R148): `66 REX.W 0F 3A 16 /r ib`, format MRI-G; memory form 8 bytes. -/
  | pextrq (e : Enc) (dst : Rm) (src : Reg) (imm : Byte)
  /-- DPPS (R155): `66 0F 3A 40 /r ib`, format RMI; memory form 16 bytes, 16-byte aligned. -/
  | dpps (e : Enc) (dst : Reg) (src : Rm) (imm : Byte)
  /-- DPPD (R156): `66 0F 3A 41 /r ib`, format RMI; memory form 16 bytes, 16-byte aligned. -/
  | dppd (e : Enc) (dst : Reg) (src : Rm) (imm : Byte)
  /-- BLENDVPS (R160): `66 0F 38 14 /r`, format RM0; memory form 16 bytes, 16-byte aligned. -/
  | blendvps (e : Enc) (dst : Reg) (src : Rm)
  /-- BLENDVPD (R161): `66 0F 38 15 /r`, format RM0; memory form 16 bytes, 16-byte aligned. -/
  | blendvpd (e : Enc) (dst : Reg) (src : Rm)
  /-- BLENDPS (R162): `66 0F 3A 0C /r ib`, format RMI; memory form 16 bytes, 16-byte aligned. -/
  | blendps (e : Enc) (dst : Reg) (src : Rm) (imm : Byte)
  /-- BLENDPD (R163): `66 0F 3A 0D /r ib`, format RMI; memory form 16 bytes, 16-byte aligned. -/
  | blendpd (e : Enc) (dst : Reg) (src : Rm) (imm : Byte)
  /-- PBLENDVB (R164): `66 0F 38 10 /r`, format RM0; memory form 16 bytes, 16-byte aligned. -/
  | pblendvb (e : Enc) (dst : Reg) (src : Rm)
  /-- PBLENDW (R165): `66 0F 3A 0E /r ib`, format RMI; memory form 16 bytes, 16-byte aligned. -/
  | pblendw (e : Enc) (dst : Reg) (src : Rm) (imm : Byte)
  /-- PTEST (R170): `66 0F 38 17 /r`, format RM; memory form 16 bytes, 16-byte aligned. -/
  | ptest (e : Enc) (dst : Reg) (src : Rm)
  /-- ROUNDPS (R182): `66 0F 3A 08 /r ib`, format RMI; memory form 16 bytes, 16-byte aligned. -/
  | roundps (e : Enc) (dst : Reg) (src : Rm) (imm : Byte)
  /-- ROUNDPD (R183): `66 0F 3A 09 /r ib`, format RMI; memory form 16 bytes, 16-byte aligned. -/
  | roundpd (e : Enc) (dst : Reg) (src : Rm) (imm : Byte)
  /-- ROUNDSS (R184): `66 0F 3A 0A /r ib`, format RMI; memory form 4 bytes. -/
  | roundss (e : Enc) (dst : Reg) (src : Rm) (imm : Byte)
  /-- ROUNDSD (R185): `66 0F 3A 0B /r ib`, format RMI; memory form 8 bytes. -/
  | roundsd (e : Enc) (dst : Reg) (src : Rm) (imm : Byte)
  /-- MOVNTDQA (R190): `66 0F 38 2A /r`, format RM-M; memory form 16 bytes, 16-byte aligned. -/
  | movntdqa (e : Enc) (dst : Reg) (src : Mem)
  deriving DecidableEq, Repr

end Sys2Proof
end

