-- ==== Sys2Proof/WellFormed.lean ====
section
/-! DEFINITION. Which instruction terms have an encoding, mode by mode: the checks of 30_encoding.md R64 to R66, R76 and R80, each
under a name of its own. -/

namespace Sys2Proof

/-- Bit `k` of the REX byte's low four (3 = W, 2 = R, 1 = X, 0 = B); all are 0 without a REX byte (30_encoding.md R64). -/
def Enc.rexBit (e : Enc) (k : Nat) : Bool := (e.rex.getD 0).getLsbD k

/-- REX.W (30_encoding.md R64). -/
abbrev Enc.rexW (e : Enc) : Bool := e.rexBit 3
/-- REX.R (30_encoding.md R64). -/
abbrev Enc.rexR (e : Enc) : Bool := e.rexBit 2
/-- REX.X (30_encoding.md R64). -/
abbrev Enc.rexX (e : Enc) : Bool := e.rexBit 1
/-- REX.B (30_encoding.md R64). -/
abbrev Enc.rexB (e : Enc) : Bool := e.rexBit 0

/-- The fourth bit of a register number, the one a REX bit gives. -/
def regHigh (r : Reg) : Bool := decide (8 ≤ r.val)

/-- The low three bits of a register number, the ones ModR/M or SIB gives. -/
def regLow (r : Reg) : BitVec 3 := BitVec.ofNat 3 r.val

/-- CHECK 1. The bytes before the escape exist in the mode: mode32 has neither REX nor (in this spec) `67`, and the refused
16-bit modes have no instruction at all (30_encoding.md R80, D2). -/
def Enc.modeOk (e : Enc) : Mode → Bool
  | .mode64 => true
  | .mode32 => e.rex.isNone && !e.addr32
  | .mode16 => false

/-- CHECK 2. ModR/M.reg's register agrees with REX.R (30_encoding.md R65). -/
def Enc.regOk (e : Enc) (r : Reg) : Bool := regHigh r == e.rexR

/-- CHECK 3. The index agrees with REX.X; number 4 cannot be one, and "no index" is spelled X.index = 4 (30_encoding.md R66). -/
def Enc.indexOk (e : Enc) : Option Reg → Bool
  | none => !e.rexX
  | some r => regHigh r == e.rexX && r != 4

/-- CHECK 4. The memory operand is one that ModR/M and SIB can spell (30_encoding.md R65, R66): the base agrees with REX.B, a low
field 100 needs a SIB byte, a low field 101 needs a displacement. -/
def Mem.wf (e : Enc) : Mem → Bool
  | .base b d => regHigh b == e.rexB && regLow b != 4 && (d != .none || regLow b != 5)
  | .sib b _ i d => regHigh b == e.rexB && e.indexOk i && (d != .none || regLow b != 5)
  | .sibNoBase _ i _ => e.indexOk i
  | .disp32 _ => true

/-- CHECK 5. ModR/M.rm's register agrees with REX.B, or its memory operand passes check 4 (30_encoding.md R65). -/
def Rm.wf (e : Enc) : Rm → Bool
  | .reg r => regHigh r == e.rexB
  | .mem m => m.wf e

/-- The value of REX.W an instruction requires: only the two shared opcode bytes require one (30_encoding.md R76, R77). -/
def Instr.requiredW : Instr → Option Bool
  | .pinsrd .. | .pextrd .. => some false
  | .pinsrq .. | .pextrq .. => some true
  | _ => none

/-- CHECK 6. REX.W is the one the instruction requires, if it requires one (30_encoding.md R77). -/
def Enc.wOk (e : Enc) : Option Bool → Bool
  | none => true
  | some w => e.rexW == w

/-- What an instruction's bytes carry beside its opcode: the bytes before the escape, ModR/M.reg, ModR/M.rm, and the immediate
(30_encoding.md R74: every format has the XMM register of the syntax line in ModR/M.reg). -/
structure Operands where
  enc : Enc
  reg : Reg
  rm  : Rm
  imm : Option Byte
  deriving DecidableEq, Repr

/-- The operands of each instruction in their ModR/M places (30_encoding.md R74). -/
def Instr.operands : Instr → Operands
  | .mpsadbw e d s i | .insertps e d s i | .dpps e d s i | .dppd e d s i | .blendps e d s i | .blendpd e d s i
  | .pblendw e d s i | .roundps e d s i | .roundpd e d s i | .roundss e d s i | .roundsd e d s i
  | .pinsrb e d s i | .pinsrd e d s i | .pinsrq e d s i => ⟨e, d, s, some i⟩
  | .extractps e d s i | .pextrb e d s i | .pextrw e d s i | .pextrd e d s i | .pextrq e d s i => ⟨e, s, d, some i⟩
  | .phminposuw e d s | .pmovsxbw e d s | .pmovzxbw e d s | .pmovsxbd e d s | .pmovzxbd e d s | .pmovsxwd e d s
  | .pmovzxwd e d s | .pmovsxbq e d s | .pmovzxbq e d s | .pmovsxwq e d s | .pmovzxwq e d s | .pmovsxdq e d s
  | .pmovzxdq e d s | .pminsb e d s | .pminuw e d s | .pminsd e d s | .pminud e d s | .pmaxsb e d s | .pmaxuw e d s
  | .pmaxsd e d s | .pmaxud e d s | .pmuldq e d s | .pmulld e d s | .packusdw e d s | .pcmpeqq e d s
  | .blendvps e d s | .blendvpd e d s | .pblendvb e d s | .ptest e d s => ⟨e, d, s, none⟩
  | .movntdqa e d m => ⟨e, d, .mem m, none⟩

/-- The instruction has an encoding in the mode. -/
def Instr.wf (md : Mode) (i : Instr) : Bool :=
  let o := i.operands
  o.enc.modeOk md && o.enc.regOk o.reg && o.rm.wf o.enc && o.enc.wOk i.requiredW

end Sys2Proof
end

