-- ==== Sys2Proof/Decode.lean ====
section
/-! DEFINITION. The decoding procedure of 30_encoding.md R84, total on any list of bytes, and the encoder written from the same
tables (R60 to R76). -/

namespace Sys2Proof

/-- Why a byte sequence is not decoded. The last two are the sequences the spec names as #UD (60_exceptions.md R202); the rest are
refused, not faults (D24). -/
inductive DecodeError where
  /-- The bytes end before the instruction does (70_reset_and_hazards.md R244). -/
  | truncated
  /-- Not one of the 49 instructions (R79). -/
  | notAnInstruction
  /-- Two legacy bytes of one group (R63, D24). -/
  | duplicateLegacy
  /-- `F2` or `F3` (R63, U6). -/
  | repeatByte
  /-- `67` in mode32: 16-bit addressing (R62, R80, D2). -/
  | addr16
  /-- One of the refused 16-bit modes (00_scope.md R4, D2). -/
  | mode16
  /-- LOCK before one of the 49: #UD (R63, 60_exceptions.md R202). -/
  | lockByte
  /-- MOVNTDQA with a register operand: #UD (R78, 60_exceptions.md R202). -/
  | movntdqaRegister
  deriving DecidableEq, Repr

/-- The opcode maps behind the escapes `0F 38` and `0F 3A` (30_encoding.md R75, R76). -/
inductive OpMap where
  | m38
  | m3A
  deriving DecidableEq, Repr

/-- The legacy bytes seen so far (30_encoding.md R84). -/
structure Legacy where
  seg    : Option SegOverride
  addr32 : Bool
  has66  : Bool
  lock   : Bool
  deriving DecidableEq, Repr

/-- How the operands stand in ModR/M and the immediate (30_encoding.md R74), with the constructor they are given to. -/
inductive Layout where
  | rm (mk : Enc → Reg → Rm → Instr)
  | mem (mk : Enc → Reg → Mem → Instr)
  | rmi (mk : Enc → Reg → Rm → Byte → Instr)
  | mri (mk : Enc → Rm → Reg → Byte → Instr)

/-- The segment override a byte is (30_encoding.md R62). -/
def segOf (b : Byte) : Option SegOverride :=
  match b.toNat with
  | 0x26 => some .es
  | 0x2E => some .cs
  | 0x36 => some .ss
  | 0x3E => some .ds
  | 0x64 => some .fs
  | 0x65 => some .gs
  | _ => none

/-- The byte of a segment override (30_encoding.md R62). -/
def SegOverride.byte : SegOverride → Byte
  | .es => 0x26
  | .cs => 0x2E
  | .ss => 0x36
  | .ds => 0x3E
  | .fs => 0x64
  | .gs => 0x65

/-- The opcode map of escape `0F 38` (30_encoding.md R75). -/
def row38 (op : Byte) : Option Layout :=
  match op.toNat with
  | 0x10 => some (.rm .pblendvb)
  | 0x14 => some (.rm .blendvps)
  | 0x15 => some (.rm .blendvpd)
  | 0x17 => some (.rm .ptest)
  | 0x20 => some (.rm .pmovsxbw)
  | 0x21 => some (.rm .pmovsxbd)
  | 0x22 => some (.rm .pmovsxbq)
  | 0x23 => some (.rm .pmovsxwd)
  | 0x24 => some (.rm .pmovsxwq)
  | 0x25 => some (.rm .pmovsxdq)
  | 0x28 => some (.rm .pmuldq)
  | 0x29 => some (.rm .pcmpeqq)
  | 0x2A => some (.mem .movntdqa)
  | 0x2B => some (.rm .packusdw)
  | 0x30 => some (.rm .pmovzxbw)
  | 0x31 => some (.rm .pmovzxbd)
  | 0x32 => some (.rm .pmovzxbq)
  | 0x33 => some (.rm .pmovzxwd)
  | 0x34 => some (.rm .pmovzxwq)
  | 0x35 => some (.rm .pmovzxdq)
  | 0x38 => some (.rm .pminsb)
  | 0x39 => some (.rm .pminsd)
  | 0x3A => some (.rm .pminuw)
  | 0x3B => some (.rm .pminud)
  | 0x3C => some (.rm .pmaxsb)
  | 0x3D => some (.rm .pmaxsd)
  | 0x3E => some (.rm .pmaxuw)
  | 0x3F => some (.rm .pmaxud)
  | 0x40 => some (.rm .pmulld)
  | 0x41 => some (.rm .phminposuw)
  | _ => none

/-- The opcode map of escape `0F 3A`; `w` is REX.W, which only the opcodes 16 and 22 look at (30_encoding.md R76, R77). -/
def row3A (op : Byte) (w : Bool) : Option Layout :=
  match op.toNat with
  | 0x08 => some (.rmi .roundps)
  | 0x09 => some (.rmi .roundpd)
  | 0x0A => some (.rmi .roundss)
  | 0x0B => some (.rmi .roundsd)
  | 0x0C => some (.rmi .blendps)
  | 0x0D => some (.rmi .blendpd)
  | 0x0E => some (.rmi .pblendw)
  | 0x14 => some (.mri .pextrb)
  | 0x15 => some (.mri .pextrw)
  | 0x16 => some (if w then .mri .pextrq else .mri .pextrd)
  | 0x17 => some (.mri .extractps)
  | 0x20 => some (.rmi .pinsrb)
  | 0x21 => some (.rmi .insertps)
  | 0x22 => some (if w then .rmi .pinsrq else .rmi .pinsrd)
  | 0x40 => some (.rmi .dpps)
  | 0x41 => some (.rmi .dppd)
  | 0x42 => some (.rmi .mpsadbw)
  | _ => none

/-- The row of an opcode key (30_encoding.md R79). -/
def row (m : OpMap) (op : Byte) (w : Bool) : Option Layout :=
  match m with
  | .m38 => row38 op
  | .m3A => row3A op w

/-- Step 1 of R84: the legacy bytes, each group at most once, in any order. -/
def scanLegacy (md : Mode) (p : Legacy) : List Byte → Except DecodeError (Legacy × List Byte)
  | [] => .error .truncated
  | b :: bs =>
    if b = 0x66#8 then
      if p.has66 then .error .duplicateLegacy else scanLegacy md { p with has66 := true } bs
    else if b = 0x67#8 then
      if md ≠ .mode64 then .error .addr16
      else if p.addr32 then .error .duplicateLegacy else scanLegacy md { p with addr32 := true } bs
    else if b = 0xF0#8 then
      if p.lock then .error .duplicateLegacy else scanLegacy md { p with lock := true } bs
    else if b = 0xF2#8 ∨ b = 0xF3#8 then .error .repeatByte
    else match segOf b with
      | some sg =>
        if p.seg.isSome then .error .duplicateLegacy else scanLegacy md { p with seg := some sg } bs
      | none => .ok (p, b :: bs)

/-- Step 2 of R84: a REX byte, in mode64 only (R64). -/
def scanRex (md : Mode) : List Byte → Option (BitVec 4) × List Byte
  | [] => (none, [])
  | b :: bs =>
    if md = .mode64 ∧ b.extractLsb' 4 4 = 4#4 then (some (b.extractLsb' 0 4), bs) else (none, b :: bs)

/-- Step 3 of R84: the escape and the opcode byte. -/
def scanKey : List Byte → Except DecodeError (OpMap × Byte × List Byte)
  | [] => .error .truncated
  | b :: bs =>
    if b ≠ 0x0F#8 then .error .notAnInstruction
    else match bs with
      | esc :: op :: rest =>
        if esc = 0x38#8 then .ok (.m38, op, rest)
        else if esc = 0x3A#8 then .ok (.m3A, op, rest)
        else .error .notAnInstruction
      | _ => .error .truncated

/-- A register number from its REX bit and its three-bit field (R65). -/
def mkReg (hi : Bool) (lo : BitVec 3) : Reg := Fin.ofNat 16 (hi.toNat * 8 + lo.toNat)

/-- Four little-endian bytes (R67). -/
def take32 : List Byte → Except DecodeError (BitVec 32 × List Byte)
  | b0 :: b1 :: b2 :: b3 :: rest => .ok (b3 ++ b2 ++ b1 ++ b0, rest)
  | _ => .error .truncated

/-- The displacement that mod 00, 01 or 10 calls for (R65, R67). -/
def takeDisp (md : BitVec 2) (bs : List Byte) : Except DecodeError (Disp × List Byte) :=
  if md = 0#2 then .ok (.none, bs)
  else if md = 1#2 then
    match bs with
    | b :: rest => .ok (.d8 b, rest)
    | [] => .error .truncated
  else match take32 bs with
    | .ok (d, rest) => .ok (.d32 d, rest)
    | .error x => .error x

/-- The index of a SIB byte: none when X.index is 4 (R66). -/
def indexOf (e : Enc) (f : BitVec 3) : Option Reg :=
  let r := mkReg e.rexX f
  if r = 4 then none else some r

/-- The memory operand of a SIB byte (R66). -/
def scanSib (e : Enc) (md : BitVec 2) : List Byte → Except DecodeError (Mem × List Byte)
  | [] => .error .truncated
  | sib :: bs =>
    let scale := sib.extractLsb' 6 2
    let index := indexOf e (sib.extractLsb' 3 3)
    let base := sib.extractLsb' 0 3
    if base = 5#3 ∧ md = 0#2 then
      match take32 bs with
      | .ok (d, rest) => .ok (.sibNoBase scale index d, rest)
      | .error x => .error x
    else match takeDisp md bs with
      | .ok (d, rest) => .ok (.sib (mkReg e.rexB base) scale index d, rest)
      | .error x => .error x

/-- The memory operand of a ModR/M byte with mod other than 11 (R65). -/
def scanMem (e : Enc) (md : BitVec 2) (rm : BitVec 3) (bs : List Byte) : Except DecodeError (Mem × List Byte) :=
  if rm = 4#3 then scanSib e md bs
  else if md = 0#2 ∧ rm = 5#3 then
    match take32 bs with
    | .ok (d, rest) => .ok (.disp32 d, rest)
    | .error x => .error x
  else match takeDisp md bs with
    | .ok (d, rest) => .ok (.base (mkReg e.rexB rm) d, rest)
    | .error x => .error x

/-- Step 5 of R84: ModR/M with what follows it (R65, R66). -/
def scanModRm (e : Enc) : List Byte → Except DecodeError (Reg × Rm × List Byte)
  | [] => .error .truncated
  | b :: bs =>
    let md := b.extractLsb' 6 2
    let reg := mkReg e.rexR (b.extractLsb' 3 3)
    if md = 3#2 then .ok (reg, .reg (mkReg e.rexB (b.extractLsb' 0 3)), bs)
    else match scanMem e md (b.extractLsb' 0 3) bs with
      | .ok (m, rest) => .ok (reg, .mem m, rest)
      | .error x => .error x

/-- Step 6 of R84: the immediate, and the instruction of the row. -/
def build (lay : Layout) (e : Enc) (reg : Reg) (rm : Rm) (bs : List Byte) : Except DecodeError (Instr × List Byte) :=
  match lay with
  | .rm mk => .ok (mk e reg rm, bs)
  | .mem mk =>
    match rm with
    | .mem m => .ok (mk e reg m, bs)
    | .reg _ => .error .movntdqaRegister
  | .rmi mk =>
    match bs with
    | imm :: rest => .ok (mk e reg rm imm, rest)
    | [] => .error .truncated
  | .mri mk =>
    match bs with
    | imm :: rest => .ok (mk e rm reg imm, rest)
    | [] => .error .truncated

/-- Steps 2 to 6 of R84, after the legacy bytes. -/
def decodeBody (md : Mode) (p : Legacy) (bs : List Byte) : Except DecodeError (Instr × List Byte) :=
  let (rex, bs) := scanRex md bs
  let e : Enc := ⟨p.seg, p.addr32, rex⟩
  match scanKey bs with
  | .error x => .error x
  | .ok (m, op, bs) =>
    if !p.has66 then .error .notAnInstruction
    else match row m op e.rexW with
      | none => .error .notAnInstruction
      | some lay =>
        if p.lock then .error .lockByte
        else match scanModRm e bs with
          | .error x => .error x
          | .ok (reg, rm, bs) => build lay e reg rm bs

/-- Decode the instruction at the head of a list of bytes: the instruction and the bytes after it (30_encoding.md R84, R80). -/
def decode (md : Mode) (bs : List Byte) : Except DecodeError (Instr × List Byte) :=
  if md = .mode16 then .error .mode16
  else match scanLegacy md ⟨none, false, false, false⟩ bs with
    | .error x => .error x
    | .ok (p, bs) => decodeBody md p bs

/-! ### Lengths (30_encoding.md R73) -/

/-- The bytes before the escape: segment override, `67`, `66`, REX. -/
def Enc.len (e : Enc) : Nat :=
  e.seg.isSome.toNat + e.addr32.toNat + 1 + e.rex.isSome.toNat

/-- The bytes of a displacement. -/
def Disp.len : Disp → Nat
  | .none => 0
  | .d8 _ => 1
  | .d32 _ => 4

/-- ModR/M, SIB and displacement. -/
def Rm.len : Rm → Nat
  | .reg _ => 1
  | .mem (.base _ d) => 1 + d.len
  | .mem (.sib _ _ _ d) => 2 + d.len
  | .mem (.sibNoBase ..) => 6
  | .mem (.disp32 _) => 5

/-- The length of a `0F 38` instruction, which has no immediate. -/
def len38 (e : Enc) (rm : Rm) : Nat := e.len + 3 + rm.len

/-- The length of a `0F 3A` instruction, whose last byte is `imm8`. -/
def len3A (e : Enc) (rm : Rm) : Nat := e.len + 3 + rm.len + 1

/-- The length of an instruction in bytes (30_encoding.md R73). -/
def Instr.len (i : Instr) : Nat :=
  let o := i.operands
  match o.imm with
  | none => len38 o.enc o.rm
  | some _ => len3A o.enc o.rm

/-! ### The encoder -/

/-- An opcode key: map and opcode byte (30_encoding.md R75, R76). -/
structure OpKey where
  map  : OpMap
  byte : Byte
  deriving DecidableEq, Repr

/-- The opcode key of each instruction (30_encoding.md R75, R76). -/
def Instr.key : Instr → OpKey
  | .mpsadbw .. => ⟨.m3A, 0x42⟩
  | .phminposuw .. => ⟨.m38, 0x41⟩
  | .pmovsxbw .. => ⟨.m38, 0x20⟩
  | .pmovzxbw .. => ⟨.m38, 0x30⟩
  | .pmovsxbd .. => ⟨.m38, 0x21⟩
  | .pmovzxbd .. => ⟨.m38, 0x31⟩
  | .pmovsxwd .. => ⟨.m38, 0x23⟩
  | .pmovzxwd .. => ⟨.m38, 0x33⟩
  | .pmovsxbq .. => ⟨.m38, 0x22⟩
  | .pmovzxbq .. => ⟨.m38, 0x32⟩
  | .pmovsxwq .. => ⟨.m38, 0x24⟩
  | .pmovzxwq .. => ⟨.m38, 0x34⟩
  | .pmovsxdq .. => ⟨.m38, 0x25⟩
  | .pmovzxdq .. => ⟨.m38, 0x35⟩
  | .pminsb .. => ⟨.m38, 0x38⟩
  | .pminuw .. => ⟨.m38, 0x3A⟩
  | .pminsd .. => ⟨.m38, 0x39⟩
  | .pminud .. => ⟨.m38, 0x3B⟩
  | .pmaxsb .. => ⟨.m38, 0x3C⟩
  | .pmaxuw .. => ⟨.m38, 0x3E⟩
  | .pmaxsd .. => ⟨.m38, 0x3D⟩
  | .pmaxud .. => ⟨.m38, 0x3F⟩
  | .pmuldq .. => ⟨.m38, 0x28⟩
  | .pmulld .. => ⟨.m38, 0x40⟩
  | .packusdw .. => ⟨.m38, 0x2B⟩
  | .pcmpeqq .. => ⟨.m38, 0x29⟩
  | .insertps .. => ⟨.m3A, 0x21⟩
  | .extractps .. => ⟨.m3A, 0x17⟩
  | .pinsrb .. => ⟨.m3A, 0x20⟩
  | .pinsrd .. => ⟨.m3A, 0x22⟩
  | .pinsrq .. => ⟨.m3A, 0x22⟩
  | .pextrb .. => ⟨.m3A, 0x14⟩
  | .pextrw .. => ⟨.m3A, 0x15⟩
  | .pextrd .. => ⟨.m3A, 0x16⟩
  | .pextrq .. => ⟨.m3A, 0x16⟩
  | .dpps .. => ⟨.m3A, 0x40⟩
  | .dppd .. => ⟨.m3A, 0x41⟩
  | .blendvps .. => ⟨.m38, 0x14⟩
  | .blendvpd .. => ⟨.m38, 0x15⟩
  | .blendps .. => ⟨.m3A, 0x0C⟩
  | .blendpd .. => ⟨.m3A, 0x0D⟩
  | .pblendvb .. => ⟨.m38, 0x10⟩
  | .pblendw .. => ⟨.m3A, 0x0E⟩
  | .ptest .. => ⟨.m38, 0x17⟩
  | .roundps .. => ⟨.m3A, 0x08⟩
  | .roundpd .. => ⟨.m3A, 0x09⟩
  | .roundss .. => ⟨.m3A, 0x0A⟩
  | .roundsd .. => ⟨.m3A, 0x0B⟩
  | .movntdqa .. => ⟨.m38, 0x2A⟩

/-- The escape's second byte (30_encoding.md R60). -/
def OpMap.escape : OpMap → Byte
  | .m38 => 0x38
  | .m3A => 0x3A

/-- The legacy bytes in the order segment override, `67`, `66` (30_encoding.md R60; any order decodes alike, R62). -/
def Enc.legacy (e : Enc) : List Byte :=
  (e.seg.map SegOverride.byte).toList ++ (if e.addr32 then [0x67#8] else []) ++ [0x66#8]

/-- The REX byte (30_encoding.md R64). -/
def Enc.rexBytes (e : Enc) : List Byte := (e.rex.map fun r => 4#4 ++ r).toList

/-- A byte of the fields 7:6, 5:3 and 2:0 (ModR/M or SIB; 30_encoding.md R65, R66). -/
def fieldByte (hi : BitVec 2) (mid lo : BitVec 3) : Byte := hi ++ mid ++ lo

/-- Four bytes of a disp32, lowest first (30_encoding.md R67). -/
def bytes32 (d : BitVec 32) : List Byte :=
  [d.extractLsb' 0 8, d.extractLsb' 8 8, d.extractLsb' 16 8, d.extractLsb' 24 8]

/-- ModR/M.mod of a displacement (30_encoding.md R65). -/
def Disp.md : Disp → BitVec 2
  | .none => 0
  | .d8 _ => 1
  | .d32 _ => 2

/-- The bytes of a displacement (30_encoding.md R67). -/
def Disp.encode : Disp → List Byte
  | .none => []
  | .d8 b => [b]
  | .d32 d => bytes32 d

/-- SIB.index: 100 for no index (30_encoding.md R66). -/
def indexField : Option Reg → BitVec 3
  | none => 4
  | some r => regLow r

/-- ModR/M, SIB and displacement (30_encoding.md R65, R66). -/
def Rm.encode (reg : Reg) : Rm → List Byte
  | .reg r => [fieldByte 3 (regLow reg) (regLow r)]
  | .mem (.base b d) => fieldByte d.md (regLow reg) (regLow b) :: d.encode
  | .mem (.sib b s i d) => fieldByte d.md (regLow reg) 4 :: fieldByte s (indexField i) (regLow b) :: d.encode
  | .mem (.sibNoBase s i d) => fieldByte 0 (regLow reg) 4 :: fieldByte s (indexField i) 5 :: bytes32 d
  | .mem (.disp32 d) => fieldByte 0 (regLow reg) 5 :: bytes32 d

/-- The bytes of an instruction behind its legacy bytes: REX, escape, opcode, ModR/M and what follows it (30_encoding.md R60). -/
def encodeBody (i : Instr) : List Byte :=
  let o := i.operands
  o.enc.rexBytes ++ [0x0F#8, i.key.map.escape, i.key.byte] ++ o.rm.encode o.reg ++ o.imm.toList

/-- The bytes of an instruction (30_encoding.md R60). -/
def encode (i : Instr) : List Byte := i.operands.enc.legacy ++ encodeBody i

/-! ### Words as spec/opcode_table.json numbers them -/

/-- The `n` low bytes of a number, most significant first: the table writes an instruction's key with its first byte most
significant (30_encoding.md R85). -/
def bigEndianBytes : Nat → Nat → List Byte
  | 0, _ => []
  | n + 1, w => BitVec.ofNat 8 (w / 256 ^ n) :: bigEndianBytes n w

/-- The bytes of a table word at an instruction's place: its own, then zeros up to the longest instruction (log 2). -/
def tableWordBytes (nbits w : Nat) : List Byte :=
  bigEndianBytes (nbits / 8) w ++ List.replicate (15 - nbits / 8) 0

/-- The instruction the decoder reads from a table word, in mode64 (30_encoding.md R84, R85; log 2). -/
def decodeTableWord (nbits w : Nat) : Option Instr :=
  match decode .mode64 (tableWordBytes nbits w) with
  | .ok (i, _) => some i
  | .error _ => none

end Sys2Proof
end

