-- ==== Sys2Proof/Machine/Lanes.lean ====
section
/-! DEFINITION. Packed fields of a 128-bit value (00_scope.md R7): field `i` of width `w` is bits `w*i + w - 1` to `w*i`. -/

namespace Sys2Proof.Machine

/-- Field `i` of width `w`: `X.w[i]` (00_scope.md R7). -/
def lane (w i : Nat) (x : XWord) : BitVec w := x.extractLsb' (w * i) w

/-- The value whose fields 0 to `n - 1` of width `w` are given by `f`, and whose bits above them are zero. -/
def pack (w : Nat) : Nat → (Nat → BitVec w) → XWord
  | 0, _ => 0
  | n + 1, f => pack w n f ||| ((f n).setWidth 128 <<< (w * n))

/-- Replace field `i` of width `w`: `R.w[i] <- v`, the other fields kept (10_state.md R21). -/
def setLane (w i : Nat) (v : BitVec w) (x : XWord) : XWord :=
  pack w (128 / w) fun j => if j = i then v else lane w j x

end Sys2Proof.Machine
end

