-- ==== Sys2Proof/Machine/State.lean ====
section
/-! DEFINITION. Everything the spec gives the machine, as plain data (10_state.md, 20_memory.md, 60_exceptions.md,
70_reset_and_hazards.md), the reasons a step can stop, and the state after reset. -/

namespace Sys2Proof.Machine

/-- Memory: the bytes that do not read as `Config.unlistedByte`, by linear address (20_memory.md R42). The canonical form is
`Memory.wf`: addresses strictly rising, no entry equal to what an unlisted address reads as. -/
abbrev Memory := List Host.Cell

/-- The canonical form of a memory, so that equal memories are equal data. -/
abbrev Memory.wf (m : Memory) : Prop :=
  m.Pairwise (fun x y => x.1 < y.1) ∧ ∀ c ∈ m, c.2 ≠ Config.unlistedByte

/-- An admitted range of linear addresses of the launch memory (20_memory.md R49, R55, D19). An address outside every region is not
admitted. That a region carries these five properties of its pages is the model's form of the predicate `Mapped` (log 14). -/
structure Region where
  base : Nat
  size : Nat
  /-- A page that is not read-only (60_exceptions.md R206). -/
  writable : Bool
  /-- A page for CPL below 3 only (60_exceptions.md R206, R214). -/
  supervisor : Bool
  /-- A reserved bit is set in a paging entry of the page (60_exceptions.md R206). -/
  reserved : Bool
  /-- What the page's protection key permits (60_exceptions.md R206). -/
  key : KeyRights
  /-- The memory type, which no rule reads (20_memory.md R48, D8). -/
  memType : MemType
  deriving DecidableEq, Repr

/-- What a segment of mode32 lets data accesses do (60_exceptions.md R204 (c); log 28): a writable data segment, a data segment that may
only be read or a readable code segment, a code segment that may only be executed, or a null selector. -/
inductive SegRights where
  | readWrite
  | readOnly
  | executeOnly
  | null
  deriving DecidableEq, Repr

/-- The rights of the six segment registers (60_exceptions.md R204 (c)). The bases and limits are D7's. -/
structure Segments where
  es : SegRights
  cs : SegRights
  ss : SegRights
  ds : SegRights
  fs : SegRights
  gs : SegRights
  deriving DecidableEq, Repr

/-- The machine. One field per line of INVENTORY.md's State list. -/
structure State where
  /-- `XMM0` to `XMM15` (10_state.md R20); mode32 has the first eight. -/
  xmm : Vector XWord 16
  /-- The general registers (10_state.md R23); mode32 has the low 32 bits of the first eight. -/
  gpr : Vector Quad 16
  /-- `RIP` (10_state.md R25). -/
  rip : Quad
  /-- The base of CS: FFFF0000H after reset, 0 in the flat modes (10_state.md R33, D7). -/
  csBase : Quad
  /-- `RFLAGS` (10_state.md R26). -/
  rflags : Quad
  /-- `MXCSR` (10_state.md R28). -/
  mxcsr : BitVec 32
  /-- `CR0`: EM, TS and AM gate the instructions (10_state.md R29), WP the stores of CPL below 3 (60_exceptions.md R206). -/
  cr0 : Quad
  /-- `CR2`: the linear address of the last page fault (60_exceptions.md R206). -/
  cr2 : Quad
  /-- `CR4`: OSFXSR and OSXMMEXCPT (10_state.md R29). -/
  cr4 : Quad
  /-- The current privilege level (60_exceptions.md R214). -/
  cpl : BitVec 2
  /-- `FS.base` (10_state.md R30). -/
  fsBase : Quad
  /-- `GS.base` (10_state.md R30). -/
  gsBase : Quad
  /-- What each segment lets data accesses do; read in mode32 only (60_exceptions.md R204 (c), R209). -/
  segments : Segments
  /-- `MODE` (00_scope.md R5). -/
  mode : Mode
  /-- `CPUID.01H:ECX[19]` (10_state.md R29). -/
  hasSse41 : Bool
  /-- `VA_BITS` (00_scope.md R5). -/
  vaBits : VaBits
  /-- `NAN_DP` (43_dot_product.md R152). -/
  nanDp : NanDp
  /-- `ROUND_IMM_HI` (46_round.md R180). -/
  roundImmHi : RoundImmHi
  /-- An instruction or data breakpoint is enabled (60_exceptions.md R219). -/
  debugBreakpoints : Bool
  /-- The admitted addresses: the predicate `Mapped` (60_exceptions.md R206). The first region that holds an address decides. -/
  mapped : List Region
  /-- `code_base`: the first address of the program text (70_reset_and_hazards.md R244). -/
  codeBase : Nat
  /-- `code_end`: the address after the program text (70_reset_and_hazards.md R244). -/
  codeEnd : Nat
  /-- The bytes of memory (20_memory.md R42). -/
  mem : Memory
  /-- THE MODEL'S OWN: the index of the next free value (log 8, 9, 10). -/
  draws : Nat
  deriving DecidableEq, Repr

/-- The exceptions of 60_exceptions.md R201. Each is a terminal outcome (R211, D12) with the state as before the instruction, but
for what `Fault.leaves` says; `rip` is the address of the faulting instruction. Stopping is safe: no claim reaches past it. -/
inductive Fault where
  /-- #UD, vector 6. Raised by the gating checks, a LOCK byte, and MOVNTDQA's register form (R202). Safe. -/
  | invalidOpcode (rip : Quad)
  /-- #NM, vector 7. Raised by every instruction when `CR0.TS = 1` (R203). Safe. -/
  | deviceNotAvailable (rip : Quad)
  /-- #SS(0), vector 12. Raised by memory forms through SS outside the canonical range or the limit, or against its rights (R205).
  Safe. -/
  | stackSegment (rip : Quad)
  /-- #GP(0), vector 13. Raised by misaligned 16-byte operands, by operands outside the canonical range or the limit or against
  the segment's rights (R204), and by a fetch at a non-canonical `RIP` (R210 item 1). Safe. -/
  | generalProtection (rip : Quad)
  /-- #PF, vector 14, with its error code and the address `CR2` receives. Raised by memory forms and by fetch (R206). Safe. -/
  | pageFault (rip : Quad) (code : BitVec 32) (cr2 : Quad)
  /-- #AC(0), vector 17. Raised by misaligned operands of 2, 4 or 8 bytes when alignment checking is on (R207). Safe. -/
  | alignmentCheck (rip : Quad)
  /-- #XM, vector 19, with the value `MXCSR` is left with. Raised by DPPS, DPPD and ROUND* (R208). Safe. -/
  | simdFloatingPoint (rip : Quad) (mxcsr : BitVec 32)
  /-- #UD, vector 6, in place of #XM when `CR4.OSXMMEXCPT = 0`, with the value `MXCSR` is left with. Raised by DPPS, DPPD and
  ROUND* (R202, R208). Safe. -/
  | simdInvalidOpcode (rip : Quad) (mxcsr : BitVec 32)
  deriving DecidableEq, Repr

/-- Where the model gives no meaning. Each is the spec's own decision to refuse, or the end of the run; all are safe. -/
inductive Refusal where
  /-- Raised by `exec` for an instruction without a meaning yet. Safe. -/
  | notModelled (mnemonic : String)
  /-- Raised by `step` and `exec` in a 16-bit mode (00_scope.md R4, D2). Safe. -/
  | mode16
  /-- Raised by `step` when `RFLAGS.TF = 1` or a breakpoint is enabled (60_exceptions.md R219). Safe. -/
  | debugEvent
  /-- Raised by `step` when `RIP = code_end`: the run has completed, and the state is its end state (70 R244). Safe. -/
  | endOfProgram
  /-- Raised by `step` when `RIP` lies outside the program text (70 R244). Safe. -/
  | outsideProgram
  /-- Raised by `step` when the program text is not one contiguous canonical range (10_state.md R25, D6). Safe. -/
  | textNotCanonical
  /-- Raised by `step` when the instruction would extend beyond `code_end` (70 R244). Safe. -/
  | truncated
  /-- Raised by `step` for bytes that are none of the 49 instructions (30_encoding.md R79). Safe. -/
  | notAnInstruction
  /-- Raised by `step` for two legacy bytes of one group (30_encoding.md R63, D24). Safe. -/
  | duplicateLegacy
  /-- Raised by `step` for an `F2` or `F3` byte (30_encoding.md R63, U6). Safe. -/
  | repeatByte
  /-- Raised by `step` for a `67` byte in mode32 (30_encoding.md R62, D2). Safe. -/
  | addr16
  /-- Raised by EXTRACTPS and PEXTRx for a store that overlaps the program text (20_memory.md R53, D16). Safe. -/
  | storesIntoProgram
  /-- Raised by ROUND* when `imm8[7:4]` is not zero and `ROUND_IMM_HI = refuse` (46_round.md R180, U1). Safe. -/
  | roundImmReserved
  /-- Raised by PINSRQ and PEXTRQ, which exist in mode64 only; no bytes decode to them in another mode (30_encoding.md R80). Safe. -/
  | mode64Only
  deriving DecidableEq, Repr

/-- What every step and meaning answers. -/
abbrev Outcome (α : Type) := Host.Outcome α Fault Refusal

/-- The whole linear address space, readable and writable at every privilege level: with paging off, as after reset, no access
can raise #PF (60_exceptions.md R206). DESIGN CHOICE (log 6). -/
def Region.everything : Region := ⟨0, 2 ^ 64, true, false, false, .all, .wb⟩

/-- The machine right after reset (10_state.md R33, 70_reset_and_hazards.md R240). The values the spec does not give are named in
log 4 (RAX, RDX), log 5 (CR2), log 6 (the parameters and the launch memory) and log 28 (the segments' rights). -/
def State.reset : State where
  xmm := Vector.replicate 16 0
  gpr := (Vector.replicate 16 0).set 2 0x00000600#64
  rip := 0x0000FFF0#64
  csBase := 0xFFFF0000#64
  rflags := 0x00000002#64
  mxcsr := 0x00001F80#32
  cr0 := 0x60000010#64
  cr2 := 0
  cr4 := 0
  cpl := 0
  fsBase := 0
  gsBase := 0
  segments := ⟨.readWrite, .readWrite, .readWrite, .readWrite, .readWrite, .readWrite⟩
  mode := .mode16
  hasSse41 := true
  vaBits := .b48
  nanDp := .draw
  roundImmHi := .ignore
  debugBreakpoints := false
  mapped := [Region.everything]
  codeBase := 0
  codeEnd := 0
  mem := []
  draws := 0

/-- The machine after INIT (10_state.md R33, last column): the XMM registers, `MXCSR`, and `CR0.CD` and `CR0.NW` (bits 30 and 29,
PRESUMED, log 17) keep their values; the rest of the table is as after reset. What the table does not name is the model's choice
(log 17): memory, the feature bit, VA_BITS, NAN_DP, ROUND_IMM_HI and the draw counter are kept; `CR2` is 0, NO BREAKPOINT IS
ENABLED and every segment can be read and written, as after reset (PRESUMED); no program is loaded and the regions are those of reset. -/
def State.afterInit (s : State) : State :=
  { State.reset with
    xmm := s.xmm
    mxcsr := s.mxcsr
    cr0 := (State.reset.cr0 &&& ~~~0x60000000#64) ||| (s.cr0 &&& 0x60000000#64)
    hasSse41 := s.hasSse41
    vaBits := s.vaBits
    nanDp := s.nanDp
    roundImmHi := s.roundImmHi
    mem := s.mem
    draws := s.draws }

end Sys2Proof.Machine
end

