-- ==== Sys2Proof/Machine/Flags.lean ====
section
/-! DEFINITION. The flag and control bits of RFLAGS, MXCSR, CR0 and CR4 (10_state.md R26, R28, R29), PTEST's flags (45_ptest.md R170)
and the accumulation of the floating-point flags (43_dot_product.md R154). -/

namespace Sys2Proof.Machine

/-! ### Control bits (10_state.md R29) -/

/-- `CR0.EM`, bit 2. -/
def State.em (s : State) : Bool := s.cr0.getLsbD 2
/-- `CR0.TS`, bit 3. -/
def State.ts (s : State) : Bool := s.cr0.getLsbD 3
/-- `CR0.WP` (60_exceptions.md R206). Its place, bit 16, is the family's: PRESUMED (log 29). -/
def State.wp (s : State) : Bool := s.cr0.getLsbD 16
/-- `CR0.AM`, bit 18. -/
def State.am (s : State) : Bool := s.cr0.getLsbD 18
/-- `CR4.OSFXSR`, bit 9. -/
def State.osfxsr (s : State) : Bool := s.cr4.getLsbD 9
/-- `CR4.OSXMMEXCPT`, bit 10. -/
def State.osxmmexcpt (s : State) : Bool := s.cr4.getLsbD 10
/-- `RFLAGS.TF` (60_exceptions.md R219). Its place, bit 8, is the family's: PRESUMED (log 30). -/
def State.tf (s : State) : Bool := s.rflags.getLsbD 8
/-- `RFLAGS.AC`, bit 18. -/
def State.ac (s : State) : Bool := s.rflags.getLsbD 18
/-- `CPL = 3`: user mode. -/
def State.user (s : State) : Bool := s.cpl == 3
/-- `AC_ENABLED`: all three conditions of alignment checking (20_memory.md R45). -/
def State.acEnabled (s : State) : Bool := s.am && s.ac && s.user

/-! ### MXCSR (10_state.md R28) -/

/-- A set of SIMD floating-point exceptions, laid out as `MXCSR[5:0]`. -/
abbrev FpFlags := BitVec 6

/-- Invalid operation. -/
def fIE : FpFlags := 1
/-- Denormal operand. -/
def fDE : FpFlags := 2
/-- Overflow. -/
def fOE : FpFlags := 8
/-- Underflow. -/
def fUE : FpFlags := 16
/-- Precision. -/
def fPE : FpFlags := 32

/-- `MXCSR.RC`, bits 14:13. -/
def State.rc (s : State) : BitVec 2 := s.mxcsr.extractLsb' 13 2
/-- `MXCSR.DAZ`, bit 6. -/
def State.daz (s : State) : Bool := s.mxcsr.getLsbD 6
/-- `MXCSR.FTZ`, bit 15. -/
def State.ftz (s : State) : Bool := s.mxcsr.getLsbD 15
/-- `MXCSR.UM`, bit 11. -/
def State.um (s : State) : Bool := s.mxcsr.getLsbD 11
/-- The six mask bits `MXCSR[12:7]`, in the order of the flags. -/
def State.fpMasks (s : State) : FpFlags := s.mxcsr.extractLsb' 7 6

/-- `MXCSR` with further sticky flags set; no bit is cleared (43_dot_product.md R154). -/
def orFlags (mxcsr : BitVec 32) (f : FpFlags) : BitVec 32 := mxcsr ||| f.setWidth 32

/-- The raised exceptions whose mask bit is 0 (43_dot_product.md R154). -/
def unmasked (s : State) (f : FpFlags) : FpFlags := f &&& ~~~s.fpMasks

/-! ### RFLAGS (10_state.md R26, 45_ptest.md R170) -/

/-- The positions of CF, PF, AF, ZF, SF and OF: bits 0, 2, 4, 6, 7 and 11. -/
def statusMask : Quad := 0x8D5

/-- `RFLAGS` after PTEST: ZF and CF as given, AF, OF, PF and SF cleared, every other bit kept. -/
def ptestFlags (rflags : Quad) (zf cf : Bool) : Quad :=
  (rflags &&& ~~~statusMask) ||| (if zf then 0x40 else 0) ||| (if cf then 0x1 else 0)

end Sys2Proof.Machine
end

