-- ==== Sys2Proof/Machine/Ops.lean ====
section
/-! DEFINITION. The named operations over registers and memory (10_state.md R20 to R25, 20_memory.md R41 to R55), the gating checks
(60_exceptions.md R202, R203), and the exceptions (R201, R211). -/

namespace Sys2Proof.Machine

/-- Go on with the value of the first part, or stop where it stops. -/
def andThen {α β : Type} (x : Outcome α) (k : α → Outcome β) : Outcome β :=
  match x with
  | .next a => k a
  | .fault f => .fault f
  | .refused r => .refused r

/-! ### Registers -/

/-- `XMM[i]` (10_state.md R20). -/
def State.getXmm (s : State) (r : Reg) : XWord := s.xmm[r]

/-- `XMM[i] <- v` (10_state.md R20). -/
def State.setXmm (s : State) (r : Reg) (v : XWord) : State := { s with xmm := s.xmm.set r v }

/-- A value as wide as a general register or address of the mode: all 64 bits in mode64, else the low 32 (10_state.md R23, R25). -/
def modeWidth (md : Mode) (v : Quad) : Quad :=
  match md with
  | .mode64 => v
  | _ => (v.setWidth 32).setWidth 64

/-- `GPR[i]` (10_state.md R23). -/
def State.getGpr (s : State) (r : Reg) : Quad := modeWidth s.mode s.gpr[r]

/-- `GPR[i] <- v`: all `GPRW` bits are written (10_state.md R24). -/
def State.setGpr (s : State) (r : Reg) (v : Quad) : State := { s with gpr := s.gpr.set r (modeWidth s.mode v) }

/-- `RIP_next` of an instruction of `len` bytes at `RIP`; modulo 2^32 in mode32 (10_state.md R25, 30_encoding.md R70). -/
def State.nextRip (s : State) (len : Nat) : Quad := modeWidth s.mode (s.rip + BitVec.ofNat 64 len)

/-- The end of every instruction that completes: `RIP <- RIP + len` (10_state.md R25). -/
def State.advance (s : State) (len : Nat) : State := { s with rip := s.nextRip len }

/-! ### Memory -/

/-- The byte at an address. -/
def Memory.read : Memory → Nat → Byte
  | [], _ => Config.unlistedByte
  | (k, v) :: t, a => if k = a then v else if a < k then Config.unlistedByte else Memory.read t a

/-- Drop the leading entries at or below an address; on a canonical tail behind `a` there are none. -/
def Memory.above (a : Nat) : Memory → Memory
  | [] => []
  | (k, v) :: t => if k ≤ a then Memory.above a t else (k, v) :: t

/-- Store a byte, keeping the canonical form: writing what an unlisted address reads as removes the entry. -/
def Memory.write : Memory → Nat → Byte → Memory
  | [], a, b => if b = Config.unlistedByte then [] else [(a, b)]
  | (k, v) :: t, a, b =>
    if a < k then (if b = Config.unlistedByte then (k, v) :: t else (a, b) :: (k, v) :: t)
    else if a = k then (if b = Config.unlistedByte then Memory.above a t else (a, b) :: t)
    else (k, v) :: Memory.write t a b

/-- `n` bytes from `a` up, the byte at `a` in bits 7:0 (20_memory.md R41, R42). -/
def Memory.readLE (m : Memory) (a : Nat) : Nat → XWord
  | 0 => 0
  | n + 1 => (m.read a).setWidth 128 ||| (Memory.readLE m (a + 1) n <<< 8)

/-- Store the low `n` bytes of `v` from `a` up, bits 7:0 at `a` (20_memory.md R41, R42). -/
def Memory.writeLE (m : Memory) (a : Nat) : Nat → XWord → Memory
  | 0, _ => m
  | n + 1, v => Memory.writeLE (m.write a (v.setWidth 8)) (a + 1) n (v >>> 8)

/-- Store a list of bytes from `a` up. -/
def Memory.writeList (m : Memory) (a : Nat) : List Byte → Memory
  | [] => m
  | b :: bs => Memory.writeList (m.write a b) (a + 1) bs

/-! ### Address validity and permission (20_memory.md R46, R55) -/

/-- Bytes `a` to `a + n - 1` are all canonical: bits 63 down to `VA_BITS - 1` of each are equal, and none wraps (20_memory.md R46,
D6). -/
def canonicalRange (va : VaBits) (a n : Nat) : Bool :=
  decide (a + n ≤ 2 ^ (va.toNat - 1)) || (decide (2 ^ 64 - 2 ^ (va.toNat - 1) ≤ a) && decide (a + n ≤ 2 ^ 64))

/-- What an access does (60_exceptions.md R206). -/
inductive Access where
  | read
  | write
  | fetch
  deriving DecidableEq, Repr

/-- The region holds the address. -/
def Region.holds (r : Region) (a : Nat) : Bool := decide (r.base ≤ a) && decide (a < r.base + r.size)

/-- A store heeds read-only pages and write-disabled keys: in user mode, or for a supervisor with `CR0.WP = 1` (60_exceptions.md R206;
for keys PRESUMED, log 14). -/
def State.heedsReadOnly (s : State) : Bool := s.user || s.wp

/-- The access is a protection-key violation of the page (60_exceptions.md R206). Keys bind data accesses, not fetches: PRESUMED
(log 14). -/
def Region.keyForbids (r : Region) (s : State) (acc : Access) : Bool :=
  match r.key, acc with
  | .all, _ => false
  | .noWrite, .write => s.heedsReadOnly
  | .noWrite, _ => false
  | .nothing, .fetch => false
  | .nothing, _ => true

/-- The page's other permissions forbid the access: a write to a read-only page, a user-mode access to a supervisor page
(60_exceptions.md R206). -/
def Region.forbids (r : Region) (s : State) (acc : Access) : Bool :=
  (acc == .write && !r.writable && s.heedsReadOnly) || (r.supervisor && s.user)

/-- The error code of a page fault (60_exceptions.md R206): bit 0 P, bit 1 W/R, bit 2 U/S, bit 3 RSVD, bit 4 I/D, bit 5 PK. -/
def pageCode (s : State) (acc : Access) (present rsvd pk : Bool) : BitVec 32 :=
  (if present then 1 else 0) ||| (if acc = .write then 2 else 0) ||| (if s.user then 4 else 0) ||| (if rsvd then 8 else 0)
    ||| (if acc = .fetch then 16 else 0) ||| (if pk then 32 else 0)

/-- `Mapped(a, access)` (60_exceptions.md R206): none when the access is permitted, else the error code. An address in no region
is a not-present page; a reserved bit in a paging entry forbids every access; the rest are protection violations, with PK set where
the key forbids the access (which bits come together is log 14). -/
def pageError (s : State) (acc : Access) (a : Nat) : Option (BitVec 32) :=
  match s.mapped.find? (·.holds a) with
  | none => some (pageCode s acc false false false)
  | some r =>
    if r.reserved then some (pageCode s acc true true false)
    else if r.keyForbids s acc || r.forbids s acc then some (pageCode s acc true false (r.keyForbids s acc))
    else none

/-- The lowest-addressed failing byte of `n` bytes from `a`, with its error code (60_exceptions.md R206, U13). -/
def firstPageError (s : State) (acc : Access) (a : Nat) : Nat → Option (Nat × BitVec 32)
  | 0 => none
  | n + 1 =>
    match pageError s acc a with
    | some c => some (a, c)
    | none => firstPageError s acc (a + 1) n

/-- Some byte of `[a, a + n)` belongs to the program text (20_memory.md R53). -/
def overlapsProgram (s : State) (a n : Nat) : Bool := decide (a < s.codeEnd) && decide (s.codeBase < a + n)

/-! ### Exceptions (60_exceptions.md R201, R211) -/

/-- TAKING AN EXCEPTION, the one operation that does: the run ends with the named exception at the faulting instruction's address,
nothing written (60_exceptions.md R200, R211, D12; log 7). -/
def raise {α : Type} (s : State) (f : Quad → Fault) : Outcome α := .fault (f s.rip)

/-- The vector of an exception (60_exceptions.md R201). -/
def Fault.vector : Fault → Nat
  | .invalidOpcode _ => 6
  | .deviceNotAvailable _ => 7
  | .stackSegment _ => 12
  | .generalProtection _ => 13
  | .pageFault .. => 14
  | .alignmentCheck _ => 17
  | .simdFloatingPoint .. => 19
  | .simdInvalidOpcode .. => 6

/-- The error code of an exception, if its vector has one (60_exceptions.md R201). -/
def Fault.errorCode : Fault → Option (BitVec 32)
  | .stackSegment _ | .generalProtection _ | .alignmentCheck _ => some 0
  | .pageFault _ c _ => some c
  | .invalidOpcode _ | .deviceNotAvailable _ | .simdFloatingPoint .. | .simdInvalidOpcode .. => none

/-- The saved `RIP`: the address of the faulting instruction (60_exceptions.md R201). -/
def Fault.rip : Fault → Quad
  | .invalidOpcode p | .deviceNotAvailable p | .stackSegment p | .generalProtection p | .pageFault p _ _
  | .alignmentCheck p | .simdFloatingPoint p _ | .simdInvalidOpcode p _ => p

/-- The state a terminal exception leaves: as before the instruction (60_exceptions.md R200, R211), but for `CR2` after #PF (R206)
and the flag bits of `MXCSR` after an unmasked floating-point exception (R208). -/
def Fault.leaves (f : Fault) (s : State) : State :=
  match f with
  | .pageFault _ _ a => { s with cr2 := a }
  | .simdFloatingPoint _ m | .simdInvalidOpcode _ m => { s with mxcsr := m }
  | .invalidOpcode _ | .deviceNotAvailable _ | .stackSegment _ | .generalProtection _ | .alignmentCheck _ => s

/-- The gating checks every instruction makes before any operand is touched: #UD, then #NM (60_exceptions.md R202, R203, R210). -/
def gate (s : State) : Outcome Unit :=
  if s.mode = .mode16 then .refused .mode16
  else if !s.hasSse41 || s.em || !s.osfxsr then raise s .invalidOpcode
  else if s.ts then raise s .deviceNotAvailable
  else .next ()

end Sys2Proof.Machine
end

