-- ==== Sys2Proof/Machine/Operands.lean ====
section
/-! DEFINITION. Every operand form: effective and linear addresses (30_encoding.md R65 to R71), the checks of a memory operand in
their order (60_exceptions.md R204 to R207, R210), and the read or write of the operand ModR/M names (20_memory.md R42, R43). -/

namespace Sys2Proof.Machine

/-! ### Addresses -/

/-- The value of a displacement, sign-extended to the address width (30_encoding.md R67). -/
def dispValue : Disp → Quad
  | .none => 0
  | .d8 d => d.signExtend 64
  | .d32 d => d.signExtend 64

/-- The index term: the register times 2^scale, or 0 (30_encoding.md R66). -/
def indexTerm (s : State) (scale : BitVec 2) : Option Reg → Quad
  | none => 0
  | some r => s.getGpr r <<< scale.toNat

/-- The sum of base, index and displacement modulo 2^64; `len` is the instruction's length, which RIP-relative addressing needs
(30_encoding.md R65, R66, R68, R70; mode32 has the absolute form instead, R80). -/
def addressSum (s : State) (len : Nat) : Mem → Quad
  | .base b d => s.getGpr b + dispValue d
  | .sib b sc i d => s.getGpr b + indexTerm s sc i + dispValue d
  | .sibNoBase sc i d => indexTerm s sc i + d.signExtend 64
  | .disp32 d => if s.mode = .mode64 then s.nextRip len + d.signExtend 64 else d.signExtend 64

/-- The effective address: 64 bits in mode64, or the low 32 with the byte `67` or in mode32 (30_encoding.md R68, R69). -/
def effAddr (s : State) (e : Enc) (len : Nat) (m : Mem) : Quad :=
  if s.mode = .mode64 ∧ !e.addr32 then addressSum s len m else ((addressSum s len m).setWidth 32).setWidth 64

/-- The segment base: FS or GS under their override, else 0 (30_encoding.md R71, D7). -/
def segBase (s : State) (e : Enc) : Quad :=
  match e.seg with
  | some .fs => s.fsBase
  | some .gs => s.gsBase
  | _ => 0

/-- The linear address of a memory operand, modulo 2^64, or 2^32 in mode32 (30_encoding.md R71, 20_memory.md R40). -/
def linearAddr (s : State) (e : Enc) (len : Nat) (m : Mem) : Quad := modeWidth s.mode (segBase s e + effAddr s e len m)

/-- The base register of a memory operand, if it has one. -/
def baseReg : Mem → Option Reg
  | .base b _ | .sib b _ _ _ => some b
  | .sibNoBase .. | .disp32 _ => none

/-- The access goes through SS: base register RSP or RBP without an override that takes it out of SS (30_encoding.md R71); in mode32
the SS override selects SS and any other override another segment; in mode64 the CS, DS, ES and SS overrides are ignored (R62). -/
def throughSS (md : Mode) (e : Enc) (m : Mem) : Bool :=
  let byBase := baseReg m == some 4 || baseReg m == some 5
  match e.seg with
  | none => byBase
  | some .fs | some .gs => false
  | some .ss => if md = .mode64 then byBase else true
  | some .es | some .cs | some .ds => if md = .mode64 then byBase else false

/-! ### The checks of a memory operand -/

/-- The rights of a segment register. -/
def Segments.rights (g : Segments) : SegOverride → SegRights
  | .es => g.es
  | .cs => g.cs
  | .ss => g.ss
  | .ds => g.ds
  | .fs => g.fs
  | .gs => g.gs

/-- What the rights permit (60_exceptions.md R204 (c)): writing needs a writable segment, reading a readable one; a null selector
permits nothing. -/
def SegRights.permits : SegRights → Access → Bool
  | .readWrite, _ => true
  | .readOnly, .write => false
  | .readOnly, _ => true
  | .executeOnly, .fetch => true
  | .executeOnly, _ => false
  | .null, _ => false

/-- The segment of a memory operand in mode32: the override's, else SS for base register ESP or EBP, else DS (10_state.md R30,
30_encoding.md R71). -/
def segmentUsed (e : Enc) (m : Mem) : SegOverride :=
  e.seg.getD (if baseReg m == some 4 || baseReg m == some 5 then .ss else .ds)

/-- The operand's segment permits the access; mode64 checks no rights (60_exceptions.md R204 (c), R209). -/
def segmentPermits (s : State) (acc : Access) (e : Enc) (m : Mem) : Bool :=
  match s.mode with
  | .mode64 => true
  | _ => (s.segments.rights (segmentUsed e m)).permits acc

/-- The operand's `n` bytes lie where its segment reaches: all canonical in mode64; in mode32 within the 4 GiB limit, both as offsets
and as linear addresses (20_memory.md R46, D6, D7; log 15). -/
def inReach (s : State) (e : Enc) (len n : Nat) (m : Mem) : Bool :=
  let a := (linearAddr s e len m).toNat
  match s.mode with
  | .mode64 => canonicalRange s.vaBits a n
  | _ => decide ((effAddr s e len m).toNat + n ≤ 2 ^ 32) && decide (a + n ≤ 2 ^ 32)

/-- The exception a memory operand of `n` bytes raises, in the order of 60_exceptions.md R210 item 5: #SS(0) or #GP(0) against its
segment's rights or outside its reach (R204, R205; that rights against SS raise #SS is DEDUCED, log 28), #GP(0) for a misaligned 16-byte
operand (20_memory.md R44), #PF, #AC(0) (R45). R210 does not rank the rights: that they come with the limit, before #PF and #AC(0), is
DEDUCED (log 31). Which of #SS and #GP comes first when the operand fails its segment's check and is
misaligned is a free value (U12, log 10). -/
def operandFault (s : State) (acc : Access) (n : Nat) (align : Bool) (e : Enc) (len : Nat) (m : Mem) : Option (Quad → Fault) :=
  let a := (linearAddr s e len m).toNat
  let misaligned := align && a % 16 != 0
  if !(segmentPermits s acc e m && inReach s e len n m) then
    if throughSS s.mode e m && (!misaligned || Config.stackFaultFirst s.draws) then some .stackSegment
    else some .generalProtection
  else if misaligned then some .generalProtection
  else match firstPageError s acc a n with
    | some (b, c) => some fun p => .pageFault p c (BitVec.ofNat 64 b)
    | none =>
      if s.acEnabled && (n == 2 || n == 4 || n == 8) && a % n != 0 then some .alignmentCheck else none

/-- `MemRead` of a memory operand: the value of its `n` bytes, or the exception (20_memory.md R42). -/
def loadOperand (s : State) (n : Nat) (align : Bool) (e : Enc) (len : Nat) (m : Mem) : Outcome XWord :=
  match operandFault s .read n align e len m with
  | some f => raise s f
  | none => .next (s.mem.readLE (linearAddr s e len m).toNat n)

/-- `MemWrite` to a memory operand of fewer than 16 bytes: all checks come before any byte moves (20_memory.md R42); a store into the
program text is refused (R53). -/
def storeOperand (s : State) (n : Nat) (v : XWord) (e : Enc) (len : Nat) (m : Mem) : Outcome State :=
  match operandFault s .write n false e len m with
  | some f => raise s f
  | none =>
    let a := (linearAddr s e len m).toNat
    if overlapsProgram s a n then .refused .storesIntoProgram
    else .next { s with mem := s.mem.writeLE a n v }

/-! ### The operand ModR/M names -/

/-- The second operand `xmm2/m`: all 128 bits of the register, or `n` bytes of memory in the low bits (30_encoding.md R74,
00_scope.md R10). -/
def xmmOperand (s : State) (n : Nat) (align : Bool) (e : Enc) (len : Nat) : Rm → Outcome XWord
  | .reg r => .next (s.getXmm r)
  | .mem m => loadOperand s n align e len m

/-- The second operand `r/m` of PINSRx: the general register, or `n` bytes of memory (30_encoding.md R74, 10_state.md R24). -/
def gprOperand (s : State) (n : Nat) (e : Enc) (len : Nat) : Rm → Outcome XWord
  | .reg r => .next ((s.getGpr r).setWidth 128)
  | .mem m => loadOperand s n false e len m

/-- The destination `r/m` of EXTRACTPS and PEXTRx: the whole general register, zero-extended, or `n` bytes of memory (10_state.md
R24, 20_memory.md R43). -/
def writeGprOrMem (s : State) (n : Nat) (v : XWord) (e : Enc) (len : Nat) : Rm → Outcome State
  | .reg r => .next (s.setGpr r (v.setWidth 64))
  | .mem m => storeOperand s n v e len m

/-! ### The shapes of the instructions (60_exceptions.md R200) -/

/-- Gate, read the second operand, write `f DEST SRC` to the destination XMM register, advance. -/
def execXmm (s : State) (n : Nat) (align : Bool) (e : Enc) (len : Nat) (dst : Reg) (src : Rm) (f : XWord → XWord → XWord) :
    Outcome State :=
  andThen (gate s) fun _ =>
  andThen (xmmOperand s n align e len src) fun v =>
  .next ((s.setXmm dst (f (s.getXmm dst) v)).advance len)

/-- Format RM (`0F 38`, no immediate). -/
def execRM (s : State) (n : Nat) (align : Bool) (e : Enc) (dst : Reg) (src : Rm) (f : XWord → XWord → XWord) : Outcome State :=
  execXmm s n align e (len38 e src) dst src f

/-- Format RMI (`0F 3A`, with an immediate). -/
def execRMI (s : State) (n : Nat) (align : Bool) (e : Enc) (dst : Reg) (src : Rm) (f : XWord → XWord → XWord) : Outcome State :=
  execXmm s n align e (len3A e src) dst src f

/-- Format RMI-G: the second operand is a general register or memory. -/
def execRMIG (s : State) (n : Nat) (e : Enc) (dst : Reg) (src : Rm) (f : XWord → XWord → XWord) : Outcome State :=
  andThen (gate s) fun _ =>
  andThen (gprOperand s n e (len3A e src) src) fun v =>
  .next ((s.setXmm dst (f (s.getXmm dst) v)).advance (len3A e src))

/-- Format MRI-G: the destination is a general register or memory; `v` is the field of the source register. -/
def execMRIG (s : State) (n : Nat) (e : Enc) (dst : Rm) (v : XWord) : Outcome State :=
  andThen (gate s) fun _ =>
  andThen (writeGprOrMem s n v e (len3A e dst) dst) fun t =>
  .next (t.advance (len3A e dst))

end Sys2Proof.Machine
end

