-- ==== Sys2Proof/Machine/BitTest.lean ====
section
/-! DEFINITION. PTEST (45_ptest.md R170). -/

namespace Sys2Proof.Machine

/-- PTEST xmm1, xmm2/m128 (R170): `ZF` when no bit of the second operand is marked by the first, `CF` when no unmarked one is set;
no register and no memory is written. -/
def execPtest (e : Enc) (dst : Reg) (src : Rm) (s : State) : Outcome State :=
  andThen (gate s) fun _ =>
  andThen (xmmOperand s 16 true e (len38 e src) src) fun v =>
  .next ({ s with rflags := ptestFlags s.rflags (v &&& s.getXmm dst == 0) (v &&& ~~~(s.getXmm dst) == 0) }.advance (len38 e src))

end Sys2Proof.Machine
end

