-- ==== Sys2Proof/Machine/Blend.lean ====
section
/-! DEFINITION. Blends: BLENDVPS, BLENDVPD, PBLENDVB under the sign bits of XMM0, BLENDPS, BLENDPD, PBLENDW under imm8
(44_blend.md R160 to R165). -/

namespace Sys2Proof.Machine

/-- A blend of fields of width `w`: field `i` from the second operand where `sel i`, else from the first. -/
def blend (w : Nat) (sel : Nat → Bool) (a b : XWord) : XWord :=
  pack w (128 / w) fun i => if sel i then lane w i b else lane w i a

/-- The sign bit of field `i` of width `w` of the mask register. -/
def signSel (w : Nat) (m : XWord) (i : Nat) : Bool := (lane w i m).getLsbD (w - 1)

/-- BLENDVPS xmm1, xmm2/m128, <XMM0> (R160). -/
def execBlendvps (e : Enc) (dst : Reg) (src : Rm) (s : State) : Outcome State :=
  execRM s 16 true e dst src (blend 32 (signSel 32 (s.getXmm 0)))

/-- BLENDVPD xmm1, xmm2/m128, <XMM0> (R161). -/
def execBlendvpd (e : Enc) (dst : Reg) (src : Rm) (s : State) : Outcome State :=
  execRM s 16 true e dst src (blend 64 (signSel 64 (s.getXmm 0)))

/-- PBLENDVB xmm1, xmm2/m128, <XMM0> (R164). -/
def execPblendvb (e : Enc) (dst : Reg) (src : Rm) (s : State) : Outcome State :=
  execRM s 16 true e dst src (blend 8 (signSel 8 (s.getXmm 0)))

/-- BLENDPS xmm1, xmm2/m128, imm8 (R162). -/
def execBlendps (e : Enc) (dst : Reg) (src : Rm) (imm : Byte) (s : State) : Outcome State :=
  execRMI s 16 true e dst src (blend 32 imm.getLsbD)

/-- BLENDPD xmm1, xmm2/m128, imm8 (R163). -/
def execBlendpd (e : Enc) (dst : Reg) (src : Rm) (imm : Byte) (s : State) : Outcome State :=
  execRMI s 16 true e dst src (blend 64 imm.getLsbD)

/-- PBLENDW xmm1, xmm2/m128, imm8 (R165). -/
def execPblendw (e : Enc) (dst : Reg) (src : Rm) (imm : Byte) (s : State) : Outcome State :=
  execRMI s 16 true e dst src (blend 16 imm.getLsbD)

end Sys2Proof.Machine
end

