-- ==== Sys2Proof/Machine/Float.lean ====
section
/-! DEFINITION. The floating-point arithmetic of DPPS, DPPD and ROUND* in exact integers: formats (43_dot_product.md R150), multiply
and add (R151), NaNs (R152), denormals, DAZ and FTZ (R153), flags and unmasked exceptions (R154, 60_exceptions.md R208), and
rounding to an integral value (46_round.md R181). A field is held as the natural number its bits are. -/

namespace Sys2Proof.Machine

/-- A format: exponent and fraction widths (43_dot_product.md R150). -/
structure FpFmt where
  ew : Nat
  fw : Nat
  deriving DecidableEq, Repr

/-- binary32. -/
def fmt32 : FpFmt := ⟨8, 23⟩
/-- binary64. -/
def fmt64 : FpFmt := ⟨11, 52⟩

/-- What the operations read of `MXCSR`: RC, DAZ, and whether tiny results are flushed (FTZ = 1 with UM = 1; R153). -/
structure FpEnv where
  rc    : BitVec 2
  daz   : Bool
  flush : Bool
  deriving DecidableEq, Repr

/-- The floating-point environment of a state (10_state.md R28, 43_dot_product.md R153). -/
def State.fpEnv (s : State) : FpEnv := ⟨s.rc, s.daz, s.ftz && s.um⟩

/-! ### Fields (43_dot_product.md R150) -/

/-- The exponent bias. -/
def FpFmt.bias (k : FpFmt) : Nat := 2 ^ (k.ew - 1) - 1
/-- The all-ones exponent. -/
def FpFmt.emax (k : FpFmt) : Nat := 2 ^ k.ew - 1
/-- The sign bit. -/
def FpFmt.sign (k : FpFmt) (v : Nat) : Bool := v.testBit (k.ew + k.fw)
/-- The exponent field. -/
def FpFmt.exp (k : FpFmt) (v : Nat) : Nat := v / 2 ^ k.fw % 2 ^ k.ew
/-- The fraction field. -/
def FpFmt.frac (k : FpFmt) (v : Nat) : Nat := v % 2 ^ k.fw
/-- The field of a sign, an exponent field and a fraction. -/
def FpFmt.mk' (k : FpFmt) (sign : Bool) (exp frac : Nat) : Nat := sign.toNat * 2 ^ (k.ew + k.fw) + exp * 2 ^ k.fw + frac

/-- Zero of either sign. -/
def FpFmt.isZero (k : FpFmt) (v : Nat) : Bool := k.exp v == 0 && k.frac v == 0
/-- A denormal. -/
def FpFmt.isDenormal (k : FpFmt) (v : Nat) : Bool := k.exp v == 0 && k.frac v != 0
/-- Infinity of either sign. -/
def FpFmt.isInf (k : FpFmt) (v : Nat) : Bool := k.exp v == k.emax && k.frac v == 0
/-- A NaN of either kind. -/
def FpFmt.isNaN (k : FpFmt) (v : Nat) : Bool := k.exp v == k.emax && k.frac v != 0
/-- A signalling NaN: the top fraction bit is 0. -/
def FpFmt.isSNaN (k : FpFmt) (v : Nat) : Bool := k.isNaN v && !v.testBit (k.fw - 1)

/-- The zero of a sign. -/
def FpFmt.zero (k : FpFmt) (sign : Bool) : Nat := k.mk' sign 0 0
/-- The infinity of a sign. -/
def FpFmt.inf (k : FpFmt) (sign : Bool) : Nat := k.mk' sign k.emax 0
/-- The largest finite number with a sign. -/
def FpFmt.maxFinite (k : FpFmt) (sign : Bool) : Nat := k.mk' sign (k.emax - 1) (2 ^ k.fw - 1)
/-- The QNaN floating-point indefinite: sign 1, top fraction bit 1, rest 0. -/
def FpFmt.indefinite (k : FpFmt) : Nat := k.mk' true k.emax (2 ^ (k.fw - 1))
/-- `quiet(f)`: the top fraction bit set. -/
def FpFmt.quiet (k : FpFmt) (v : Nat) : Nat := v ||| 2 ^ (k.fw - 1)

/-- The significand as an integer: the fraction, with the hidden bit of a normal. -/
def FpFmt.mant (k : FpFmt) (v : Nat) : Nat := if k.exp v = 0 then k.frac v else 2 ^ k.fw + k.frac v
/-- The exponent of the significand's unit: a finite field is worth `± mant * 2 ^ qexp`. -/
def FpFmt.qexp (k : FpFmt) (v : Nat) : Int := (max (k.exp v) 1 : Nat) - (k.bias : Int) - k.fw
/-- The unit of a denormal: the least `qexp`. -/
def FpFmt.qmin (k : FpFmt) : Int := 1 - (k.bias : Int) - k.fw
/-- The unit of the largest finite numbers. -/
def FpFmt.qmax (k : FpFmt) : Int := (k.emax : Int) - 1 - k.bias - k.fw

/-- The DAZ step: a denormal operand is read as a zero of its sign (R153). -/
def FpFmt.dazStep (k : FpFmt) (env : FpEnv) (v : Nat) : Nat :=
  if env.daz && k.isDenormal v then k.zero (k.sign v) else v

/-! ### Rounding (43_dot_product.md R151, R153) -/

/-- Whether the quotient is rounded up in magnitude: remainder `r` of divisor `d`, `odd` the quotient's low bit; the modes of
10_state.md R28. -/
def roundUp (rc : BitVec 2) (sign odd : Bool) (r d : Nat) : Bool :=
  match rc.toNat with
  | 0 => decide (d < 2 * r) || (decide (2 * r = d) && odd)
  | 1 => sign && decide (r ≠ 0)
  | 2 => !sign && decide (r ≠ 0)
  | _ => false

/-- `m * 2^(-sh)` rounded to an integer in magnitude, and whether that was inexact. -/
def scaleRound (rc : BitVec 2) (sign : Bool) (m : Nat) (sh : Int) : Nat × Bool :=
  if sh ≤ 0 then (m * 2 ^ (-sh).toNat, false)
  else
    let d := 2 ^ sh.toNat
    let q := m / d
    let r := m % d
    (if roundUp rc sign (q % 2 == 1) r d then q + 1 else q, r != 0)

/-- Masked overflow: infinity or the largest finite number, by RC and sign (R151). -/
def FpFmt.overflow (k : FpFmt) (rc : BitVec 2) (sign : Bool) : Nat :=
  match rc.toNat with
  | 0 => k.inf sign
  | 1 => if sign then k.inf sign else k.maxFinite sign
  | 2 => if sign then k.maxFinite sign else k.inf sign
  | _ => k.maxFinite sign

/-- A tiny result (R153): flushed to zero with UE and PE, or the denormal nearest to the exact value, with UE and PE if inexact. -/
def FpFmt.tiny (k : FpFmt) (env : FpEnv) (sign : Bool) (m : Nat) (e : Int) : Nat × FpFlags :=
  if env.flush then (k.zero sign, fUE ||| fPE)
  else
    let (q, inexact) := scaleRound env.rc sign m (k.qmin - e)
    (k.mk' sign 0 q, if inexact then fUE ||| fPE else 0)

/-- The field nearest to the exact non-zero value `± m * 2^e` with one rounding, and its flags: overflow and tininess are judged on
the value rounded with unbounded exponent (R151, R153). -/
def FpFmt.round (k : FpFmt) (env : FpEnv) (sign : Bool) (m : Nat) (e : Int) : Nat × FpFlags :=
  let sh : Int := (Nat.log2 m : Int) - k.fw
  let (q0, inexact) := scaleRound env.rc sign m sh
  let (q, qe) := if q0 = 2 ^ (k.fw + 1) then (2 ^ k.fw, e + sh + 1) else (q0, e + sh)
  if k.qmax < qe then (k.overflow env.rc sign, fOE ||| fPE)
  else if qe < k.qmin then k.tiny env sign m e
  else (k.mk' sign (qe - k.qmin + 1).toNat (q - 2 ^ k.fw), if inexact then fPE else 0)

/-! ### Multiply and add (43_dot_product.md R151, R152) -/

/-- The common frame of a two-operand operation: the NaN rule (first operand wins), then DAZ and DE, then the operation on operands
that are not NaNs (R151, R152, R153). -/
def FpFmt.binary (k : FpFmt) (env : FpEnv) (op : Nat → Nat → Nat × FpFlags) (a b : Nat) : Nat × FpFlags :=
  if k.isNaN a || k.isNaN b then
    (if k.isNaN a then k.quiet a else k.quiet b, if k.isSNaN a || k.isSNaN b then fIE else 0)
  else
    let (v, f) := op (k.dazStep env a) (k.dazStep env b)
    (v, f ||| (if !env.daz && (k.isDenormal a || k.isDenormal b) then fDE else 0))

/-- The product of two operands that are not NaNs. -/
def FpFmt.mulCore (k : FpFmt) (env : FpEnv) (a b : Nat) : Nat × FpFlags :=
  let sign := k.sign a != k.sign b
  if k.isInf a || k.isInf b then
    if k.isZero a || k.isZero b then (k.indefinite, fIE) else (k.inf sign, 0)
  else if k.isZero a || k.isZero b then (k.zero sign, 0)
  else k.round env sign (k.mant a * k.mant b) (k.qexp a + k.qexp b)

/-- The exact sum of two finite operands as an integer in units of `2 ^ min (qexp a) (qexp b)`. -/
def FpFmt.exactSum (k : FpFmt) (a b : Nat) : Int :=
  let e := min (k.qexp a) (k.qexp b)
  let term (v : Nat) : Int := (if k.sign v then -1 else 1) * (k.mant v * 2 ^ (k.qexp v - e).toNat : Nat)
  term a + term b

/-- The sum of two operands that are not NaNs. A zero sum keeps a common sign of the operands; else it is +0, or -0 when rounding
down. -/
def FpFmt.addCore (k : FpFmt) (env : FpEnv) (a b : Nat) : Nat × FpFlags :=
  if k.isInf a && k.isInf b && k.sign a != k.sign b then (k.indefinite, fIE)
  else if k.isInf a then (a, 0)
  else if k.isInf b then (b, 0)
  else
    let v := k.exactSum a b
    if v = 0 then (k.zero (if k.sign a = k.sign b then k.sign a else env.rc == 1), 0)
    else k.round env (decide (v < 0)) v.natAbs (min (k.qexp a) (k.qexp b))

/-- `fmul32` (R151). -/
def fmul32 (env : FpEnv) (a b : BitVec 32) : BitVec 32 × FpFlags :=
  let (v, f) := fmt32.binary env (fmt32.mulCore env) a.toNat b.toNat
  (BitVec.ofNat 32 v, f)

/-- `fadd32` (R151). -/
def fadd32 (env : FpEnv) (a b : BitVec 32) : BitVec 32 × FpFlags :=
  let (v, f) := fmt32.binary env (fmt32.addCore env) a.toNat b.toNat
  (BitVec.ofNat 32 v, f)

/-- `fmul64` (R151). -/
def fmul64 (env : FpEnv) (a b : BitVec 64) : BitVec 64 × FpFlags :=
  let (v, f) := fmt64.binary env (fmt64.mulCore env) a.toNat b.toNat
  (BitVec.ofNat 64 v, f)

/-- `fadd64` (R151). -/
def fadd64 (env : FpEnv) (a b : BitVec 64) : BitVec 64 × FpFlags :=
  let (v, f) := fmt64.binary env (fmt64.addCore env) a.toNat b.toNat
  (BitVec.ofNat 64 v, f)

/-! ### Rounding to an integral value (46_round.md R181) -/

/-- The field of an integer `n` with a sign; `n` is at most `2 ^ fw`. -/
def FpFmt.ofNat (k : FpFmt) (sign : Bool) (n : Nat) : Nat :=
  if n = 0 then k.zero sign
  else k.mk' sign (Nat.log2 n + k.bias) (n * 2 ^ (k.fw - Nat.log2 n) - 2 ^ k.fw)

/-- `rti(f, m, p)`: round a field to an integral value under mode `m` with precision-suppress bit `p` (R181). -/
def FpFmt.rti (k : FpFmt) (daz : Bool) (m : BitVec 2) (p : Bool) (f : Nat) : Nat × FpFlags :=
  if k.isSNaN f then (k.quiet f, fIE)
  else if k.isNaN f then (f, 0)
  else if k.isDenormal f && daz then (k.zero (k.sign f), 0)
  else if k.isInf f || k.isZero f then (f, 0)
  else if 0 ≤ k.qexp f then (f, 0)
  else
    let (n, inexact) := scaleRound m (k.sign f) (k.mant f) (-k.qexp f)
    (k.ofNat (k.sign f) n, if inexact && !p then fPE else 0)

/-- `rti32` (R181). -/
def rti32 (daz : Bool) (m : BitVec 2) (p : Bool) (f : BitVec 32) : BitVec 32 × FpFlags :=
  let (v, fl) := fmt32.rti daz m p f.toNat
  (BitVec.ofNat 32 v, fl)

/-- `rti64` (R181). -/
def rti64 (daz : Bool) (m : BitVec 2) (p : Bool) (f : BitVec 64) : BitVec 64 × FpFlags :=
  let (v, fl) := fmt64.rti daz m p f.toNat
  (BitVec.ofNat 64 v, fl)

/-! ### Completion (43_dot_product.md R154, 60_exceptions.md R208) -/

/-- The pre-computation exceptions I and D (R154). -/
def preFlags : FpFlags := fIE ||| fDE

/-- The exceptions an operation detects whose masked run raises `f`, fed by operations whose masked runs raise `feeds` (R154): none when
one of these raises an unmasked exception, for then there is no operand to operate on; only I and D when one of these is unmasked, for
then the operation is not carried out; else `f`. -/
def detected (s : State) (feeds f : FpFlags) : FpFlags :=
  if unmasked s feeds ≠ 0 then 0
  else if unmasked s (f &&& preFlags) ≠ 0 then f &&& preFlags
  else f

/-- The exceptions of a list of levels up to the first that has an unmasked one. -/
def untilFault (s : State) : List FpFlags → FpFlags
  | [] => 0
  | f :: fs => if unmasked s f = 0 then f ||| untilFault s fs else f

/-- The exceptions of all levels. -/
def allFlags : List FpFlags → FpFlags
  | [] => 0
  | f :: fs => f ||| allFlags fs

/-- The exceptions of a set, each alone. -/
def splitFlags (f : FpFlags) : List FpFlags :=
  [fIE, fDE, fOE, fUE, fPE].filter fun x => f &&& x != 0

/-- The flags an unmasked floating-point fault records, for drawn values `later`, `n` and `x` (R154, R208, U4, log 9). `f` is what the
masked run raises; `levels` are the detected exceptions of the instruction's operations, an operation behind those that feed it. The
`n`-th unmasked detected exception is the faulting one, an I or D before the others; with it any flags of `f` may be set (U4), but for a
fault by I or D only the I and D among them (R208). `later` is whether what an add detects counts when an earlier operation, which does
not feed it, has an unmasked exception. -/
def drawFlags (s : State) (later : Bool) (n : Nat) (x f : FpFlags) (levels : List FpFlags) : FpFlags :=
  let u := unmasked s (if later then allFlags levels else untilFault s levels)
  let pre := u &&& preFlags != 0
  let causes := splitFlags (if pre then u &&& preFlags else u)
  causes.getD (n % causes.length) 0 ||| (x &&& (if pre then f &&& preFlags else f))

/-- `drawFlags` with free values. -/
def faultFlagsOf (s : State) (f : FpFlags) (levels : List FpFlags) : FpFlags :=
  drawFlags s (Config.faultLater s.draws) (Config.faultCause s.draws) (Config.faultFlags s.draws) f levels

/-- The end of DPPS, DPPD and ROUND*: when every raised exception is masked, write the destination, accumulate the flags and
advance; else the floating-point fault, #XM or #UD by `CR4.OSXMMEXCPT` (R154, R208). `t` is the state to go on from, `f` what the
masked run raises, `levels` what is detected. -/
def fpComplete (s t : State) (len : Nat) (dst : Reg) (v : XWord) (f : FpFlags) (levels : List FpFlags) : Outcome State :=
  if unmasked s f = 0 then .next (({ t with mxcsr := orFlags s.mxcsr f }.setXmm dst v).advance len)
  else
    let m := orFlags s.mxcsr (faultFlagsOf s f levels)
    if s.osxmmexcpt then raise s fun p => .simdFloatingPoint p m else raise s fun p => .simdInvalidOpcode p m

end Sys2Proof.Machine
end

