-- ==== Sys2Proof/Machine/DotProduct.lean ====
section
/-! DEFINITION. DPPS and DPPD (43_dot_product.md R155, R156) with the choice of NaN of R152 and U3. -/

namespace Sys2Proof.Machine

/-- A field with the flags its computation raised. -/
abbrev Fp (w : Nat) := BitVec w × FpFlags

/-- The binary32 NaN test on a field. -/
def isNaN32 (v : BitVec 32) : Bool := fmt32.isNaN v.toNat
/-- The binary64 NaN test on a field. -/
def isNaN64 (v : BitVec 64) : Bool := fmt64.isNaN v.toNat

/-- An add was invalid: it answers a NaN although neither operand is one (R151). -/
def invalidAdd {w : Nat} (isNaN : BitVec w → Bool) (add : BitVec w → BitVec w → Fp w) (a b : BitVec w) : Bool :=
  isNaN (add a b).1 && !isNaN a && !isNaN b

/-- The NaNs one selected lane offers (U3): the quieted NaN operands, or the indefinite of an invalid multiply. -/
def laneNaNs {w : Nat} (isNaN : BitVec w → Bool) (quiet : BitVec w → BitVec w) (a b t : BitVec w) : List (BitVec w) :=
  if isNaN a || isNaN b then (if isNaN a then [quiet a] else []) ++ (if isNaN b then [quiet b] else [])
  else if isNaN t then [t] else []

/-- Which value a selected result field `k` holds under `NAN_DP` (R152, U3, log 8): `SUM` under `tree`; the per-field order under `host`;
under `draw`, when two or more NaNs meet in the sum, a free choice among the candidates, and else `SUM`. -/
def dpField {w : Nat} (s : State) (sum host : BitVec w) (open' : Bool) (cands : List (BitVec w)) (k : Nat) : BitVec w :=
  match s.nanDp with
  | .tree => sum
  | .host => host
  | .draw => if open' then cands.getD (Config.nanChoice s.draws k % cands.length) sum else sum

/-! ### DPPS (R155) -/

/-- The term of lane `i`: the product when `imm8[4+i]` selects it, else +0.0 without an operation. -/
def dppsTerm (env : FpEnv) (imm : Byte) (a b : XWord) (i : Nat) : Fp 32 :=
  if imm.getLsbD (4 + i) then fmul32 env (lane 32 i a) (lane 32 i b) else (0, 0)

/-- The flags of the whole instruction: the four products, the two pair sums and their sum. -/
def dppsFlags (env : FpEnv) (t : Nat → Fp 32) : FpFlags :=
  let s01 := fadd32 env (t 0).1 (t 1).1
  let s23 := fadd32 env (t 2).1 (t 3).1
  (t 0).2 ||| (t 1).2 ||| (t 2).2 ||| (t 3).2 ||| s01.2 ||| s23.2 ||| (fadd32 env s01.1 s23.1).2

/-- The detected exceptions: of the products, of the pair sums whose products raised nothing unmasked, of their sum where nothing
before did (R154). -/
def dppsLevels (s : State) (t : Nat → Fp 32) : List FpFlags :=
  let s01 := fadd32 s.fpEnv (t 0).1 (t 1).1
  let s23 := fadd32 s.fpEnv (t 2).1 (t 3).1
  [detected s 0 (t 0).2 ||| detected s 0 (t 1).2 ||| detected s 0 (t 2).2 ||| detected s 0 (t 3).2,
   detected s ((t 0).2 ||| (t 1).2) s01.2 ||| detected s ((t 2).2 ||| (t 3).2) s23.2,
   detected s ((t 0).2 ||| (t 1).2 ||| (t 2).2 ||| (t 3).2 ||| s01.2 ||| s23.2) (fadd32 s.fpEnv s01.1 s23.1).2]

/-- The sum `(T[i]+T[j]) + (T[k]+T[l])`. -/
def sum4 (env : FpEnv) (t : Nat → Fp 32) (i j k l : Nat) : BitVec 32 :=
  (fadd32 env (fadd32 env (t i).1 (t j).1).1 (fadd32 env (t k).1 (t l).1).1).1

/-- `SUM` of R155: the tree `(T[0]+T[1]) + (T[2]+T[3])`. -/
def dppsSum (env : FpEnv) (t : Nat → Fp 32) : BitVec 32 := sum4 env t 0 1 2 3

/-- The per-field sums of `NAN_DP = host` (R152). -/
def dppsHost (env : FpEnv) (t : Nat → Fp 32) (k : Nat) : BitVec 32 :=
  match k with
  | 0 => sum4 env t 1 0 3 2
  | 1 => sum4 env t 0 1 2 3
  | 2 => sum4 env t 3 2 1 0
  | _ => sum4 env t 2 3 0 1

/-- Some add of the tree was invalid. -/
def dppsInvalid (env : FpEnv) (t : Nat → Fp 32) : Bool :=
  let s01 := (fadd32 env (t 0).1 (t 1).1).1
  let s23 := (fadd32 env (t 2).1 (t 3).1).1
  invalidAdd isNaN32 (fadd32 env) (t 0).1 (t 1).1 || invalidAdd isNaN32 (fadd32 env) (t 2).1 (t 3).1
    || invalidAdd isNaN32 (fadd32 env) s01 s23

/-- `quiet` on a binary32 field. -/
def quiet32 (v : BitVec 32) : BitVec 32 := BitVec.ofNat 32 (fmt32.quiet v.toNat)
/-- `quiet` on a binary64 field. -/
def quiet64 (v : BitVec 64) : BitVec 64 := BitVec.ofNat 64 (fmt64.quiet v.toNat)

/-- U3's set: the NaNs of the selected lanes, and the indefinite if an add was invalid. -/
def dppsCandidates (env : FpEnv) (imm : Byte) (a b : XWord) (t : Nat → Fp 32) : List (BitVec 32) :=
  ([0, 1, 2, 3].flatMap fun i =>
    if imm.getLsbD (4 + i) then laneNaNs isNaN32 quiet32 (lane 32 i a) (lane 32 i b) (t i).1 else [])
    ++ (if dppsInvalid env t then [BitVec.ofNat 32 fmt32.indefinite] else [])

/-- More than one NaN reaches the sum: NaN terms of two lanes, or one and an invalid add. -/
def dppsOpen (env : FpEnv) (t : Nat → Fp 32) : Bool :=
  decide (2 ≤ ([0, 1, 2, 3].filter fun i => isNaN32 (t i).1).length + (dppsInvalid env t).toNat)

/-- DPPS's result and flags. -/
def dpps (s : State) (imm : Byte) (a b : XWord) : XWord × FpFlags :=
  let env := s.fpEnv
  let t := dppsTerm env imm a b
  (pack 32 4 fun k =>
    if imm.getLsbD k then
      dpField s (dppsSum env t) (dppsHost env t k) (dppsOpen env t) (dppsCandidates env imm a b t) k
    else 0,
   dppsFlags env t)

/-- DPPS xmm1, xmm2/m128, imm8 (R155). The draw counter moves on with every dot product. -/
def execDpps (e : Enc) (dst : Reg) (src : Rm) (imm : Byte) (s : State) : Outcome State :=
  andThen (gate s) fun _ =>
  andThen (xmmOperand s 16 true e (len3A e src) src) fun v =>
  let r := dpps s imm (s.getXmm dst) v
  fpComplete s { s with draws := s.draws + 1 } (len3A e src) dst r.1 r.2
    (dppsLevels s (dppsTerm s.fpEnv imm (s.getXmm dst) v))

/-! ### DPPD (R156) -/

/-- The term of lane `i`: the product when `imm8[4+i]` selects it, else +0.0 without an operation. -/
def dppdTerm (env : FpEnv) (imm : Byte) (a b : XWord) (i : Nat) : Fp 64 :=
  if imm.getLsbD (4 + i) then fmul64 env (lane 64 i a) (lane 64 i b) else (0, 0)

/-- The detected exceptions: of the products, and of the sum where they raised nothing unmasked (R154). -/
def dppdLevels (s : State) (t : Nat → Fp 64) : List FpFlags :=
  [detected s 0 (t 0).2 ||| detected s 0 (t 1).2, detected s ((t 0).2 ||| (t 1).2) (fadd64 s.fpEnv (t 0).1 (t 1).1).2]

/-- U3's set for two lanes. -/
def dppdCandidates (env : FpEnv) (imm : Byte) (a b : XWord) (t : Nat → Fp 64) : List (BitVec 64) :=
  ([0, 1].flatMap fun i =>
    if imm.getLsbD (4 + i) then laneNaNs isNaN64 quiet64 (lane 64 i a) (lane 64 i b) (t i).1 else [])
    ++ (if invalidAdd isNaN64 (fadd64 env) (t 0).1 (t 1).1 then [BitVec.ofNat 64 fmt64.indefinite] else [])

/-- DPPD's result and flags: one add; `imm8[7:6]` and `imm8[3:2]` are ignored. -/
def dppd (s : State) (imm : Byte) (a b : XWord) : XWord × FpFlags :=
  let env := s.fpEnv
  let t := dppdTerm env imm a b
  let sum := fadd64 env (t 0).1 (t 1).1
  let host := fun k : Nat => if k = 0 then sum.1 else (fadd64 env (t 1).1 (t 0).1).1
  (pack 64 2 fun k =>
    if imm.getLsbD k then
      dpField s sum.1 (host k) (isNaN64 (t 0).1 && isNaN64 (t 1).1) (dppdCandidates env imm a b t) k
    else 0,
   (t 0).2 ||| (t 1).2 ||| sum.2)

/-- DPPD xmm1, xmm2/m128, imm8 (R156). -/
def execDppd (e : Enc) (dst : Reg) (src : Rm) (imm : Byte) (s : State) : Outcome State :=
  andThen (gate s) fun _ =>
  andThen (xmmOperand s 16 true e (len3A e src) src) fun v =>
  let r := dppd s imm (s.getXmm dst) v
  fpComplete s { s with draws := s.draws + 1 } (len3A e src) dst r.1 r.2
    (dppdLevels s (dppdTerm s.fpEnv imm (s.getXmm dst) v))

end Sys2Proof.Machine
end

