-- ==== Sys2Proof/Machine/InsertExtract.lean ====
section
/-! DEFINITION. Inserts and extracts: INSERTPS, EXTRACTPS, PINSRB/D/Q, PEXTRB/W/D/Q (42_insert_extract.md R140 to R148). -/

namespace Sys2Proof.Machine

/-! ### INSERTPS (R140) -/

/-- The doubleword INSERTPS inserts: field `imm8[7:6]` of the register, or the one doubleword read from memory. -/
def insertpsField (src : Rm) (imm : Byte) (v : XWord) : BitVec 32 :=
  match src with
  | .reg _ => lane 32 (imm.extractLsb' 6 2).toNat v
  | .mem _ => lane 32 0 v

/-- INSERTPS's result: field `imm8[5:4]` replaced, then the fields of the zero mask `imm8[3:0]` cleared to +0.0. -/
def insertps (src : Rm) (imm : Byte) (a v : XWord) : XWord :=
  pack 32 4 fun i =>
    if imm.getLsbD i then 0 else if i = (imm.extractLsb' 4 2).toNat then insertpsField src imm v else lane 32 i a

/-- INSERTPS xmm1, xmm2/m32, imm8 (R140). -/
def execInsertps (e : Enc) (dst : Reg) (src : Rm) (imm : Byte) (s : State) : Outcome State :=
  execRMI s 4 false e dst src (insertps src imm)

/-! ### Field numbers (30_encoding.md R72) -/

/-- The field number in the low `k` bits of the immediate. -/
def fieldNumber (k : Nat) (imm : Byte) : Nat := (imm.extractLsb' 0 k).toNat

/-- The extracted field, zero-extended. -/
def extractField (w k : Nat) (imm : Byte) (v : XWord) : XWord := (lane w (fieldNumber k imm) v).setWidth 128

/-- The destination with one field replaced by the low bits of the source. -/
def insertField (w k : Nat) (imm : Byte) (a v : XWord) : XWord := setLane w (fieldNumber k imm) (v.setWidth w) a

/-! ### EXTRACTPS and PEXTRx (R141, R145 to R148) -/

/-- EXTRACTPS r/m32, xmm, imm8 (R141). -/
def execExtractps (e : Enc) (dst : Rm) (src : Reg) (imm : Byte) (s : State) : Outcome State :=
  execMRIG s 4 e dst (extractField 32 2 imm (s.getXmm src))

/-- PEXTRB r/m8, xmm, imm8 (R145). -/
def execPextrb (e : Enc) (dst : Rm) (src : Reg) (imm : Byte) (s : State) : Outcome State :=
  execMRIG s 1 e dst (extractField 8 4 imm (s.getXmm src))

/-- PEXTRW r/m16, xmm, imm8 (R146). -/
def execPextrw (e : Enc) (dst : Rm) (src : Reg) (imm : Byte) (s : State) : Outcome State :=
  execMRIG s 2 e dst (extractField 16 3 imm (s.getXmm src))

/-- PEXTRD r/m32, xmm, imm8 (R147). -/
def execPextrd (e : Enc) (dst : Rm) (src : Reg) (imm : Byte) (s : State) : Outcome State :=
  execMRIG s 4 e dst (extractField 32 2 imm (s.getXmm src))

/-- PEXTRQ r/m64, xmm, imm8 (R148): mode64 only (30_encoding.md R80; log 20). -/
def execPextrq (e : Enc) (dst : Rm) (src : Reg) (imm : Byte) (s : State) : Outcome State :=
  if s.mode = .mode32 then .refused .mode64Only
  else execMRIG s 8 e dst (extractField 64 1 imm (s.getXmm src))

/-! ### PINSRx (R142 to R144) -/

/-- PINSRB xmm, r32/m8, imm8 (R142). -/
def execPinsrb (e : Enc) (dst : Reg) (src : Rm) (imm : Byte) (s : State) : Outcome State :=
  execRMIG s 1 e dst src (insertField 8 4 imm)

/-- PINSRD xmm, r/m32, imm8 (R143). -/
def execPinsrd (e : Enc) (dst : Reg) (src : Rm) (imm : Byte) (s : State) : Outcome State :=
  execRMIG s 4 e dst src (insertField 32 2 imm)

/-- PINSRQ xmm, r/m64, imm8 (R144): mode64 only (30_encoding.md R80; log 20). -/
def execPinsrq (e : Enc) (dst : Reg) (src : Rm) (imm : Byte) (s : State) : Outcome State :=
  if s.mode = .mode32 then .refused .mode64Only
  else execRMIG s 8 e dst src (insertField 64 1 imm)

end Sys2Proof.Machine
end

