-- ==== Sys2Proof/Machine/Primitives.lean ====
section
/-! DEFINITION. Vector primitives: PMIN*, PMAX*, PMULDQ, PMULLD, PACKUSDW, PCMPEQQ (41_vector_primitives.md R120 to R132). -/

namespace Sys2Proof.Machine

/-- A field-wise operation on the fields of width `w` of two values. -/
def lanewise (w : Nat) (f : BitVec w → BitVec w → BitVec w) (a b : XWord) : XWord :=
  pack w (128 / w) fun i => f (lane w i a) (lane w i b)

/-! ### Minimum and maximum (R120) -/

/-- The signed minimum of two fields; `a` when they are equal. -/
def minS {w : Nat} (a b : BitVec w) : BitVec w := if a.toInt ≤ b.toInt then a else b
/-- The unsigned minimum of two fields. -/
def minU {w : Nat} (a b : BitVec w) : BitVec w := if a.toNat ≤ b.toNat then a else b
/-- The signed maximum of two fields. -/
def maxS {w : Nat} (a b : BitVec w) : BitVec w := if b.toInt ≤ a.toInt then a else b
/-- The unsigned maximum of two fields. -/
def maxU {w : Nat} (a b : BitVec w) : BitVec w := if b.toNat ≤ a.toNat then a else b

/-- PMINSB xmm1, xmm2/m128 (R121). -/
def execPminsb (e : Enc) (dst : Reg) (src : Rm) (s : State) : Outcome State := execRM s 16 true e dst src (lanewise 8 minS)
/-- PMINUW xmm1, xmm2/m128 (R122). -/
def execPminuw (e : Enc) (dst : Reg) (src : Rm) (s : State) : Outcome State := execRM s 16 true e dst src (lanewise 16 minU)
/-- PMINSD xmm1, xmm2/m128 (R123). -/
def execPminsd (e : Enc) (dst : Reg) (src : Rm) (s : State) : Outcome State := execRM s 16 true e dst src (lanewise 32 minS)
/-- PMINUD xmm1, xmm2/m128 (R124). -/
def execPminud (e : Enc) (dst : Reg) (src : Rm) (s : State) : Outcome State := execRM s 16 true e dst src (lanewise 32 minU)
/-- PMAXSB xmm1, xmm2/m128 (R125). -/
def execPmaxsb (e : Enc) (dst : Reg) (src : Rm) (s : State) : Outcome State := execRM s 16 true e dst src (lanewise 8 maxS)
/-- PMAXUW xmm1, xmm2/m128 (R126). -/
def execPmaxuw (e : Enc) (dst : Reg) (src : Rm) (s : State) : Outcome State := execRM s 16 true e dst src (lanewise 16 maxU)
/-- PMAXSD xmm1, xmm2/m128 (R127). -/
def execPmaxsd (e : Enc) (dst : Reg) (src : Rm) (s : State) : Outcome State := execRM s 16 true e dst src (lanewise 32 maxS)
/-- PMAXUD xmm1, xmm2/m128 (R128). -/
def execPmaxud (e : Enc) (dst : Reg) (src : Rm) (s : State) : Outcome State := execRM s 16 true e dst src (lanewise 32 maxU)

/-! ### Products (R129, R130) -/

/-- PMULDQ's result: the full 64-bit products of the signed doublewords 0 and 2. -/
def pmuldq (a b : XWord) : XWord :=
  pack 64 2 fun i => BitVec.ofInt 64 ((lane 32 (2 * i) a).toInt * (lane 32 (2 * i) b).toInt)

/-- PMULDQ xmm1, xmm2/m128 (R129). -/
def execPmuldq (e : Enc) (dst : Reg) (src : Rm) (s : State) : Outcome State := execRM s 16 true e dst src pmuldq

/-- PMULLD's result: the low 32 bits of the products of the signed doublewords. -/
def pmulld : XWord → XWord → XWord := lanewise 32 fun x y => BitVec.ofInt 32 (x.toInt * y.toInt)

/-- PMULLD xmm1, xmm2/m128 (R130). -/
def execPmulld (e : Enc) (dst : Reg) (src : Rm) (s : State) : Outcome State := execRM s 16 true e dst src pmulld

/-! ### PACKUSDW (R131) -/

/-- `sat_u16(n)`: unsigned saturation to 16 bits (00_scope.md R8). -/
def satU16 (n : Int) : Int := if n < 0 then 0 else if 65535 < n then 65535 else n

/-- PACKUSDW's result: the doublewords of `a` in the low four words, those of `b` in the high four. -/
def packusdw (a b : XWord) : XWord :=
  pack 16 8 fun i => BitVec.ofInt 16 (satU16 (if i < 4 then (lane 32 i a).toInt else (lane 32 (i - 4) b).toInt))

/-- PACKUSDW xmm1, xmm2/m128 (R131). -/
def execPackusdw (e : Enc) (dst : Reg) (src : Rm) (s : State) : Outcome State := execRM s 16 true e dst src packusdw

/-! ### PCMPEQQ (R132) -/

/-- PCMPEQQ's result: all ones in a quadword where the two are equal, else all zeros. -/
def pcmpeqq : XWord → XWord → XWord := lanewise 64 fun x y => if x = y then BitVec.allOnes 64 else 0

/-- PCMPEQQ xmm1, xmm2/m128 (R132). -/
def execPcmpeqq (e : Enc) (dst : Reg) (src : Rm) (s : State) : Outcome State := execRM s 16 true e dst src pcmpeqq

end Sys2Proof.Machine
end

