-- ==== Sys2Proof/Machine/Round.lean ====
section
/-! DEFINITION. ROUNDPS, ROUNDPD, ROUNDSS, ROUNDSD (46_round.md R180 to R185). -/

namespace Sys2Proof.Machine

/-- The rounding mode of the control byte: `MXCSR.RC` when `imm8[2] = 1`, else `imm8[1:0]` (R180). -/
def roundMode (imm : Byte) (rc : BitVec 2) : BitVec 2 := if imm.getLsbD 2 then rc else imm.extractLsb' 0 2

/-- `rti32` under the control byte and `MXCSR` (R180, R181). -/
def round32 (s : State) (imm : Byte) (f : BitVec 32) : BitVec 32 × FpFlags :=
  rti32 s.daz (roundMode imm s.rc) (imm.getLsbD 3) f

/-- `rti64` under the control byte and `MXCSR` (R180, R181). -/
def round64 (s : State) (imm : Byte) (f : BitVec 64) : BitVec 64 × FpFlags :=
  rti64 s.daz (roundMode imm s.rc) (imm.getLsbD 3) f

/-- The frame of the four: gate, the reserved immediate bits (R180, U1, log 12), read the source, round, complete. No rounding feeds
another, and none raises I with P, so all fields are one level of detected exceptions. -/
def execRound (s : State) (n : Nat) (align : Bool) (e : Enc) (dst : Reg) (src : Rm) (imm : Byte)
    (f : XWord → XWord → XWord × FpFlags) : Outcome State :=
  andThen (gate s) fun _ =>
  if s.roundImmHi = .refuse ∧ imm.extractLsb' 4 4 ≠ 0 then .refused .roundImmReserved
  else andThen (xmmOperand s n align e (len3A e src) src) fun v =>
    let r := f (s.getXmm dst) v
    fpComplete s s (len3A e src) dst r.1 r.2 [r.2]

/-- The four doublewords rounded, and the flags of all. -/
def roundps (s : State) (imm : Byte) (v : XWord) : XWord × FpFlags :=
  let r := fun i => round32 s imm (lane 32 i v)
  (pack 32 4 fun i => (r i).1, (r 0).2 ||| (r 1).2 ||| (r 2).2 ||| (r 3).2)

/-- The two quadwords rounded, and the flags of both. -/
def roundpd (s : State) (imm : Byte) (v : XWord) : XWord × FpFlags :=
  let r := fun i => round64 s imm (lane 64 i v)
  (pack 64 2 fun i => (r i).1, (r 0).2 ||| (r 1).2)

/-- Field 0 of the destination replaced by the rounded field 0 of the source. -/
def roundss (s : State) (imm : Byte) (a v : XWord) : XWord × FpFlags :=
  let r := round32 s imm (lane 32 0 v)
  (setLane 32 0 r.1 a, r.2)

/-- Field 0 of the destination replaced by the rounded field 0 of the source. -/
def roundsd (s : State) (imm : Byte) (a v : XWord) : XWord × FpFlags :=
  let r := round64 s imm (lane 64 0 v)
  (setLane 64 0 r.1 a, r.2)

/-- ROUNDPS xmm1, xmm2/m128, imm8 (R182). -/
def execRoundps (e : Enc) (dst : Reg) (src : Rm) (imm : Byte) (s : State) : Outcome State :=
  execRound s 16 true e dst src imm fun _ v => roundps s imm v

/-- ROUNDPD xmm1, xmm2/m128, imm8 (R183). -/
def execRoundpd (e : Enc) (dst : Reg) (src : Rm) (imm : Byte) (s : State) : Outcome State :=
  execRound s 16 true e dst src imm fun _ v => roundpd s imm v

/-- ROUNDSS xmm1, xmm2/m32, imm8 (R184). -/
def execRoundss (e : Enc) (dst : Reg) (src : Rm) (imm : Byte) (s : State) : Outcome State :=
  execRound s 4 false e dst src imm (roundss s imm)

/-- ROUNDSD xmm1, xmm2/m64, imm8 (R185). -/
def execRoundsd (e : Enc) (dst : Reg) (src : Rm) (imm : Byte) (s : State) : Outcome State :=
  execRound s 8 false e dst src imm (roundsd s imm)

end Sys2Proof.Machine
end

