-- ==== Sys2Proof/Machine/StreamLoad.lean ====
section
/-! DEFINITION. MOVNTDQA (47_movntdqa.md R190, R191). -/

namespace Sys2Proof.Machine

/-- MOVNTDQA xmm1, m128 (R190): an aligned 16-byte load; the hint has no architectural effect (R191, D8). -/
def execMovntdqa (e : Enc) (dst : Reg) (src : Mem) (s : State) : Outcome State :=
  execRM s 16 true e dst (.mem src) fun _ b => b

end Sys2Proof.Machine
end

