-- ==== Sys2Proof/Machine/Video.lean ====
section
/-! DEFINITION. Video acceleration: MPSADBW, PHMINPOSUW and the twelve PMOVSX/PMOVZX (40_video.md R100 to R114). -/

namespace Sys2Proof.Machine

/-! ### MPSADBW (R100) -/

/-- `abs(unsigned(x) - unsigned(y))` of two bytes. -/
def absDiff (x y : Byte) : Nat := ((x.toNat : Int) - (y.toNat : Int)).natAbs

/-- `SADi`: four absolute differences of the bytes of `a` from `s1 + i` and of `b` from `s2`. -/
def sad (a b : XWord) (s1 s2 i : Nat) : Nat :=
  absDiff (lane 8 (s1 + i) a) (lane 8 s2 b) + absDiff (lane 8 (s1 + i + 1) a) (lane 8 (s2 + 1) b)
    + absDiff (lane 8 (s1 + i + 2) a) (lane 8 (s2 + 2) b) + absDiff (lane 8 (s1 + i + 3) a) (lane 8 (s2 + 3) b)

/-- MPSADBW's result: `s1 = imm8[2]*4`, `s2 = imm8[1:0]*4`. -/
def mpsadbw (imm : Byte) (a b : XWord) : XWord :=
  pack 16 8 fun i => BitVec.ofNat 16 (sad a b ((imm.extractLsb' 2 1).toNat * 4) ((imm.extractLsb' 0 2).toNat * 4) i)

/-- MPSADBW xmm1, xmm2/m128, imm8 (R100). -/
def execMpsadbw (e : Enc) (dst : Reg) (src : Rm) (imm : Byte) (s : State) : Outcome State :=
  execRMI s 16 true e dst src (mpsadbw imm)

/-! ### PHMINPOSUW (R101) -/

/-- The smallest of words 0 to `n` and its position; ties keep the lower position. -/
def minScan (v : XWord) : Nat → BitVec 16 × Nat
  | 0 => (lane 16 0 v, 0)
  | n + 1 =>
    let (m, p) := minScan v n
    if (lane 16 (n + 1) v).toNat < m.toNat then (lane 16 (n + 1) v, n + 1) else (m, p)

/-- PHMINPOSUW's result: the minimum, its position, six zero words. -/
def phminposuw (v : XWord) : XWord :=
  let (m, p) := minScan v 7
  pack 16 8 fun i => if i = 0 then m else if i = 1 then BitVec.ofNat 16 p else 0

/-- PHMINPOSUW xmm1, xmm2/m128 (R101). -/
def execPhminposuw (e : Enc) (dst : Reg) (src : Rm) (s : State) : Outcome State :=
  execRM s 16 true e dst src fun _ b => phminposuw b

/-! ### PMOVSX and PMOVZX (R102) -/

/-- `n` fields of `iw` bits sign-extended to `ow` bits. -/
def pmovsx (iw ow n : Nat) (v : XWord) : XWord := pack ow n fun i => (lane iw i v).signExtend ow

/-- `n` fields of `iw` bits zero-extended to `ow` bits. -/
def pmovzx (iw ow n : Nat) (v : XWord) : XWord := pack ow n fun i => (lane iw i v).setWidth ow

/-- PMOVSXBW xmm1, xmm2/m64 (R103). -/
def execPmovsxbw (e : Enc) (dst : Reg) (src : Rm) (s : State) : Outcome State :=
  execRM s 8 false e dst src fun _ b => pmovsx 8 16 8 b
/-- PMOVZXBW xmm1, xmm2/m64 (R104). -/
def execPmovzxbw (e : Enc) (dst : Reg) (src : Rm) (s : State) : Outcome State :=
  execRM s 8 false e dst src fun _ b => pmovzx 8 16 8 b
/-- PMOVSXBD xmm1, xmm2/m32 (R105). -/
def execPmovsxbd (e : Enc) (dst : Reg) (src : Rm) (s : State) : Outcome State :=
  execRM s 4 false e dst src fun _ b => pmovsx 8 32 4 b
/-- PMOVZXBD xmm1, xmm2/m32 (R106). -/
def execPmovzxbd (e : Enc) (dst : Reg) (src : Rm) (s : State) : Outcome State :=
  execRM s 4 false e dst src fun _ b => pmovzx 8 32 4 b
/-- PMOVSXWD xmm1, xmm2/m64 (R107). -/
def execPmovsxwd (e : Enc) (dst : Reg) (src : Rm) (s : State) : Outcome State :=
  execRM s 8 false e dst src fun _ b => pmovsx 16 32 4 b
/-- PMOVZXWD xmm1, xmm2/m64 (R108). -/
def execPmovzxwd (e : Enc) (dst : Reg) (src : Rm) (s : State) : Outcome State :=
  execRM s 8 false e dst src fun _ b => pmovzx 16 32 4 b
/-- PMOVSXBQ xmm1, xmm2/m16 (R109). -/
def execPmovsxbq (e : Enc) (dst : Reg) (src : Rm) (s : State) : Outcome State :=
  execRM s 2 false e dst src fun _ b => pmovsx 8 64 2 b
/-- PMOVZXBQ xmm1, xmm2/m16 (R110). -/
def execPmovzxbq (e : Enc) (dst : Reg) (src : Rm) (s : State) : Outcome State :=
  execRM s 2 false e dst src fun _ b => pmovzx 8 64 2 b
/-- PMOVSXWQ xmm1, xmm2/m32 (R111). -/
def execPmovsxwq (e : Enc) (dst : Reg) (src : Rm) (s : State) : Outcome State :=
  execRM s 4 false e dst src fun _ b => pmovsx 16 64 2 b
/-- PMOVZXWQ xmm1, xmm2/m32 (R112). -/
def execPmovzxwq (e : Enc) (dst : Reg) (src : Rm) (s : State) : Outcome State :=
  execRM s 4 false e dst src fun _ b => pmovzx 16 64 2 b
/-- PMOVSXDQ xmm1, xmm2/m64 (R113). -/
def execPmovsxdq (e : Enc) (dst : Reg) (src : Rm) (s : State) : Outcome State :=
  execRM s 8 false e dst src fun _ b => pmovsx 32 64 2 b
/-- PMOVZXDQ xmm1, xmm2/m64 (R114). -/
def execPmovzxdq (e : Enc) (dst : Reg) (src : Rm) (s : State) : Outcome State :=
  execRM s 8 false e dst src fun _ b => pmovzx 32 64 2 b

end Sys2Proof.Machine
end

