-- ==== Sys2Proof/Machine/Dispatch.lean ====
section
/-! DEFINITION. One arm per constructor of Instr, each a direct call of its meaning. -/

namespace Sys2Proof.Machine

def exec (i : Instr) (s : State) : Host.Outcome State Fault Refusal :=
  match i with
  | .mpsadbw e d x im => Sys2Proof.Machine.execMpsadbw e d x im s
  | .phminposuw e d x => Sys2Proof.Machine.execPhminposuw e d x s
  | .pmovsxbw e d x => Sys2Proof.Machine.execPmovsxbw e d x s
  | .pmovzxbw e d x => Sys2Proof.Machine.execPmovzxbw e d x s
  | .pmovsxbd e d x => Sys2Proof.Machine.execPmovsxbd e d x s
  | .pmovzxbd e d x => Sys2Proof.Machine.execPmovzxbd e d x s
  | .pmovsxwd e d x => Sys2Proof.Machine.execPmovsxwd e d x s
  | .pmovzxwd e d x => Sys2Proof.Machine.execPmovzxwd e d x s
  | .pmovsxbq e d x => Sys2Proof.Machine.execPmovsxbq e d x s
  | .pmovzxbq e d x => Sys2Proof.Machine.execPmovzxbq e d x s
  | .pmovsxwq e d x => Sys2Proof.Machine.execPmovsxwq e d x s
  | .pmovzxwq e d x => Sys2Proof.Machine.execPmovzxwq e d x s
  | .pmovsxdq e d x => Sys2Proof.Machine.execPmovsxdq e d x s
  | .pmovzxdq e d x => Sys2Proof.Machine.execPmovzxdq e d x s
  | .pminsb e d x => Sys2Proof.Machine.execPminsb e d x s
  | .pminuw e d x => Sys2Proof.Machine.execPminuw e d x s
  | .pminsd e d x => Sys2Proof.Machine.execPminsd e d x s
  | .pminud e d x => Sys2Proof.Machine.execPminud e d x s
  | .pmaxsb e d x => Sys2Proof.Machine.execPmaxsb e d x s
  | .pmaxuw e d x => Sys2Proof.Machine.execPmaxuw e d x s
  | .pmaxsd e d x => Sys2Proof.Machine.execPmaxsd e d x s
  | .pmaxud e d x => Sys2Proof.Machine.execPmaxud e d x s
  | .pmuldq e d x => Sys2Proof.Machine.execPmuldq e d x s
  | .pmulld e d x => Sys2Proof.Machine.execPmulld e d x s
  | .packusdw e d x => Sys2Proof.Machine.execPackusdw e d x s
  | .pcmpeqq e d x => Sys2Proof.Machine.execPcmpeqq e d x s
  | .insertps e d x im => Sys2Proof.Machine.execInsertps e d x im s
  | .extractps e d x im => Sys2Proof.Machine.execExtractps e d x im s
  | .pinsrb e d x im => Sys2Proof.Machine.execPinsrb e d x im s
  | .pinsrd e d x im => Sys2Proof.Machine.execPinsrd e d x im s
  | .pinsrq e d x im => Sys2Proof.Machine.execPinsrq e d x im s
  | .pextrb e d x im => Sys2Proof.Machine.execPextrb e d x im s
  | .pextrw e d x im => Sys2Proof.Machine.execPextrw e d x im s
  | .pextrd e d x im => Sys2Proof.Machine.execPextrd e d x im s
  | .pextrq e d x im => Sys2Proof.Machine.execPextrq e d x im s
  | .dpps e d x im => Sys2Proof.Machine.execDpps e d x im s
  | .dppd e d x im => Sys2Proof.Machine.execDppd e d x im s
  | .blendvps e d x => Sys2Proof.Machine.execBlendvps e d x s
  | .blendvpd e d x => Sys2Proof.Machine.execBlendvpd e d x s
  | .blendps e d x im => Sys2Proof.Machine.execBlendps e d x im s
  | .blendpd e d x im => Sys2Proof.Machine.execBlendpd e d x im s
  | .pblendvb e d x => Sys2Proof.Machine.execPblendvb e d x s
  | .pblendw e d x im => Sys2Proof.Machine.execPblendw e d x im s
  | .ptest e d x => Sys2Proof.Machine.execPtest e d x s
  | .roundps e d x im => Sys2Proof.Machine.execRoundps e d x im s
  | .roundpd e d x im => Sys2Proof.Machine.execRoundpd e d x im s
  | .roundss e d x im => Sys2Proof.Machine.execRoundss e d x im s
  | .roundsd e d x im => Sys2Proof.Machine.execRoundsd e d x im s
  | .movntdqa e d x => Sys2Proof.Machine.execMovntdqa e d x s

end Sys2Proof.Machine
end

