-- ==== Sys2Proof/Machine/Fetch.lean ====
section
/-! DEFINITION. Fetching and decoding the instruction at RIP (60_exceptions.md R200 step 1, R210 items 1 to 3; 70_reset_and_hazards.md
R244), and the launch that stands behind `State.withFetchWord` (R240, R241; log 1). -/

namespace Sys2Proof.Machine

/-- The linear address of the next fetch: RIP in the flat modes, CS base plus RIP in a 16-bit mode (10_state.md R33, D7). -/
def State.fetchAddress (s : State) : Quad :=
  match s.mode with
  | .mode16 => s.csBase + s.rip
  | _ => s.rip

/-- The program text is one contiguous canonical range whose end `RIP` can hold (10_state.md R25, D6). -/
def textOk (s : State) : Bool :=
  match s.mode with
  | .mode64 => canonicalRange s.vaBits s.codeBase (s.codeEnd - s.codeBase) && decide (s.codeEnd < 2 ^ 64)
  | _ => decide (s.codeEnd < 2 ^ 32)

/-- The bytes of the program text from `a` on, at most `n`, up to `code_end` or the first byte that cannot be fetched; with that
byte's page fault (60_exceptions.md R206, R210 item 1). -/
def fetchBytes (s : State) : Nat → Nat → List Byte × Option Fault
  | 0, _ => ([], none)
  | n + 1, a =>
    if s.codeEnd ≤ a then ([], none)
    else match pageError s .fetch a with
      | some c => ([], some (.pageFault s.rip c (BitVec.ofNat 64 a)))
      | none =>
        let (bs, f) := fetchBytes s n (a + 1)
        (s.mem.read a :: bs, f)

/-- What the step answers for bytes that are not decoded: #UD for the sequences the spec names (60_exceptions.md R202), the page fault
where the bytes ran into one, else a refusal (30_encoding.md R79, D24). -/
def decodeFailure {α : Type} (s : State) (pf : Option Fault) : DecodeError → Outcome α
  | .truncated =>
    match pf with
    | some f => .fault f
    | none => .refused .truncated
  | .notAnInstruction => .refused .notAnInstruction
  | .duplicateLegacy => .refused .duplicateLegacy
  | .repeatByte => .refused .repeatByte
  | .addr16 => .refused .addr16
  | .mode16 => .refused .mode16
  | .lockByte => raise s .invalidOpcode
  | .movntdqaRegister => raise s .invalidOpcode

/-- The instruction at RIP, or why there is none. No instruction is longer than 15 bytes (30_encoding.md R73). -/
def fetchInstr (s : State) : Outcome Instr :=
  let p := s.fetchAddress.toNat
  if s.mode = .mode16 then .refused .mode16
  else if p = s.codeEnd then .refused .endOfProgram
  else if s.tf || s.debugBreakpoints then .refused .debugEvent
  else if s.mode = .mode64 ∧ !canonicalRange s.vaBits p 1 then raise s .generalProtection
  else if !textOk s then .refused .textNotCanonical
  else if p < s.codeBase ∨ s.codeEnd < p then .refused .outsideProgram
  else
    let (bs, pf) := fetchBytes s 15 p
    match decode s.mode bs with
    | .ok (i, _) => .next i
    | .error x => decodeFailure s pf x

/-! ### Launch (70_reset_and_hazards.md R240, R241; log 1) -/

/-- What system software does before the instructions run: enter mode64 with its flat CS (D7), clear CR0.EM and CR0.TS, set
CR4.OSFXSR; alignment checking off (RFLAGS.AC), TF (bit 8, PRESUMED, log 30) clear and no breakpoint (R240, R241). A mode32 machine stays in mode32. -/
def State.enableSse (s : State) : State :=
  { s with
    mode := if s.mode = .mode16 then .mode64 else s.mode
    csBase := 0
    hasSse41 := true
    cr0 := s.cr0 &&& ~~~0xC#64
    cr4 := s.cr4 ||| 0x200#64
    rflags := s.rflags &&& ~~~0x40100#64
    debugBreakpoints := false }

/-- Place a program text at RIP: its bytes, its bounds, and a region that admits them where none does (R240: the text is mapped). DESIGN
CHOICE (log 1): the added region is writable, open to every CPL, has no reserved bit and a key that permits all, and is of type WB, so a
store onto the text meets the refusal of R53 and no #PF. -/
def State.loadProgram (s : State) (bytes : List Byte) : State :=
  let p := s.rip.toNat
  { s with
    mem := s.mem.writeList p bytes
    codeBase := p
    codeEnd := p + bytes.length
    mapped :=
      if (firstPageError s .fetch p bytes.length).isNone then s.mapped
      else ⟨p, bytes.length, true, false, false, .all, .wb⟩ :: s.mapped }

end Sys2Proof.Machine
end

