-- ==== Sys2Proof/Machine/Step.lean ====
section
/-! DEFINITION. One step: fetch and decode the instruction at RIP, then run it (60_exceptions.md R200). The meanings advance RIP
themselves, so the step adds nothing around `exec`. -/

namespace Sys2Proof.Machine

/-- One step of the machine (60_exceptions.md R200). -/
def step (s : State) : Host.Outcome State Fault Refusal :=
  andThen (fetchInstr s) fun i => exec i s

/-- The launch of a program whose only instruction is a table word (30_encoding.md R85): SSE is enabled as system software does, and
the word, then zeros up to the longest instruction, is the program text at RIP (log 1, log 2). -/
def State.withFetchWord (s : State) (nbits w : Nat) : State := s.enableSse.loadProgram (tableWordBytes nbits w)

end Sys2Proof.Machine
end

