-- ==== Sys2Proof/Safety.lean ====
section
/-! DEFINITION. The terms the claims use: when an instruction may run, what its operands are worth, which exceptions it may raise,
what a step leaves unchanged, the invariant of the machine, and the real number a floating-point field stands for. Everything here
is written from the rules it cites, apart from the meanings, so that a claim holds the meanings against it. -/

namespace Sys2Proof

/-! ### The tables of the rules, one line per group of instructions -/

/-- Bytes of the memory operand (20_memory.md R43). -/
def Instr.memBytes : Instr → Nat
  | .pinsrb .. | .pextrb .. => 1
  | .pmovsxbq .. | .pmovzxbq .. | .pextrw .. => 2
  | .pmovsxbd .. | .pmovzxbd .. | .pmovsxwq .. | .pmovzxwq .. | .insertps .. | .extractps .. | .pinsrd .. | .pextrd ..
  | .roundss .. => 4
  | .pmovsxbw .. | .pmovzxbw .. | .pmovsxwd .. | .pmovzxwd .. | .pmovsxdq .. | .pmovzxdq .. | .pinsrq .. | .pextrq ..
  | .roundsd .. => 8
  | .mpsadbw .. | .phminposuw .. | .pminsb .. | .pminuw .. | .pminsd .. | .pminud .. | .pmaxsb .. | .pmaxuw .. | .pmaxsd ..
  | .pmaxud .. | .pmuldq .. | .pmulld .. | .packusdw .. | .pcmpeqq .. | .dpps .. | .dppd .. | .blendvps .. | .blendvpd ..
  | .blendps .. | .blendpd .. | .pblendvb .. | .pblendw .. | .ptest .. | .roundps .. | .roundpd .. | .movntdqa .. => 16

/-- The exception classes (60_exceptions.md R209). -/
inductive ExcClass where
  | a16
  | n
  | nw
  | fpA16
  | fpN
  deriving DecidableEq, Repr

/-- The exception class of each instruction (60_exceptions.md R209). -/
def Instr.excClass : Instr → ExcClass
  | .mpsadbw .. | .phminposuw .. | .pminsb .. | .pminuw .. | .pminsd .. | .pminud .. | .pmaxsb .. | .pmaxuw .. | .pmaxsd ..
  | .pmaxud .. | .pmuldq .. | .pmulld .. | .packusdw .. | .pcmpeqq .. | .blendvps .. | .blendvpd .. | .blendps ..
  | .blendpd .. | .pblendvb .. | .pblendw .. | .ptest .. | .movntdqa .. => .a16
  | .pmovsxbw .. | .pmovzxbw .. | .pmovsxbd .. | .pmovzxbd .. | .pmovsxwd .. | .pmovzxwd .. | .pmovsxbq .. | .pmovzxbq ..
  | .pmovsxwq .. | .pmovzxwq .. | .pmovsxdq .. | .pmovzxdq .. | .insertps .. | .pinsrb .. | .pinsrd .. | .pinsrq .. => .n
  | .extractps .. | .pextrb .. | .pextrw .. | .pextrd .. | .pextrq .. => .nw
  | .dpps .. | .dppd .. | .roundps .. | .roundpd .. => .fpA16
  | .roundss .. | .roundsd .. => .fpN

/-- A memory operand of this class must be 16-byte aligned (20_memory.md R44; 60_exceptions.md R209). -/
def ExcClass.aligned16 : ExcClass → Bool
  | .a16 | .fpA16 => true
  | .n | .nw | .fpN => false

/-- A memory operand of this class is a destination (60_exceptions.md R209). -/
def ExcClass.stores : ExcClass → Bool
  | .nw => true
  | .a16 | .n | .fpA16 | .fpN => false

/-- The class has SIMD floating-point exceptions (60_exceptions.md R209). -/
def ExcClass.fp : ExcClass → Bool
  | .fpA16 | .fpN => true
  | .a16 | .n | .nw => false

/-- The immediate of the four ROUND*, the only one with reserved bits (30_encoding.md R72, R79). -/
def Instr.roundImm : Instr → Option Byte
  | .roundps _ _ _ i | .roundpd _ _ _ i | .roundss _ _ _ i | .roundsd _ _ _ i => some i
  | _ => none

/-- Every register an operand names is one of the first eight (30_encoding.md R80). -/
def Rm.BelowEight : Rm → Prop
  | .reg r => r.val < 8
  | .mem (.base b _) => b.val < 8
  | .mem (.sib b _ x _) => b.val < 8 ∧ (x.getD 0).val < 8
  | .mem (.sibNoBase _ x _) => (x.getD 0).val < 8
  | .mem (.disp32 _) => True

/-- A byte that may stand among the legacy bytes in a mode, `F2` and `F3` apart (30_encoding.md R61 to R63): `66`, LOCK, a segment
override, and in mode64 `67`. -/
def LegacyByte (md : Mode) (b : Byte) : Prop :=
  b = 0x66 ∨ b = 0xF0 ∨ (b = 0x67 ∧ md = .mode64) ∨ ∃ g : SegOverride, b = g.byte

/-- Two legacy bytes of one group (30_encoding.md R63): the same byte, or two segment overrides. -/
def SameGroup (b c : Byte) : Prop := b = c ∨ ∃ g h : SegOverride, b = g.byte ∧ c = h.byte

/-- Legacy bytes of the mode, at most one of each group, in any order (30_encoding.md R62, R63). -/
def LegacyRun (md : Mode) (l : List Byte) : Prop :=
  (∀ b ∈ l, LegacyByte md b) ∧ l.Pairwise fun b c => ¬ SameGroup b c

/-- The bytes of MOVNTDQA with a register operand, in every spelling that `e` gives, its legacy bytes in the order `l`
(30_encoding.md R78): what the decoder meets before it refuses the ModR/M byte. -/
def movntdqaRegBytes (e : Enc) (l : List Byte) (modrm : Byte) : List Byte :=
  l ++ e.rexBytes ++ [0x0F, 0x38, 0x2A, modrm]

end Sys2Proof

namespace Sys2Proof.Machine

/-! ### When an instruction may run -/

/-- The extension is present and enabled (10_state.md R29, 60_exceptions.md R202, R203), in one of the two modes of the spec. -/
abbrev Enabled (s : State) : Prop :=
  s.mode ≠ .mode16 ∧ s.hasSse41 = true ∧ s.em = false ∧ s.osfxsr = true ∧ s.ts = false

/-- The instruction exists in the mode (PINSRQ and PEXTRQ: mode64 only, 30_encoding.md R80), and a reserved immediate bit of ROUND* is
not refused (46_round.md R180, U1). -/
abbrev Exists (i : Instr) (s : State) : Prop :=
  (i.requiredW = some true → s.mode = .mode64) ∧
  (s.roundImmHi = .refuse → (i.roundImm.getD 0).extractLsb' 4 4 = 0)

/-- Nothing but its operands can stop the instruction. -/
abbrev Ready (i : Instr) (s : State) : Prop := Enabled s ∧ Exists i s

/-- The address of a memory operand as a number (30_encoding.md R71). -/
abbrev addrOf (s : State) (e : Enc) (len : Nat) (m : Mem) : Nat := (linearAddr s e len m).toNat

/-- Alignment checking finds a fault (20_memory.md R45). -/
abbrev AcFault (s : State) (n a : Nat) : Prop := s.acEnabled = true ∧ (n = 2 ∨ n = 4 ∨ n = 8) ∧ a % n ≠ 0

/-- A memory operand of `n` bytes raises nothing: its segment permits the access and reaches its bytes, it is aligned if it must be, every
byte permits the access, and alignment checking finds no fault (20_memory.md R42 to R46, R55; 60_exceptions.md R204). -/
abbrev OperandOk (s : State) (acc : Access) (n : Nat) (align : Bool) (e : Enc) (len : Nat) (m : Mem) : Prop :=
  segmentPermits s acc e m = true ∧ inReach s e len n m = true ∧ (align = true → addrOf s e len m % 16 = 0) ∧
  (∀ k < n, pageError s acc (addrOf s e len m + k) = none) ∧ ¬ AcFault s n (addrOf s e len m)

/-- The operand ModR/M names can be read: a register always, memory when it raises nothing. -/
abbrev ReadOk (s : State) (n : Nat) (align : Bool) (e : Enc) (len : Nat) (rm : Rm) : Prop :=
  match rm with
  | .reg _ => True
  | .mem m => OperandOk s .read n align e len m

/-- The operand ModR/M names can be written: a register always, memory when it raises nothing and no byte of it belongs to the
program text (20_memory.md R53). -/
abbrev WriteOk (s : State) (n : Nat) (e : Enc) (len : Nat) (rm : Rm) : Prop :=
  match rm with
  | .reg _ => True
  | .mem m => OperandOk s .write n false e len m ∧ ¬ (addrOf s e len m < s.codeEnd ∧ s.codeBase < addrOf s e len m + n)

/-- The operand of any of the 49 raises nothing. -/
abbrev OperandsOk (i : Instr) (s : State) : Prop :=
  if i.excClass.stores then WriteOk s i.memBytes i.operands.enc i.len i.operands.rm
  else ReadOk s i.memBytes i.excClass.aligned16 i.operands.enc i.len i.operands.rm

/-! ### What the operands are worth (`SRC` of the rules) -/

/-- `xmm2/m`: the register, or `n` bytes of memory, lowest first (20_memory.md R41). -/
def srcXmm (s : State) (n : Nat) (e : Enc) (len : Nat) (rm : Rm) : XWord :=
  match rm with
  | .reg r => s.getXmm r
  | .mem m => s.mem.readLE (addrOf s e len m) n

/-- `r/m` as a source: the general register, or `n` bytes of memory (10_state.md R24). -/
def srcGpr (s : State) (n : Nat) (e : Enc) (len : Nat) (rm : Rm) : XWord :=
  match rm with
  | .reg r => (s.getGpr r).setWidth 128
  | .mem m => s.mem.readLE (addrOf s e len m) n

/-! ### Frames -/

/-- Every part of the state that none of the 49 instructions writes (10_state.md R29, R30; 60_exceptions.md R214, R222; 70 R240). -/
structure SystemSame (s t : State) : Prop where
  csBase : t.csBase = s.csBase
  cr0 : t.cr0 = s.cr0
  cr2 : t.cr2 = s.cr2
  cr4 : t.cr4 = s.cr4
  cpl : t.cpl = s.cpl
  fsBase : t.fsBase = s.fsBase
  gsBase : t.gsBase = s.gsBase
  segments : t.segments = s.segments
  mode : t.mode = s.mode
  hasSse41 : t.hasSse41 = s.hasSse41
  vaBits : t.vaBits = s.vaBits
  nanDp : t.nanDp = s.nanDp
  roundImmHi : t.roundImmHi = s.roundImmHi
  debugBreakpoints : t.debugBreakpoints = s.debugBreakpoints
  mapped : t.mapped = s.mapped
  codeBase : t.codeBase = s.codeBase
  codeEnd : t.codeEnd = s.codeEnd

/-- `t` is `s` after an instruction of `len` bytes, but for the XMM register `x`, the general register `g`, the `n` bytes of memory
from `a`, `RFLAGS` and `MXCSR`: every other XMM register, general register and byte of memory is as before, and so is the system
state; `RIP` has moved past the instruction (10_state.md R25). -/
structure Frame (s t : State) (len : Nat) (x g : Option Reg) (a n : Nat) : Prop where
  system : SystemSame s t
  rip : t.rip = modeWidth s.mode (s.rip + BitVec.ofNat 64 len)
  xmm : ∀ r, x ≠ some r → t.getXmm r = s.getXmm r
  gpr : ∀ r : Reg, g ≠ some r → t.gpr[r] = s.gpr[r]
  mem : ∀ b, ¬ (a ≤ b ∧ b < a + n) → t.mem.read b = s.mem.read b

/-! ### Which exceptions may be raised (60_exceptions.md R209) -/

/-- The exception is one the class allows: #UD and #NM always; #GP, #SS, #PF for a memory form (#PF with W/R as the class's direction
and I/D clear); #AC for a memory form of more than one byte that need not be 16-byte aligned, when alignment checking is on; the
floating-point faults for the FP classes. Each saves the `RIP` of the instruction. -/
def MayRaise (c : ExcClass) (memForm : Prop) (n : Nat) (s : State) (f : Fault) : Prop :=
  match f with
  | .invalidOpcode p => p = s.rip
  | .deviceNotAvailable p => p = s.rip
  | .stackSegment p => p = s.rip ∧ memForm
  | .generalProtection p => p = s.rip ∧ memForm
  | .pageFault p code _ => p = s.rip ∧ memForm ∧ code.getLsbD 1 = c.stores ∧ code.getLsbD 4 = false
  | .alignmentCheck p => p = s.rip ∧ memForm ∧ c.aligned16 = false ∧ 1 < n ∧ s.acEnabled = true
  | .simdFloatingPoint p _ => p = s.rip ∧ c.fp = true ∧ s.osxmmexcpt = true
  | .simdInvalidOpcode p _ => p = s.rip ∧ c.fp = true ∧ s.osxmmexcpt = false

/-! ### The shapes of the instruction rules -/

/-- What is said of an instruction whose rule writes one XMM register and no flag: its opcode key; its exception class; and, wherever
it may run and its source raises nothing, that it answers a next state in which the new value `R` of the destination is as `post`
says, and everything else is as before. `src` is the value of `SRC`. -/
structure XmmRule (i : Instr) (key : OpKey) (c : ExcClass) (n : Nat) (dst : Reg) (rm : Rm) (src : State → XWord)
    (post : State → XWord → XWord → Prop) : Prop where
  key : i.key = key
  faults : ∀ s f, exec i s = .fault f → MayRaise c (∃ m, rm = .mem m) n s f
  runs : ∀ s, Ready i s → ReadOk s n c.aligned16 i.operands.enc i.len rm →
    ∃ t, exec i s = .next t ∧ post s (src s) (t.getXmm dst) ∧
      Frame s t i.len (some dst) none 0 0 ∧ t.rflags = s.rflags ∧ t.mxcsr = s.mxcsr

/-- An `XmmRule` of an instruction whose second operand is `xmm2/m`. -/
abbrev XRule (i : Instr) (key : OpKey) (c : ExcClass) (n : Nat) (dst : Reg) (rm : Rm) (post : State → XWord → XWord → Prop) : Prop :=
  XmmRule i key c n dst rm (fun s => srcXmm s n i.operands.enc i.len rm) post

/-- An `XmmRule` of an instruction whose second operand is `r/m`, a general register or memory. -/
abbrev GRule (i : Instr) (key : OpKey) (n : Nat) (dst : Reg) (rm : Rm) (post : State → XWord → XWord → Prop) : Prop :=
  XmmRule i key .n n dst rm (fun s => srcGpr s n i.operands.enc i.len rm) post

/-- What is said of an instruction whose rule writes a general register or `n` bytes of memory: `val` is the extracted field. The
register form writes the whole register, zero-extended (10_state.md R24); the memory form stores the field's bytes, lowest first, at
the linear address of the operand and nowhere else. -/
structure ExtractRule (i : Instr) (key : OpKey) (n w : Nat) (rm : Rm) (val : State → BitVec w) : Prop where
  key : i.key = key
  faults : ∀ s f, exec i s = .fault f → MayRaise .nw (∃ m, rm = .mem m) n s f
  toRegister : ∀ s r, rm = .reg r → Ready i s →
    ∃ t, exec i s = .next t ∧ t.getGpr r = (val s).setWidth 64 ∧
      Frame s t i.len none (some r) 0 0 ∧ t.rflags = s.rflags ∧ t.mxcsr = s.mxcsr
  toMemory : ∀ s m, rm = .mem m → Ready i s → WriteOk s n i.operands.enc i.len (.mem m) →
    ∃ t, exec i s = .next t ∧
      (∀ k < n, t.mem.read (addrOf s i.operands.enc i.len m + k) = (val s).extractLsb' (8 * k) 8) ∧
      Frame s t i.len none none (addrOf s i.operands.enc i.len m) n ∧ t.rflags = s.rflags ∧ t.mxcsr = s.mxcsr

/-- What an operation detects (43_dot_product.md R154) whose masked run raises `f` and is fed by operations that raise `feeds`: nothing
if one of these raises an unmasked exception; of I, D and the rest only I and D if one of the two is raised and unmasked. -/
def Detects (s : State) (feeds f : FpFlags) : FpFlags :=
  if unmasked s feeds ≠ 0 then 0 else if unmasked s f &&& (fIE ||| fDE) ≠ 0 then f &&& (fIE ||| fDE) else f

/-- The union of the flags of a list. -/
def unionFlags (l : List FpFlags) : FpFlags := l.foldr (· ||| ·) 0

/-- The flags `g` an unmasked floating-point fault may record (43_dot_product.md R154, 60_exceptions.md R208, U4) when the masked run raises
`f` and the operations of each level detect `levels`: among those of the masked run; with the faulting exception, an unmasked one that is
detected, among them; and only I and D when an unmasked I or D is detected. What counts as detected, all levels or those up to the first
with an unmasked exception, is open, and that an operation fed by a faulting one does not detect is DEDUCED (log 9). -/
def FaultSet (s : State) (f : FpFlags) (levels : List FpFlags) (g : FpFlags) : Prop :=
  g &&& f = g ∧ ∃ c, (c = unionFlags levels ∨ ∃ front l back, levels = front ++ l :: back ∧ unmasked s (unionFlags front) = 0 ∧
      unmasked s l ≠ 0 ∧ c = unionFlags (front ++ [l])) ∧
    g &&& unmasked s c ≠ 0 ∧ (unmasked s c &&& (fIE ||| fDE) ≠ 0 → g &&& (fIE ||| fDE) = g)

/-- What is said of a floating-point instruction: as `XmmRule`, but the flags it raises (`flags`) are accumulated in `MXCSR` when
every raised exception is masked, and otherwise it faults, by #XM or #UD as `CR4.OSXMMEXCPT` says, with a set of flags that what its
operations detect (`levels`) allows (43_dot_product.md R154, 60_exceptions.md R208). -/
structure FpRule (i : Instr) (key : OpKey) (c : ExcClass) (n : Nat) (dst : Reg) (rm : Rm) (flags : State → XWord → FpFlags)
    (levels : State → XWord → List FpFlags) (post : State → XWord → XWord → Prop) : Prop where
  key : i.key = key
  faults : ∀ s f, exec i s = .fault f → MayRaise c (∃ m, rm = .mem m) n s f
  runs : ∀ s, Ready i s → ReadOk s n c.aligned16 i.operands.enc i.len rm →
    unmasked s (flags s (srcXmm s n i.operands.enc i.len rm)) = 0 →
    ∃ t, exec i s = .next t ∧ post s (srcXmm s n i.operands.enc i.len rm) (t.getXmm dst) ∧
      Frame s t i.len (some dst) none 0 0 ∧ t.rflags = s.rflags ∧
      t.mxcsr = s.mxcsr ||| (flags s (srcXmm s n i.operands.enc i.len rm)).setWidth 32
  traps : ∀ s, Ready i s → ReadOk s n c.aligned16 i.operands.enc i.len rm →
    unmasked s (flags s (srcXmm s n i.operands.enc i.len rm)) ≠ 0 →
    ∃ g, FaultSet s (flags s (srcXmm s n i.operands.enc i.len rm)) (levels s (srcXmm s n i.operands.enc i.len rm)) g ∧
      exec i s = .fault
        (if s.osxmmexcpt then .simdFloatingPoint s.rip (s.mxcsr ||| g.setWidth 32)
         else .simdInvalidOpcode s.rip (s.mxcsr ||| g.setWidth 32))

/-! ### The machine as a whole -/

/-- The invariant: memory is in its canonical form and holds addresses of the space only; the reserved bits of `MXCSR` are 0
(10_state.md R28); bit 1 of `RFLAGS` is 1 (R26); in mode32 `EIP` and the general registers have 32 bits (R23, R25). -/
abbrev Inv (s : State) : Prop :=
  s.mem.wf ∧ (∀ c ∈ s.mem, c.1 < 2 ^ 64) ∧ s.mxcsr.extractLsb' 16 16 = 0 ∧ s.rflags.getLsbD 1 = true ∧
  (s.mode = .mode32 → s.rip.toNat < 2 ^ 32 ∧ ∀ r : Reg, s.gpr[r].toNat < 2 ^ 32)

/-- `n` steps that all complete. -/
def stepN : Nat → State → Option State
  | 0, s => some s
  | n + 1, s =>
    match step s with
    | .next t => stepN n t
    | .fault _ => none
    | .refused _ => none

/-- The bytes at `RIP` are fetched: the text lies where it must, `RIP` and the bytes lie in it and permit the fetch, and neither
single-stepping nor a breakpoint is on (60_exceptions.md R200, R219; 70 R240, R244; the place of TF is log 30). -/
abbrev CodeAt (s : State) (bytes : List Byte) : Prop :=
  s.mode ≠ .mode16 ∧ s.tf = false ∧ s.debugBreakpoints = false ∧
  (s.mode = .mode64 → canonicalRange s.vaBits s.rip.toNat 1 = true) ∧ textOk s = true ∧
  s.codeBase ≤ s.rip.toNat ∧ s.rip.toNat + bytes.length ≤ s.codeEnd ∧
  ∀ k < bytes.length, pageError s .fetch (s.rip.toNat + k) = none ∧ s.mem.read (s.rip.toNat + k) = bytes[k]?.getD 0

/-- Apply a function to the state of a completed outcome. -/
def mapNext (g : State → State) (x : Outcome State) : Outcome State :=
  match x with
  | .next t => .next (g t)
  | .fault f => .fault f
  | .refused r => .refused r

/-- The same machine with other memory types (20_memory.md R48). -/
def State.retype (s : State) (g : Region → MemType) : State :=
  { s with mapped := s.mapped.map fun r => { r with memType := g r } }

/-! ### Addresses as integers (30_encoding.md R65 to R71) -/

/-- A displacement as a signed number. -/
def dispInt : Disp → Int
  | .none => 0
  | .d8 d => d.toInt
  | .d32 d => d.toInt

/-- An index term as a number: 0, or the register times 2^scale. -/
def indexInt (s : State) (scale : BitVec 2) : Option Reg → Int
  | none => 0
  | some r => (s.getGpr r).toNat * 2 ^ scale.toNat

/-- Base plus index plus displacement as an integer, before any truncation; the form without base and index is relative to the next
instruction in mode64 only. -/
def eaInt (s : State) (len : Nat) : Mem → Int
  | .base b d => (s.getGpr b).toNat + dispInt d
  | .sib b sc x d => (s.getGpr b).toNat + indexInt s sc x + dispInt d
  | .sibNoBase sc x d => indexInt s sc x + d.toInt
  | .disp32 d => (if s.mode = .mode64 then (s.rip.toNat + len : Int) else 0) + d.toInt

/-- FS.base, GS.base, or 0 (30_encoding.md R71). -/
def segInt (s : State) (e : Enc) : Int :=
  if e.seg = some .fs then s.fsBase.toNat else if e.seg = some .gs then s.gsBase.toNat else 0

/-- Through SS in mode64: base register RSP or RBP, and no FS or GS override (20_memory.md R46, 60_exceptions.md R205). -/
def StackBased (e : Enc) (m : Mem) : Prop :=
  ((∃ d, m = .base 4 d ∨ m = .base 5 d) ∨ ∃ sc x d, m = .sib 4 sc x d ∨ m = .sib 5 sc x d) ∧
  e.seg ≠ some .fs ∧ e.seg ≠ some .gs

/-- Through SS in mode32: by the SS override, or without any override by base register ESP or EBP (60_exceptions.md R205). -/
def StackBased32 (e : Enc) (m : Mem) : Prop :=
  e.seg = some .ss ∨ (e.seg = none ∧ ((∃ d, m = .base 4 d ∨ m = .base 5 d) ∨ ∃ sc x d, m = .sib 4 sc x d ∨ m = .sib 5 sc x d))

/-- The segment of a memory operand in mode32: the override's, or without one SS by base register ESP or EBP, else DS (10_state.md R30). -/
def UsesSegment32 (e : Enc) (m : Mem) (g : SegOverride) : Prop :=
  e.seg = some g ∨ (e.seg = none ∧ (g = .ss ∧ StackBased32 e m ∨ g = .ds ∧ ¬ StackBased32 e m))

/-- The rights of a segment forbid reading, or writing: it is a null selector, not readable, or not writable (60_exceptions.md R204 (c)). -/
def SegRights.Forbids (r : SegRights) (stores : Bool) : Prop :=
  r = .null ∨ r = .executeOnly ∨ (stores = true ∧ r = .readOnly)

/-- A linear address is canonical: bits 63 down to `VA_BITS - 1` are all equal (20_memory.md R46). -/
def Canonical (va : VaBits) (a : Quad) : Prop := ∀ k, va.toNat - 1 ≤ k → k < 64 → a.getLsbD k = a.getLsbD 63

/-! ### Floating-point fields as real numbers (43_dot_product.md R150) -/

/-- The value of a finite field: denormals and zeros without the hidden bit, normals with it. -/
def FpFmt.value (k : FpFmt) (v : Nat) : ℚ :=
  (if k.sign v then -1 else 1) *
    (if k.exp v = 0 then (k.frac v : ℚ) * (2 : ℚ) ^ (1 - (k.bias : Int) - k.fw)
     else ((2 ^ k.fw + k.frac v : Nat) : ℚ) * (2 : ℚ) ^ ((k.exp v : Int) - k.bias - k.fw))

/-- The number is a field of the format with a finite value. -/
def FpFmt.Finite (k : FpFmt) (v : Nat) : Prop := v < 2 ^ (1 + k.ew + k.fw) ∧ k.exp v ≠ k.emax

/-- `v` is a correct rounding of the real number `x` to the format under `rc` (43_dot_product.md R151): the greatest finite field at or
below `x` (01), the least at or above (10), the one of greatest magnitude not above `x`'s (11), or a nearest one, of even fraction
if two are nearest (00). -/
def FpFmt.Rounds (k : FpFmt) (rc : BitVec 2) (x : ℚ) (v : Nat) : Prop :=
  (rc = 0 → ∀ y, k.Finite y → |k.value v - x| ≤ |k.value y - x| ∧
    (|k.value v - x| = |k.value y - x| → k.value y ≠ k.value v → k.frac v % 2 = 0)) ∧
  (rc = 1 → k.value v ≤ x ∧ ∀ y, k.Finite y → k.value y ≤ x → k.value y ≤ k.value v) ∧
  (rc = 2 → x ≤ k.value v ∧ ∀ y, k.Finite y → x ≤ k.value y → k.value v ≤ k.value y) ∧
  (rc = 3 → |k.value v| ≤ |x| ∧ ∀ y, k.Finite y → |k.value y| ≤ |x| → |k.value y| ≤ |k.value v|)

/-- A real number of at most `p` significant bits, the exponent unbounded. -/
def Precise (p : Nat) (y : ℚ) : Prop := ∃ (n : Nat) (e : Int), n < 2 ^ p ∧ |y| = n * (2 : ℚ) ^ e

/-- `y` is `x` rounded under `rc` to the significand of the format with unbounded exponent (43_dot_product.md R151): the greatest such
number at or below `x` (01), the least at or above (10), the one of greatest magnitude not above `x`'s and of its sign (11), or a nearest
one, of even significand if two are nearest (00). -/
def FpFmt.RoundsFree (k : FpFmt) (rc : BitVec 2) (x y : ℚ) : Prop :=
  Precise (k.fw + 1) y ∧
  (rc = 0 → ∀ z, Precise (k.fw + 1) z → |y - x| ≤ |z - x| ∧ (|y - x| = |z - x| → z ≠ y → Precise k.fw y)) ∧
  (rc = 1 → y ≤ x ∧ ∀ z, Precise (k.fw + 1) z → z ≤ x → z ≤ y) ∧
  (rc = 2 → x ≤ y ∧ ∀ z, Precise (k.fw + 1) z → x ≤ z → y ≤ z) ∧
  (rc = 3 → 0 ≤ x * y ∧ |y| ≤ |x| ∧ ∀ z, Precise (k.fw + 1) z → |z| ≤ |x| → |z| ≤ |y|)

/-- The answer `r` of masked overflow, by RC and whether the result is negative (43_dot_product.md R151). -/
def FpFmt.Overflowed (k : FpFmt) (rc : BitVec 2) (neg : Prop) (r : Nat) : Prop :=
  (rc = 0 → (neg → r = k.inf true) ∧ (¬ neg → r = k.inf false)) ∧
  (rc = 1 → (neg → r = k.inf true) ∧ (¬ neg → r = k.maxFinite false)) ∧
  (rc = 2 → (neg → r = k.maxFinite true) ∧ (¬ neg → r = k.inf false)) ∧
  (rc = 3 → (neg → r = k.maxFinite true) ∧ (¬ neg → r = k.maxFinite false))

/-- What is said of a multiply or add of finite operands with exact result `x`, answer `r` and flags `f` (43_dot_product.md R151, R153).
`de` is DE where an operand is a denormal that DAZ does not read as zero, and it is raised whatever else is. `zneg` is the sign of a zero
result. Else `x` is rounded with unbounded exponent to `y`: beyond the largest finite number `r` is the overflow answer, with OE and PE;
below the smallest normal it is a zero of `x`'s sign with UE and PE where tiny results are flushed, and otherwise the field of `x`'s sign
that `x` rounds to, with UE and PE if that is inexact; in between it is `y`, with PE if that is inexact. No other flag is raised. -/
def FpFmt.RoundedOp (k : FpFmt) (env : FpEnv) (de : FpFlags) (x : ℚ) (zneg : Bool) (r : Nat) (f : FpFlags) : Prop :=
  (x = 0 → r = k.zero zneg ∧ f = de) ∧
  (x ≠ 0 → ∃ y, k.RoundsFree env.rc x y ∧
    (k.value (k.maxFinite false) < |y| → k.Overflowed env.rc (x < 0) r ∧ f = de ||| fOE ||| fPE) ∧
    (|y| < (2 : ℚ) ^ (1 - (k.bias : Int)) → env.flush = true → r = k.zero (decide (x < 0)) ∧ f = de ||| fUE ||| fPE) ∧
    (|y| < (2 : ℚ) ^ (1 - (k.bias : Int)) → env.flush = false →
      k.Finite r ∧ k.sign r = decide (x < 0) ∧ k.Rounds env.rc x r ∧ f = de ||| (if k.value r = x then 0 else fUE ||| fPE)) ∧
    (|y| ≤ k.value (k.maxFinite false) → (2 : ℚ) ^ (1 - (k.bias : Int)) ≤ |y| →
      k.Finite r ∧ k.sign r = decide (x < 0) ∧ k.value r = y ∧ f = de ||| (if y = x then 0 else fPE)))

/-- The DE of an operation on two operands that are not NaNs (43_dot_product.md R153). -/
def FpFmt.denormFlag (k : FpFmt) (env : FpEnv) (a b : Nat) : FpFlags :=
  if env.daz = false ∧ (k.isDenormal a = true ∨ k.isDenormal b = true) then fDE else 0

/-- The special cases of one multiply and one add in the order of 43_dot_product.md R151, R152, for fields of `w` bits; `sb` is the sign
bit, `qb` the top fraction bit, `inf` plus infinity, `ind` the indefinite. Operands are taken after the DAZ step. -/
structure SpecialCases (k : FpFmt) (env : FpEnv) {w : Nat} (mul add : BitVec w → BitVec w → BitVec w × FpFlags)
    (sb qb inf ind : BitVec w) : Prop where
  firstNaN : ∀ a b, k.isNaN a.toNat = true → (mul a b).1 = a ||| qb ∧ (add a b).1 = a ||| qb
  secondNaN : ∀ a b, k.isNaN a.toNat = false → k.isNaN b.toNat = true → (mul a b).1 = b ||| qb ∧ (add a b).1 = b ||| qb
  nanFlags : ∀ a b, k.isNaN a.toNat = true ∨ k.isNaN b.toNat = true →
    (mul a b).2 = (if k.isSNaN a.toNat || k.isSNaN b.toNat then fIE else 0) ∧
    (add a b).2 = (if k.isSNaN a.toNat || k.isSNaN b.toNat then fIE else 0)
  infTimesZero : ∀ a b, a &&& ~~~sb = inf → (b &&& ~~~sb = 0 ∨ k.isDenormal b.toNat = true ∧ env.daz = true) →
    mul a b = (ind, fIE) ∧ mul b a = (ind, fIE)
  infTimesOther : ∀ a b, a &&& ~~~sb = inf → k.isNaN b.toNat = false → b &&& ~~~sb ≠ 0 →
    (k.isDenormal b.toNat = true → env.daz = false) →
    mul a b = (inf ||| ((a ^^^ b) &&& sb), k.denormFlag env a.toNat b.toNat) ∧
    mul b a = (inf ||| ((a ^^^ b) &&& sb), k.denormFlag env a.toNat b.toNat)
  zeroTimesFinite : ∀ a b, (a &&& ~~~sb = 0 ∨ k.isDenormal a.toNat = true ∧ env.daz = true) → k.Finite b.toNat →
    mul a b = ((a ^^^ b) &&& sb, k.denormFlag env a.toNat b.toNat) ∧
    mul b a = ((a ^^^ b) &&& sb, k.denormFlag env a.toNat b.toNat)
  oppositeInfs : ∀ a, a &&& ~~~sb = inf → add a (a ^^^ sb) = (ind, fIE)
  sameInfs : ∀ a, a &&& ~~~sb = inf → add a a = (a, 0)
  infPlusFinite : ∀ a b, a &&& ~~~sb = inf → k.Finite b.toNat →
    add a b = (a, k.denormFlag env a.toNat b.toNat) ∧ add b a = (a, k.denormFlag env a.toNat b.toNat)
  cancels : ∀ a, k.Finite a.toNat → add a (a ^^^ sb) = (if env.rc = 1 then sb else 0, k.denormFlag env a.toNat a.toNat)
  zeros : ∀ a, a &&& ~~~sb = 0 → add a a = (a, 0)

/-- What is said of a field `f` rounded to an integral value `r` with flags `fl` under mode `m` with precision suppressed or not
(46_round.md R181): `r` is the integer nearest to `f` (00; the even one of two), its floor (01), its ceiling (10), or its integer
part (11), with the sign of `f`; PE exactly when the value changed and precision is not suppressed; no other flag. -/
def FpFmt.RoundedToInt (k : FpFmt) (m : BitVec 2) (p : Bool) (f r : Nat) (fl : FpFlags) : Prop :=
  k.Finite r ∧ k.sign r = k.sign f ∧
  (m = 0 → ∃ n : Int, k.value r = n ∧ |k.value f - n| ≤ 1 / 2 ∧ (|k.value f - n| = 1 / 2 → n % 2 = 0)) ∧
  (m = 1 → k.value r = ⌊k.value f⌋) ∧ (m = 2 → k.value r = ⌈k.value f⌉) ∧
  (m = 3 → k.value r = if 0 ≤ k.value f then (⌊k.value f⌋ : ℚ) else ⌈k.value f⌉) ∧
  fl = if k.value r ≠ k.value f ∧ p = false then fPE else 0

end Sys2Proof.Machine
end

