-- ==== Sys2Proof/Certificates/Slice0/Obligations.lean ====
section
/-! DEFINITION. The statements for the provers. The terms they are written in are Sys2Proof/Safety.lean's; `d` is the destination, `x`
the second operand, `v` the value of `SRC`, `r` the new value of the destination, `lane w i` the field `i` of width `w`. -/

open Sys2Proof Sys2Proof.Machine

/-! ## Encoding (30_encoding.md) -/

/-- R60 to R77, R84: decoding the bytes of a well-formed instruction gives it back, whatever bytes follow. -/
def Obligations.DecodeEncodeRoundTrip : Prop :=
  ∀ (md : Mode) (i : Instr) (rest : List Byte), i.wf md = true → decode md (encode i ++ rest) = .ok (i, rest)

/-- R60 to R64, R73, R79, R84: the decoder accepts exactly the encodings of the well-formed instructions, their legacy bytes in any order,
and takes exactly their bytes: those before the escape (among them `66`), escape and opcode, ModR/M, SIB, displacement and immediate; 5
at least and 14 at most. Everything else is refused. -/
def Obligations.DecodedLength : Prop :=
  (∀ (md : Mode) (bs : List Byte) (i : Instr) (rest : List Byte), decode md bs = .ok (i, rest) ↔
    i.wf md = true ∧ ∃ l, l.Perm i.operands.enc.legacy ∧ bs = l ++ encodeBody i ++ rest) ∧
  (∀ (md : Mode) (bs : List Byte) (i : Instr) (rest : List Byte), decode md bs = .ok (i, rest) →
    bs.length = i.len + rest.length ∧ 5 ≤ i.len ∧ i.len ≤ 14) ∧
  ∀ i : Instr, i.len = (i.operands.enc.seg.isSome.toNat + i.operands.enc.addr32.toNat + 1 + i.operands.enc.rex.isSome.toNat) + 3
      + i.operands.rm.len + i.operands.imm.isSome.toNat

/-- A few words written out from the opcode maps (R75, R76) and the fields of ModR/M and SIB (R65, R66), one for each family. -/
def Obligations.DecodesWrittenOutWords : Prop :=
  decode .mode64 [0x66, 0x0F, 0x3A, 0x42, 0xCA, 0x05] = .ok (.mpsadbw ⟨none, false, none⟩ 1 (.reg 2) 5, []) ∧
  decode .mode64 [0x66, 0x45, 0x0F, 0x38, 0x3D, 0xCA] = .ok (.pmaxsd ⟨none, false, some 5⟩ 9 (.reg 10), []) ∧
  decode .mode64 [0x66, 0x49, 0x0F, 0x3A, 0x22, 0xC8, 0x01] = .ok (.pinsrq ⟨none, false, some 9⟩ 1 (.reg 8) 1, []) ∧
  decode .mode64 [0x66, 0x44, 0x0F, 0x3A, 0x41, 0xE3, 0x31] = .ok (.dppd ⟨none, false, some 4⟩ 12 (.reg 3) 0x31, []) ∧
  decode .mode64 [0x66, 0x0F, 0x38, 0x14, 0xCA] = .ok (.blendvps ⟨none, false, none⟩ 1 (.reg 2), []) ∧
  decode .mode64 [0x67, 0x66, 0x0F, 0x38, 0x17, 0x04, 0x24] = .ok (.ptest ⟨none, true, none⟩ 0 (.mem (.sib 4 0 none .none)), []) ∧
  decode .mode64 [0x64, 0x66, 0x44, 0x0F, 0x3A, 0x0B, 0x44, 0xCB, 0x80, 0x0C]
    = .ok (.roundsd ⟨some .fs, false, some 4⟩ 8 (.mem (.sib 3 3 (some 1) (.d8 0x80))) 0x0C, []) ∧
  decode .mode64 [0x66, 0x47, 0x0F, 0x38, 0x2A, 0x1C, 0x7E] = .ok (.movntdqa ⟨none, false, some 7⟩ 11 (.sib 14 1 (some 15) .none), [])

/-- R63: LOCK anywhere among the legacy bytes of one of the 49 is #UD; REP and REPNE behind any legacy bytes are refused, and so is a
second byte of a group behind any others. That a second LOCK is refused like a second byte of the other groups is the model's reading
(log 23). -/
def Obligations.ForbiddenPrefixes : Prop :=
  (∀ (md : Mode) (i : Instr) (l rest : List Byte), i.wf md = true → l.Perm (0xF0 :: i.operands.enc.legacy) →
    decode md (l ++ encodeBody i ++ rest) = .error .lockByte) ∧
  ∀ (md : Mode) (l bs : List Byte), md ≠ .mode16 → LegacyRun md l →
    decode md (l ++ 0xF2 :: bs) = .error .repeatByte ∧ decode md (l ++ 0xF3 :: bs) = .error .repeatByte ∧
    ∀ b c, LegacyByte md b → c ∈ l → SameGroup b c → decode md (l ++ b :: bs) = .error .duplicateLegacy

/-- R78: MOVNTDQA with a register as second operand is #UD in every spelling; every other opcode has both forms, MOVNTDQA the memory form
alone. -/
def Obligations.MovntdqaHasNoRegisterForm : Prop :=
  (∀ (md : Mode) (e : Enc) (l : List Byte) (modrm : Byte) (rest : List Byte), e.modeOk md = true → l.Perm e.legacy →
    modrm.extractLsb' 6 2 = 3 → decode md (movntdqaRegBytes e l modrm ++ rest) = .error .movntdqaRegister) ∧
  ∀ i : Instr, i.key ≠ ⟨.m38, 0x2A⟩ → ∀ rm : Rm, ∃ j : Instr, j.key = i.key ∧ j.operands = { i.operands with rm := rm }

/-- R77: where REX.W does not choose between two instructions, turning it changes neither what decodes nor what runs. -/
def Obligations.RexWIsIgnored : Prop :=
  ∀ (i j : Instr) (b : BitVec 4), i.requiredW = none → i.operands.enc.rex = some b → j.key = i.key →
    j.operands = { i.operands with enc := { i.operands.enc with rex := some (b ^^^ 8) } } →
    (∀ (md : Mode) (rest : List Byte), i.wf md = true → decode md (encode j ++ rest) = .ok (j, rest)) ∧
    ∀ s : State, exec j s = exec i s

/-- R80: what differs in mode32: no REX byte and no `67`, the first eight registers only, neither PINSRQ nor PEXTRQ, an absolute disp32; a
register destination of EXTRACTPS and PEXTRx has 32 bits. TWO CLAUSES ARE THE MODEL'S CHOICE, not R80's: that exec of PINSRQ and PEXTRQ
answers the refusal `mode64Only` there (log 20, DEDUCED), and that the 64-bit home of the register holds zeros above them (log 24, DESIGN
CHOICE). -/
def Obligations.Mode32Differences : Prop :=
  (∀ (bs : List Byte) (i : Instr) (rest : List Byte), decode .mode32 bs = .ok (i, rest) →
    i.operands.enc.rex = none ∧ i.operands.enc.addr32 = false ∧ i.operands.reg.val < 8 ∧ i.operands.rm.BelowEight ∧
    i.requiredW ≠ some true) ∧
  (∀ l bs : List Byte, LegacyRun .mode32 l → decode .mode32 (l ++ 0x67 :: bs) = .error .addr16) ∧
  (∀ (i : Instr) (s : State), i.requiredW = some true → s.mode = .mode32 → exec i s = .refused .mode64Only) ∧
  (∀ (s : State) (e : Enc) (len : Nat) (d : BitVec 32), s.mode = .mode32 → e.seg ≠ some .fs → e.seg ≠ some .gs →
    linearAddr s e len (.disp32 d) = d.setWidth 64) ∧
  ∀ (i : Instr) (s t : State) (r : Reg), s.mode = .mode32 → i.excClass.stores = true → i.operands.rm = .reg r → exec i s = .next t →
    t.gpr[r].toNat < 2 ^ 32

/-! ## The machine as a whole -/

/-- 60_exceptions.md R200: where the bytes at RIP decode to an instruction, a step is exec of it; the meanings move RIP themselves, so
the step adds nothing around exec. -/
def Obligations.StepRunsTheDecodedInstruction : Prop :=
  ∀ (s : State) (bytes : List Byte) (i : Instr), CodeAt s bytes → decode s.mode bytes = .ok (i, []) → step s = exec i s

/-- 60_exceptions.md R202: LOCK among the legacy bytes of one of the 49, or MOVNTDQA with a register in any spelling, with LOCK or without,
is #UD as a step, whatever the operands. -/
def Obligations.IllegalEncodingsRaiseUd : Prop :=
  (∀ (s : State) (i : Instr) (l : List Byte), i.wf s.mode = true → l.Perm (0xF0 :: i.operands.enc.legacy) →
    CodeAt s (l ++ encodeBody i) → step s = .fault (.invalidOpcode s.rip)) ∧
  ∀ (s : State) (e : Enc) (l : List Byte) (modrm : Byte), e.modeOk s.mode = true →
    (l.Perm e.legacy ∨ l.Perm (0xF0 :: e.legacy)) → modrm.extractLsb' 6 2 = 3 → CodeAt s (movntdqaRegBytes e l modrm) →
    step s = .fault (.invalidOpcode s.rip)

/-- 70_reset_and_hazards.md R244: every step that completes moves RIP by 5 to 14 bytes, stays within the program text, and a run of a
program of `n` bytes takes at most `n / 5` steps (D18). THE THIRD CLAUSE IS THE MODEL'S CHOICE: R244 says
that the run completes at `code_end`; that a step there is the refusal `endOfProgram`, before it looks for single-stepping or a
breakpoint, is log 18 (DESIGN CHOICE) with the order of log 16. -/
def Obligations.EveryRunTerminates : Prop :=
  (∀ s t : State, step s = .next t →
    s.codeBase ≤ s.rip.toNat ∧ s.rip.toNat + 5 ≤ t.rip.toNat ∧ t.rip.toNat ≤ s.rip.toNat + 14 ∧ t.rip.toNat ≤ s.codeEnd) ∧
  (∀ (s t : State) (n k : Nat), s.rip.toNat = s.codeBase → s.codeEnd = s.codeBase + n → stepN k s = some t → k ≤ n / 5) ∧
  ∀ s : State, s.mode ≠ .mode16 → s.rip.toNat = s.codeEnd → step s = .refused .endOfProgram

/-- Every step keeps the invariant: memory's canonical form, the reserved bits of MXCSR (10_state.md R28), bit 1 of RFLAGS (R26), the
32-bit registers of mode32 (R23, R25); and so does the state a fault leaves. -/
def Obligations.StepKeepsInv : Prop :=
  (∀ s t : State, Inv s → step s = .next t → Inv t) ∧ ∀ (s : State) (f : Fault), Inv s → step s = .fault f → Inv (f.leaves s)

/-- The invariant holds right after reset, and after INIT wherever it held before. -/
def Obligations.ResetMeetsInv : Prop :=
  Inv State.reset ∧ ∀ s : State, Inv s → Inv s.afterInit

/-- 10_state.md R33: the values after reset, and which of them INIT keeps. The digits of RDX that the rule leaves free are not stated; RAX
is "0 in the usual case"; that INIT keeps CD and NW in bits 30 and 29 is the model's (log 17). -/
def Obligations.ResetValues : Prop :=
  (∀ r : Reg, State.reset.getXmm r = 0) ∧ State.reset.mxcsr = 0x1F80 ∧ State.reset.gpr[0] = 0 ∧
  State.reset.gpr[2] &&& 0xFFFFFFFFFFF0FF00 = 0x600 ∧ (∀ r : Fin 16, r ≠ 0 → r ≠ 2 → State.reset.gpr[r] = 0) ∧
  State.reset.rflags = 2 ∧ State.reset.rip = 0xFFF0 ∧ State.reset.csBase = 0xFFFF0000 ∧
  State.reset.fetchAddress = 0xFFFFFFF0 ∧ State.reset.cr0 = 0x60000010 ∧ State.reset.cr4 = 0 ∧ State.reset.cpl = 0 ∧
  State.reset.fsBase = 0 ∧ State.reset.gsBase = 0 ∧ State.reset.mode = .mode16 ∧
  ∀ s : State,
    s.afterInit.xmm = s.xmm ∧ s.afterInit.mxcsr = s.mxcsr ∧ s.afterInit.gpr = State.reset.gpr ∧ s.afterInit.rflags = 2 ∧
    s.afterInit.rip = 0xFFF0 ∧ s.afterInit.csBase = 0xFFFF0000 ∧ s.afterInit.cr4 = 0 ∧ s.afterInit.cpl = 0 ∧
    s.afterInit.fsBase = 0 ∧ s.afterInit.gsBase = 0 ∧
    ∀ k < 64, s.afterInit.cr0.getLsbD k = if k = 29 ∨ k = 30 then s.cr0.getLsbD k else (0x10 : Quad).getLsbD k

/-- 70_reset_and_hazards.md R240, R241: in the reset state no instruction completes, by a step or by exec, until software has run. -/
def Obligations.NothingRunsAtReset : Prop :=
  step State.reset = .refused .mode16 ∧
  ∀ i : Instr, (∀ t, exec i State.reset ≠ .next t) ∧
    ∀ md : Mode, i.wf md = true → exec i { State.reset with mode := md } = .fault (.invalidOpcode 0xFFF0)

/-- 10_state.md R25: an instruction that completes moves RIP past itself, modulo the width of RIP, and changes nothing of the system
state (R29, R30; 60_exceptions.md R214). -/
def Obligations.RipMovesPastTheInstruction : Prop :=
  ∀ (i : Instr) (s t : State), exec i s = .next t →
    t.rip = modeWidth s.mode (s.rip + BitVec.ofNat 64 i.len) ∧ SystemSame s t

/-- 10_state.md R26: no instruction but PTEST changes RFLAGS, and PTEST changes none but CF, PF, AF, ZF, SF, OF. -/
def Obligations.OnlyPtestWritesFlags : Prop :=
  ∀ (i : Instr) (s t : State), exec i s = .next t →
    (i.key ≠ ⟨.m38, 0x17⟩ → t.rflags = s.rflags) ∧
    ∀ k, k ≠ 0 → k ≠ 2 → k ≠ 4 → k ≠ 6 → k ≠ 7 → k ≠ 11 → t.rflags.getLsbD k = s.rflags.getLsbD k

/-- 10_state.md R28: only DPPS, DPPD and ROUND* write MXCSR; they write no control field, set no ZE, and clear no flag; ROUND* sets none
but IE and PE. -/
def Obligations.MxcsrFlagsAreSticky : Prop :=
  ∀ (i : Instr) (s t : State), exec i s = .next t →
    (i.excClass.fp = false → t.mxcsr = s.mxcsr) ∧
    (∀ k, 6 ≤ k → t.mxcsr.getLsbD k = s.mxcsr.getLsbD k) ∧
    (∀ k, s.mxcsr.getLsbD k = true → t.mxcsr.getLsbD k = true) ∧ t.mxcsr.getLsbD 2 = s.mxcsr.getLsbD 2 ∧
    (i.roundImm.isSome = true → ∀ k, k ≠ 0 → k ≠ 5 → t.mxcsr.getLsbD k = s.mxcsr.getLsbD k)

/-- 20_memory.md R40, R43; 10_state.md R23: only EXTRACTPS and PEXTRx write memory or a general register, none writes an XMM register
beside; the others leave every byte as it was. -/
def Obligations.OnlyExtractsStore : Prop :=
  ∀ (i : Instr) (s t : State), exec i s = .next t →
    (i.excClass.stores = false → (∀ a, t.mem.read a = s.mem.read a) ∧ t.gpr = s.gpr) ∧
    (i.excClass.stores = true → t.xmm = s.xmm) ∧
    (∀ a, t.mem.read a ≠ s.mem.read a → ∃ m, i.operands.rm = .mem m ∧
      addrOf s i.operands.enc i.len m ≤ a ∧ a < addrOf s i.operands.enc i.len m + i.memBytes)

/-- 20_memory.md R53, D16: no step changes a byte of the program text: a store that overlaps it is refused by name. -/
def Obligations.ProgramTextIsFixed : Prop :=
  (∀ s t : State, step s = .next t → ∀ a, s.codeBase ≤ a → a < s.codeEnd → t.mem.read a = s.mem.read a) ∧
  ∀ (i : Instr) (s : State) (m : Mem), Ready i s → i.excClass.stores = true → i.operands.rm = .mem m →
    OperandOk s .write i.memBytes false i.operands.enc i.len m → addrOf s i.operands.enc i.len m < s.codeEnd →
    s.codeBase < addrOf s i.operands.enc i.len m + i.memBytes → exec i s = .refused .storesIntoProgram

/-- 60_exceptions.md R200, R209; 70_reset_and_hazards.md R240: under the launch premise for the floating-point masks (all 1) every one of
the 49 completes where it may run and its operands raise nothing; and none completes where a check of R202 to R207 finds something. -/
def Obligations.EveryInstructionCompletes : Prop :=
  (∀ (i : Instr) (s : State), Ready i s → OperandsOk i s → (i.excClass.fp = true → s.mxcsr.extractLsb' 7 6 = 0x3F) →
    ∃ t, exec i s = .next t) ∧
  ∀ (i : Instr) (s t : State), exec i s = .next t → Ready i s ∧ OperandsOk i s

/-- 60_exceptions.md R214: an instruction that completes completes identically at every CPL, where CPL does not matter to page permissions
(no supervisor page, and CR0.WP set or nothing that is read-only; R206) or alignment checking. That the rights of a region's key heed
CR0.WP as read-only pages do is log 14, and its place in CR0 log 29. -/
def Obligations.CplDoesNotMatter : Prop :=
  ∀ (i : Instr) (s t : State) (c : BitVec 2),
    (∀ g ∈ s.mapped, g.supervisor = false ∧ (s.wp = true ∨ g.writable = true ∧ g.key ≠ .noWrite)) → (s.am = false ∨ s.ac = false) →
    exec i s = .next t → exec i { s with cpl := c } = .next { t with cpl := c }

/-- 20_memory.md R48, D8: the memory types change no result of a step. -/
def Obligations.MemoryTypeDoesNotMatter : Prop :=
  ∀ (s : State) (g : Region → MemType), step (s.retype g) = mapNext (fun t => t.retype g) (step s)

/-! ## Exceptions (60_exceptions.md) -/

/-- R202, R203, R210: the gating checks come first, whatever the operands: #UD without the extension, with EM or without OSFXSR; else #NM
with TS. -/
def Obligations.GatingExceptions : Prop :=
  (∀ (i : Instr) (s : State), i.wf s.mode = true → (s.hasSse41 = false ∨ s.em = true ∨ s.osfxsr = false) →
    exec i s = .fault (.invalidOpcode s.rip)) ∧
  ∀ (i : Instr) (s : State), i.wf s.mode = true → s.hasSse41 = true → s.em = false → s.osfxsr = true → s.ts = true →
    exec i s = .fault (.deviceNotAvailable s.rip)

/-- 20_memory.md R44: a 16-byte operand within its segment's rights and reach that is not 16-byte aligned raises #GP(0), whatever the
pages, the immediate and alignment checking are. -/
def Obligations.MisalignedOperandRaisesGp : Prop :=
  ∀ (i : Instr) (s : State) (m : Mem), Ready i s → i.excClass.aligned16 = true → i.operands.rm = .mem m →
    segmentPermits s .read i.operands.enc m = true → inReach s i.operands.enc i.len 16 m = true → addrOf s i.operands.enc i.len m % 16 ≠ 0 →
    exec i s = .fault (.generalProtection s.rip)

/-- 20_memory.md R46, R204, R205: in mode64 an operand with a byte at a non-canonical address, or one that runs past the top of the space
(D6), raises #SS(0) when it is based on RSP or RBP without an FS or GS override, else #GP(0); for a 16-byte operand through SS that is
misaligned as well, one of the two (U12). -/
def Obligations.NonCanonicalOperandFaults : Prop :=
  ∀ (i : Instr) (s : State) (m : Mem), Ready i s → s.mode = .mode64 → i.operands.rm = .mem m →
    ((∃ k < i.memBytes, ¬ Canonical s.vaBits (linearAddr s i.operands.enc i.len m + BitVec.ofNat 64 k)) ∨
      2 ^ 64 < addrOf s i.operands.enc i.len m + i.memBytes) →
    (¬ StackBased i.operands.enc m → exec i s = .fault (.generalProtection s.rip)) ∧
    (StackBased i.operands.enc m → (i.excClass.aligned16 = true → addrOf s i.operands.enc i.len m % 16 = 0) →
      exec i s = .fault (.stackSegment s.rip)) ∧
    (StackBased i.operands.enc m →
      exec i s = .fault (.stackSegment s.rip) ∨ exec i s = .fault (.generalProtection s.rip))

/-- R206: a memory operand with a byte that does not permit the access raises #PF for the lowest such byte: CR2 is its address; bit 1 of the
code tells a write, bit 2 user mode, bit 4 (a fetch) is 0. THE MODEL'S CHOICE (log 14, DESIGN CHOICE): the paging entries R206 speaks of are
the list of regions, so bit 0 (P) says that one holds the byte, bit 3 (RSVD) that the first has a reserved bit set, bit 5 (PK) that its
key forbids the access (with CR0.WP's place by log 29). That a misaligned narrow operand raises #PF and not #AC under alignment checking,
which nothing here excludes, is log 27 (DEDUCED from U14; R210 does not settle it). -/
def Obligations.PageFaultNamesTheLowestByte : Prop :=
  ∀ (i : Instr) (s : State) (m : Mem) (k : Nat), Ready i s → i.operands.rm = .mem m → k < i.memBytes →
    segmentPermits s (if i.excClass.stores then .write else .read) i.operands.enc m = true →
    inReach s i.operands.enc i.len i.memBytes m = true →
    (i.excClass.aligned16 = true → addrOf s i.operands.enc i.len m % 16 = 0) →
    (∀ j < k, pageError s (if i.excClass.stores then .write else .read) (addrOf s i.operands.enc i.len m + j) = none) →
    (pageError s (if i.excClass.stores then .write else .read) (addrOf s i.operands.enc i.len m + k)).isSome = true →
    ∃ code, exec i s = .fault (.pageFault s.rip code (BitVec.ofNat 64 (addrOf s i.operands.enc i.len m + k))) ∧
      (code.getLsbD 0 = true ↔ ∃ g ∈ s.mapped, g.holds (addrOf s i.operands.enc i.len m + k) = true) ∧
      code.getLsbD 1 = i.excClass.stores ∧ (code.getLsbD 2 = true ↔ s.cpl = 3) ∧
      (code.getLsbD 3 = true ↔
        ∃ g, s.mapped.find? (fun h => h.holds (addrOf s i.operands.enc i.len m + k)) = some g ∧ g.reserved = true) ∧
      (code.getLsbD 5 = true ↔
        ∃ g, s.mapped.find? (fun h => h.holds (addrOf s i.operands.enc i.len m + k)) = some g ∧ g.reserved = false ∧
          (g.key = .nothing ∨ g.key = .noWrite ∧ i.excClass.stores = true ∧ (s.cpl = 3 ∨ s.cr0.getLsbD 16 = true))) ∧
      ∀ b, 4 ≤ b → b ≠ 5 → code.getLsbD b = false

/-- 20_memory.md R55, R206: which byte permits which access: none outside the admitted regions; none where a reserved bit is set; writing
needs a writable page in user mode, and for a supervisor under CR0.WP; user mode needs a page that is not the supervisor's; and the
protection key must permit a data access. THE MODEL'S CHOICE: that the pages are a list of regions of which the first that holds the byte
decides, and how keys bind (log 14); the place of CR0.WP (log 29). -/
def Obligations.PagePermissions : Prop :=
  ∀ (s : State) (acc : Access) (a : Nat),
    (pageError s acc a = none ↔ ∃ g, s.mapped.find? (fun h => h.holds a) = some g ∧ g.reserved = false ∧
      (acc = .write → g.writable = true ∨ (s.cpl ≠ 3 ∧ s.cr0.getLsbD 16 = false)) ∧ (s.cpl = 3 → g.supervisor = false) ∧
      (acc ≠ .fetch → g.key ≠ .nothing) ∧
      (acc = .write → g.key ≠ .noWrite ∨ (s.cpl ≠ 3 ∧ s.cr0.getLsbD 16 = false)))

/-- R207, 20_memory.md R45: an operand of 2, 4 or 8 bytes that is not a multiple of its size raises #AC(0) when AM, AC and CPL 3 come
together, and an operand of 1 byte or of 16 bytes never does; without the three an unaligned narrow operand raises nothing. -/
def Obligations.AlignmentChecking : Prop :=
  (∀ (i : Instr) (s : State) (m : Mem), Ready i s → i.operands.rm = .mem m → i.excClass.aligned16 = false →
    segmentPermits s (if i.excClass.stores then .write else .read) i.operands.enc m = true →
    inReach s i.operands.enc i.len i.memBytes m = true →
    (∀ k < i.memBytes, pageError s (if i.excClass.stores then .write else .read) (addrOf s i.operands.enc i.len m + k) = none) →
    s.cr0.getLsbD 18 = true → s.rflags.getLsbD 18 = true → s.cpl = 3 → addrOf s i.operands.enc i.len m % i.memBytes ≠ 0 →
    exec i s = .fault (.alignmentCheck s.rip)) ∧
  ∀ (i : Instr) (s : State) (p : Quad), exec i s = .fault (.alignmentCheck p) →
    (s.cr0.getLsbD 18 = true ∧ s.rflags.getLsbD 18 = true ∧ s.cpl = 3) ∧ (i.memBytes = 2 ∨ i.memBytes = 4 ∨ i.memBytes = 8) ∧
    ∃ m, i.operands.rm = .mem m ∧ addrOf s i.operands.enc i.len m % i.memBytes ≠ 0

/-- R209: the exceptions each of the 49 may raise are those of its class, and the register form raises none but #UD, #NM and, in the
floating-point classes, #XM; the class fixes the memory operand's width, alignment and direction (20_memory.md R43). -/
def Obligations.ExceptionClasses : Prop :=
  (∀ (i : Instr) (s : State) (f : Fault), exec i s = .fault f →
    MayRaise i.excClass (∃ m, i.operands.rm = .mem m) i.memBytes s f) ∧
  ∀ i : Instr, i.excClass.aligned16 = true ↔ i.memBytes = 16

/-- R200, R211: a fault names the address of the instruction, and leaves the state as it was, but for CR2 after #PF and the flag bits of
MXCSR, which only grow, after an unmasked floating-point exception. -/
def Obligations.FaultsLeaveTheState : Prop :=
  ∀ (i : Instr) (s : State) (f : Fault), exec i s = .fault f →
    f.rip = s.rip ∧ f.leaves s = { s with cr2 := (f.leaves s).cr2, mxcsr := (f.leaves s).mxcsr } ∧
    (f.vector ≠ 14 → (f.leaves s).cr2 = s.cr2) ∧ (i.excClass.fp = false → (f.leaves s).mxcsr = s.mxcsr) ∧
    (∀ k, 6 ≤ k → (f.leaves s).mxcsr.getLsbD k = s.mxcsr.getLsbD k) ∧
    ∀ k, s.mxcsr.getLsbD k = true → (f.leaves s).mxcsr.getLsbD k = true

/-- R201: the vector of each exception, and its error code: none for #UD, #NM and #XM, 0 for #SS, #GP and #AC, the fault code for #PF. -/
def Obligations.VectorsAndErrorCodes : Prop :=
  ∀ (p a : Quad) (c m : BitVec 32),
    ((Fault.invalidOpcode p).vector, (Fault.invalidOpcode p).errorCode) = (6, none) ∧
    ((Fault.deviceNotAvailable p).vector, (Fault.deviceNotAvailable p).errorCode) = (7, none) ∧
    ((Fault.stackSegment p).vector, (Fault.stackSegment p).errorCode) = (12, some 0) ∧
    ((Fault.generalProtection p).vector, (Fault.generalProtection p).errorCode) = (13, some 0) ∧
    ((Fault.pageFault p c a).vector, (Fault.pageFault p c a).errorCode) = (14, some c) ∧
    ((Fault.alignmentCheck p).vector, (Fault.alignmentCheck p).errorCode) = (17, some 0) ∧
    ((Fault.simdFloatingPoint p m).vector, (Fault.simdFloatingPoint p m).errorCode) = (19, none) ∧
    ((Fault.simdInvalidOpcode p m).vector, (Fault.simdInvalidOpcode p m).errorCode) = (6, none)

/-! ## Memory and addresses -/

/-- 20_memory.md R41, R42: bytes lie lowest first: byte `k` of a stored value is at `a + k` and every other address keeps its byte; a value
read has the byte at `a + k` in bits 8k+7 to 8k, and zeros above its width. -/
def Obligations.LittleEndianMemory : Prop :=
  ∀ (m : Memory) (a n : Nat), n ≤ 16 →
    (∀ (v : XWord) (k : Nat), k < n → (m.writeLE a n v).read (a + k) = v.extractLsb' (8 * k) 8) ∧
    (∀ (v : XWord) (b : Nat), ¬ (a ≤ b ∧ b < a + n) → (m.writeLE a n v).read b = m.read b) ∧
    (∀ k < n, (m.readLE a n).extractLsb' (8 * k) 8 = m.read (a + k)) ∧ (m.readLE a n).toNat < 256 ^ n

/-- 20_memory.md R46: an operand's bytes are in reach in mode64 exactly when every one of them is at a canonical address and they do not run
past the top of the space (D6). -/
def Obligations.CanonicalMeansEveryByte : Prop :=
  ∀ (va : VaBits) (a : Quad) (n : Nat), 1 ≤ n → n ≤ 16 →
    (canonicalRange va a.toNat n = true ↔
      a.toNat + n ≤ 2 ^ 64 ∧ ∀ k < n, Canonical va (a + BitVec.ofNat 64 k))

/-- 30_encoding.md R65 to R71: a linear address as a number: segment base plus effective address modulo 2^64, the effective address the sum
of base, scaled index and signed displacement modulo 2^64, or 2^32 under the byte `67`; in mode32 both modulo 2^32. RIP-relative
addressing counts from the end of the whole instruction, in mode64 only. -/
def Obligations.AddressArithmetic : Prop :=
  ∀ (s : State) (e : Enc) (len : Nat) (m : Mem), s.mode ≠ .mode16 →
    (s.mode = .mode64 → e.addr32 = false → (addrOf s e len m : Int) = (segInt s e + eaInt s len m % 2 ^ 64) % 2 ^ 64) ∧
    (s.mode = .mode64 → e.addr32 = true → (addrOf s e len m : Int) = (segInt s e + eaInt s len m % 2 ^ 32) % 2 ^ 64) ∧
    (s.mode = .mode32 → (addrOf s e len m : Int) = (segInt s e + eaInt s len m % 2 ^ 32) % 2 ^ 32)

/-! ## Video (40_video.md) -/

/-- R100: MPSADBW. -/
def Obligations.MpsadbwSumsDifferences : Prop :=
  ∀ (e : Enc) (d : Reg) (x : Rm) (imm : Byte),
    XRule (.mpsadbw e d x imm) ⟨.m3A, 0x42⟩ .a16 16 d x fun s v r =>
      ∀ i < 8, (lane 16 i r).toNat = ∑ k ∈ Finset.range 4,
        ((((lane 8 ((imm.getLsbD 2).toNat * 4 + i + k) (s.getXmm d)).toNat : Int)
          - ((lane 8 (imm.toNat % 4 * 4 + k) v).toNat : Int)).natAbs)

/-- R101: PHMINPOSUW: word 0 is the smallest word of SRC, word 1 the lowest position that holds it, the others are 0. -/
def Obligations.PhminposuwFindsTheFirstMinimum : Prop :=
  ∀ (e : Enc) (d : Reg) (x : Rm),
    XRule (.phminposuw e d x) ⟨.m38, 0x41⟩ .a16 16 d x fun _ v r =>
      (lane 16 1 r).toNat < 8 ∧ lane 16 (lane 16 1 r).toNat v = lane 16 0 r ∧
      (∀ j < 8, (lane 16 0 r).toNat ≤ (lane 16 j v).toNat) ∧
      (∀ j < (lane 16 1 r).toNat, (lane 16 0 r).toNat < (lane 16 j v).toNat) ∧
      ∀ j, 2 ≤ j → j < 8 → lane 16 j r = 0

/-- R103, R105, R107, R109, R111, R113: the six sign extensions. -/
def Obligations.PmovsxExtendsTheLowFields : Prop :=
  ∀ (e : Enc) (d : Reg) (x : Rm),
    (XRule (.pmovsxbw e d x) ⟨.m38, 0x20⟩ .n 8 d x fun _ v r => ∀ i < 8, (lane 16 i r).toInt = (lane 8 i v).toInt) ∧
    (XRule (.pmovsxbd e d x) ⟨.m38, 0x21⟩ .n 4 d x fun _ v r => ∀ i < 4, (lane 32 i r).toInt = (lane 8 i v).toInt) ∧
    (XRule (.pmovsxbq e d x) ⟨.m38, 0x22⟩ .n 2 d x fun _ v r => ∀ i < 2, (lane 64 i r).toInt = (lane 8 i v).toInt) ∧
    (XRule (.pmovsxwd e d x) ⟨.m38, 0x23⟩ .n 8 d x fun _ v r => ∀ i < 4, (lane 32 i r).toInt = (lane 16 i v).toInt) ∧
    (XRule (.pmovsxwq e d x) ⟨.m38, 0x24⟩ .n 4 d x fun _ v r => ∀ i < 2, (lane 64 i r).toInt = (lane 16 i v).toInt) ∧
    (XRule (.pmovsxdq e d x) ⟨.m38, 0x25⟩ .n 8 d x fun _ v r => ∀ i < 2, (lane 64 i r).toInt = (lane 32 i v).toInt)

/-- R104, R106, R108, R110, R112, R114: the six zero extensions. -/
def Obligations.PmovzxExtendsTheLowFields : Prop :=
  ∀ (e : Enc) (d : Reg) (x : Rm),
    (XRule (.pmovzxbw e d x) ⟨.m38, 0x30⟩ .n 8 d x fun _ v r => ∀ i < 8, (lane 16 i r).toNat = (lane 8 i v).toNat) ∧
    (XRule (.pmovzxbd e d x) ⟨.m38, 0x31⟩ .n 4 d x fun _ v r => ∀ i < 4, (lane 32 i r).toNat = (lane 8 i v).toNat) ∧
    (XRule (.pmovzxbq e d x) ⟨.m38, 0x32⟩ .n 2 d x fun _ v r => ∀ i < 2, (lane 64 i r).toNat = (lane 8 i v).toNat) ∧
    (XRule (.pmovzxwd e d x) ⟨.m38, 0x33⟩ .n 8 d x fun _ v r => ∀ i < 4, (lane 32 i r).toNat = (lane 16 i v).toNat) ∧
    (XRule (.pmovzxwq e d x) ⟨.m38, 0x34⟩ .n 4 d x fun _ v r => ∀ i < 2, (lane 64 i r).toNat = (lane 16 i v).toNat) ∧
    (XRule (.pmovzxdq e d x) ⟨.m38, 0x35⟩ .n 8 d x fun _ v r => ∀ i < 2, (lane 64 i r).toNat = (lane 32 i v).toNat)

/-! ## Vector primitives (41_vector_primitives.md) -/

/-- R120 to R128: each field is the minimum or maximum of the two fields, as signed bytes, unsigned words, signed or unsigned
doublewords. -/
def Obligations.MinimaAndMaxima : Prop :=
  ∀ (e : Enc) (d : Reg) (x : Rm),
    (XRule (.pminsb e d x) ⟨.m38, 0x38⟩ .a16 16 d x fun s v r => ∀ i < 16,
      (lane 8 i r).toInt = min (lane 8 i (s.getXmm d)).toInt (lane 8 i v).toInt) ∧
    (XRule (.pminuw e d x) ⟨.m38, 0x3A⟩ .a16 16 d x fun s v r => ∀ i < 8,
      (lane 16 i r).toNat = min (lane 16 i (s.getXmm d)).toNat (lane 16 i v).toNat) ∧
    (XRule (.pminsd e d x) ⟨.m38, 0x39⟩ .a16 16 d x fun s v r => ∀ i < 4,
      (lane 32 i r).toInt = min (lane 32 i (s.getXmm d)).toInt (lane 32 i v).toInt) ∧
    (XRule (.pminud e d x) ⟨.m38, 0x3B⟩ .a16 16 d x fun s v r => ∀ i < 4,
      (lane 32 i r).toNat = min (lane 32 i (s.getXmm d)).toNat (lane 32 i v).toNat) ∧
    (XRule (.pmaxsb e d x) ⟨.m38, 0x3C⟩ .a16 16 d x fun s v r => ∀ i < 16,
      (lane 8 i r).toInt = max (lane 8 i (s.getXmm d)).toInt (lane 8 i v).toInt) ∧
    (XRule (.pmaxuw e d x) ⟨.m38, 0x3E⟩ .a16 16 d x fun s v r => ∀ i < 8,
      (lane 16 i r).toNat = max (lane 16 i (s.getXmm d)).toNat (lane 16 i v).toNat) ∧
    (XRule (.pmaxsd e d x) ⟨.m38, 0x3D⟩ .a16 16 d x fun s v r => ∀ i < 4,
      (lane 32 i r).toInt = max (lane 32 i (s.getXmm d)).toInt (lane 32 i v).toInt) ∧
    (XRule (.pmaxud e d x) ⟨.m38, 0x3F⟩ .a16 16 d x fun s v r => ∀ i < 4,
      (lane 32 i r).toNat = max (lane 32 i (s.getXmm d)).toNat (lane 32 i v).toNat)

/-- R129, R130: PMULDQ answers the exact 64-bit products of the signed doublewords 0 and 2; PMULLD the low 32 bits of all four. -/
def Obligations.IntegerProducts : Prop :=
  ∀ (e : Enc) (d : Reg) (x : Rm),
    (XRule (.pmuldq e d x) ⟨.m38, 0x28⟩ .a16 16 d x fun s v r => ∀ i < 2,
      (lane 64 i r).toInt = (lane 32 (2 * i) (s.getXmm d)).toInt * (lane 32 (2 * i) v).toInt) ∧
    (XRule (.pmulld e d x) ⟨.m38, 0x40⟩ .a16 16 d x fun s v r => ∀ i < 4,
      ((lane 32 i r).toNat : Int) = ((lane 32 i (s.getXmm d)).toInt * (lane 32 i v).toInt) % 2 ^ 32)

/-- R131, R132: PACKUSDW saturates the doublewords of DEST into the low words and those of SRC into the high words; PCMPEQQ answers all ones
where two quadwords are equal and all zeros elsewhere. -/
def Obligations.PackAndCompare : Prop :=
  ∀ (e : Enc) (d : Reg) (x : Rm),
    (XRule (.packusdw e d x) ⟨.m38, 0x2B⟩ .a16 16 d x fun s v r => ∀ i < 4,
      ((lane 16 i r).toNat : Int) = max 0 (min 65535 (lane 32 i (s.getXmm d)).toInt) ∧
      ((lane 16 (i + 4) r).toNat : Int) = max 0 (min 65535 (lane 32 i v).toInt)) ∧
    (XRule (.pcmpeqq e d x) ⟨.m38, 0x29⟩ .a16 16 d x fun s v r => ∀ i < 2,
      (lane 64 i (s.getXmm d) = lane 64 i v → lane 64 i r = BitVec.allOnes 64) ∧
      (lane 64 i (s.getXmm d) ≠ lane 64 i v → lane 64 i r = 0))

/-! ## Inserts and extracts (42_insert_extract.md) -/

/-- R140: INSERTPS: the zero mask wins over the inserted field, and the other fields stay; the register form chooses its field by
imm8[7:6], the memory form inserts the one doubleword it reads. -/
def Obligations.InsertpsInsertsThenZeroes : Prop :=
  ∀ (e : Enc) (d : Reg) (x : Rm) (imm : Byte),
    XRule (.insertps e d x imm) ⟨.m3A, 0x21⟩ .n 4 d x fun s v r => ∀ i < 4,
      (imm.getLsbD i = true → lane 32 i r = 0) ∧
      (imm.getLsbD i = false → i = imm.toNat / 16 % 4 →
        (∀ q, x = .reg q → lane 32 i r = lane 32 (imm.toNat / 64) v) ∧ (∀ m, x = .mem m → lane 32 i r = lane 32 0 v)) ∧
      (imm.getLsbD i = false → i ≠ imm.toNat / 16 % 4 → lane 32 i r = lane 32 i (s.getXmm d))

/-- R142 to R144: PINSRB, PINSRD, PINSRQ: the field the low bits of imm8 number takes the low bits of the source, the others stay; REX.W
chooses between PINSRD (0) and PINSRQ (1), which exists in mode64 only, and is ignored by PINSRB. -/
def Obligations.PinsrReplacesOneField : Prop :=
  ∀ (e : Enc) (d : Reg) (x : Rm) (imm : Byte),
    ((Instr.pinsrb e d x imm).requiredW = none ∧ (Instr.pinsrd e d x imm).requiredW = some false ∧
      (Instr.pinsrq e d x imm).requiredW = some true ∧
      ∀ s t : State, exec (.pinsrq e d x imm) s = .next t → s.mode = .mode64) ∧
    (GRule (.pinsrb e d x imm) ⟨.m3A, 0x20⟩ 1 d x fun s v r => ∀ i < 16,
      (i = imm.toNat % 16 → (lane 8 i r).toNat = v.toNat % 2 ^ 8) ∧ (i ≠ imm.toNat % 16 → lane 8 i r = lane 8 i (s.getXmm d))) ∧
    (GRule (.pinsrd e d x imm) ⟨.m3A, 0x22⟩ 4 d x fun s v r => ∀ i < 4,
      (i = imm.toNat % 4 → (lane 32 i r).toNat = v.toNat % 2 ^ 32) ∧ (i ≠ imm.toNat % 4 → lane 32 i r = lane 32 i (s.getXmm d))) ∧
    (GRule (.pinsrq e d x imm) ⟨.m3A, 0x22⟩ 8 d x fun s v r => ∀ i < 2,
      (i = imm.toNat % 2 → (lane 64 i r).toNat = v.toNat % 2 ^ 64) ∧ (i ≠ imm.toNat % 2 → lane 64 i r = lane 64 i (s.getXmm d)))

/-- R141, R145 to R148: EXTRACTPS and PEXTRB, PEXTRW, PEXTRD, PEXTRQ: the field the low bits of imm8 number goes to the whole general
register, zero-extended, or to the bytes of memory and no others; REX.W chooses between PEXTRD (0) and PEXTRQ (1), which
exists in mode64 only, and is ignored by the others. -/
def Obligations.ExtractsMoveOneField : Prop :=
  ∀ (e : Enc) (x : Rm) (q : Reg) (imm : Byte),
    ((Instr.extractps e x q imm).requiredW = none ∧ (Instr.pextrb e x q imm).requiredW = none ∧
      (Instr.pextrw e x q imm).requiredW = none ∧ (Instr.pextrd e x q imm).requiredW = some false ∧
      (Instr.pextrq e x q imm).requiredW = some true ∧
      ∀ s t : State, exec (.pextrq e x q imm) s = .next t → s.mode = .mode64) ∧
    (ExtractRule (.extractps e x q imm) ⟨.m3A, 0x17⟩ 4 32 x fun s => lane 32 (imm.toNat % 4) (s.getXmm q)) ∧
    (ExtractRule (.pextrb e x q imm) ⟨.m3A, 0x14⟩ 1 8 x fun s => lane 8 (imm.toNat % 16) (s.getXmm q)) ∧
    (ExtractRule (.pextrw e x q imm) ⟨.m3A, 0x15⟩ 2 16 x fun s => lane 16 (imm.toNat % 8) (s.getXmm q)) ∧
    (ExtractRule (.pextrd e x q imm) ⟨.m3A, 0x16⟩ 4 32 x fun s => lane 32 (imm.toNat % 4) (s.getXmm q)) ∧
    (ExtractRule (.pextrq e x q imm) ⟨.m3A, 0x16⟩ 8 64 x fun s => lane 64 (imm.toNat % 2) (s.getXmm q))

/-! ## Dot products (43_dot_product.md) -/

/-- R155, with R152's `tree` and `host`: DPPS: the terms of imm8[7:4], +0.0 for a lane not selected; the flags of the four products and
the three adds of the tree, under every NAN_DP; the fields of imm8[3:0] hold the sum in the order of NAN_DP, the others +0.0; under a
draw (U3) the tree's sum where no term is a NaN, and a quiet NaN where one is. An unmasked exception faults. THE MODEL'S CHOICE
(log 9, DEDUCED and DESIGN CHOICE): the faulting exception is one that a product, a pair sum or the sum detects, an operation that a
faulting one feeds detecting nothing; with it, flags of the masked run are recorded as U4 and R208 allow. -/
def Obligations.DppsSumsProducts : Prop :=
  ∀ (e : Enc) (d : Reg) (x : Rm) (imm : Byte),
    let T (s : State) (v : XWord) (i : Nat) : BitVec 32 × FpFlags :=
      if imm.getLsbD (4 + i) then fmul32 s.fpEnv (lane 32 i (s.getXmm d)) (lane 32 i v) else (0, 0)
    let A (s : State) (a b : BitVec 32) : BitVec 32 := (fadd32 s.fpEnv a b).1
    FpRule (.dpps e d x imm) ⟨.m3A, 0x40⟩ .fpA16 16 d x
      (fun s v => (T s v 0).2 ||| (T s v 1).2 ||| (T s v 2).2 ||| (T s v 3).2 ||| (fadd32 s.fpEnv (T s v 0).1 (T s v 1).1).2
        ||| (fadd32 s.fpEnv (T s v 2).1 (T s v 3).1).2
        ||| (fadd32 s.fpEnv (A s (T s v 0).1 (T s v 1).1) (A s (T s v 2).1 (T s v 3).1)).2)
      (fun s v =>
        let s01 := (fadd32 s.fpEnv (T s v 0).1 (T s v 1).1).2
        let s23 := (fadd32 s.fpEnv (T s v 2).1 (T s v 3).1).2
        [Detects s 0 (T s v 0).2 ||| Detects s 0 (T s v 1).2 ||| Detects s 0 (T s v 2).2 ||| Detects s 0 (T s v 3).2,
         Detects s ((T s v 0).2 ||| (T s v 1).2) s01 ||| Detects s ((T s v 2).2 ||| (T s v 3).2) s23,
         Detects s ((T s v 0).2 ||| (T s v 1).2 ||| (T s v 2).2 ||| (T s v 3).2 ||| s01 ||| s23)
          (fadd32 s.fpEnv (A s (T s v 0).1 (T s v 1).1) (A s (T s v 2).1 (T s v 3).1)).2])
      fun s v r =>
        (∀ i < 4, imm.getLsbD i = false → lane 32 i r = 0) ∧
        (s.nanDp = .tree → ∀ i < 4, imm.getLsbD i = true →
          lane 32 i r = A s (A s (T s v 0).1 (T s v 1).1) (A s (T s v 2).1 (T s v 3).1)) ∧
        (s.nanDp = .host →
          (imm.getLsbD 0 = true → lane 32 0 r = A s (A s (T s v 1).1 (T s v 0).1) (A s (T s v 3).1 (T s v 2).1)) ∧
          (imm.getLsbD 1 = true → lane 32 1 r = A s (A s (T s v 0).1 (T s v 1).1) (A s (T s v 2).1 (T s v 3).1)) ∧
          (imm.getLsbD 2 = true → lane 32 2 r = A s (A s (T s v 3).1 (T s v 2).1) (A s (T s v 1).1 (T s v 0).1)) ∧
          (imm.getLsbD 3 = true → lane 32 3 r = A s (A s (T s v 2).1 (T s v 3).1) (A s (T s v 0).1 (T s v 1).1))) ∧
        (s.nanDp = .draw → ∀ i < 4, imm.getLsbD i = true →
          ((∀ j < 4, isNaN32 (T s v j).1 = false) →
            lane 32 i r = A s (A s (T s v 0).1 (T s v 1).1) (A s (T s v 2).1 (T s v 3).1)) ∧
          ((∃ j < 4, isNaN32 (T s v j).1 = true) → isNaN32 (lane 32 i r) = true ∧ (lane 32 i r).getLsbD 22 = true))

/-- R156, with R152's `tree` and `host`: DPPD: the same on two quadwords, with one add, imm8[5:4] and imm8[1:0];
THE MODEL'S CHOICE, as there: which exception of an unmasked fault is the faulting one, a sum fed by a faulting product detecting
nothing (log 9, DEDUCED and DESIGN CHOICE). -/
def Obligations.DppdSumsProducts : Prop :=
  ∀ (e : Enc) (d : Reg) (x : Rm) (imm : Byte),
    let T (s : State) (v : XWord) (i : Nat) : BitVec 64 × FpFlags :=
      if imm.getLsbD (4 + i) then fmul64 s.fpEnv (lane 64 i (s.getXmm d)) (lane 64 i v) else (0, 0)
    FpRule (.dppd e d x imm) ⟨.m3A, 0x41⟩ .fpA16 16 d x
      (fun s v => (T s v 0).2 ||| (T s v 1).2 ||| (fadd64 s.fpEnv (T s v 0).1 (T s v 1).1).2)
      (fun s v => [Detects s 0 (T s v 0).2 ||| Detects s 0 (T s v 1).2,
        Detects s ((T s v 0).2 ||| (T s v 1).2) (fadd64 s.fpEnv (T s v 0).1 (T s v 1).1).2])
      fun s v r =>
        (∀ i < 2, imm.getLsbD i = false → lane 64 i r = 0) ∧
        (s.nanDp = .tree → ∀ i < 2, imm.getLsbD i = true → lane 64 i r = (fadd64 s.fpEnv (T s v 0).1 (T s v 1).1).1) ∧
        (s.nanDp = .host →
          (imm.getLsbD 0 = true → lane 64 0 r = (fadd64 s.fpEnv (T s v 0).1 (T s v 1).1).1) ∧
          (imm.getLsbD 1 = true → lane 64 1 r = (fadd64 s.fpEnv (T s v 1).1 (T s v 0).1).1)) ∧
        (s.nanDp = .draw → ∀ i < 2, imm.getLsbD i = true →
          ((∀ j < 2, isNaN64 (T s v j).1 = false) → lane 64 i r = (fadd64 s.fpEnv (T s v 0).1 (T s v 1).1).1) ∧
          ((∃ j < 2, isNaN64 (T s v j).1 = true) → isNaN64 (lane 64 i r) = true ∧ (lane 64 i r).getLsbD 51 = true))

/-- R152: whatever NAN_DP is, and whatever is drawn, a NaN among the selected products makes every selected result field a quiet NaN. -/
def Obligations.NanProductsGiveQuietNans : Prop :=
  ∀ (e : Enc) (d : Reg) (x : Rm) (imm : Byte) (s t : State),
    (∀ v, v = srcXmm s 16 e (len3A e x) x → exec (.dpps e d x imm) s = .next t →
      (∃ i < 4, imm.getLsbD (4 + i) = true ∧ isNaN32 (fmul32 s.fpEnv (lane 32 i (s.getXmm d)) (lane 32 i v)).1 = true) →
      ∀ k < 4, imm.getLsbD k = true → isNaN32 (lane 32 k (t.getXmm d)) = true ∧ (lane 32 k (t.getXmm d)).getLsbD 22 = true) ∧
    (∀ v, v = srcXmm s 16 e (len3A e x) x → exec (.dppd e d x imm) s = .next t →
      (∃ i < 2, imm.getLsbD (4 + i) = true ∧ isNaN64 (fmul64 s.fpEnv (lane 64 i (s.getXmm d)) (lane 64 i v)).1 = true) →
      ∀ k < 2, imm.getLsbD k = true → isNaN64 (lane 64 k (t.getXmm d)) = true ∧ (lane 64 k (t.getXmm d)).getLsbD 51 = true)

/-- R152: NAN_DP is felt only through NaNs: where no selected product is one, DPPS and DPPD answer the same under every NAN_DP. -/
def Obligations.NanDpMattersOnlyForNans : Prop :=
  ∀ (e : Enc) (d : Reg) (x : Rm) (imm : Byte) (s : State) (p : NanDp),
    (∀ v, v = srcXmm s 16 e (len3A e x) x →
      (∀ i < 4, imm.getLsbD (4 + i) = true → isNaN32 (fmul32 s.fpEnv (lane 32 i (s.getXmm d)) (lane 32 i v)).1 = false) →
      exec (.dpps e d x imm) { s with nanDp := p } = mapNext (fun t => { t with nanDp := p }) (exec (.dpps e d x imm) s)) ∧
    (∀ v, v = srcXmm s 16 e (len3A e x) x →
      (∀ i < 2, imm.getLsbD (4 + i) = true → isNaN64 (fmul64 s.fpEnv (lane 64 i (s.getXmm d)) (lane 64 i v)).1 = false) →
      exec (.dppd e d x imm) { s with nanDp := p } = mapNext (fun t => { t with nanDp := p }) (exec (.dppd e d x imm) s))

/-- R155, R156, corner cases: with no product selected the result is all zeros and no flag is raised, whatever the operands hold. -/
def Obligations.NoProductSelectedGivesZero : Prop :=
  ∀ (e : Enc) (d : Reg) (x : Rm) (imm : Byte) (s : State), Enabled s → ReadOk s 16 true e (len3A e x) x →
    (imm.toNat / 16 = 0 → ∃ t, exec (.dpps e d x imm) s = .next t ∧ t.getXmm d = 0 ∧
      Frame s t (len3A e x) (some d) none 0 0 ∧ t.rflags = s.rflags ∧ t.mxcsr = s.mxcsr) ∧
    (imm.toNat / 16 % 4 = 0 → ∃ t, exec (.dppd e d x imm) s = .next t ∧ t.getXmm d = 0 ∧
      Frame s t (len3A e x) (some d) none 0 0 ∧ t.rflags = s.rflags ∧ t.mxcsr = s.mxcsr)

/-- R151, R153: multiply and add of finite operands, in both formats, under every RC, DAZ and flushing: the operands after the DAZ step are
exact numbers, and the answer is their product or sum rounded once, or the overflow answer of R151's table by RC and sign, or, where it is
tiny, the denormal or the flushed zero of R153; with its sign, zeros and infinities included, and exactly the flags DE, OE, UE, PE that the
rules give. Flushing is FTZ with underflow masked. That UE needs an inexact result even where it is not masked is log 26 (DEDUCED). -/
def Obligations.MultiplyAndAddRoundCorrectly : Prop :=
  (∀ s : State, s.fpEnv = ⟨s.mxcsr.extractLsb' 13 2, s.mxcsr.getLsbD 6, s.mxcsr.getLsbD 15 && s.mxcsr.getLsbD 11⟩) ∧
  ∀ env : FpEnv,
    (∀ a b : BitVec 32, fmt32.Finite a.toNat → fmt32.Finite b.toNat →
      fmt32.RoundedOp env (fmt32.denormFlag env a.toNat b.toNat)
        (fmt32.value (fmt32.dazStep env a.toNat) * fmt32.value (fmt32.dazStep env b.toNat)) (fmt32.sign a.toNat != fmt32.sign b.toNat)
        (fmul32 env a b).1.toNat (fmul32 env a b).2 ∧
      fmt32.RoundedOp env (fmt32.denormFlag env a.toNat b.toNat)
        (fmt32.value (fmt32.dazStep env a.toNat) + fmt32.value (fmt32.dazStep env b.toNat))
        (if fmt32.sign a.toNat = fmt32.sign b.toNat then fmt32.sign a.toNat else env.rc == 1)
        (fadd32 env a b).1.toNat (fadd32 env a b).2) ∧
    (∀ a b : BitVec 64, fmt64.Finite a.toNat → fmt64.Finite b.toNat →
      fmt64.RoundedOp env (fmt64.denormFlag env a.toNat b.toNat)
        (fmt64.value (fmt64.dazStep env a.toNat) * fmt64.value (fmt64.dazStep env b.toNat)) (fmt64.sign a.toNat != fmt64.sign b.toNat)
        (fmul64 env a b).1.toNat (fmul64 env a b).2 ∧
      fmt64.RoundedOp env (fmt64.denormFlag env a.toNat b.toNat)
        (fmt64.value (fmt64.dazStep env a.toNat) + fmt64.value (fmt64.dazStep env b.toNat))
        (if fmt64.sign a.toNat = fmt64.sign b.toNat then fmt64.sign a.toNat else env.rc == 1)
        (fadd64 env a b).1.toNat (fadd64 env a b).2)

/-- R151, R152: the special cases of one multiply or add, in both formats: NaN operands, infinity times zero and times anything else, zero
products, opposite infinities and equal ones, infinity with a finite operand, a number and its negative, equal zeros. -/
def Obligations.SpecialCasesOfMultiplyAndAdd : Prop :=
  ∀ env : FpEnv,
    SpecialCases fmt32 env (fmul32 env) (fadd32 env) 0x80000000 0x00400000 0x7F800000 0xFFC00000 ∧
    SpecialCases fmt64 env (fmul64 env) (fadd64 env) 0x8000000000000000 0x0008000000000000 0x7FF0000000000000 0xFFF8000000000000

/-! ## Blends (44_blend.md) -/

/-- R160, R161, R164, R22: the sign bit of each field of XMM0, read before the destination is written, chooses SRC (1) or DEST (0). -/
def Obligations.VariableBlends : Prop :=
  ∀ (e : Enc) (d : Reg) (x : Rm),
    (XRule (.blendvps e d x) ⟨.m38, 0x14⟩ .a16 16 d x fun s v r => ∀ i < 4,
      lane 32 i r = if (s.getXmm 0).getLsbD (32 * i + 31) then lane 32 i v else lane 32 i (s.getXmm d)) ∧
    (XRule (.blendvpd e d x) ⟨.m38, 0x15⟩ .a16 16 d x fun s v r => ∀ i < 2,
      lane 64 i r = if (s.getXmm 0).getLsbD (64 * i + 63) then lane 64 i v else lane 64 i (s.getXmm d)) ∧
    (XRule (.pblendvb e d x) ⟨.m38, 0x10⟩ .a16 16 d x fun s v r => ∀ i < 16,
      lane 8 i r = if (s.getXmm 0).getLsbD (8 * i + 7) then lane 8 i v else lane 8 i (s.getXmm d))

/-- R162, R163, R165: bit `i` of imm8 chooses field `i` from SRC (1) or DEST (0). -/
def Obligations.ImmediateBlends : Prop :=
  ∀ (e : Enc) (d : Reg) (x : Rm) (imm : Byte),
    (XRule (.blendps e d x imm) ⟨.m3A, 0x0C⟩ .a16 16 d x fun s v r => ∀ i < 4,
      lane 32 i r = if imm.getLsbD i then lane 32 i v else lane 32 i (s.getXmm d)) ∧
    (XRule (.blendpd e d x imm) ⟨.m3A, 0x0D⟩ .a16 16 d x fun s v r => ∀ i < 2,
      lane 64 i r = if imm.getLsbD i then lane 64 i v else lane 64 i (s.getXmm d)) ∧
    (XRule (.pblendw e d x imm) ⟨.m3A, 0x0E⟩ .a16 16 d x fun s v r => ∀ i < 8,
      lane 16 i r = if imm.getLsbD i then lane 16 i v else lane 16 i (s.getXmm d))

/-! ## Bit test (45_ptest.md) -/

/-- R170: PTEST: ZF when no bit marked by DEST is set in SRC, CF when no unmarked one is; AF, OF, PF and SF are cleared; every other bit of
RFLAGS, every register and every byte of memory is kept. -/
def Obligations.PtestSetsZfAndCf : Prop :=
  ∀ (e : Enc) (d : Reg) (x : Rm),
    (Instr.ptest e d x).key = ⟨.m38, 0x17⟩ ∧
    (∀ (s : State) (f : Fault), exec (.ptest e d x) s = .fault f → MayRaise .a16 (∃ m, x = .mem m) 16 s f) ∧
    ∀ s : State, Enabled s → ReadOk s 16 true e (len38 e x) x →
      ∃ t, exec (.ptest e d x) s = .next t ∧ Frame s t (len38 e x) none none 0 0 ∧ t.mxcsr = s.mxcsr ∧
        (t.rflags.getLsbD 6 = true ↔ ∀ k, (srcXmm s 16 e (len38 e x) x).getLsbD k = true → (s.getXmm d).getLsbD k = false) ∧
        (t.rflags.getLsbD 0 = true ↔ ∀ k, (srcXmm s 16 e (len38 e x) x).getLsbD k = true → (s.getXmm d).getLsbD k = true) ∧
        t.rflags.getLsbD 2 = false ∧ t.rflags.getLsbD 4 = false ∧ t.rflags.getLsbD 7 = false ∧ t.rflags.getLsbD 11 = false ∧
        ∀ k, k ≠ 0 → k ≠ 2 → k ≠ 4 → k ≠ 6 → k ≠ 7 → k ≠ 11 → t.rflags.getLsbD k = s.rflags.getLsbD k

/-! ## Roundings (46_round.md) -/

/-- R180, R182, R183: ROUNDPS and ROUNDPD round every field of SRC under the control byte: the mode is MXCSR.RC when imm8[2] is 1, else
imm8[1:0]; imm8[3] suppresses the precision exception. An unmasked fault records flags that R208 and U4 allow. -/
def Obligations.PackedRoundings : Prop :=
  ∀ (e : Enc) (d : Reg) (x : Rm) (imm : Byte),
    let mode (s : State) : BitVec 2 := if imm.getLsbD 2 then s.rc else imm.extractLsb' 0 2
    (FpRule (.roundps e d x imm) ⟨.m3A, 0x08⟩ .fpA16 16 d x
      (fun s v => (rti32 s.daz (mode s) (imm.getLsbD 3) (lane 32 0 v)).2 ||| (rti32 s.daz (mode s) (imm.getLsbD 3) (lane 32 1 v)).2
        ||| (rti32 s.daz (mode s) (imm.getLsbD 3) (lane 32 2 v)).2 ||| (rti32 s.daz (mode s) (imm.getLsbD 3) (lane 32 3 v)).2)
      (fun s v => [Detects s 0 (rti32 s.daz (mode s) (imm.getLsbD 3) (lane 32 0 v)).2
        ||| Detects s 0 (rti32 s.daz (mode s) (imm.getLsbD 3) (lane 32 1 v)).2
        ||| Detects s 0 (rti32 s.daz (mode s) (imm.getLsbD 3) (lane 32 2 v)).2
        ||| Detects s 0 (rti32 s.daz (mode s) (imm.getLsbD 3) (lane 32 3 v)).2])
      fun s v r => ∀ i < 4, lane 32 i r = (rti32 s.daz (mode s) (imm.getLsbD 3) (lane 32 i v)).1) ∧
    (FpRule (.roundpd e d x imm) ⟨.m3A, 0x09⟩ .fpA16 16 d x
      (fun s v => (rti64 s.daz (mode s) (imm.getLsbD 3) (lane 64 0 v)).2 ||| (rti64 s.daz (mode s) (imm.getLsbD 3) (lane 64 1 v)).2)
      (fun s v => [Detects s 0 (rti64 s.daz (mode s) (imm.getLsbD 3) (lane 64 0 v)).2
        ||| Detects s 0 (rti64 s.daz (mode s) (imm.getLsbD 3) (lane 64 1 v)).2])
      fun s v r => ∀ i < 2, lane 64 i r = (rti64 s.daz (mode s) (imm.getLsbD 3) (lane 64 i v)).1)

/-- R180, R184, R185: ROUNDSS and ROUNDSD round field 0 of SRC into field 0 of DEST and keep its other bits. An unmasked fault records
flags that R208 and U4 allow. -/
def Obligations.ScalarRoundings : Prop :=
  ∀ (e : Enc) (d : Reg) (x : Rm) (imm : Byte),
    let mode (s : State) : BitVec 2 := if imm.getLsbD 2 then s.rc else imm.extractLsb' 0 2
    (FpRule (.roundss e d x imm) ⟨.m3A, 0x0A⟩ .fpN 4 d x
      (fun s v => (rti32 s.daz (mode s) (imm.getLsbD 3) (lane 32 0 v)).2)
      (fun s v => [Detects s 0 (rti32 s.daz (mode s) (imm.getLsbD 3) (lane 32 0 v)).2])
      fun s v r => lane 32 0 r = (rti32 s.daz (mode s) (imm.getLsbD 3) (lane 32 0 v)).1 ∧
        ∀ k, 32 ≤ k → r.getLsbD k = (s.getXmm d).getLsbD k) ∧
    (FpRule (.roundsd e d x imm) ⟨.m3A, 0x0B⟩ .fpN 8 d x
      (fun s v => (rti64 s.daz (mode s) (imm.getLsbD 3) (lane 64 0 v)).2)
      (fun s v => [Detects s 0 (rti64 s.daz (mode s) (imm.getLsbD 3) (lane 64 0 v)).2])
      fun s v r => lane 64 0 r = (rti64 s.daz (mode s) (imm.getLsbD 3) (lane 64 0 v)).1 ∧
        ∀ k, 64 ≤ k → r.getLsbD k = (s.getXmm d).getLsbD k)

/-- R181: `rti`: NaNs, denormals under DAZ, zeros and infinities as the rule lists them; every other field goes to the integer its mode
names, with its sign, and raises PE exactly when that changed its value and precision is not suppressed. -/
def Obligations.RoundsToTheNamedInteger : Prop :=
  ∀ (daz : Bool) (m : BitVec 2) (p : Bool),
    (∀ f : BitVec 32,
      (fmt32.isSNaN f.toNat = true → rti32 daz m p f = (f ||| 0x00400000, fIE)) ∧
      (fmt32.isNaN f.toNat = true → fmt32.isSNaN f.toNat = false → rti32 daz m p f = (f, 0)) ∧
      (fmt32.isDenormal f.toNat = true → daz = true → rti32 daz m p f = (f &&& 0x80000000, 0)) ∧
      (f &&& 0x7FFFFFFF = 0 ∨ f &&& 0x7FFFFFFF = 0x7F800000 → rti32 daz m p f = (f, 0)) ∧
      (fmt32.Finite f.toNat → (fmt32.isDenormal f.toNat = true → daz = false) →
        fmt32.RoundedToInt m p f.toNat (rti32 daz m p f).1.toNat (rti32 daz m p f).2)) ∧
    (∀ f : BitVec 64,
      (fmt64.isSNaN f.toNat = true → rti64 daz m p f = (f ||| 0x0008000000000000, fIE)) ∧
      (fmt64.isNaN f.toNat = true → fmt64.isSNaN f.toNat = false → rti64 daz m p f = (f, 0)) ∧
      (fmt64.isDenormal f.toNat = true → daz = true → rti64 daz m p f = (f &&& 0x8000000000000000, 0)) ∧
      (f &&& 0x7FFFFFFFFFFFFFFF = 0 ∨ f &&& 0x7FFFFFFFFFFFFFFF = 0x7FF0000000000000 → rti64 daz m p f = (f, 0)) ∧
      (fmt64.Finite f.toNat → (fmt64.isDenormal f.toNat = true → daz = false) →
        fmt64.RoundedToInt m p f.toNat (rti64 daz m p f).1.toNat (rti64 daz m p f).2))

/-- R180, U1: a non-zero imm8[7:4] of ROUND* is refused by name under ROUND_IMM_HI = refuse, whatever the operands, and has no effect
under ignore: an instruction that differs in those bits alone does the same. -/
def Obligations.ReservedRoundingBits : Prop :=
  (∀ (i : Instr) (s : State) (b : Byte), Enabled s → i.roundImm = some b → s.roundImmHi = .refuse → b.extractLsb' 4 4 ≠ 0 →
    exec i s = .refused .roundImmReserved) ∧
  ∀ (i j : Instr) (s : State) (b c : Byte), s.roundImmHi = .ignore → i.roundImm = some b → j.roundImm = some c → j.key = i.key →
    j.operands = { i.operands with imm := some c } → c.extractLsb' 0 4 = b.extractLsb' 0 4 → exec j s = exec i s

/-! ## Streaming load (47_movntdqa.md) -/

/-- R190: MOVNTDQA: the 16 bytes at the aligned address, the byte at `a + k` in byte `k` of the register; the register form does not
exist in any spelling: #UD. -/
def Obligations.MovntdqaLoadsSixteenBytes : Prop :=
  (∀ (s : State) (e : Enc) (l : List Byte) (modrm : Byte), e.modeOk s.mode = true → l.Perm e.legacy → modrm.extractLsb' 6 2 = 3 →
    CodeAt s (movntdqaRegBytes e l modrm) → step s = .fault (.invalidOpcode s.rip)) ∧
  ∀ (e : Enc) (d : Reg) (m : Mem),
    XRule (.movntdqa e d m) ⟨.m38, 0x2A⟩ .a16 16 d (.mem m) fun s _ r => ∀ k < 16,
      lane 8 k r = s.mem.read (addrOf s e (len38 e (.mem m)) m + k)

/-! ## Segments in mode32 (60_exceptions.md R204, R205) -/

/-- R204 (c), R205, R209: in mode32 an operand whose segment is null, not readable, or for a store not writable, or that runs past 4 GiB,
counted from its effective address or from its linear address, raises #SS(0) through SS, else #GP(0); for a 16-byte operand through SS that
is misaligned as well, one of the two (U12). THE MODEL'S CHOICE: that every limit is 4 GiB is the spec's D7; that an offset or a linear
address past it faults and does not wrap is log 15 (DEDUCED); that the rights of SS raise #SS is log 28 (DEDUCED); that a rights violation comes
before #PF and #AC(0), whatever the pages and alignment checking are, is log 31 (DEDUCED: R210 does not rank it). -/
def Obligations.OperandPastFourGiBFaults : Prop :=
  ∀ (i : Instr) (s : State) (m : Mem), Ready i s → s.mode = .mode32 → i.operands.rm = .mem m →
    ((∃ g, UsesSegment32 i.operands.enc m g ∧ (s.segments.rights g).Forbids i.excClass.stores) ∨
      (2 ^ 32 : Int) < eaInt s i.len m % 2 ^ 32 + i.memBytes ∨ 2 ^ 32 < addrOf s i.operands.enc i.len m + i.memBytes) →
    (¬ StackBased32 i.operands.enc m → exec i s = .fault (.generalProtection s.rip)) ∧
    (StackBased32 i.operands.enc m → (i.excClass.aligned16 = true → addrOf s i.operands.enc i.len m % 16 = 0) →
      exec i s = .fault (.stackSegment s.rip)) ∧
    (StackBased32 i.operands.enc m →
      exec i s = .fault (.stackSegment s.rip) ∨ exec i s = .fault (.generalProtection s.rip))
end

