-- ==== Sys2Proof/Laws/Flags.lean ====
section
/-! SUPPORT. Which flags the floating-point operations raise: never ZE; and only IE and PE from rounding to an integral value
(10_state.md R28, 60_exceptions.md R208). -/

namespace Sys2Proof.Machine

/-- A flag set without ZE. -/
abbrev NoZe (f : FpFlags) : Prop := f &&& 4 = 0

theorem NoZe.or {f g : FpFlags} (hf : NoZe f) (hg : NoZe g) : NoZe (f ||| g) := by
  have : (f ||| g) &&& 4 = (f &&& 4) ||| (g &&& 4) := by
    apply BitVec.eq_of_getLsbD_eq; intro i _; simp [Bool.and_or_distrib_right]
  rw [NoZe, this, hf, hg]; rfl

theorem tiny_noZe (k : FpFmt) (env : FpEnv) (sg : Bool) (m : Nat) (e : Int) : NoZe (k.tiny env sg m e).2 := by
  simp only [FpFmt.tiny, NoZe]
  split_ifs <;> (dsimp only; decide)

theorem round_noZe (k : FpFmt) (env : FpEnv) (sg : Bool) (m : Nat) (e : Int) : NoZe (k.round env sg m e).2 := by
  simp only [FpFmt.round]
  split_ifs <;> first | exact tiny_noZe .. | (dsimp only [NoZe]; decide)

theorem mulCore_noZe (k : FpFmt) (env : FpEnv) (a b : Nat) : NoZe (k.mulCore env a b).2 := by
  simp only [FpFmt.mulCore]
  split_ifs <;> first | exact round_noZe .. | (dsimp only [NoZe]; decide)

theorem addCore_noZe (k : FpFmt) (env : FpEnv) (a b : Nat) : NoZe (k.addCore env a b).2 := by
  unfold FpFmt.addCore
  generalize k.exactSum a b = z
  dsimp only
  by_cases h1 : (k.isInf a && k.isInf b && k.sign a != k.sign b) = true
  · rw [if_pos h1]; dsimp only [NoZe]; decide
  · rw [if_neg h1]
    by_cases h2 : k.isInf a = true
    · rw [if_pos h2]; dsimp only [NoZe]; decide
    · rw [if_neg h2]
      by_cases h3 : k.isInf b = true
      · rw [if_pos h3]; dsimp only [NoZe]; decide
      · rw [if_neg h3]
        by_cases h4 : z = 0
        · rw [if_pos h4]; dsimp only [NoZe]; decide
        · rw [if_neg h4]; exact round_noZe ..

theorem binary_noZe (k : FpFmt) (env : FpEnv) (op : Nat → Nat → Nat × FpFlags) (h : ∀ a b, NoZe (op a b).2) (a b : Nat) :
    NoZe (k.binary env op a b).2 := by
  simp only [FpFmt.binary]
  split
  · simp only; split <;> decide
  · simp only
    apply NoZe.or
    · exact h _ _
    · split <;> decide

theorem fmul32_noZe (env : FpEnv) (a b : BitVec 32) : NoZe (fmul32 env a b).2 := binary_noZe _ _ _ (mulCore_noZe _ _) _ _
theorem fadd32_noZe (env : FpEnv) (a b : BitVec 32) : NoZe (fadd32 env a b).2 := binary_noZe _ _ _ (addCore_noZe _ _) _ _
theorem fmul64_noZe (env : FpEnv) (a b : BitVec 64) : NoZe (fmul64 env a b).2 := binary_noZe _ _ _ (mulCore_noZe _ _) _ _
theorem fadd64_noZe (env : FpEnv) (a b : BitVec 64) : NoZe (fadd64 env a b).2 := binary_noZe _ _ _ (addCore_noZe _ _) _ _

theorem dppsTerm_noZe (env : FpEnv) (imm : Byte) (a b : XWord) (i : Nat) : NoZe (dppsTerm env imm a b i).2 := by
  unfold dppsTerm; split
  · exact fmul32_noZe ..
  · decide

theorem dppdTerm_noZe (env : FpEnv) (imm : Byte) (a b : XWord) (i : Nat) : NoZe (dppdTerm env imm a b i).2 := by
  unfold dppdTerm; split
  · exact fmul64_noZe ..
  · decide

/-- DPPS never raises ZE. -/
theorem dpps_noZe (s : State) (imm : Byte) (a b : XWord) : NoZe (dpps s imm a b).2 := by
  simp only [dpps, dppsFlags]
  repeat' apply NoZe.or
  all_goals first | exact dppsTerm_noZe .. | exact fadd32_noZe ..

/-- DPPD never raises ZE. -/
theorem dppd_noZe (s : State) (imm : Byte) (a b : XWord) : NoZe (dppd s imm a b).2 := by
  simp only [dppd]
  repeat' apply NoZe.or
  all_goals first | exact dppdTerm_noZe .. | exact fadd64_noZe ..

/-- A flag set within IE and PE. -/
abbrev OnlyIePe (f : FpFlags) : Prop := f &&& ~~~(fIE ||| fPE) = 0

theorem OnlyIePe.or {f g : FpFlags} (hf : OnlyIePe f) (hg : OnlyIePe g) : OnlyIePe (f ||| g) := by
  have : (f ||| g) &&& ~~~(fIE ||| fPE) = (f &&& ~~~(fIE ||| fPE)) ||| (g &&& ~~~(fIE ||| fPE)) := by
    apply BitVec.eq_of_getLsbD_eq; intro i _; simp [Bool.and_or_distrib_right]
  rw [OnlyIePe, this, hf, hg]; rfl

theorem OnlyIePe.noZe {f : FpFlags} (h : OnlyIePe f) : NoZe f := by
  revert f; decide

theorem rti_onlyIePe (k : FpFmt) (daz : Bool) (m : BitVec 2) (p : Bool) (f : Nat) : OnlyIePe (k.rti daz m p f).2 := by
  simp only [FpFmt.rti]
  split_ifs <;> (dsimp only [OnlyIePe]; decide)

theorem rti32_onlyIePe (daz : Bool) (m : BitVec 2) (p : Bool) (f : BitVec 32) : OnlyIePe (rti32 daz m p f).2 := rti_onlyIePe ..
theorem rti64_onlyIePe (daz : Bool) (m : BitVec 2) (p : Bool) (f : BitVec 64) : OnlyIePe (rti64 daz m p f).2 := rti_onlyIePe ..

theorem roundps_onlyIePe (s : State) (imm : Byte) (v : XWord) : OnlyIePe (roundps s imm v).2 :=
  .or (.or (.or (rti32_onlyIePe ..) (rti32_onlyIePe ..)) (rti32_onlyIePe ..)) (rti32_onlyIePe ..)
theorem roundpd_onlyIePe (s : State) (imm : Byte) (v : XWord) : OnlyIePe (roundpd s imm v).2 :=
  .or (rti64_onlyIePe ..) (rti64_onlyIePe ..)
theorem roundss_onlyIePe (s : State) (imm : Byte) (a v : XWord) : OnlyIePe (roundss s imm a v).2 := rti32_onlyIePe ..
theorem roundsd_onlyIePe (s : State) (imm : Byte) (a v : XWord) : OnlyIePe (roundsd s imm a v).2 := rti64_onlyIePe ..

end Sys2Proof.Machine
end

