-- ==== Sys2Proof/Laws/Bits.lean ====
section
/-! SUPPORT. Bits of RFLAGS after PTEST, of MXCSR after an accumulation, and of a page fault's code. -/

namespace Sys2Proof.Machine

/-- PTEST keeps every bit of RFLAGS but the six status flags. -/
theorem getLsbD_ptestFlags (r : Quad) (zf cf : Bool) {k : Nat} (h0 : k ≠ 0) (h2 : k ≠ 2) (h4 : k ≠ 4) (h6 : k ≠ 6) (h7 : k ≠ 7)
    (h11 : k ≠ 11) : (ptestFlags r zf cf).getLsbD k = r.getLsbD k := by
  by_cases hk : k < 64
  · have key : ∀ k : Fin 64, k.val ≠ 0 ∧ k.val ≠ 2 ∧ k.val ≠ 4 ∧ k.val ≠ 6 ∧ k.val ≠ 7 ∧ k.val ≠ 11 →
        statusMask.getLsbD k = false ∧ (0x40 : Quad).getLsbD k = false ∧ (1 : Quad).getLsbD k = false ∧
        (0 : Quad).getLsbD k = false := by decide
    obtain ⟨a, b, c, z⟩ := key ⟨k, hk⟩ ⟨h0, h2, h4, h6, h7, h11⟩
    cases zf <;> cases cf <;>
      simp only [ptestFlags, BitVec.getLsbD_or, BitVec.getLsbD_and, BitVec.getLsbD_not, a, b, c, z, hk, if_true,
        Bool.false_eq_true, if_false, decide_true, Bool.not_false, Bool.and_true, Bool.or_false]
  · simp only [not_lt] at hk
    rw [BitVec.getLsbD_of_ge _ _ hk, BitVec.getLsbD_of_ge _ _ hk]

/-- A bit of MXCSR after an accumulation. -/
theorem getLsbD_orFlags (m : BitVec 32) (f : FpFlags) (k : Nat) : (orFlags m f).getLsbD k = (m.getLsbD k || f.getLsbD k) := by
  simp only [orFlags, BitVec.getLsbD_or, BitVec.getLsbD_setWidth]
  by_cases hk : k < 32
  · simp [hk]
  · simp only [not_lt] at hk
    simp [BitVec.getLsbD_of_ge f k (by omega), hk]

/-- A set without ZE has bit 2 clear. -/
theorem NoZe.getLsbD : ∀ {f : FpFlags}, NoZe f → f.getLsbD 2 = false := by decide

/-- A set within IE and PE has every bit but 0 and 5 clear. -/
theorem OnlyIePe.getLsbD {f : FpFlags} (h : OnlyIePe f) {k : Nat} (h0 : k ≠ 0) (h5 : k ≠ 5) : f.getLsbD k = false := by
  by_cases hk : k < 6
  · have key : ∀ f : FpFlags, OnlyIePe f → ∀ k : Fin 6, k.val ≠ 0 → k.val ≠ 5 → f.getLsbD k = false := by decide
    exact key f h ⟨k, hk⟩ h0 h5
  · exact BitVec.getLsbD_of_ge _ _ (by omega)

/-- The bits of a page fault's code: present, write, user, reserved, fetch, protection key, and no other. -/
theorem getLsbD_pageCode (s : State) (acc : Access) (p r k : Bool) :
    (pageCode s acc p r k).getLsbD 0 = p ∧ (pageCode s acc p r k).getLsbD 1 = decide (acc = .write) ∧
    (pageCode s acc p r k).getLsbD 2 = s.user ∧ (pageCode s acc p r k).getLsbD 3 = r ∧
    (pageCode s acc p r k).getLsbD 4 = decide (acc = .fetch) ∧ (pageCode s acc p r k).getLsbD 5 = k ∧
    ∀ b, 6 ≤ b → (pageCode s acc p r k).getLsbD b = false := by
  have key : ∀ (acc : Access) (u p r k : Bool), ∀ c : BitVec 32,
      c = ((if p then 1 else 0) ||| (if acc = .write then 2 else 0) ||| (if u then 4 else 0) ||| (if r then 8 else 0)
        ||| (if acc = .fetch then 16 else 0) ||| (if k then 32 else 0)) →
      c.getLsbD 0 = p ∧ c.getLsbD 1 = decide (acc = .write) ∧ c.getLsbD 2 = u ∧ c.getLsbD 3 = r ∧
        c.getLsbD 4 = decide (acc = .fetch) ∧ c.getLsbD 5 = k ∧ c.toNat < 2 ^ 6 := by
    rintro acc u p r k _ rfl
    cases acc <;> cases u <;> cases p <;> cases r <;> cases k <;> decide
  obtain ⟨h0, h1, h2, h3, h4, h5, h6⟩ := key acc s.user p r k _ rfl
  exact ⟨h0, h1, h2, h3, h4, h5, fun b hb => Nat.testBit_lt_two_pow (lt_of_lt_of_le h6 (Nat.pow_le_pow_right (by decide) hb))⟩

/-- A byte permits an access exactly when a region holds it, no reserved bit is set and neither its key nor its other permissions forbid
the access. -/
theorem pageError_eq_none {s : State} {acc : Access} {a : Nat} :
    pageError s acc a = none ↔ ∃ g, s.mapped.find? (·.holds a) = some g ∧ g.reserved = false ∧ g.keyForbids s acc = false ∧
      g.forbids s acc = false := by
  unfold pageError
  cases s.mapped.find? (·.holds a) with
  | none => simp
  | some g => cases hr : g.reserved <;> cases hk : g.keyForbids s acc <;> cases hf : g.forbids s acc <;> simp [hr, hk, hf]

/-- The code of a refused byte: not present where no region holds it; else present, with RSVD where a reserved bit is set, or PK where the
key forbids the access. -/
theorem pageError_eq_some {s : State} {acc : Access} {a : Nat} {c : BitVec 32} (h : pageError s acc a = some c) :
    (s.mapped.find? (·.holds a) = none ∧ c = pageCode s acc false false false) ∨
    ∃ g, s.mapped.find? (·.holds a) = some g ∧
      c = pageCode s acc true g.reserved (!g.reserved && g.keyForbids s acc) := by
  unfold pageError at h
  split at h
  · next hf => exact .inl ⟨hf, (Option.some.inj h).symm⟩
  · next g hf =>
    refine .inr ⟨g, hf, ?_⟩
    split at h
    · next hr => rw [hr]; exact (Option.some.inj h).symm
    · next hr =>
      rw [Bool.not_eq_true] at hr
      split at h
      · rw [hr]; exact (Option.some.inj h).symm
      · cases h

/-- A refused byte's code is a page fault's code. -/
theorem pageError_code {s : State} {acc : Access} {a : Nat} {c : BitVec 32} (h : pageError s acc a = some c) :
    ∃ p r k, c = pageCode s acc p r k := by
  rcases pageError_eq_some h with ⟨-, rfl⟩ | ⟨g, -, rfl⟩ <;> exact ⟨_, _, _, rfl⟩

end Sys2Proof.Machine
end

