-- ==== Sys2Proof/Laws/FpFaults.lean ====
section
/-! SUPPORT. What an unmasked floating-point fault records: the detected exceptions of the operations, and the set of flags that is chosen
among them (43_dot_product.md R154, 60_exceptions.md R208). -/

namespace Sys2Proof.Machine

/-! ### Sets of flags; `f &&& g = f` says that `f` lies within `g` -/

theorem flags_sub_trans {f g h : FpFlags} (hfg : f &&& g = f) (hgh : g &&& h = g) : f &&& h = f := by
  rw [← hfg, BitVec.and_assoc, hgh]

theorem flags_and_or (f g h : FpFlags) : (f ||| g) &&& h = (f &&& h) ||| (g &&& h) := by
  apply BitVec.eq_of_getLsbD_eq; intro i _; simp only [BitVec.getLsbD_and, BitVec.getLsbD_or, Bool.and_or_distrib_right]

theorem flags_or_sub {f g h : FpFlags} (hf : f &&& h = f) (hg : g &&& h = g) : (f ||| g) &&& h = f ||| g := by
  rw [flags_and_or, hf, hg]

theorem flags_sub_or_left (f g : FpFlags) : f &&& (f ||| g) = f := by
  apply BitVec.eq_of_getLsbD_eq; intro i _; simp only [BitVec.getLsbD_and, BitVec.getLsbD_or]
  cases f.getLsbD i <;> rfl

theorem flags_sub_or_right (f g : FpFlags) : g &&& (f ||| g) = g := by rw [BitVec.or_comm]; exact flags_sub_or_left g f

theorem flags_and_sub_left (f g : FpFlags) : (f &&& g) &&& f = f &&& g := by
  rw [BitVec.and_comm f g, BitVec.and_assoc, BitVec.and_self]

theorem flags_and_sub_right (f g : FpFlags) : (f &&& g) &&& g = f &&& g := by rw [BitVec.and_assoc, BitVec.and_self]

/-! ### Unmasked exceptions -/

theorem unmasked_or (s : State) (f g : FpFlags) : unmasked s (f ||| g) = unmasked s f ||| unmasked s g := by
  apply BitVec.eq_of_getLsbD_eq; intro i _; simp [unmasked, Bool.and_or_distrib_right]

theorem unmasked_and (s : State) (f g : FpFlags) : unmasked s (f &&& g) = unmasked s f &&& g := by
  rw [unmasked, unmasked, BitVec.and_assoc, BitVec.and_comm g, ← BitVec.and_assoc]

@[simp] theorem unmasked_zero (s : State) : unmasked s 0 = 0 := by simp [unmasked]

/-- A union raises nothing unmasked exactly when neither part does. -/
theorem unmasked_or_eq_zero {s : State} {f g : FpFlags} : unmasked s (f ||| g) = 0 ↔ unmasked s f = 0 ∧ unmasked s g = 0 := by
  have key : ∀ a b : FpFlags, a ||| b = 0 ↔ a = 0 ∧ b = 0 := by decide
  rw [unmasked_or, key]

/-! ### Detected exceptions -/

/-- What the meanings detect is what the claims call so. -/
theorem detected_eq (s : State) (feeds f : FpFlags) : detected s feeds f = Detects s feeds f := by
  simp only [detected, Detects, preFlags, unmasked_and]

theorem detected_noZe {s : State} {feeds f : FpFlags} (h : NoZe f) : NoZe (detected s feeds f) := by
  have key : ∀ f : FpFlags, NoZe f → NoZe (f &&& preFlags) := by decide
  unfold detected
  split_ifs
  · decide
  · exact key f h
  · exact h

/-- What is detected is raised by the masked run. -/
theorem detected_sub {s : State} {feeds f g : FpFlags} (h : f &&& g = f) : detected s feeds f &&& g = detected s feeds f := by
  unfold detected
  split_ifs
  · exact BitVec.zero_and
  · exact flags_sub_trans (flags_and_sub_left ..) h
  · exact h

/-- An operation that is not fed by a faulting one detects an unmasked exception exactly when it raises one. -/
theorem unmasked_detected {s : State} {feeds f : FpFlags} (h : unmasked s feeds = 0) :
    unmasked s (detected s feeds f) = 0 ↔ unmasked s f = 0 := by
  unfold detected
  rw [if_neg (not_not.mpr h)]
  split_ifs with hp
  · have key : ∀ m x : FpFlags, x &&& ~~~m = 0 → (x &&& preFlags) &&& ~~~m = 0 := by decide
    exact ⟨fun h0 => absurd h0 hp, fun h0 => absurd (key _ _ h0) hp⟩
  · rfl

/-- Rounding to an integral value raises I alone, P alone, or nothing. -/
theorem rti_flags (k : FpFmt) (daz : Bool) (m : BitVec 2) (p : Bool) (f : Nat) :
    (k.rti daz m p f).2 = 0 ∨ (k.rti daz m p f).2 = fIE ∨ (k.rti daz m p f).2 = fPE := by
  simp only [FpFmt.rti]
  split_ifs <;> simp

/-- So what a rounding detects is what it raises. -/
theorem detects_rti (s : State) (k : FpFmt) (daz : Bool) (m : BitVec 2) (p : Bool) (f : Nat) :
    Detects s 0 (k.rti daz m p f).2 = (k.rti daz m p f).2 := by
  have key : ∀ x : FpFlags, x = 0 ∨ x = fIE ∨ x = fPE → ∀ y : FpFlags, (if x &&& y &&& (fIE ||| fDE) ≠ 0 then x &&& (fIE ||| fDE) else x) = x := by
    decide
  rw [Detects, if_neg (not_not.mpr (unmasked_zero s))]
  exact key _ (rti_flags ..) _

/-! ### The levels of an instruction -/

/-- The products and pair sums of DPPS detect an unmasked exception, or its last sum does, when the masked run raises one. -/
theorem dppsLevels_unmasked {s : State} {t : Nat → Fp 32} (h : unmasked s (dppsFlags s.fpEnv t) ≠ 0) :
    ∃ f ∈ dppsLevels s t, unmasked s f ≠ 0 := by
  by_contra hall
  simp only [dppsLevels, List.mem_cons, List.not_mem_nil, or_false, forall_eq_or_imp, forall_eq, not_exists, not_and, not_not,
    unmasked_or_eq_zero] at hall
  obtain ⟨⟨⟨⟨h0, h1⟩, h2⟩, h3⟩, ⟨h4, h5⟩, h6⟩ := hall
  rw [unmasked_detected (unmasked_zero s)] at h0 h1 h2 h3
  rw [unmasked_detected (unmasked_or_eq_zero.mpr ⟨h0, h1⟩)] at h4
  rw [unmasked_detected (unmasked_or_eq_zero.mpr ⟨h2, h3⟩)] at h5
  rw [unmasked_detected (by simp only [unmasked_or_eq_zero]; exact ⟨⟨⟨⟨⟨h0, h1⟩, h2⟩, h3⟩, h4⟩, h5⟩)] at h6
  apply h
  simp only [dppsFlags, unmasked_or_eq_zero]
  exact ⟨⟨⟨⟨⟨⟨h0, h1⟩, h2⟩, h3⟩, h4⟩, h5⟩, h6⟩

/-- The same of DPPD's products and sum. -/
theorem dppdLevels_unmasked {s : State} {t : Nat → Fp 64}
    (h : unmasked s ((t 0).2 ||| (t 1).2 ||| (fadd64 s.fpEnv (t 0).1 (t 1).1).2) ≠ 0) : ∃ f ∈ dppdLevels s t, unmasked s f ≠ 0 := by
  by_contra hall
  simp only [dppdLevels, List.mem_cons, List.not_mem_nil, or_false, forall_eq_or_imp, forall_eq, not_exists, not_and, not_not,
    unmasked_or_eq_zero] at hall
  obtain ⟨⟨h0, h1⟩, h2⟩ := hall
  rw [unmasked_detected (unmasked_zero s)] at h0 h1
  rw [unmasked_detected (unmasked_or_eq_zero.mpr ⟨h0, h1⟩)] at h2
  apply h
  simp only [unmasked_or_eq_zero]
  exact ⟨⟨h0, h1⟩, h2⟩

theorem dppsLevels_noZe {s : State} {t : Nat → Fp 32} (ht : ∀ i, NoZe (t i).2) : ∀ f ∈ dppsLevels s t, NoZe f := by
  simp only [dppsLevels, List.mem_cons, List.not_mem_nil, or_false, forall_eq_or_imp, forall_eq]
  exact ⟨(((detected_noZe (ht 0)).or (detected_noZe (ht 1))).or (detected_noZe (ht 2))).or (detected_noZe (ht 3)),
    (detected_noZe (fadd32_noZe ..)).or (detected_noZe (fadd32_noZe ..)), detected_noZe (fadd32_noZe ..)⟩

theorem dppdLevels_noZe {s : State} {t : Nat → Fp 64} (ht : ∀ i, NoZe (t i).2) : ∀ f ∈ dppdLevels s t, NoZe f := by
  simp only [dppdLevels, List.mem_cons, List.not_mem_nil, or_false, forall_eq_or_imp, forall_eq]
  exact ⟨(detected_noZe (ht 0)).or (detected_noZe (ht 1)), detected_noZe (fadd64_noZe ..)⟩

/-- The levels lie within the flags of the masked run. -/
theorem dppsLevels_sub {s : State} {t : Nat → Fp 32} : ∀ f ∈ dppsLevels s t, f &&& dppsFlags s.fpEnv t = f := by
  simp only [dppsLevels, dppsFlags, List.mem_cons, List.not_mem_nil, or_false, forall_eq_or_imp, forall_eq]
  refine ⟨?_, ?_, ?_⟩
  all_goals repeat' apply flags_or_sub
  all_goals apply detected_sub
  all_goals repeat first
    | exact BitVec.and_self
    | exact flags_sub_or_right ..
    | refine flags_sub_trans ?_ (flags_sub_or_left ..)

theorem dppdLevels_sub {s : State} {t : Nat → Fp 64} :
    ∀ f ∈ dppdLevels s t, f &&& ((t 0).2 ||| (t 1).2 ||| (fadd64 s.fpEnv (t 0).1 (t 1).1).2) = f := by
  simp only [dppdLevels, List.mem_cons, List.not_mem_nil, or_false, forall_eq_or_imp, forall_eq]
  exact ⟨flags_or_sub (detected_sub (flags_sub_trans (flags_sub_or_left ..) (flags_sub_or_left ..)))
    (detected_sub (flags_sub_trans (flags_sub_or_right ..) (flags_sub_or_left ..))), detected_sub (flags_sub_or_right ..)⟩

/-! ### The recorded flags -/

theorem allFlags_eq (l : List FpFlags) : allFlags l = unionFlags l := by
  induction l with
  | nil => rfl
  | cons f fs ih => rw [allFlags, ih]; rfl

/-- All levels together have an unmasked exception when one has. -/
theorem unmasked_unionFlags_ne_zero {s : State} {levels : List FpFlags} (h : ∃ f ∈ levels, unmasked s f ≠ 0) :
    unmasked s (unionFlags levels) ≠ 0 := by
  obtain ⟨f, hf, hu⟩ := h
  induction levels with
  | nil => cases hf
  | cons g gs ih =>
    intro h0
    obtain ⟨hg, hgs⟩ := unmasked_or_eq_zero.mp (show unmasked s (g ||| unionFlags gs) = 0 from h0)
    rcases List.mem_cons.mp hf with rfl | hf
    · exact hu hg
    · exact ih hf hgs

/-- The levels up to the first that has an unmasked exception. -/
theorem untilFault_eq {s : State} {levels : List FpFlags} (h : ∃ f ∈ levels, unmasked s f ≠ 0) :
    ∃ front f back, levels = front ++ f :: back ∧ unmasked s (unionFlags front) = 0 ∧ unmasked s f ≠ 0 ∧
      untilFault s levels = unionFlags (front ++ [f]) := by
  induction levels with
  | nil => obtain ⟨f, hf, -⟩ := h; cases hf
  | cons g gs ih =>
    by_cases hg : unmasked s g = 0
    · obtain ⟨f, hf, hu⟩ := h
      rcases List.mem_cons.mp hf with rfl | hf
      · exact absurd hg hu
      obtain ⟨front, f', back, rfl, h1, h2, h3⟩ := ih ⟨f, hf, hu⟩
      refine ⟨g :: front, f', back, rfl, ?_, h2, ?_⟩
      · exact unmasked_or_eq_zero.mpr ⟨hg, h1⟩
      · rw [untilFault, if_pos hg, h3]; rfl
    · refine ⟨[], g, gs, rfl, unmasked_zero s, hg, ?_⟩
      rw [untilFault, if_neg hg]
      simp [unionFlags]

theorem unionFlags_noZe {l : List FpFlags} (h : ∀ f ∈ l, NoZe f) : NoZe (unionFlags l) := by
  induction l with
  | nil => decide
  | cons f fs ih => exact (h f (List.mem_cons_self ..)).or (ih fun g hg => h g (List.mem_cons_of_mem _ hg))

theorem unionFlags_sub {l : List FpFlags} {g : FpFlags} (h : ∀ f ∈ l, f &&& g = f) : unionFlags l &&& g = unionFlags l := by
  induction l with
  | nil => exact BitVec.zero_and
  | cons f fs ih => exact flags_or_sub (h f (List.mem_cons_self ..)) (ih fun g hg => h g (List.mem_cons_of_mem _ hg))

/-- One of a set without ZE is in the set. -/
theorem splitFlags_getD {u : FpFlags} (h : u ≠ 0) (hz : NoZe u) (n : Nat) :
    (splitFlags u).getD (n % (splitFlags u).length) 0 &&& u = (splitFlags u).getD (n % (splitFlags u).length) 0 ∧
    (splitFlags u).getD (n % (splitFlags u).length) 0 ≠ 0 := by
  have hsplit : ∀ u : FpFlags, u ≠ 0 → NoZe u → splitFlags u ≠ [] ∧ ∀ y ∈ splitFlags u, y &&& u = y ∧ y ≠ 0 := by decide
  obtain ⟨hne, hall⟩ := hsplit u h hz
  have hlt : n % (splitFlags u).length < (splitFlags u).length := Nat.mod_lt _ (List.length_pos_iff.mpr hne)
  rw [List.getD_eq_getElem?_getD, List.getElem?_eq_getElem hlt, Option.getD_some]
  exact hall _ (List.getElem_mem hlt)

/-- Whatever is drawn, the flags recorded hold an unmasked one of those that count, lie within the masked run's, and are I and D alone
when an unmasked I or D counts. -/
theorem drawFlags_cases (s : State) (later : Bool) (n : Nat) (x : FpFlags) {f c : FpFlags} {levels : List FpFlags}
    (hc : (if later then allFlags levels else untilFault s levels) = c) (hu : unmasked s c ≠ 0) (hz : NoZe c) (hf : c &&& f = c) :
    drawFlags s later n x f levels &&& f = drawFlags s later n x f levels ∧
    drawFlags s later n x f levels &&& unmasked s c ≠ 0 ∧
    (unmasked s c &&& preFlags ≠ 0 → drawFlags s later n x f levels &&& preFlags = drawFlags s later n x f levels) := by
  have hzu : ∀ c m : FpFlags, NoZe c → NoZe (c &&& ~~~m) ∧ NoZe (c &&& ~~~m &&& preFlags) := by decide
  obtain ⟨hz1, hz2⟩ := hzu c s.fpMasks hz
  have huf : unmasked s c &&& f = unmasked s c := flags_sub_trans (flags_and_sub_left ..) hf
  have meet : ∀ {y z w : FpFlags}, y &&& w = y → y ≠ 0 → (y ||| z) &&& w ≠ 0 := fun {y z w} hyw hy h0 => hy <| by
    have h1 := flags_sub_trans (flags_sub_or_left y z) (BitVec.and_self (x := y ||| z))
    rw [← hyw, ← h1, BitVec.and_assoc, h0]; exact BitVec.and_zero
  by_cases hp : unmasked s c &&& preFlags = 0
  · obtain ⟨hy, hy0⟩ := splitFlags_getD hu hz1 n
    have hd : drawFlags s later n x f levels
        = (splitFlags (unmasked s c)).getD (n % (splitFlags (unmasked s c)).length) 0 ||| (x &&& f) := by
      simp only [drawFlags, hc, hp, bne_self_eq_false, Bool.false_eq_true, if_false]
    rw [hd]
    exact ⟨flags_or_sub (flags_sub_trans hy huf) (flags_and_sub_right ..), meet hy hy0, fun h => absurd hp h⟩
  · obtain ⟨hy, hy0⟩ := splitFlags_getD hp hz2 n
    have hd : drawFlags s later n x f levels
        = (splitFlags (unmasked s c &&& preFlags)).getD (n % (splitFlags (unmasked s c &&& preFlags)).length) 0
          ||| (x &&& (f &&& preFlags)) := by
      simp only [drawFlags, hc, bne_iff_ne.mpr hp, if_true]
    have hyu := flags_sub_trans hy (flags_and_sub_left ..)
    rw [hd]
    exact ⟨flags_or_sub (flags_sub_trans hyu huf) (flags_sub_trans (flags_and_sub_right ..) (flags_and_sub_left ..)), meet hyu hy0,
      fun _ => flags_or_sub (flags_sub_trans hy (flags_and_sub_right ..)) (flags_sub_trans (flags_and_sub_right ..) (flags_and_sub_right ..))⟩

/-- `faultFlagsOf` answers a set that the rules allow. -/
theorem faultFlagsOf_faultSet {s : State} {f : FpFlags} {levels : List FpFlags} (h : ∃ l ∈ levels, unmasked s l ≠ 0)
    (hz : ∀ l ∈ levels, NoZe l) (hs : ∀ l ∈ levels, l &&& f = l) : FaultSet s f levels (faultFlagsOf s f levels) := by
  obtain ⟨front, l, back, rfl, h1, h2, h3⟩ := untilFault_eq h
  have hmem : ∀ g ∈ front ++ [l], g ∈ front ++ l :: back := fun g hg => by
    rcases List.mem_append.mp hg with hg | hg
    · exact List.mem_append_left _ hg
    · rw [List.mem_singleton.mp hg]; simp
  unfold faultFlagsOf
  cases Config.faultLater s.draws
  · obtain ⟨a, b, c⟩ := drawFlags_cases s false (Config.faultCause s.draws) (Config.faultFlags s.draws) h3
      (unmasked_unionFlags_ne_zero ⟨l, by simp, h2⟩) (unionFlags_noZe fun g hg => hz g (hmem g hg))
      (unionFlags_sub fun g hg => hs g (hmem g hg))
    exact ⟨a, _, .inr ⟨front, l, back, rfl, h1, h2, rfl⟩, b, c⟩
  · obtain ⟨a, b, c⟩ := drawFlags_cases s true (Config.faultCause s.draws) (Config.faultFlags s.draws) (allFlags_eq _)
      (unmasked_unionFlags_ne_zero h) (unionFlags_noZe hz) (unionFlags_sub hs)
    exact ⟨a, _, .inl rfl, b, c⟩

end Sys2Proof.Machine
end

