-- ==== Sys2Proof/Laws/State.lean ====
section
/-! SUPPORT. One lemma per field per update of State, true by rfl, and what a register reads after a register was written. -/

namespace Sys2Proof.Machine

/-! ### setXmm -/

@[simp] theorem State.setXmm_gpr (s : State) (r : Reg) (v : XWord) : (s.setXmm r v).gpr = s.gpr := rfl
@[simp] theorem State.setXmm_rip (s : State) (r : Reg) (v : XWord) : (s.setXmm r v).rip = s.rip := rfl
@[simp] theorem State.setXmm_csBase (s : State) (r : Reg) (v : XWord) : (s.setXmm r v).csBase = s.csBase := rfl
@[simp] theorem State.setXmm_rflags (s : State) (r : Reg) (v : XWord) : (s.setXmm r v).rflags = s.rflags := rfl
@[simp] theorem State.setXmm_mxcsr (s : State) (r : Reg) (v : XWord) : (s.setXmm r v).mxcsr = s.mxcsr := rfl
@[simp] theorem State.setXmm_cr0 (s : State) (r : Reg) (v : XWord) : (s.setXmm r v).cr0 = s.cr0 := rfl
@[simp] theorem State.setXmm_cr2 (s : State) (r : Reg) (v : XWord) : (s.setXmm r v).cr2 = s.cr2 := rfl
@[simp] theorem State.setXmm_cr4 (s : State) (r : Reg) (v : XWord) : (s.setXmm r v).cr4 = s.cr4 := rfl
@[simp] theorem State.setXmm_cpl (s : State) (r : Reg) (v : XWord) : (s.setXmm r v).cpl = s.cpl := rfl
@[simp] theorem State.setXmm_fsBase (s : State) (r : Reg) (v : XWord) : (s.setXmm r v).fsBase = s.fsBase := rfl
@[simp] theorem State.setXmm_gsBase (s : State) (r : Reg) (v : XWord) : (s.setXmm r v).gsBase = s.gsBase := rfl
@[simp] theorem State.setXmm_segments (s : State) (r : Reg) (v : XWord) : (s.setXmm r v).segments = s.segments := rfl
@[simp] theorem State.setXmm_mode (s : State) (r : Reg) (v : XWord) : (s.setXmm r v).mode = s.mode := rfl
@[simp] theorem State.setXmm_hasSse41 (s : State) (r : Reg) (v : XWord) : (s.setXmm r v).hasSse41 = s.hasSse41 := rfl
@[simp] theorem State.setXmm_vaBits (s : State) (r : Reg) (v : XWord) : (s.setXmm r v).vaBits = s.vaBits := rfl
@[simp] theorem State.setXmm_nanDp (s : State) (r : Reg) (v : XWord) : (s.setXmm r v).nanDp = s.nanDp := rfl
@[simp] theorem State.setXmm_roundImmHi (s : State) (r : Reg) (v : XWord) : (s.setXmm r v).roundImmHi = s.roundImmHi := rfl
@[simp] theorem State.setXmm_debugBreakpoints (s : State) (r : Reg) (v : XWord) : (s.setXmm r v).debugBreakpoints = s.debugBreakpoints := rfl
@[simp] theorem State.setXmm_mapped (s : State) (r : Reg) (v : XWord) : (s.setXmm r v).mapped = s.mapped := rfl
@[simp] theorem State.setXmm_codeBase (s : State) (r : Reg) (v : XWord) : (s.setXmm r v).codeBase = s.codeBase := rfl
@[simp] theorem State.setXmm_codeEnd (s : State) (r : Reg) (v : XWord) : (s.setXmm r v).codeEnd = s.codeEnd := rfl
@[simp] theorem State.setXmm_mem (s : State) (r : Reg) (v : XWord) : (s.setXmm r v).mem = s.mem := rfl
@[simp] theorem State.setXmm_draws (s : State) (r : Reg) (v : XWord) : (s.setXmm r v).draws = s.draws := rfl

/-! ### setGpr -/

@[simp] theorem State.setGpr_xmm (s : State) (r : Reg) (v : Quad) : (s.setGpr r v).xmm = s.xmm := rfl
@[simp] theorem State.setGpr_rip (s : State) (r : Reg) (v : Quad) : (s.setGpr r v).rip = s.rip := rfl
@[simp] theorem State.setGpr_csBase (s : State) (r : Reg) (v : Quad) : (s.setGpr r v).csBase = s.csBase := rfl
@[simp] theorem State.setGpr_rflags (s : State) (r : Reg) (v : Quad) : (s.setGpr r v).rflags = s.rflags := rfl
@[simp] theorem State.setGpr_mxcsr (s : State) (r : Reg) (v : Quad) : (s.setGpr r v).mxcsr = s.mxcsr := rfl
@[simp] theorem State.setGpr_cr0 (s : State) (r : Reg) (v : Quad) : (s.setGpr r v).cr0 = s.cr0 := rfl
@[simp] theorem State.setGpr_cr2 (s : State) (r : Reg) (v : Quad) : (s.setGpr r v).cr2 = s.cr2 := rfl
@[simp] theorem State.setGpr_cr4 (s : State) (r : Reg) (v : Quad) : (s.setGpr r v).cr4 = s.cr4 := rfl
@[simp] theorem State.setGpr_cpl (s : State) (r : Reg) (v : Quad) : (s.setGpr r v).cpl = s.cpl := rfl
@[simp] theorem State.setGpr_fsBase (s : State) (r : Reg) (v : Quad) : (s.setGpr r v).fsBase = s.fsBase := rfl
@[simp] theorem State.setGpr_gsBase (s : State) (r : Reg) (v : Quad) : (s.setGpr r v).gsBase = s.gsBase := rfl
@[simp] theorem State.setGpr_segments (s : State) (r : Reg) (v : Quad) : (s.setGpr r v).segments = s.segments := rfl
@[simp] theorem State.setGpr_mode (s : State) (r : Reg) (v : Quad) : (s.setGpr r v).mode = s.mode := rfl
@[simp] theorem State.setGpr_hasSse41 (s : State) (r : Reg) (v : Quad) : (s.setGpr r v).hasSse41 = s.hasSse41 := rfl
@[simp] theorem State.setGpr_vaBits (s : State) (r : Reg) (v : Quad) : (s.setGpr r v).vaBits = s.vaBits := rfl
@[simp] theorem State.setGpr_nanDp (s : State) (r : Reg) (v : Quad) : (s.setGpr r v).nanDp = s.nanDp := rfl
@[simp] theorem State.setGpr_roundImmHi (s : State) (r : Reg) (v : Quad) : (s.setGpr r v).roundImmHi = s.roundImmHi := rfl
@[simp] theorem State.setGpr_debugBreakpoints (s : State) (r : Reg) (v : Quad) : (s.setGpr r v).debugBreakpoints = s.debugBreakpoints := rfl
@[simp] theorem State.setGpr_mapped (s : State) (r : Reg) (v : Quad) : (s.setGpr r v).mapped = s.mapped := rfl
@[simp] theorem State.setGpr_codeBase (s : State) (r : Reg) (v : Quad) : (s.setGpr r v).codeBase = s.codeBase := rfl
@[simp] theorem State.setGpr_codeEnd (s : State) (r : Reg) (v : Quad) : (s.setGpr r v).codeEnd = s.codeEnd := rfl
@[simp] theorem State.setGpr_mem (s : State) (r : Reg) (v : Quad) : (s.setGpr r v).mem = s.mem := rfl
@[simp] theorem State.setGpr_draws (s : State) (r : Reg) (v : Quad) : (s.setGpr r v).draws = s.draws := rfl

/-! ### advance -/

@[simp] theorem State.advance_xmm (s : State) (n : Nat) : (s.advance n).xmm = s.xmm := rfl
@[simp] theorem State.advance_gpr (s : State) (n : Nat) : (s.advance n).gpr = s.gpr := rfl
@[simp] theorem State.advance_csBase (s : State) (n : Nat) : (s.advance n).csBase = s.csBase := rfl
@[simp] theorem State.advance_rflags (s : State) (n : Nat) : (s.advance n).rflags = s.rflags := rfl
@[simp] theorem State.advance_mxcsr (s : State) (n : Nat) : (s.advance n).mxcsr = s.mxcsr := rfl
@[simp] theorem State.advance_cr0 (s : State) (n : Nat) : (s.advance n).cr0 = s.cr0 := rfl
@[simp] theorem State.advance_cr2 (s : State) (n : Nat) : (s.advance n).cr2 = s.cr2 := rfl
@[simp] theorem State.advance_cr4 (s : State) (n : Nat) : (s.advance n).cr4 = s.cr4 := rfl
@[simp] theorem State.advance_cpl (s : State) (n : Nat) : (s.advance n).cpl = s.cpl := rfl
@[simp] theorem State.advance_fsBase (s : State) (n : Nat) : (s.advance n).fsBase = s.fsBase := rfl
@[simp] theorem State.advance_gsBase (s : State) (n : Nat) : (s.advance n).gsBase = s.gsBase := rfl
@[simp] theorem State.advance_segments (s : State) (n : Nat) : (s.advance n).segments = s.segments := rfl
@[simp] theorem State.advance_mode (s : State) (n : Nat) : (s.advance n).mode = s.mode := rfl
@[simp] theorem State.advance_hasSse41 (s : State) (n : Nat) : (s.advance n).hasSse41 = s.hasSse41 := rfl
@[simp] theorem State.advance_vaBits (s : State) (n : Nat) : (s.advance n).vaBits = s.vaBits := rfl
@[simp] theorem State.advance_nanDp (s : State) (n : Nat) : (s.advance n).nanDp = s.nanDp := rfl
@[simp] theorem State.advance_roundImmHi (s : State) (n : Nat) : (s.advance n).roundImmHi = s.roundImmHi := rfl
@[simp] theorem State.advance_debugBreakpoints (s : State) (n : Nat) : (s.advance n).debugBreakpoints = s.debugBreakpoints := rfl
@[simp] theorem State.advance_mapped (s : State) (n : Nat) : (s.advance n).mapped = s.mapped := rfl
@[simp] theorem State.advance_codeBase (s : State) (n : Nat) : (s.advance n).codeBase = s.codeBase := rfl
@[simp] theorem State.advance_codeEnd (s : State) (n : Nat) : (s.advance n).codeEnd = s.codeEnd := rfl
@[simp] theorem State.advance_mem (s : State) (n : Nat) : (s.advance n).mem = s.mem := rfl
@[simp] theorem State.advance_draws (s : State) (n : Nat) : (s.advance n).draws = s.draws := rfl

@[simp] theorem State.advance_rip (s : State) (n : Nat) : (s.advance n).rip = modeWidth s.mode (s.rip + BitVec.ofNat 64 n) := rfl

/-! ### Registers -/

@[simp] theorem State.getXmm_setXmm (s : State) (r : Reg) (v : XWord) : (s.setXmm r v).getXmm r = v := by
  simp [State.getXmm, State.setXmm]

theorem State.getXmm_setXmm_ne (s : State) (v : XWord) {r q : Reg} (h : r ≠ q) : (s.setXmm r v).getXmm q = s.getXmm q := by
  have h' : r.val ≠ q.val := fun e => h (Fin.ext e)
  simp [State.getXmm, State.setXmm, h']

@[simp] theorem State.getXmm_advance (s : State) (n : Nat) (r : Reg) : (s.advance n).getXmm r = s.getXmm r := rfl
@[simp] theorem State.getXmm_setGpr (s : State) (q : Reg) (v : Quad) (r : Reg) : (s.setGpr q v).getXmm r = s.getXmm r := rfl
@[simp] theorem State.getGpr_advance (s : State) (n : Nat) (r : Reg) : (s.advance n).getGpr r = s.getGpr r := rfl
@[simp] theorem State.getGpr_setXmm (s : State) (q : Reg) (v : XWord) (r : Reg) : (s.setXmm q v).getGpr r = s.getGpr r := rfl

theorem State.gpr_setGpr_ne (s : State) (v : Quad) {r q : Reg} (h : r ≠ q) : (s.setGpr r v).gpr[q] = s.gpr[q] := by
  have h' : r.val ≠ q.val := fun e => h (Fin.ext e)
  simp [State.setGpr, h']

@[simp] theorem State.gpr_setGpr (s : State) (r : Reg) (v : Quad) : (s.setGpr r v).gpr[r] = modeWidth s.mode v := by
  simp [State.setGpr]

/-- Narrowing twice to the mode's width is narrowing once. -/
@[simp] theorem modeWidth_modeWidth (md : Mode) (v : Quad) : modeWidth md (modeWidth md v) = modeWidth md v := by
  cases md <;> simp [modeWidth]

/-- A value of at most 32 bits is not changed by the mode's width. -/
theorem modeWidth_setWidth (md : Mode) {w : Nat} (v : BitVec w) (h : w ≤ 32 ∨ md = .mode64) :
    modeWidth md (v.setWidth 64) = v.setWidth 64 := by
  rcases h with h | rfl
  · cases md <;> simp only [modeWidth]
    all_goals
      apply BitVec.eq_of_toNat_eq
      have := v.isLt
      have h2 : (2 : Nat) ^ w ≤ 2 ^ 32 := Nat.pow_le_pow_right (by decide) h
      simp only [BitVec.toNat_setWidth]
      omega
  · rfl

/-- In mode32 a value of the mode's width has 32 bits. -/
theorem modeWidth_lt (v : Quad) : (modeWidth .mode32 v).toNat < 2 ^ 32 := by
  simp only [modeWidth, BitVec.toNat_setWidth]
  omega

end Sys2Proof.Machine
end

