-- ==== Sys2Proof/Laws/Operands.lean ====
section
/-! SUPPORT. One lemma per shared operation that says everything it can do: the gate, the checks of a memory operand, the load, the
store, and the completion of a floating-point instruction. -/

namespace Sys2Proof.Machine

/-! ### andThen -/

@[simp] theorem andThen_next {α β : Type} (a : α) (k : α → Outcome β) : andThen (.next a) k = k a := rfl
@[simp] theorem andThen_fault {α β : Type} (f : Fault) (k : α → Outcome β) : andThen (.fault f) k = .fault f := rfl
@[simp] theorem andThen_refused {α β : Type} (r : Refusal) (k : α → Outcome β) : andThen (.refused r) k = .refused r := rfl

/-- A sequence that completes completes in both parts. -/
theorem andThen_eq_next {α β : Type} {x : Outcome α} {k : α → Outcome β} {b : β} :
    andThen x k = .next b ↔ ∃ a, x = .next a ∧ k a = .next b := by
  cases x <;> simp [andThen]

/-- A sequence that faults faults in its first part, or in its second. -/
theorem andThen_eq_fault {α β : Type} {x : Outcome α} {k : α → Outcome β} {f : Fault} :
    andThen x k = .fault f ↔ x = .fault f ∨ ∃ a, x = .next a ∧ k a = .fault f := by
  cases x <;> simp [andThen]

/-! ### The gate -/

/-- The gate lets an instruction through exactly when the extension is enabled. -/
theorem gate_eq_next {s : State} {u : Unit} : gate s = .next u ↔ Enabled s := by
  unfold gate Enabled
  cases s.mode <;> cases s.hasSse41 <;> cases s.em <;> cases s.osfxsr <;> cases s.ts <;> simp [raise]

theorem gate_of_enabled {s : State} (h : Enabled s) : gate s = .next () := gate_eq_next.mpr h

/-- The gate faults with #UD or #NM at the instruction's address, and with nothing else. -/
theorem gate_eq_fault {s : State} {f : Fault} (h : gate s = .fault f) : f = .invalidOpcode s.rip ∨ f = .deviceNotAvailable s.rip := by
  unfold gate raise at h
  split at h
  · cases h
  · split at h
    · cases h; exact .inl rfl
    · split at h
      · cases h; exact .inr rfl
      · cases h

/-! ### The checks of a memory operand -/

/-- No byte fails exactly when each permits the access. -/
theorem firstPageError_eq_none {s : State} {acc : Access} {a n : Nat} :
    firstPageError s acc a n = none ↔ ∀ k < n, pageError s acc (a + k) = none := by
  induction n generalizing a with
  | zero => simp [firstPageError]
  | succ n ih =>
    unfold firstPageError
    cases h : pageError s acc a with
    | some c =>
      simp only [reduceCtorEq, false_iff, not_forall]
      exact ⟨0, Nat.succ_pos n, by simp [h]⟩
    | none =>
      simp only [ih]
      constructor
      · intro hk k hlt
        cases k with
        | zero => exact h
        | succ k => rw [show a + (k + 1) = a + 1 + k by omega]; exact hk k (by omega)
      · intro hk k hlt
        rw [show a + 1 + k = a + (k + 1) by omega]; exact hk (k + 1) (by omega)

/-- The first failing byte is the lowest one that does not permit the access. -/
theorem firstPageError_eq_some {s : State} {acc : Access} {a n k : Nat} {c : BitVec 32} (hk : k < n)
    (hlow : ∀ j < k, pageError s acc (a + j) = none) (hc : pageError s acc (a + k) = some c) :
    firstPageError s acc a n = some (a + k, c) := by
  induction n generalizing a k with
  | zero => omega
  | succ n ih =>
    unfold firstPageError
    cases k with
    | zero => simp only [Nat.add_zero] at hc; simp [hc]
    | succ k =>
      have h0 : pageError s acc a = none := by simpa using hlow 0 (Nat.succ_pos k)
      simp only [h0]
      have := ih (a := a + 1) (k := k) (by omega)
        (fun j hj => by rw [show a + 1 + j = a + (j + 1) by omega]; exact hlow (j + 1) (by omega))
        (by rw [show a + 1 + k = a + (k + 1) by omega]; exact hc)
      rw [this]
      exact congrArg some (Prod.ext (by simp; omega) rfl)

/-- The reported byte is one of the operand's, and it does not permit the access. -/
theorem pageError_of_firstPageError {s : State} {acc : Access} {a n b : Nat} {c : BitVec 32}
    (h : firstPageError s acc a n = some (b, c)) : pageError s acc b = some c ∧ a ≤ b ∧ b < a + n := by
  induction n generalizing a with
  | zero => simp [firstPageError] at h
  | succ n ih =>
    unfold firstPageError at h
    cases h0 : pageError s acc a with
    | some c' =>
      simp only [h0, Option.some.injEq, Prod.mk.injEq] at h
      obtain ⟨rfl, rfl⟩ := h
      exact ⟨h0, le_refl _, by omega⟩
    | none =>
      simp only [h0] at h
      obtain ⟨h1, h2, h3⟩ := ih h
      exact ⟨h1, by omega, by omega⟩

/-! ### The segment of a memory operand -/

/-- Base register RSP or RBP, as the spec's phrase and as the model's test. -/
theorem baseReg_isStack {m : Mem} : (baseReg m == some 4 || baseReg m == some 5) = true ↔
    (∃ d, m = .base 4 d ∨ m = .base 5 d) ∨ ∃ sc x d, m = .sib 4 sc x d ∨ m = .sib 5 sc x d := by
  cases m with
  | base b d =>
    simp only [baseReg, Bool.or_eq_true, beq_iff_eq, Option.some.injEq]
    constructor
    · rintro (rfl | rfl)
      · exact .inl ⟨d, .inl rfl⟩
      · exact .inl ⟨d, .inr rfl⟩
    · rintro (⟨d', h | h⟩ | ⟨_, _, _, h | h⟩) <;> cases h <;> simp
  | sib b sc x d =>
    simp only [baseReg, Bool.or_eq_true, beq_iff_eq, Option.some.injEq]
    constructor
    · rintro (rfl | rfl)
      · exact .inr ⟨sc, x, d, .inl rfl⟩
      · exact .inr ⟨sc, x, d, .inr rfl⟩
    · rintro (⟨d', h | h⟩ | ⟨_, _, _, h | h⟩) <;> cases h <;> simp
  | _ => simp [baseReg]

/-- In mode32 the access goes through SS exactly when SS is the segment used. -/
theorem throughSS_mode32 {e : Enc} {m : Mem} : throughSS .mode32 e m = true ↔ StackBased32 e m := by
  unfold throughSS StackBased32
  rw [← baseReg_isStack]
  cases e.seg with
  | none => simp
  | some g => cases g <;> simp

/-- The segment used, as the spec's rule of selection says. -/
theorem segmentUsed_eq {e : Enc} {m : Mem} {g : SegOverride} : segmentUsed e m = g ↔ UsesSegment32 e m g := by
  unfold UsesSegment32 segmentUsed StackBased32
  rw [← baseReg_isStack]
  cases e.seg with
  | some g' => simp
  | none => cases (baseReg m == some 4 || baseReg m == some 5) <;> cases g <;> simp

/-- Rights permit an operand's access or forbid it. -/
theorem permits_eq_false {r : SegRights} {stores : Bool} :
    r.permits (if stores then .write else .read) = false ↔ r.Forbids stores := by
  cases r <;> cases stores <;> simp [SegRights.Forbids, SegRights.permits]

/-- mode64 checks no segment's rights. -/
theorem segmentPermits_mode64 {s : State} {acc : Access} {e : Enc} {m : Mem} (h : s.mode = .mode64) :
    segmentPermits s acc e m = true := by
  rw [segmentPermits, h]

/-- In mode32 an operand's segment refuses the access exactly when the rights of the segment used forbid it. -/
theorem segmentPermits_mode32 {s : State} {stores : Bool} {e : Enc} {m : Mem} (h : s.mode = .mode32) :
    segmentPermits s (if stores then .write else .read) e m = false ↔
      ∃ g, UsesSegment32 e m g ∧ (s.segments.rights g).Forbids stores := by
  rw [segmentPermits, h]
  simp only [permits_eq_false, ← segmentUsed_eq, exists_eq_left']

/-! ### All checks of a memory operand -/

/-- A memory operand raises nothing exactly when each of its checks finds nothing. -/
theorem operandFault_eq_none {s : State} {acc : Access} {n : Nat} {align : Bool} {e : Enc} {len : Nat} {m : Mem} :
    operandFault s acc n align e len m = none ↔ OperandOk s acc n align e len m := by
  unfold operandFault OperandOk AcFault addrOf
  generalize hA : (linearAddr s e len m).toNat = a
  by_cases hr : (segmentPermits s acc e m && inReach s e len n m) = true
  · obtain ⟨hr1, hr2⟩ := Bool.and_eq_true_iff.mp hr
    simp only [hr1, hr2, Bool.and_self, Bool.not_true, Bool.false_eq_true, if_false, true_and]
    by_cases hm : align = true ∧ a % 16 ≠ 0
    · simp [hm.1, hm.2]
    · have h2 : (align && a % 16 != 0) = false := by
        cases align
        · rfl
        · simpa using hm
      have h3 : align = true → a % 16 = 0 := fun ha => by
        by_contra hne; exact hm ⟨ha, hne⟩
      simp only [h2, Bool.false_eq_true, if_false]
      cases hp : firstPageError s acc a n with
      | some bc =>
        have : ¬ ∀ k < n, pageError s acc (a + k) = none := fun hall => by
          rw [firstPageError_eq_none.mpr hall] at hp; cases hp
        simp [this]
      | none =>
        have hall := firstPageError_eq_none.mp hp
        simp only [ite_eq_right_iff, reduceCtorEq, imp_false]
        constructor
        · intro hac
          refine ⟨h3, hall, fun ⟨h4, h5, h6⟩ => hac ?_⟩
          simp [h4, h5, h6, or_assoc]
        · intro ⟨_, _, hac⟩ h4
          apply hac
          simpa [or_assoc, and_assoc] using h4
  · have h : ¬ (segmentPermits s acc e m = true ∧ inReach s e len n m = true) := fun h => hr (Bool.and_eq_true_iff.mpr h)
    rw [Bool.not_eq_true] at hr
    simp only [hr, Bool.not_false, if_true]
    constructor
    · intro h0; split at h0 <;> cases h0
    · exact fun h0 => absurd ⟨h0.1, h0.2.1⟩ h

/-- Every exception a memory operand raises, with what holds when it does. -/
theorem operandFault_cases {s : State} {acc : Access} {n : Nat} {align : Bool} {e : Enc} {len : Nat} {m : Mem} {f : Quad → Fault}
    (h : operandFault s acc n align e len m = some f) :
    f = .stackSegment ∨ f = .generalProtection ∨
    (∃ b c, f = (fun p => .pageFault p c (BitVec.ofNat 64 b)) ∧ pageError s acc b = some c) ∨
    (f = .alignmentCheck ∧ AcFault s n (addrOf s e len m)) := by
  simp only [operandFault] at h
  split at h
  · split at h
    · cases h; exact .inl rfl
    · cases h; exact .inr (.inl rfl)
  · split at h
    · cases h; exact .inr (.inl rfl)
    · split at h
      · rename_i b c hp
        cases h
        exact .inr (.inr (.inl ⟨b, c, rfl, (pageError_of_firstPageError hp).1⟩))
      · split at h
        · rename_i hac
          cases h
          exact .inr (.inr (.inr ⟨rfl, by simpa [AcFault, addrOf, or_assoc, and_assoc] using hac⟩))
        · cases h

/-! ### Loads and stores -/

/-- A load answers the operand's bytes exactly when the operand raises nothing. -/
theorem loadOperand_eq_next {s : State} {n : Nat} {align : Bool} {e : Enc} {len : Nat} {m : Mem} {v : XWord} :
    loadOperand s n align e len m = .next v ↔
      OperandOk s .read n align e len m ∧ v = s.mem.readLE (addrOf s e len m) n := by
  unfold loadOperand
  cases h : operandFault s .read n align e len m with
  | some f =>
    have : ¬ OperandOk s .read n align e len m := fun hok => by
      rw [operandFault_eq_none.mpr hok] at h; cases h
    constructor
    · intro h'; cases h'
    · intro h'; exact absurd h'.1 this
  | none =>
    have hok := operandFault_eq_none.mp h
    constructor
    · intro h'
      cases h'
      exact ⟨hok, rfl⟩
    · rintro ⟨_, rfl⟩; rfl

/-- A load that does not complete raises the exception of its checks. -/
theorem loadOperand_eq_fault {s : State} {n : Nat} {align : Bool} {e : Enc} {len : Nat} {m : Mem} {f : Fault} :
    loadOperand s n align e len m = .fault f ↔ ∃ g, operandFault s .read n align e len m = some g ∧ f = g s.rip := by
  unfold loadOperand
  cases h : operandFault s .read n align e len m with
  | some g =>
    simp only [raise, Host.Outcome.fault.injEq, Option.some.injEq, exists_eq_left']
    exact eq_comm
  | none => simp

/-- A store completes exactly when the operand raises nothing and misses the program text, and changes the operand's bytes alone. -/
theorem storeOperand_eq_next {s t : State} {n : Nat} {v : XWord} {e : Enc} {len : Nat} {m : Mem} :
    storeOperand s n v e len m = .next t ↔
      WriteOk s n e len (.mem m) ∧ t = { s with mem := s.mem.writeLE (addrOf s e len m) n v } := by
  unfold storeOperand WriteOk
  cases h : operandFault s .write n false e len m with
  | some f =>
    have : ¬ OperandOk s .write n false e len m := fun hok => by
      rw [operandFault_eq_none.mpr hok] at h; cases h
    constructor
    · intro h'; cases h'
    · intro h'; exact absurd h'.1.1 this
  | none =>
    have hok := operandFault_eq_none.mp h
    simp only [overlapsProgram]
    by_cases ho : (linearAddr s e len m).toNat < s.codeEnd ∧ s.codeBase < (linearAddr s e len m).toNat + n
    · have hd : (decide ((linearAddr s e len m).toNat < s.codeEnd) && decide (s.codeBase < (linearAddr s e len m).toNat + n)) = true := by
        simpa using ho
      simp only [hd, if_true]
      constructor
      · intro h'; cases h'
      · intro h'; exact absurd ho h'.1.2
    · have hd : (decide ((linearAddr s e len m).toNat < s.codeEnd) && decide (s.codeBase < (linearAddr s e len m).toNat + n)) = false := by
        simpa using ho
      simp only [hd, Bool.false_eq_true, if_false]
      constructor
      · intro h'
        cases h'
        exact ⟨⟨hok, ho⟩, rfl⟩
      · rintro ⟨_, rfl⟩; rfl

theorem storeOperand_eq_fault {s : State} {n : Nat} {v : XWord} {e : Enc} {len : Nat} {m : Mem} {f : Fault} :
    storeOperand s n v e len m = .fault f ↔ ∃ g, operandFault s .write n false e len m = some g ∧ f = g s.rip := by
  unfold storeOperand
  cases h : operandFault s .write n false e len m with
  | some g =>
    simp only [raise, Host.Outcome.fault.injEq, Option.some.injEq, exists_eq_left']
    exact eq_comm
  | none =>
    simp only [reduceCtorEq, false_and, exists_false, iff_false]
    split <;> simp

/-- The second operand `xmm2/m` is `SRC` exactly when it can be read. -/
theorem xmmOperand_eq_next {s : State} {n : Nat} {align : Bool} {e : Enc} {len : Nat} {rm : Rm} {v : XWord} :
    xmmOperand s n align e len rm = .next v ↔ ReadOk s n align e len rm ∧ v = srcXmm s n e len rm := by
  cases rm with
  | reg r =>
    simp only [xmmOperand, Host.Outcome.next.injEq, ReadOk, srcXmm, true_and]
    exact eq_comm
  | mem m => exact loadOperand_eq_next

theorem xmmOperand_eq_fault {s : State} {n : Nat} {align : Bool} {e : Enc} {len : Nat} {rm : Rm} {f : Fault} :
    xmmOperand s n align e len rm = .fault f ↔
      ∃ m g, rm = .mem m ∧ operandFault s .read n align e len m = some g ∧ f = g s.rip := by
  cases rm with
  | reg r => simp [xmmOperand]
  | mem m => simpa [xmmOperand] using loadOperand_eq_fault

/-- The second operand `r/m` is its source value exactly when it can be read. -/
theorem gprOperand_eq_next {s : State} {n : Nat} {e : Enc} {len : Nat} {rm : Rm} {v : XWord} :
    gprOperand s n e len rm = .next v ↔ ReadOk s n false e len rm ∧ v = srcGpr s n e len rm := by
  cases rm with
  | reg r =>
    simp only [gprOperand, Host.Outcome.next.injEq, ReadOk, srcGpr, true_and]
    exact eq_comm
  | mem m => exact loadOperand_eq_next

theorem gprOperand_eq_fault {s : State} {n : Nat} {e : Enc} {len : Nat} {rm : Rm} {f : Fault} :
    gprOperand s n e len rm = .fault f ↔
      ∃ m g, rm = .mem m ∧ operandFault s .read n false e len m = some g ∧ f = g s.rip := by
  cases rm with
  | reg r => simp [gprOperand]
  | mem m => simpa [gprOperand] using loadOperand_eq_fault

/-- What the destination `r/m` becomes: the whole general register, or the bytes of memory. -/
theorem writeGprOrMem_eq_next {s t : State} {n : Nat} {v : XWord} {e : Enc} {len : Nat} {rm : Rm} :
    writeGprOrMem s n v e len rm = .next t ↔ WriteOk s n e len rm ∧
      ((∃ r, rm = .reg r ∧ t = s.setGpr r (v.setWidth 64)) ∨
       ∃ m, rm = .mem m ∧ t = { s with mem := s.mem.writeLE (addrOf s e len m) n v }) := by
  cases rm with
  | reg r =>
    simp only [writeGprOrMem, Host.Outcome.next.injEq, WriteOk, true_and, Rm.reg.injEq, exists_eq_left', reduceCtorEq, false_and,
      exists_false, or_false]
    exact eq_comm
  | mem m =>
    simp only [writeGprOrMem, storeOperand_eq_next, reduceCtorEq, false_and, exists_false, false_or, Rm.mem.injEq, exists_eq_left']

theorem writeGprOrMem_eq_fault {s : State} {n : Nat} {v : XWord} {e : Enc} {len : Nat} {rm : Rm} {f : Fault} :
    writeGprOrMem s n v e len rm = .fault f ↔
      ∃ m g, rm = .mem m ∧ operandFault s .write n false e len m = some g ∧ f = g s.rip := by
  cases rm with
  | reg r => simp [writeGprOrMem]
  | mem m => simpa [writeGprOrMem] using storeOperand_eq_fault

/-! ### Completion of a floating-point instruction -/

/-- It completes exactly when every raised exception is masked. -/
theorem fpComplete_eq_next {s t u : State} {len : Nat} {dst : Reg} {v : XWord} {f : FpFlags} {levels : List FpFlags} :
    fpComplete s t len dst v f levels = .next u ↔
      unmasked s f = 0 ∧ u = ({ t with mxcsr := orFlags s.mxcsr f }.setXmm dst v).advance len := by
  unfold fpComplete
  by_cases h : unmasked s f = 0
  · simp only [h, if_true, Host.Outcome.next.injEq, true_and]
    exact eq_comm
  · simp only [h, if_false, false_and, iff_false, raise]
    split <;> simp

/-- Otherwise it faults, by #XM or #UD as OSXMMEXCPT says, with the flags of `faultFlagsOf`. -/
theorem fpComplete_eq_fault {s t : State} {len : Nat} {dst : Reg} {v : XWord} {f : FpFlags} {levels : List FpFlags} {g : Fault} :
    fpComplete s t len dst v f levels = .fault g ↔
      unmasked s f ≠ 0 ∧ g = if s.osxmmexcpt then .simdFloatingPoint s.rip (orFlags s.mxcsr (faultFlagsOf s f levels))
        else .simdInvalidOpcode s.rip (orFlags s.mxcsr (faultFlagsOf s f levels)) := by
  unfold fpComplete
  by_cases h : unmasked s f = 0
  · simp [h]
  · simp only [h, if_false, raise, ne_eq, not_false_eq_true, true_and]
    cases s.osxmmexcpt <;> simp [eq_comm]

end Sys2Proof.Machine
end

