-- ==== Sys2Proof/Laws/Shapes.lean ====
section
/-! SUPPORT. What exec can do, said once: each of the 49 meanings has one of five shapes, and an instruction that completes or faults
does so as its shape says. Later proofs cite these and do not unfold the meanings. -/

namespace Sys2Proof.Machine

/-- The shapes of the meanings. -/
inductive Shape (i : Instr) (s : State) : Outcome State → Prop where
  /-- One XMM register is written with `f DEST SRC`. -/
  | xmm (f : XWord → XWord → XWord) (hc : i.excClass = .a16 ∨ i.excClass = .n) (hr : i.roundImm = none)
      (hw : i.requiredW ≠ some true) (hp : i.key ≠ ⟨.m38, 0x17⟩) :
      Shape i s (execXmm s i.memBytes i.excClass.aligned16 i.operands.enc i.len i.operands.reg i.operands.rm f)
  /-- One field of an XMM register is written from a general register or memory. -/
  | insert (f : XWord → XWord → XWord) (hc : i.excClass = .n) (hr : i.roundImm = none)
      (hw : i.requiredW = some true → s.mode ≠ .mode32) (hp : i.key ≠ ⟨.m38, 0x17⟩) :
      Shape i s (andThen (gate s) fun _ => andThen (gprOperand s i.memBytes i.operands.enc i.len i.operands.rm) fun v =>
        .next ((s.setXmm i.operands.reg (f (s.getXmm i.operands.reg) v)).advance i.len))
  /-- A general register or memory is written with `v`. -/
  | extract (v : XWord) (hc : i.excClass = .nw) (hr : i.roundImm = none) (hw : i.requiredW = some true → s.mode ≠ .mode32)
      (hp : i.key ≠ ⟨.m38, 0x17⟩) :
      Shape i s (andThen (gate s) fun _ => andThen (writeGprOrMem s i.memBytes v i.operands.enc i.len i.operands.rm) fun t =>
        .next (t.advance i.len))
  /-- One XMM register and the flags of MXCSR are written, or a floating-point exception is raised, which a level of detected exceptions
  has. -/
  | fp (n : Nat) (r : XWord → XWord × FpFlags) (l : XWord → List FpFlags) (hc : i.excClass.fp = true) (hw : i.requiredW ≠ some true)
      (hp : i.key ≠ ⟨.m38, 0x17⟩) (hz : ∀ v, NoZe (r v).2) (hr : i.roundImm.isSome = true → ∀ v, OnlyIePe (r v).2)
      (hl : ∀ v, unmasked s (r v).2 ≠ 0 → ∃ f ∈ l v, unmasked s f ≠ 0) (hlz : ∀ v, ∀ f ∈ l v, NoZe f) (hls : ∀ v, ∀ f ∈ l v, f &&& (r v).2 = f) :
      Shape i s (andThen (gate s) fun _ =>
        if s.roundImmHi = .refuse ∧ (i.roundImm.getD 0).extractLsb' 4 4 ≠ 0 then .refused .roundImmReserved
        else andThen (xmmOperand s i.memBytes i.excClass.aligned16 i.operands.enc i.len i.operands.rm) fun v =>
          fpComplete s { s with draws := n } i.len i.operands.reg (r v).1 (r v).2 (l v))
  /-- PTEST. -/
  | test (hc : i.excClass = .a16) (hr : i.roundImm = none) (hw : i.requiredW ≠ some true) (hp : i.key = ⟨.m38, 0x17⟩) :
      Shape i s (andThen (gate s) fun _ =>
        andThen (xmmOperand s i.memBytes i.excClass.aligned16 i.operands.enc i.len i.operands.rm) fun v =>
        .next ({ s with
          rflags := ptestFlags s.rflags (v &&& s.getXmm i.operands.reg == 0) (v &&& ~~~(s.getXmm i.operands.reg) == 0)
          }.advance i.len))
  /-- PINSRQ and PEXTRQ in mode32. -/
  | wrongMode (hw : i.requiredW = some true) (hm : s.mode = .mode32) : Shape i s (.refused .mode64Only)

/-- Nothing of the instruction but its row is read. -/
theorem ne_some_of_none {o : Option Bool} (h : o = none) : o ≠ some true := by rw [h]; exact fun h => nomatch h

/-- The meanings of class `EXC-A16`. -/
theorem shape_a16 (i : Instr) (s : State) (hc : i.excClass = .a16) : Shape i s (exec i s) := by
  cases i
  case ptest e d x => exact .test rfl rfl (ne_some_of_none rfl) rfl
  case mpsadbw e d x im => exact .xmm (mpsadbw im) (.inl rfl) rfl (ne_some_of_none rfl) (by simp [Instr.key])
  case phminposuw e d x => exact .xmm (fun _ b => phminposuw b) (.inl rfl) rfl (ne_some_of_none rfl) (by simp [Instr.key])
  case pminsb e d x => exact .xmm (lanewise 8 minS) (.inl rfl) rfl (ne_some_of_none rfl) (by simp [Instr.key])
  case pminuw e d x => exact .xmm (lanewise 16 minU) (.inl rfl) rfl (ne_some_of_none rfl) (by simp [Instr.key])
  case pminsd e d x => exact .xmm (lanewise 32 minS) (.inl rfl) rfl (ne_some_of_none rfl) (by simp [Instr.key])
  case pminud e d x => exact .xmm (lanewise 32 minU) (.inl rfl) rfl (ne_some_of_none rfl) (by simp [Instr.key])
  case pmaxsb e d x => exact .xmm (lanewise 8 maxS) (.inl rfl) rfl (ne_some_of_none rfl) (by simp [Instr.key])
  case pmaxuw e d x => exact .xmm (lanewise 16 maxU) (.inl rfl) rfl (ne_some_of_none rfl) (by simp [Instr.key])
  case pmaxsd e d x => exact .xmm (lanewise 32 maxS) (.inl rfl) rfl (ne_some_of_none rfl) (by simp [Instr.key])
  case pmaxud e d x => exact .xmm (lanewise 32 maxU) (.inl rfl) rfl (ne_some_of_none rfl) (by simp [Instr.key])
  case pmuldq e d x => exact .xmm (pmuldq) (.inl rfl) rfl (ne_some_of_none rfl) (by simp [Instr.key])
  case pmulld e d x => exact .xmm (pmulld) (.inl rfl) rfl (ne_some_of_none rfl) (by simp [Instr.key])
  case packusdw e d x => exact .xmm (packusdw) (.inl rfl) rfl (ne_some_of_none rfl) (by simp [Instr.key])
  case pcmpeqq e d x => exact .xmm (pcmpeqq) (.inl rfl) rfl (ne_some_of_none rfl) (by simp [Instr.key])
  case blendvps e d x => exact .xmm (blend 32 (signSel 32 (s.getXmm 0))) (.inl rfl) rfl (ne_some_of_none rfl) (by simp [Instr.key])
  case blendvpd e d x => exact .xmm (blend 64 (signSel 64 (s.getXmm 0))) (.inl rfl) rfl (ne_some_of_none rfl) (by simp [Instr.key])
  case blendps e d x im => exact .xmm (blend 32 im.getLsbD) (.inl rfl) rfl (ne_some_of_none rfl) (by simp [Instr.key])
  case blendpd e d x im => exact .xmm (blend 64 im.getLsbD) (.inl rfl) rfl (ne_some_of_none rfl) (by simp [Instr.key])
  case pblendvb e d x => exact .xmm (blend 8 (signSel 8 (s.getXmm 0))) (.inl rfl) rfl (ne_some_of_none rfl) (by simp [Instr.key])
  case pblendw e d x im => exact .xmm (blend 16 im.getLsbD) (.inl rfl) rfl (ne_some_of_none rfl) (by simp [Instr.key])
  case movntdqa e d x => exact .xmm (fun _ b => b) (.inl rfl) rfl (ne_some_of_none rfl) (by simp [Instr.key])
  all_goals exact nomatch hc

/-- The meanings of class `EXC-N`. -/
theorem shape_n (i : Instr) (s : State) (hc : i.excClass = .n) : Shape i s (exec i s) := by
  cases i
  case pinsrb e d x im => exact .insert (insertField 8 4 im) rfl rfl (fun h => nomatch h) (by simp [Instr.key])
  case pinsrd e d x im => exact .insert (insertField 32 2 im) rfl rfl (fun h => nomatch h) (by simp [Instr.key])
  case pinsrq e d x im =>
    by_cases h : s.mode = .mode32
    · rw [exec, execPinsrq, if_pos h]; exact .wrongMode rfl h
    · rw [exec, execPinsrq, if_neg h]
      exact .insert (insertField 64 1 im) rfl rfl (fun _ => h) (by simp [Instr.key])
  case pmovsxbw e d x => exact .xmm (fun _ b => pmovsx 8 16 8 b) (.inr rfl) rfl (ne_some_of_none rfl) (by simp [Instr.key])
  case pmovzxbw e d x => exact .xmm (fun _ b => pmovzx 8 16 8 b) (.inr rfl) rfl (ne_some_of_none rfl) (by simp [Instr.key])
  case pmovsxbd e d x => exact .xmm (fun _ b => pmovsx 8 32 4 b) (.inr rfl) rfl (ne_some_of_none rfl) (by simp [Instr.key])
  case pmovzxbd e d x => exact .xmm (fun _ b => pmovzx 8 32 4 b) (.inr rfl) rfl (ne_some_of_none rfl) (by simp [Instr.key])
  case pmovsxwd e d x => exact .xmm (fun _ b => pmovsx 16 32 4 b) (.inr rfl) rfl (ne_some_of_none rfl) (by simp [Instr.key])
  case pmovzxwd e d x => exact .xmm (fun _ b => pmovzx 16 32 4 b) (.inr rfl) rfl (ne_some_of_none rfl) (by simp [Instr.key])
  case pmovsxbq e d x => exact .xmm (fun _ b => pmovsx 8 64 2 b) (.inr rfl) rfl (ne_some_of_none rfl) (by simp [Instr.key])
  case pmovzxbq e d x => exact .xmm (fun _ b => pmovzx 8 64 2 b) (.inr rfl) rfl (ne_some_of_none rfl) (by simp [Instr.key])
  case pmovsxwq e d x => exact .xmm (fun _ b => pmovsx 16 64 2 b) (.inr rfl) rfl (ne_some_of_none rfl) (by simp [Instr.key])
  case pmovzxwq e d x => exact .xmm (fun _ b => pmovzx 16 64 2 b) (.inr rfl) rfl (ne_some_of_none rfl) (by simp [Instr.key])
  case pmovsxdq e d x => exact .xmm (fun _ b => pmovsx 32 64 2 b) (.inr rfl) rfl (ne_some_of_none rfl) (by simp [Instr.key])
  case pmovzxdq e d x => exact .xmm (fun _ b => pmovzx 32 64 2 b) (.inr rfl) rfl (ne_some_of_none rfl) (by simp [Instr.key])
  case insertps e d x im => exact .xmm (insertps x im) (.inr rfl) rfl (ne_some_of_none rfl) (by simp [Instr.key])
  all_goals exact nomatch hc

/-- The meanings of class `EXC-NW`. -/
theorem shape_nw (i : Instr) (s : State) (hc : i.excClass = .nw) : Shape i s (exec i s) := by
  cases i
  case extractps e d x im =>
    exact .extract (extractField 32 2 im (s.getXmm x)) rfl rfl (fun h => nomatch h) (by simp [Instr.key])
  case pextrb e d x im => exact .extract (extractField 8 4 im (s.getXmm x)) rfl rfl (fun h => nomatch h) (by simp [Instr.key])
  case pextrw e d x im => exact .extract (extractField 16 3 im (s.getXmm x)) rfl rfl (fun h => nomatch h) (by simp [Instr.key])
  case pextrd e d x im => exact .extract (extractField 32 2 im (s.getXmm x)) rfl rfl (fun h => nomatch h) (by simp [Instr.key])
  case pextrq e d x im =>
    by_cases h : s.mode = .mode32
    · rw [exec, execPextrq, if_pos h]; exact .wrongMode rfl h
    · rw [exec, execPextrq, if_neg h]
      exact .extract (extractField 64 1 im (s.getXmm x)) rfl rfl (fun _ => h) (by simp [Instr.key])
  all_goals exact nomatch hc

/-- A rounding is one level of detected exceptions. -/
theorem round_shape {i : Instr} {s : State} (hc : i.excClass.fp = true) (hw : i.requiredW ≠ some true) (hp : i.key ≠ ⟨.m38, 0x17⟩)
    (r : XWord → XWord × FpFlags) (ho : ∀ v, OnlyIePe (r v).2) :
    Shape i s (andThen (gate s) fun _ =>
      if s.roundImmHi = .refuse ∧ (i.roundImm.getD 0).extractLsb' 4 4 ≠ 0 then .refused .roundImmReserved
      else andThen (xmmOperand s i.memBytes i.excClass.aligned16 i.operands.enc i.len i.operands.rm) fun v =>
        fpComplete s s i.len i.operands.reg (r v).1 (r v).2 [(r v).2]) :=
  .fp s.draws r (fun v => [(r v).2]) hc hw hp (fun v => (ho v).noZe) (fun _ v => ho v)
    (fun v hu => ⟨_, List.mem_singleton.mpr rfl, hu⟩) (fun v f hf => by rw [List.mem_singleton.mp hf]; exact (ho v).noZe)
    fun v f hf => by rw [List.mem_singleton.mp hf]; exact BitVec.and_self

/-- The meanings of the floating-point classes. -/
theorem shape_fp (i : Instr) (s : State) (hc : i.excClass.fp = true) : Shape i s (exec i s) := by
  cases i
  case dpps e d x im =>
    have := Shape.fp (i := .dpps e d x im) (s := s) (s.draws + 1) (dpps s im (s.getXmm d))
      (fun v => dppsLevels s (dppsTerm s.fpEnv im (s.getXmm d) v)) rfl (ne_some_of_none rfl) (by simp [Instr.key])
      (fun v => dpps_noZe ..) (fun h => nomatch h) (fun v hu => dppsLevels_unmasked hu) (fun v => dppsLevels_noZe fun _ => dppsTerm_noZe ..)
      (fun v => dppsLevels_sub)
    have hc : ¬ (s.roundImmHi = .refuse ∧ (0 : Byte).extractLsb' 4 4 ≠ 0) := fun h => h.2 (by decide)
    exact (congrArg (Shape _ s) (congrArg (andThen (gate s)) (funext fun _ => if_neg hc))).mp this
  case dppd e d x im =>
    have := Shape.fp (i := .dppd e d x im) (s := s) (s.draws + 1) (dppd s im (s.getXmm d))
      (fun v => dppdLevels s (dppdTerm s.fpEnv im (s.getXmm d) v)) rfl (ne_some_of_none rfl) (by simp [Instr.key])
      (fun v => dppd_noZe ..) (fun h => nomatch h) (fun v hu => dppdLevels_unmasked hu) (fun v => dppdLevels_noZe fun _ => dppdTerm_noZe ..)
      (fun v => dppdLevels_sub)
    have hc : ¬ (s.roundImmHi = .refuse ∧ (0 : Byte).extractLsb' 4 4 ≠ 0) := fun h => h.2 (by decide)
    exact (congrArg (Shape _ s) (congrArg (andThen (gate s)) (funext fun _ => if_neg hc))).mp this
  case roundps e d x im =>
    exact round_shape rfl (ne_some_of_none rfl) (by simp [Instr.key]) (roundps s im) fun v => roundps_onlyIePe ..
  case roundpd e d x im =>
    exact round_shape rfl (ne_some_of_none rfl) (by simp [Instr.key]) (roundpd s im) fun v => roundpd_onlyIePe ..
  case roundss e d x im =>
    exact round_shape rfl (ne_some_of_none rfl) (by simp [Instr.key]) (roundss s im (s.getXmm d)) fun v => roundss_onlyIePe ..
  case roundsd e d x im =>
    exact round_shape rfl (ne_some_of_none rfl) (by simp [Instr.key]) (roundsd s im (s.getXmm d)) fun v => roundsd_onlyIePe ..
  all_goals exact nomatch hc

/-- Every meaning has its shape. -/
theorem exec_shape (i : Instr) (s : State) : Shape i s (exec i s) := by
  cases h : i.excClass with
  | a16 => exact shape_a16 i s h
  | n => exact shape_n i s h
  | nw => exact shape_nw i s h
  | fpA16 => exact shape_fp i s (by rw [h]; rfl)
  | fpN => exact shape_fp i s (by rw [h]; rfl)

end Sys2Proof.Machine
end

