-- ==== Sys2Proof/Laws/Effects.lean ====
section
/-! SUPPORT. Inversion: everything an instruction that completes may have written, everything that holds where it completes, and every
exception it may have raised. Claims about all 49 instructions are proved from these alone. -/

namespace Sys2Proof.Machine

/-- The next states of the meanings: what was written, for the classes and operands that write it. -/
inductive Effect (i : Instr) (s : State) : State → Prop where
  | xmm (v : XWord) (hf : i.excClass.fp = false) (hs : i.excClass.stores = false) (hp : i.key ≠ ⟨.m38, 0x17⟩) :
      Effect i s ((s.setXmm i.operands.reg v).advance i.len)
  | gpr (r : Reg) (v : Quad) (hf : i.excClass.fp = false) (hs : i.excClass.stores = true) (hp : i.key ≠ ⟨.m38, 0x17⟩)
      (hr : i.operands.rm = .reg r) : Effect i s ((s.setGpr r v).advance i.len)
  | mem (m : Mem) (v : XWord) (hf : i.excClass.fp = false) (hs : i.excClass.stores = true) (hp : i.key ≠ ⟨.m38, 0x17⟩)
      (hr : i.operands.rm = .mem m) :
      Effect i s (State.advance { s with mem := s.mem.writeLE (addrOf s i.operands.enc i.len m) i.memBytes v } i.len)
  | fp (n : Nat) (v : XWord) (f : FpFlags) (hf : i.excClass.fp = true) (hs : i.excClass.stores = false)
      (hp : i.key ≠ ⟨.m38, 0x17⟩) (hz : NoZe f) (hr : i.roundImm.isSome = true → OnlyIePe f) (hu : unmasked s f = 0) :
      Effect i s ((State.setXmm { s with draws := n, mxcsr := orFlags s.mxcsr f } i.operands.reg v).advance i.len)
  | flags (zf cf : Bool) (hf : i.excClass.fp = false) (hs : i.excClass.stores = false) (hp : i.key = ⟨.m38, 0x17⟩) :
      Effect i s (State.advance { s with rflags := ptestFlags s.rflags zf cf } i.len)

/-- A class that does not store and has a memory operand reads it. -/
theorem ReadOk.operandsOk {i : Instr} {s : State} (hs : i.excClass.stores = false)
    (h : ReadOk s i.memBytes i.excClass.aligned16 i.operands.enc i.len i.operands.rm) : OperandsOk i s := by
  rw [OperandsOk, hs]; exact h

/-- A class that stores needs no alignment. -/
theorem WriteOk.operandsOk {i : Instr} {s : State} (hs : i.excClass.stores = true)
    (h : WriteOk s i.memBytes i.operands.enc i.len i.operands.rm) : OperandsOk i s := by
  rw [OperandsOk, hs]; exact h

/-- In a mode that is not 16-bit and not mode32 the machine is in mode64. -/
theorem mode64_of {s : State} (h1 : s.mode ≠ .mode16) (h2 : s.mode ≠ .mode32) : s.mode = .mode64 := by
  cases h : s.mode <;> simp_all

/-- INVERSION: where an instruction completes, it may run, its operands raise nothing, and the next state is one of its effects. -/
theorem exec_next {i : Instr} {s t : State} (h : exec i s = .next t) : Ready i s ∧ OperandsOk i s ∧ Effect i s t := by
  have hsh := exec_shape i s
  rw [h] at hsh
  generalize ho : (Host.Outcome.next t : Outcome State) = o at hsh
  cases hsh with
  | xmm f hc hr hw hp =>
    obtain ⟨u, hg, h2⟩ := andThen_eq_next.mp ho.symm
    obtain ⟨v, hv, h3⟩ := andThen_eq_next.mp h2
    have hg := gate_eq_next.mp hg
    obtain ⟨hok, -⟩ := xmmOperand_eq_next.mp hv
    have hs : i.excClass.stores = false := by rcases hc with hc | hc <;> rw [hc] <;> rfl
    have hf : i.excClass.fp = false := by rcases hc with hc | hc <;> rw [hc] <;> rfl
    cases h3
    exact ⟨⟨hg, fun h => absurd h hw, fun _ => by rw [hr]; decide⟩, hok.operandsOk hs, .xmm _ hf hs hp⟩
  | insert f hc hr hw hp =>
    obtain ⟨u, hg, h2⟩ := andThen_eq_next.mp ho.symm
    obtain ⟨v, hv, h3⟩ := andThen_eq_next.mp h2
    have hg := gate_eq_next.mp hg
    obtain ⟨hok, -⟩ := gprOperand_eq_next.mp hv
    cases h3
    refine ⟨⟨hg, fun h => mode64_of hg.1 (hw h), fun _ => by rw [hr]; decide⟩, ReadOk.operandsOk (by rw [hc]; rfl) ?_,
      .xmm _ (by rw [hc]; rfl) (by rw [hc]; rfl) hp⟩
    rw [hc]; exact hok
  | extract v hc hr hw hp =>
    obtain ⟨u, hg, h2⟩ := andThen_eq_next.mp ho.symm
    obtain ⟨t', ht, h3⟩ := andThen_eq_next.mp h2
    have hg := gate_eq_next.mp hg
    obtain ⟨hok, ht⟩ := writeGprOrMem_eq_next.mp ht
    refine ⟨⟨hg, fun h => mode64_of hg.1 (hw h), fun _ => by rw [hr]; decide⟩, hok.operandsOk (by rw [hc]; rfl), ?_⟩
    cases h3
    rcases ht with ⟨r, hr, rfl⟩ | ⟨m, hm, rfl⟩
    · exact .gpr r _ (by rw [hc]; rfl) (by rw [hc]; rfl) hp hr
    · exact .mem m _ (by rw [hc]; rfl) (by rw [hc]; rfl) hp hm
  | fp n r l hc hw hp hz hr hl hlz hls =>
    obtain ⟨u, hg, h2⟩ := andThen_eq_next.mp ho.symm
    have hg := gate_eq_next.mp hg
    split at h2
    · cases h2
    next hi =>
      obtain ⟨v, hv, h3⟩ := andThen_eq_next.mp h2
      obtain ⟨hok, -⟩ := xmmOperand_eq_next.mp hv
      obtain ⟨hu, rfl⟩ := fpComplete_eq_next.mp h3
      have hs : i.excClass.stores = false := by cases h : i.excClass <;> rw [h] at hc <;> first | rfl | exact nomatch hc
      exact ⟨⟨hg, fun h => absurd h hw, fun h => not_not.mp fun hne => hi ⟨h, hne⟩⟩, hok.operandsOk hs,
        .fp n _ _ hc hs hp (hz v) (fun h => hr h v) hu⟩
  | test hc hr hw hp =>
    obtain ⟨u, hg, h2⟩ := andThen_eq_next.mp ho.symm
    obtain ⟨v, hv, h3⟩ := andThen_eq_next.mp h2
    have hg := gate_eq_next.mp hg
    obtain ⟨hok, -⟩ := xmmOperand_eq_next.mp hv
    have hs : i.excClass.stores = false := by rw [hc]; rfl
    cases h3
    exact ⟨⟨hg, fun h => absurd h hw, fun _ => by rw [hr]; decide⟩, hok.operandsOk hs, .flags _ _ (by rw [hc]; rfl) hs hp⟩
  | wrongMode hw hm => cases ho

/-- INVERSION: an exception an instruction raises is the gate's, its memory operand's, or an unmasked floating-point one. -/
theorem exec_fault {i : Instr} {s : State} {f : Fault} (h : exec i s = .fault f) :
    (¬ Enabled s ∧ (f = .invalidOpcode s.rip ∨ f = .deviceNotAvailable s.rip)) ∨
    (Ready i s ∧ ∃ m g, i.operands.rm = .mem m ∧ f = g s.rip ∧
      operandFault s (if i.excClass.stores then .write else .read) i.memBytes i.excClass.aligned16 i.operands.enc i.len m = some g) ∨
    (Ready i s ∧ i.excClass.fp = true ∧ ∃ (x : FpFlags) (levels : List FpFlags),
      FaultSet s x levels (faultFlagsOf s x levels) ∧
      f = if s.osxmmexcpt then .simdFloatingPoint s.rip (orFlags s.mxcsr (faultFlagsOf s x levels))
        else .simdInvalidOpcode s.rip (orFlags s.mxcsr (faultFlagsOf s x levels))) := by
  have hgate : ∀ {k : Unit → Outcome State}, andThen (gate s) k = .fault f →
      (¬ Enabled s ∧ (f = .invalidOpcode s.rip ∨ f = .deviceNotAvailable s.rip)) ∨ Enabled s ∧ k () = .fault f := by
    intro k hk
    rcases andThen_eq_fault.mp hk with hg | ⟨u, hg, hk⟩
    · exact .inl ⟨fun he => (nomatch (gate_of_enabled he).symm.trans hg), gate_eq_fault hg⟩
    · exact .inr ⟨gate_eq_next.mp hg, hk⟩
  have hsh := exec_shape i s
  rw [h] at hsh
  generalize ho : (Host.Outcome.fault f : Outcome State) = o at hsh
  cases hsh with
  | xmm g hc hr hw hp =>
    rcases hgate ho.symm with hg | ⟨hg, h2⟩
    · exact .inl hg
    rcases andThen_eq_fault.mp h2 with h2 | ⟨v, -, h2⟩
    · obtain ⟨m, g, hm, hf, rfl⟩ := xmmOperand_eq_fault.mp h2
      have hs : i.excClass.stores = false := by rcases hc with hc | hc <;> rw [hc] <;> rfl
      refine .inr (.inl ⟨⟨hg, fun h => absurd h hw, fun _ => by rw [hr]; decide⟩, m, g, hm, rfl, ?_⟩)
      rw [hs]; exact hf
    · cases h2
  | insert g hc hr hw hp =>
    rcases hgate ho.symm with hg | ⟨hg, h2⟩
    · exact .inl hg
    rcases andThen_eq_fault.mp h2 with h2 | ⟨v, -, h2⟩
    · obtain ⟨m, g, hm, hf, rfl⟩ := gprOperand_eq_fault.mp h2
      refine .inr (.inl ⟨⟨hg, fun h => mode64_of hg.1 (hw h), fun _ => by rw [hr]; decide⟩, m, g, hm, rfl, ?_⟩)
      rw [hc]; exact hf
    · cases h2
  | extract v hc hr hw hp =>
    rcases hgate ho.symm with hg | ⟨hg, h2⟩
    · exact .inl hg
    rcases andThen_eq_fault.mp h2 with h2 | ⟨v, -, h2⟩
    · obtain ⟨m, g, hm, hf, rfl⟩ := writeGprOrMem_eq_fault.mp h2
      refine .inr (.inl ⟨⟨hg, fun h => mode64_of hg.1 (hw h), fun _ => by rw [hr]; decide⟩, m, g, hm, rfl, ?_⟩)
      rw [hc]; exact hf
    · cases h2
  | fp n r l hc hw hp hz hr hl hlz hls =>
    rcases hgate ho.symm with hg | ⟨hg, h2⟩
    · exact .inl hg
    have hs : i.excClass.stores = false := by cases h : i.excClass <;> rw [h] at hc <;> first | rfl | exact nomatch hc
    split at h2
    · cases h2
    next hi =>
      have hready : Ready i s := ⟨hg, fun h => absurd h hw, fun h => not_not.mp fun hne => hi ⟨h, hne⟩⟩
      rcases andThen_eq_fault.mp h2 with h2 | ⟨v, -, h2⟩
      · obtain ⟨m, g, hm, hf, rfl⟩ := xmmOperand_eq_fault.mp h2
        refine .inr (.inl ⟨hready, m, g, hm, rfl, ?_⟩)
        rw [hs]; exact hf
      · obtain ⟨hu, rfl⟩ := fpComplete_eq_fault.mp h2
        exact .inr (.inr ⟨hready, hc, _, _, faultFlagsOf_faultSet (hl v hu) (hlz v) (hls v), rfl⟩)
  | test hc hr hw hp =>
    rcases hgate ho.symm with hg | ⟨hg, h2⟩
    · exact .inl hg
    rcases andThen_eq_fault.mp h2 with h2 | ⟨v, -, h2⟩
    · obtain ⟨m, g, hm, hf, rfl⟩ := xmmOperand_eq_fault.mp h2
      refine .inr (.inl ⟨⟨hg, fun h => absurd h hw, fun _ => by rw [hr]; decide⟩, m, g, hm, rfl, ?_⟩)
      have hs : i.excClass.stores = false := by rw [hc]; rfl
      rw [hs]; exact hf
    · cases h2
  | wrongMode hw hm => cases ho

/-- Where an instruction may run, an exception of its memory operand is what it answers. -/
theorem exec_operandFault {i : Instr} {s : State} {m : Mem} {g : Quad → Fault} (hr : Ready i s) (hm : i.operands.rm = .mem m)
    (h : operandFault s (if i.excClass.stores then .write else .read) i.memBytes i.excClass.aligned16 i.operands.enc i.len m = some g) :
    exec i s = .fault (g s.rip) := by
  obtain ⟨hg, hx⟩ := hr
  have hsh := exec_shape i s
  generalize exec i s = o at hsh
  cases hsh with
  | wrongMode hw hm' => exact absurd (hx.1 hw) (by simp [hm'])
  | xmm f hc hr hw hp =>
    have hs : i.excClass.stores = false := by rcases hc with hc | hc <;> rw [hc] <;> rfl
    rw [hs] at h
    exact andThen_eq_fault.mpr (.inr ⟨(), gate_of_enabled hg, andThen_eq_fault.mpr (.inl (xmmOperand_eq_fault.mpr ⟨m, g, hm, h, rfl⟩))⟩)
  | insert f hc hr hw hp =>
    rw [hc] at h
    exact andThen_eq_fault.mpr (.inr ⟨(), gate_of_enabled hg, andThen_eq_fault.mpr (.inl (gprOperand_eq_fault.mpr ⟨m, g, hm, h, rfl⟩))⟩)
  | extract f hc hr hw hp =>
    rw [hc] at h
    exact andThen_eq_fault.mpr (.inr ⟨(), gate_of_enabled hg, andThen_eq_fault.mpr (.inl (writeGprOrMem_eq_fault.mpr ⟨m, g, hm, h, rfl⟩))⟩)
  | fp n r l hc hw hp hz hr hl hlz hls =>
    have hs : i.excClass.stores = false := by cases h : i.excClass <;> rw [h] at hc <;> first | rfl | exact nomatch hc
    rw [hs] at h
    refine andThen_eq_fault.mpr (.inr ⟨(), gate_of_enabled hg, ?_⟩)
    rw [if_neg (fun h => h.2 (hx.2 h.1))]
    exact andThen_eq_fault.mpr (.inl (xmmOperand_eq_fault.mpr ⟨m, g, hm, h, rfl⟩))
  | test hc hr hw hp =>
    have hs : i.excClass.stores = false := by rw [hc]; rfl
    rw [hs] at h
    exact andThen_eq_fault.mpr (.inr ⟨(), gate_of_enabled hg, andThen_eq_fault.mpr (.inl (xmmOperand_eq_fault.mpr ⟨m, g, hm, h, rfl⟩))⟩)

end Sys2Proof.Machine
end

