-- ==== Sys2Proof/Laws/Lanes.lean ====
section
/-! SUPPORT. Fields of packed values: what `pack`, `setLane` and `lane` answer, bit by bit and field by field (00_scope.md R7). -/

namespace Sys2Proof.Machine

/-- A bit of a field is a bit of the value. -/
theorem getLsbD_lane (w i j : Nat) (x : XWord) : (lane w i x).getLsbD j = (decide (j < w) && x.getLsbD (w * i + j)) := by
  simp [lane, BitVec.getLsbD_extractLsb']

/-- A bit of a packed value is a bit of the field it lies in; bits above the fields are 0. -/
theorem getLsbD_pack (w n : Nat) (f : Nat → BitVec w) (j : Nat) (hn : w * n ≤ 128) :
    (pack w n f).getLsbD j = (decide (j < w * n) && (f (j / w)).getLsbD (j % w)) := by
  induction n with
  | zero => simp [pack]
  | succ n ih =>
    have hle : w * n ≤ 128 := le_trans (Nat.mul_le_mul_left w (Nat.le_succ n)) hn
    rw [pack, BitVec.getLsbD_or, ih hle, BitVec.getLsbD_shiftLeft, BitVec.getLsbD_setWidth]
    rw [Nat.mul_succ] at hn ⊢
    by_cases h1 : j < w * n
    · have h2 : j < w * n + w := by omega
      simp [h1, h2]
    · by_cases h2 : j < w * n + w
      · have hw : 0 < w := by omega
        have hdiv : j / w = n := by
          apply Nat.div_eq_of_lt_le
          · rw [Nat.mul_comm]; omega
          · rw [Nat.succ_mul, Nat.mul_comm]; omega
        have hmod : j % w = j - w * n := by
          have := Nat.div_add_mod j w
          rw [hdiv] at this
          omega
        have h3 : j < 128 := by omega
        have h4 : j - w * n < 128 := by omega
        simp [h1, h2, h3, h4, hdiv, hmod]
      · have h3 : (f n).getLsbD (j - w * n) = false := BitVec.getLsbD_of_ge _ _ (by omega)
        simp [h1, h2, h3]

/-- Field `i` of a packed value is the `i`-th field given. -/
theorem lane_pack (w n : Nat) (f : Nat → BitVec w) (i : Nat) (hn : w * n ≤ 128) (hi : i < n) : lane w i (pack w n f) = f i := by
  apply BitVec.eq_of_getLsbD_eq
  intro j hj
  have hw : 0 < w := by omega
  have h1 : w * i + j < w * n := by
    have : w * (i + 1) ≤ w * n := Nat.mul_le_mul_left w hi
    rw [Nat.mul_succ] at this
    omega
  have h2 : (w * i + j) / w = i := by rw [Nat.mul_add_div hw, Nat.div_eq_of_lt hj, Nat.add_zero]
  have h3 : (w * i + j) % w = j := by rw [Nat.mul_add_mod, Nat.mod_eq_of_lt hj]
  rw [getLsbD_lane, getLsbD_pack _ _ _ _ hn, h2, h3]
  simp [hj, h1]

/-- Fields above the packed ones are 0. -/
theorem lane_pack_ge (w n : Nat) (f : Nat → BitVec w) (i : Nat) (hn : w * n ≤ 128) (hi : n ≤ i) : lane w i (pack w n f) = 0 := by
  apply BitVec.eq_of_getLsbD_eq
  intro j hj
  have h1 : ¬ w * i + j < w * n := by
    have : w * n ≤ w * i := Nat.mul_le_mul_left w hi
    omega
  rw [getLsbD_lane, getLsbD_pack _ _ _ _ hn]
  simp [h1]

/-- A field after one field was replaced. -/
theorem lane_setLane (w i k : Nat) (v : BitVec w) (x : XWord) (hk : k < 128 / w) :
    lane w k (setLane w i v x) = if k = i then v else lane w k x := by
  rw [setLane, lane_pack _ _ _ _ (Nat.mul_div_le 128 w) hk]

/-- A value is determined by its fields. -/
theorem eq_of_lanes (w n : Nat) (hw : w * n = 128) (x y : XWord) (h : ∀ i < n, lane w i x = lane w i y) : x = y := by
  have hpos : 0 < w := by
    rcases Nat.eq_zero_or_pos w with h0 | h0
    · subst h0; simp at hw
    · exact h0
  apply BitVec.eq_of_getLsbD_eq
  intro j hj
  have hlt : j / w < n := by
    rw [Nat.div_lt_iff_lt_mul hpos, Nat.mul_comm, hw]; exact hj
  have := congrArg (fun v => v.getLsbD (j % w)) (h _ hlt)
  simp only [getLsbD_lane, Nat.mod_lt j hpos, decide_true, Bool.true_and, Nat.div_add_mod] at this
  exact this

end Sys2Proof.Machine
end

