-- ==== Sys2Proof/Laws/Memory.lean ====
section
/-! SUPPORT. Memory: a read after a write, the bytes of wider values, and that every write keeps the canonical form. -/

namespace Sys2Proof.Machine

/-! ### One byte -/

/-- A byte behind `a` reads the same once the entries at or below `a` are dropped. -/
theorem Memory.read_above {a b : Nat} (h : a < b) (m : Memory) : (Memory.above a m).read b = m.read b := by
  induction m with
  | nil => rfl
  | cons c t ih =>
    obtain ⟨k, v⟩ := c
    by_cases hk : k ≤ a
    · have h1 : k ≠ b := by omega
      have h2 : ¬ b < k := by omega
      simp [Memory.above, Memory.read, hk, ih, h1, h2]
    · simp [Memory.above, hk]

/-- A byte at or below `a` reads as unlisted once the entries at or below `a` are dropped. -/
theorem Memory.read_above_le {a b : Nat} (h : b ≤ a) (m : Memory) : (Memory.above a m).read b = Config.unlistedByte := by
  induction m with
  | nil => rfl
  | cons c t ih =>
    obtain ⟨k, v⟩ := c
    by_cases hk : k ≤ a
    · simp [Memory.above, hk, ih]
    · have h1 : k ≠ b := by omega
      have h2 : b < k := by omega
      simp [Memory.above, Memory.read, hk, h1, h2]

/-- A read after a write: the byte written, and everywhere else the byte that was there. -/
theorem Memory.read_write (m : Memory) (a b : Nat) (v : Byte) :
    (m.write a v).read b = if a = b then v else m.read b := by
  induction m with
  | nil =>
    by_cases hv : v = Config.unlistedByte <;> by_cases hb : a = b <;> simp [Memory.write, Memory.read, hv, hb]
  | cons c t ih =>
    obtain ⟨k, w⟩ := c
    rcases Nat.lt_trichotomy a k with h | h | h
    · by_cases hv : v = Config.unlistedByte
      · by_cases hb : a = b
        · subst hb
          have h1 : k ≠ a := by omega
          simp [Memory.write, Memory.read, h, hv, h1]
        · simp [Memory.write, h, hv, hb]
      · by_cases hb : a = b
        · subst hb; simp [Memory.write, Memory.read, h, hv]
        · by_cases hlt : b < a
          · have h1 : k ≠ b := by omega
            have h2 : b < k := by omega
            simp [Memory.write, Memory.read, h, hv, hb, hlt, h1, h2]
          · simp [Memory.write, Memory.read, h, hv, hb, hlt]
    · subst h
      by_cases hv : v = Config.unlistedByte
      · by_cases hb : a = b
        · subst hb; simp [Memory.write, hv, Memory.read_above_le]
        · by_cases hlt : b < a
          · simp [Memory.write, hv, hb, hlt, Memory.read, Memory.read_above_le (Nat.le_of_lt hlt)]
          · simp [Memory.write, hv, hb, hlt, Memory.read, Memory.read_above (by omega : a < b)]
      · by_cases hb : a = b <;> simp [Memory.write, hv, hb, Memory.read]
    · have h1 : ¬ a < k := by omega
      have h2 : a ≠ k := by omega
      by_cases hkb : k = b
      · subst hkb; simp [Memory.write, h1, h2, Memory.read]
      · by_cases hbk : b < k
        · have h3 : a ≠ b := by omega
          simp [Memory.write, h1, h2, Memory.read, hkb, hbk, h3]
        · simp [Memory.write, h1, h2, Memory.read, hkb, hbk, ih]

/-! ### The canonical form -/

/-- Dropping entries keeps the rest. -/
theorem Memory.mem_above {a : Nat} {m : Memory} {c : Host.Cell} (h : c ∈ Memory.above a m) : c ∈ m := by
  induction m with
  | nil => simp [Memory.above] at h
  | cons d t ih =>
    obtain ⟨k, v⟩ := d
    by_cases hk : k ≤ a
    · simp only [Memory.above, hk, if_true] at h
      exact List.mem_cons_of_mem _ (ih h)
    · simpa [Memory.above, hk] using h

theorem Memory.wf_above {a : Nat} {m : Memory} (h : Memory.wf m) : Memory.wf (Memory.above a m) := by
  induction m with
  | nil => simpa [Memory.above] using h
  | cons d t ih =>
    obtain ⟨k, v⟩ := d
    by_cases hk : k ≤ a
    · simp only [Memory.above, hk, if_true]
      exact ih ⟨(List.pairwise_cons.mp h.1).2, fun c hc => h.2 c (List.mem_cons_of_mem _ hc)⟩
    · simpa [Memory.above, hk] using h

/-- What a write lists was listed before, or is the byte written. -/
theorem Memory.mem_write {m : Memory} {a : Nat} {v : Byte} {c : Host.Cell} (h : c ∈ m.write a v) : c ∈ m ∨ c = (a, v) := by
  induction m with
  | nil =>
    by_cases hv : v = Config.unlistedByte
    · simp [Memory.write, hv] at h
    · simpa [Memory.write, hv] using h
  | cons d t ih =>
    obtain ⟨k, w⟩ := d
    by_cases h1 : a < k
    · by_cases hv : v = Config.unlistedByte
      · simp only [Memory.write, h1, hv, if_true] at h
        exact .inl h
      · simp only [Memory.write, h1, hv, if_true, if_false, List.mem_cons] at h
        rcases h with h | h | h
        · exact .inr h
        · exact .inl (by simp [h])
        · exact .inl (by simp [h])
    · by_cases h2 : a = k
      · by_cases hv : v = Config.unlistedByte
        · simp only [Memory.write, h2, hv, if_true] at h
          simp only [lt_irrefl, if_false] at h
          exact .inl (List.mem_cons_of_mem _ (Memory.mem_above h))
        · simp only [Memory.write, h1, hv, if_false] at h
          simp only [h2, if_true, List.mem_cons] at h
          rcases h with h | h
          · exact .inr (by rw [h, h2])
          · exact .inl (by simp [h])
      · simp only [Memory.write, h1, h2, if_false, List.mem_cons] at h
        rcases h with h | h
        · exact .inl (by simp [h])
        · rcases ih h with h | h
          · exact .inl (by simp [h])
          · exact .inr h

/-- A write keeps the canonical form. -/
theorem Memory.wf_write {m : Memory} (h : Memory.wf m) (a : Nat) (v : Byte) : Memory.wf (m.write a v) := by
  induction m with
  | nil =>
    by_cases hv : v = Config.unlistedByte
    · simp [Memory.write, hv, Memory.wf]
    · simp [Memory.write, hv, Memory.wf]
  | cons d t ih =>
    obtain ⟨k, w⟩ := d
    have ht : Memory.wf t := ⟨(List.pairwise_cons.mp h.1).2, fun c hc => h.2 c (List.mem_cons_of_mem _ hc)⟩
    have hk : ∀ c ∈ t, k < c.1 := (List.pairwise_cons.mp h.1).1
    have hw : w ≠ Config.unlistedByte := h.2 (k, w) (by simp)
    by_cases h1 : a < k
    · by_cases hv : v = Config.unlistedByte
      · simpa only [Memory.write, h1, hv, if_true] using h
      · simp only [Memory.write, h1, hv, if_true, if_false]
        refine ⟨List.pairwise_cons.mpr ⟨fun c hc => ?_, h.1⟩, fun c hc => ?_⟩
        · rcases List.mem_cons.mp hc with rfl | hc
          · exact h1
          · exact Nat.lt_trans h1 (hk c hc)
        · rcases List.mem_cons.mp hc with rfl | hc
          · exact hv
          · exact h.2 c hc
    · by_cases h2 : a = k
      · subst h2
        by_cases hv : v = Config.unlistedByte
        · simp only [Memory.write, hv, if_true, lt_irrefl, if_false]
          exact Memory.wf_above ht
        · simp only [Memory.write, hv, if_true, lt_irrefl, if_false]
          refine ⟨List.pairwise_cons.mpr ⟨hk, ht.1⟩, fun c hc => ?_⟩
          rcases List.mem_cons.mp hc with rfl | hc
          · exact hv
          · exact ht.2 c hc
      · simp only [Memory.write, h1, h2, if_false]
        have hr := ih ht
        refine ⟨List.pairwise_cons.mpr ⟨fun c hc => ?_, hr.1⟩, fun c hc => ?_⟩
        · rcases Memory.mem_write hc with hc | rfl
          · exact hk c hc
          · omega
        · rcases List.mem_cons.mp hc with rfl | hc
          · exact hw
          · exact hr.2 c hc

/-! ### Wider values -/

theorem Memory.wf_writeLE {m : Memory} (h : Memory.wf m) (a n : Nat) (v : XWord) : Memory.wf (m.writeLE a n v) := by
  induction n generalizing m a v with
  | zero => exact h
  | succ n ih => exact ih (Memory.wf_write h _ _) _ _

theorem Memory.wf_writeList {m : Memory} (h : Memory.wf m) (a : Nat) (bs : List Byte) : Memory.wf (m.writeList a bs) := by
  induction bs generalizing m a with
  | nil => exact h
  | cons b bs ih => exact ih (Memory.wf_write h _ _) _

/-- A stored value lists addresses that were listed, or its own. -/
theorem Memory.mem_writeLE {m : Memory} {a n : Nat} {v : XWord} {c : Host.Cell} (h : c ∈ m.writeLE a n v) :
    c ∈ m ∨ (a ≤ c.1 ∧ c.1 < a + n) := by
  induction n generalizing m a v with
  | zero => exact .inl h
  | succ n ih =>
    rcases ih h with h | h
    · rcases Memory.mem_write h with h | rfl
      · exact .inl h
      · exact .inr (by simp)
    · exact .inr (by omega)

/-- Outside the stored bytes every address keeps its byte. -/
theorem Memory.read_writeLE_ne (m : Memory) {a n b : Nat} (v : XWord) (h : ¬ (a ≤ b ∧ b < a + n)) :
    (m.writeLE a n v).read b = m.read b := by
  induction n generalizing m a v with
  | zero => rfl
  | succ n ih =>
    have h1 : ¬ (a + 1 ≤ b ∧ b < a + 1 + n) := by omega
    have h2 : a ≠ b := by omega
    simp [Memory.writeLE, ih _ _ h1, Memory.read_write, h2]

/-- Byte `k` of the stored value lies at `a + k`. -/
theorem Memory.read_writeLE (m : Memory) {a n k : Nat} (v : XWord) (h : k < n) :
    (m.writeLE a n v).read (a + k) = v.extractLsb' (8 * k) 8 := by
  induction n generalizing m a v k with
  | zero => omega
  | succ n ih =>
    rw [Memory.writeLE]
    cases k with
    | zero =>
      rw [Memory.read_writeLE_ne _ _ (by omega), Memory.read_write]
      simp only [Nat.add_zero, if_true, Nat.mul_zero]
      apply BitVec.eq_of_toNat_eq
      simp [BitVec.extractLsb'_toNat]
    | succ k =>
      have := ih (m.write a (v.setWidth 8)) (a := a + 1) (v >>> 8) (k := k) (by omega)
      rw [show a + (k + 1) = a + 1 + k by omega, this]
      apply BitVec.eq_of_getLsbD_eq
      intro i hi
      simp [hi, show 8 + (8 * k + i) = 8 * (k + 1) + i by omega]

/-- A value read has the bits of its bytes, lowest address lowest, and zeros above its width. -/
theorem Memory.getLsbD_readLE (m : Memory) (a n j : Nat) (hn : n ≤ 16) :
    (m.readLE a n).getLsbD j = (decide (j < 8 * n) && (m.read (a + j / 8)).getLsbD (j % 8)) := by
  induction n generalizing a j with
  | zero => simp [Memory.readLE]
  | succ n ih =>
    rw [Memory.readLE, BitVec.getLsbD_or, BitVec.getLsbD_setWidth, BitVec.getLsbD_shiftLeft, ih _ _ (by omega)]
    by_cases hj : j < 8
    · have h1 : j < 128 := by omega
      have h2 : j / 8 = 0 := by omega
      have h3 : j % 8 = j := by omega
      have h4 : j < 8 * (n + 1) := by omega
      simp [hj, h1, h2, h3, h4]
    · by_cases h128 : j < 128
      · have h0 : (m.read a).getLsbD j = false := BitVec.getLsbD_of_ge _ _ (by omega)
        have h2 : a + 1 + (j - 8) / 8 = a + j / 8 := by omega
        have h3 : (j - 8) % 8 = j % 8 := by omega
        have h4 : (j - 8 < 8 * n) ↔ (j < 8 * (n + 1)) := by omega
        simp [hj, h128, h0, h2, h3, h4]
      · have h4 : ¬ j < 8 * (n + 1) := by omega
        simp [h128, h4]

/-- A byte of a value read. -/
theorem Memory.extract_readLE (m : Memory) {a n k : Nat} (hn : n ≤ 16) (hk : k < n) :
    (m.readLE a n).extractLsb' (8 * k) 8 = m.read (a + k) := by
  apply BitVec.eq_of_getLsbD_eq
  intro i hi
  rw [BitVec.getLsbD_extractLsb', Memory.getLsbD_readLE _ _ _ _ hn]
  have h1 : (8 * k + i) / 8 = k := by omega
  have h2 : (8 * k + i) % 8 = i := by omega
  have h3 : 8 * k + i < 8 * n := by omega
  simp [hi, h1, h2, h3]

/-- A value of `n` bytes is below 256^n. -/
theorem Memory.readLE_lt (m : Memory) (a n : Nat) (hn : n ≤ 16) : (m.readLE a n).toNat < 256 ^ n := by
  have h8 : (256 : Nat) ^ n = 2 ^ (8 * n) := by rw [Nat.pow_mul]
  rw [h8]
  by_cases h16 : n = 16
  · subst h16; exact (m.readLE a 16).isLt
  · apply Nat.lt_pow_two_of_testBit
    intro i hi
    have := Memory.getLsbD_readLE m a n i hn
    rw [← BitVec.testBit_toNat] at this
    rw [this]
    have : ¬ i < 8 * n := by omega
    simp [this]

end Sys2Proof.Machine
end

