-- ==== Sys2Proof/Laws/PerInstr.lean ====
section
/-! SUPPORT. The family `Rebuild`: the row of an instruction's opcode key and its operands give the instruction back (30_encoding.md R74
to R77), one lemma for each constructor. -/

namespace Sys2Proof.Laws.Rebuild

/-- Where REX.W is the one the instruction requires, its key has a row, and the row builds it from its operands and the immediate at the
head of the bytes, and leaves the rest. -/
def Statement (i : Instr) : Prop :=
  i.operands.enc.wOk i.requiredW = true → ∀ rest : List Byte, ∃ lay,
    row i.key.map i.key.byte i.operands.enc.rexW = some lay ∧
    build lay i.operands.enc i.operands.reg i.operands.rm (i.operands.imm.toList ++ rest) = .ok (i, rest)

theorem mpsadbw (e : Enc) (dst : Reg) (src : Rm) (imm : Byte) : Statement (.mpsadbw e dst src imm) := fun _ _ => ⟨_, rfl, rfl⟩

theorem phminposuw (e : Enc) (dst : Reg) (src : Rm) : Statement (.phminposuw e dst src) := fun _ _ => ⟨_, rfl, rfl⟩

theorem pmovsxbw (e : Enc) (dst : Reg) (src : Rm) : Statement (.pmovsxbw e dst src) := fun _ _ => ⟨_, rfl, rfl⟩

theorem pmovzxbw (e : Enc) (dst : Reg) (src : Rm) : Statement (.pmovzxbw e dst src) := fun _ _ => ⟨_, rfl, rfl⟩

theorem pmovsxbd (e : Enc) (dst : Reg) (src : Rm) : Statement (.pmovsxbd e dst src) := fun _ _ => ⟨_, rfl, rfl⟩

theorem pmovzxbd (e : Enc) (dst : Reg) (src : Rm) : Statement (.pmovzxbd e dst src) := fun _ _ => ⟨_, rfl, rfl⟩

theorem pmovsxwd (e : Enc) (dst : Reg) (src : Rm) : Statement (.pmovsxwd e dst src) := fun _ _ => ⟨_, rfl, rfl⟩

theorem pmovzxwd (e : Enc) (dst : Reg) (src : Rm) : Statement (.pmovzxwd e dst src) := fun _ _ => ⟨_, rfl, rfl⟩

theorem pmovsxbq (e : Enc) (dst : Reg) (src : Rm) : Statement (.pmovsxbq e dst src) := fun _ _ => ⟨_, rfl, rfl⟩

theorem pmovzxbq (e : Enc) (dst : Reg) (src : Rm) : Statement (.pmovzxbq e dst src) := fun _ _ => ⟨_, rfl, rfl⟩

theorem pmovsxwq (e : Enc) (dst : Reg) (src : Rm) : Statement (.pmovsxwq e dst src) := fun _ _ => ⟨_, rfl, rfl⟩

theorem pmovzxwq (e : Enc) (dst : Reg) (src : Rm) : Statement (.pmovzxwq e dst src) := fun _ _ => ⟨_, rfl, rfl⟩

theorem pmovsxdq (e : Enc) (dst : Reg) (src : Rm) : Statement (.pmovsxdq e dst src) := fun _ _ => ⟨_, rfl, rfl⟩

theorem pmovzxdq (e : Enc) (dst : Reg) (src : Rm) : Statement (.pmovzxdq e dst src) := fun _ _ => ⟨_, rfl, rfl⟩

theorem pminsb (e : Enc) (dst : Reg) (src : Rm) : Statement (.pminsb e dst src) := fun _ _ => ⟨_, rfl, rfl⟩

theorem pminuw (e : Enc) (dst : Reg) (src : Rm) : Statement (.pminuw e dst src) := fun _ _ => ⟨_, rfl, rfl⟩

theorem pminsd (e : Enc) (dst : Reg) (src : Rm) : Statement (.pminsd e dst src) := fun _ _ => ⟨_, rfl, rfl⟩

theorem pminud (e : Enc) (dst : Reg) (src : Rm) : Statement (.pminud e dst src) := fun _ _ => ⟨_, rfl, rfl⟩

theorem pmaxsb (e : Enc) (dst : Reg) (src : Rm) : Statement (.pmaxsb e dst src) := fun _ _ => ⟨_, rfl, rfl⟩

theorem pmaxuw (e : Enc) (dst : Reg) (src : Rm) : Statement (.pmaxuw e dst src) := fun _ _ => ⟨_, rfl, rfl⟩

theorem pmaxsd (e : Enc) (dst : Reg) (src : Rm) : Statement (.pmaxsd e dst src) := fun _ _ => ⟨_, rfl, rfl⟩

theorem pmaxud (e : Enc) (dst : Reg) (src : Rm) : Statement (.pmaxud e dst src) := fun _ _ => ⟨_, rfl, rfl⟩

theorem pmuldq (e : Enc) (dst : Reg) (src : Rm) : Statement (.pmuldq e dst src) := fun _ _ => ⟨_, rfl, rfl⟩

theorem pmulld (e : Enc) (dst : Reg) (src : Rm) : Statement (.pmulld e dst src) := fun _ _ => ⟨_, rfl, rfl⟩

theorem packusdw (e : Enc) (dst : Reg) (src : Rm) : Statement (.packusdw e dst src) := fun _ _ => ⟨_, rfl, rfl⟩

theorem pcmpeqq (e : Enc) (dst : Reg) (src : Rm) : Statement (.pcmpeqq e dst src) := fun _ _ => ⟨_, rfl, rfl⟩

theorem insertps (e : Enc) (dst : Reg) (src : Rm) (imm : Byte) : Statement (.insertps e dst src imm) := fun _ _ => ⟨_, rfl, rfl⟩

theorem extractps (e : Enc) (dst : Rm) (src : Reg) (imm : Byte) : Statement (.extractps e dst src imm) := fun _ _ => ⟨_, rfl, rfl⟩

theorem pinsrb (e : Enc) (dst : Reg) (src : Rm) (imm : Byte) : Statement (.pinsrb e dst src imm) := fun _ _ => ⟨_, rfl, rfl⟩

theorem pinsrd (e : Enc) (dst : Reg) (src : Rm) (imm : Byte) : Statement (.pinsrd e dst src imm) := by
  intro h rest
  have hw : e.rexW = false := eq_of_beq h
  exact ⟨_, congrArg (fun w => row _ _ w) hw, rfl⟩

theorem pinsrq (e : Enc) (dst : Reg) (src : Rm) (imm : Byte) : Statement (.pinsrq e dst src imm) := by
  intro h rest
  have hw : e.rexW = true := eq_of_beq h
  exact ⟨_, congrArg (fun w => row _ _ w) hw, rfl⟩

theorem pextrb (e : Enc) (dst : Rm) (src : Reg) (imm : Byte) : Statement (.pextrb e dst src imm) := fun _ _ => ⟨_, rfl, rfl⟩

theorem pextrw (e : Enc) (dst : Rm) (src : Reg) (imm : Byte) : Statement (.pextrw e dst src imm) := fun _ _ => ⟨_, rfl, rfl⟩

theorem pextrd (e : Enc) (dst : Rm) (src : Reg) (imm : Byte) : Statement (.pextrd e dst src imm) := by
  intro h rest
  have hw : e.rexW = false := eq_of_beq h
  exact ⟨_, congrArg (fun w => row _ _ w) hw, rfl⟩

theorem pextrq (e : Enc) (dst : Rm) (src : Reg) (imm : Byte) : Statement (.pextrq e dst src imm) := by
  intro h rest
  have hw : e.rexW = true := eq_of_beq h
  exact ⟨_, congrArg (fun w => row _ _ w) hw, rfl⟩

theorem dpps (e : Enc) (dst : Reg) (src : Rm) (imm : Byte) : Statement (.dpps e dst src imm) := fun _ _ => ⟨_, rfl, rfl⟩

theorem dppd (e : Enc) (dst : Reg) (src : Rm) (imm : Byte) : Statement (.dppd e dst src imm) := fun _ _ => ⟨_, rfl, rfl⟩

theorem blendvps (e : Enc) (dst : Reg) (src : Rm) : Statement (.blendvps e dst src) := fun _ _ => ⟨_, rfl, rfl⟩

theorem blendvpd (e : Enc) (dst : Reg) (src : Rm) : Statement (.blendvpd e dst src) := fun _ _ => ⟨_, rfl, rfl⟩

theorem blendps (e : Enc) (dst : Reg) (src : Rm) (imm : Byte) : Statement (.blendps e dst src imm) := fun _ _ => ⟨_, rfl, rfl⟩

theorem blendpd (e : Enc) (dst : Reg) (src : Rm) (imm : Byte) : Statement (.blendpd e dst src imm) := fun _ _ => ⟨_, rfl, rfl⟩

theorem pblendvb (e : Enc) (dst : Reg) (src : Rm) : Statement (.pblendvb e dst src) := fun _ _ => ⟨_, rfl, rfl⟩

theorem pblendw (e : Enc) (dst : Reg) (src : Rm) (imm : Byte) : Statement (.pblendw e dst src imm) := fun _ _ => ⟨_, rfl, rfl⟩

theorem ptest (e : Enc) (dst : Reg) (src : Rm) : Statement (.ptest e dst src) := fun _ _ => ⟨_, rfl, rfl⟩

theorem roundps (e : Enc) (dst : Reg) (src : Rm) (imm : Byte) : Statement (.roundps e dst src imm) := fun _ _ => ⟨_, rfl, rfl⟩

theorem roundpd (e : Enc) (dst : Reg) (src : Rm) (imm : Byte) : Statement (.roundpd e dst src imm) := fun _ _ => ⟨_, rfl, rfl⟩

theorem roundss (e : Enc) (dst : Reg) (src : Rm) (imm : Byte) : Statement (.roundss e dst src imm) := fun _ _ => ⟨_, rfl, rfl⟩

theorem roundsd (e : Enc) (dst : Reg) (src : Rm) (imm : Byte) : Statement (.roundsd e dst src imm) := fun _ _ => ⟨_, rfl, rfl⟩

theorem movntdqa (e : Enc) (dst : Reg) (src : Mem) : Statement (.movntdqa e dst src) := fun _ _ => ⟨_, rfl, rfl⟩

end Sys2Proof.Laws.Rebuild
end

