-- ==== Sys2Proof/Tests/Slice0.lean ====
section
/-! SUPPORT. The model's own tests: ill-formed terms refused, words written out from the encodings of 30_encoding.md decoded, the spec's
vectors (95_test_vectors.md, whose row each test names) run one step, and for every obligation with hypotheses a witness that meets
them. -/

namespace Sys2Proof.Tests

open Sys2Proof.Machine

-- Checked one after the other: many kernel evaluations at once each hold a thread's stack.
set_option Elab.async false

/-! ### Well-formedness: one ill-formed term for each check, beside a well-formed one -/

/-- No segment override, no `67`, no REX byte. -/
abbrev plain : Enc := ⟨none, false, none⟩

/-- Only a REX byte. -/
abbrev rexed (b : BitVec 4) : Enc := ⟨none, false, some b⟩

theorem test_wf_accepts : (Instr.ptest plain 0 (.mem (.sib 4 0 none .none))).wf .mode64 = true := by decide
/-- Check 1: no REX byte in mode32, no `67` there, nothing in mode16. -/
theorem test_wf_check1 : (Instr.ptest (rexed 0) 0 (.reg 1)).wf .mode32 = false ∧
    (Instr.ptest ⟨none, true, none⟩ 0 (.reg 1)).wf .mode32 = false ∧ (Instr.ptest plain 0 (.reg 1)).wf .mode16 = false := by decide
/-- Check 2: register 9 in ModR/M.reg needs REX.R. -/
theorem test_wf_check2 : (Instr.ptest (rexed 0b0001) 9 (.reg 1)).wf .mode64 = false := by decide
/-- Check 3: RSP is no index, R12 is one with REX.X only. -/
theorem test_wf_check3 : (Instr.ptest plain 0 (.mem (.sib 0 0 (some 4) .none))).wf .mode64 = false ∧
    (Instr.ptest plain 0 (.mem (.sib 0 0 (some 12) .none))).wf .mode64 = false ∧
    (Instr.ptest (rexed 0b0010) 0 (.mem (.sib 0 0 (some 12) .none))).wf .mode64 = true := by decide
/-- Check 4: RSP as a base needs a SIB byte, RBP a displacement. -/
theorem test_wf_check4 : (Instr.ptest plain 0 (.mem (.base 4 .none))).wf .mode64 = false ∧
    (Instr.ptest plain 0 (.mem (.base 5 .none))).wf .mode64 = false ∧
    (Instr.ptest plain 0 (.mem (.base 5 (.d8 0)))).wf .mode64 = true := by decide
/-- Check 5: register 8 in ModR/M.rm needs REX.B. -/
theorem test_wf_check5 : (Instr.ptest plain 0 (.reg 8)).wf .mode64 = false := by decide
/-- Check 6: PINSRQ needs REX.W, PINSRD its absence. -/
theorem test_wf_check6 : (Instr.pinsrq plain 0 (.reg 1) 0).wf .mode64 = false ∧
    (Instr.pinsrd (rexed 8) 0 (.reg 1) 0).wf .mode64 = false := by decide

/-! ### Decoding: every opcode of R75 and R76 as a word; ModR/M `D3` is mod 11, reg 010, rm 011, and `13` is mod 00, reg 010, rm 011 -/

/-- Words of the `0F 38` map (R75), first half. -/
def words38a : List (List Byte × Instr) :=
  [([0x66, 0x0F, 0x38, 0x10, 0xD3], .pblendvb plain 2 (.reg 3)),
   ([0x66, 0x0F, 0x38, 0x14, 0xD3], .blendvps plain 2 (.reg 3)),
   ([0x66, 0x0F, 0x38, 0x15, 0xD3], .blendvpd plain 2 (.reg 3)),
   ([0x66, 0x0F, 0x38, 0x17, 0xD3], .ptest plain 2 (.reg 3)),
   ([0x66, 0x0F, 0x38, 0x20, 0xD3], .pmovsxbw plain 2 (.reg 3)),
   ([0x66, 0x0F, 0x38, 0x21, 0xD3], .pmovsxbd plain 2 (.reg 3)),
   ([0x66, 0x0F, 0x38, 0x22, 0xD3], .pmovsxbq plain 2 (.reg 3)),
   ([0x66, 0x0F, 0x38, 0x23, 0xD3], .pmovsxwd plain 2 (.reg 3)),
   ([0x66, 0x0F, 0x38, 0x24, 0xD3], .pmovsxwq plain 2 (.reg 3)),
   ([0x66, 0x0F, 0x38, 0x25, 0xD3], .pmovsxdq plain 2 (.reg 3)),
   ([0x66, 0x0F, 0x38, 0x28, 0xD3], .pmuldq plain 2 (.reg 3)),
   ([0x66, 0x0F, 0x38, 0x29, 0xD3], .pcmpeqq plain 2 (.reg 3)),
   ([0x66, 0x0F, 0x38, 0x2A, 0x13], .movntdqa plain 2 (.base 3 .none)),
   ([0x66, 0x0F, 0x38, 0x2B, 0xD3], .packusdw plain 2 (.reg 3)),
   ([0x66, 0x0F, 0x38, 0x30, 0xD3], .pmovzxbw plain 2 (.reg 3))]

/-- Words of the `0F 38` map (R75), second half. -/
def words38b : List (List Byte × Instr) :=
  [([0x66, 0x0F, 0x38, 0x31, 0xD3], .pmovzxbd plain 2 (.reg 3)),
   ([0x66, 0x0F, 0x38, 0x32, 0xD3], .pmovzxbq plain 2 (.reg 3)),
   ([0x66, 0x0F, 0x38, 0x33, 0xD3], .pmovzxwd plain 2 (.reg 3)),
   ([0x66, 0x0F, 0x38, 0x34, 0xD3], .pmovzxwq plain 2 (.reg 3)),
   ([0x66, 0x0F, 0x38, 0x35, 0xD3], .pmovzxdq plain 2 (.reg 3)),
   ([0x66, 0x0F, 0x38, 0x38, 0xD3], .pminsb plain 2 (.reg 3)),
   ([0x66, 0x0F, 0x38, 0x39, 0xD3], .pminsd plain 2 (.reg 3)),
   ([0x66, 0x0F, 0x38, 0x3A, 0xD3], .pminuw plain 2 (.reg 3)),
   ([0x66, 0x0F, 0x38, 0x3B, 0xD3], .pminud plain 2 (.reg 3)),
   ([0x66, 0x0F, 0x38, 0x3C, 0xD3], .pmaxsb plain 2 (.reg 3)),
   ([0x66, 0x0F, 0x38, 0x3D, 0xD3], .pmaxsd plain 2 (.reg 3)),
   ([0x66, 0x0F, 0x38, 0x3E, 0xD3], .pmaxuw plain 2 (.reg 3)),
   ([0x66, 0x0F, 0x38, 0x3F, 0xD3], .pmaxud plain 2 (.reg 3)),
   ([0x66, 0x0F, 0x38, 0x40, 0xD3], .pmulld plain 2 (.reg 3)),
   ([0x66, 0x0F, 0x38, 0x41, 0xD3], .phminposuw plain 2 (.reg 3))]

/-- Words of the `0F 3A` map (R76), the immediate `9A`; `48` is REX.W. -/
def words3A : List (List Byte × Instr) :=
  [([0x66, 0x0F, 0x3A, 0x08, 0xD3, 0x9A], .roundps plain 2 (.reg 3) 0x9A),
   ([0x66, 0x0F, 0x3A, 0x09, 0xD3, 0x9A], .roundpd plain 2 (.reg 3) 0x9A),
   ([0x66, 0x0F, 0x3A, 0x0A, 0xD3, 0x9A], .roundss plain 2 (.reg 3) 0x9A),
   ([0x66, 0x0F, 0x3A, 0x0B, 0xD3, 0x9A], .roundsd plain 2 (.reg 3) 0x9A),
   ([0x66, 0x0F, 0x3A, 0x0C, 0xD3, 0x9A], .blendps plain 2 (.reg 3) 0x9A),
   ([0x66, 0x0F, 0x3A, 0x0D, 0xD3, 0x9A], .blendpd plain 2 (.reg 3) 0x9A),
   ([0x66, 0x0F, 0x3A, 0x0E, 0xD3, 0x9A], .pblendw plain 2 (.reg 3) 0x9A),
   ([0x66, 0x0F, 0x3A, 0x14, 0xD3, 0x9A], .pextrb plain (.reg 3) 2 0x9A),
   ([0x66, 0x0F, 0x3A, 0x15, 0xD3, 0x9A], .pextrw plain (.reg 3) 2 0x9A),
   ([0x66, 0x0F, 0x3A, 0x16, 0xD3, 0x9A], .pextrd plain (.reg 3) 2 0x9A),
   ([0x66, 0x48, 0x0F, 0x3A, 0x16, 0xD3, 0x9A], .pextrq (rexed 8) (.reg 3) 2 0x9A),
   ([0x66, 0x0F, 0x3A, 0x17, 0xD3, 0x9A], .extractps plain (.reg 3) 2 0x9A),
   ([0x66, 0x0F, 0x3A, 0x20, 0xD3, 0x9A], .pinsrb plain 2 (.reg 3) 0x9A),
   ([0x66, 0x0F, 0x3A, 0x21, 0xD3, 0x9A], .insertps plain 2 (.reg 3) 0x9A),
   ([0x66, 0x0F, 0x3A, 0x22, 0xD3, 0x9A], .pinsrd plain 2 (.reg 3) 0x9A),
   ([0x66, 0x48, 0x0F, 0x3A, 0x22, 0xD3, 0x9A], .pinsrq (rexed 8) 2 (.reg 3) 0x9A),
   ([0x66, 0x0F, 0x3A, 0x40, 0xD3, 0x9A], .dpps plain 2 (.reg 3) 0x9A),
   ([0x66, 0x0F, 0x3A, 0x41, 0xD3, 0x9A], .dppd plain 2 (.reg 3) 0x9A),
   ([0x66, 0x0F, 0x3A, 0x42, 0xD3, 0x9A], .mpsadbw plain 2 (.reg 3) 0x9A)]

theorem test_decode_words38a : ∀ p ∈ words38a, decode .mode64 p.1 = .ok (p.2, []) := by decide +kernel
theorem test_decode_words38b : ∀ p ∈ words38b, decode .mode64 p.1 = .ok (p.2, []) := by decide +kernel
theorem test_decode_words3A : ∀ p ∈ words3A, decode .mode64 p.1 = .ok (p.2, []) := by decide +kernel
/-- The same bytes in mode32; those with a REX byte are none of the 49 there (R80, DV-37). -/
theorem test_decode_mode32 :
    (∀ p ∈ words38a ++ words38b, decode .mode32 p.1 = .ok (p.2, [])) ∧
    ∀ p ∈ words3A, decode .mode32 p.1 = if p.2.requiredW = some true then .error .notAnInstruction else .ok (p.2, []) := by
  decide +kernel
/-- The encoder writes the same words. -/
theorem test_encode_words : ∀ p ∈ words38a ++ words38b ++ words3A, encode p.2 = p.1 := by decide +kernel

/-- Addressing forms (DV-8 to DV-12, DV-14, DV-16, DV-17, DV-20, DV-21 of 95_test_vectors.md). -/
def addressingWords : List (List Byte × Instr) :=
  [([0x67, 0x66, 0x0F, 0x38, 0x17, 0x04, 0x24], .ptest ⟨none, true, none⟩ 0 (.mem (.sib 4 0 none .none))),
   ([0x66, 0x41, 0x0F, 0x38, 0x3E, 0x0C, 0x24], .pmaxuw (rexed 1) 1 (.mem (.sib 12 0 none .none))),
   ([0x66, 0x42, 0x0F, 0x38, 0x3E, 0x0C, 0x20], .pmaxuw (rexed 2) 1 (.mem (.sib 0 0 (some 12) .none))),
   ([0x66, 0x41, 0x0F, 0x38, 0x3B, 0x4D, 0x00], .pminud (rexed 1) 1 (.mem (.base 13 (.d8 0)))),
   ([0x66, 0x0F, 0x38, 0x40, 0x1C, 0x45, 0x00, 0x01, 0x00, 0x00], .pmulld plain 3 (.mem (.sibNoBase 1 (some 0) 0x100))),
   ([0x64, 0x66, 0x44, 0x0F, 0x3A, 0x0B, 0x44, 0xCB, 0x80, 0x0C],
    .roundsd ⟨some .fs, false, some 4⟩ 8 (.mem (.sib 3 3 (some 1) (.d8 0x80))) 0x0C),
   ([0x66, 0x0F, 0x3A, 0x17, 0xB8, 0xFF, 0xFF, 0xFF, 0x7F, 0x03], .extractps plain (.mem (.base 0 (.d32 0x7FFFFFFF))) 7 3),
   ([0x66, 0x0F, 0x38, 0x29, 0x2D, 0x00, 0x10, 0x00, 0x00], .pcmpeqq plain 5 (.mem (.disp32 0x1000))),
   ([0x66, 0x47, 0x0F, 0x38, 0x2A, 0x1C, 0x7E], .movntdqa (rexed 7) 11 (.sib 14 1 (some 15) .none)),
   ([0x65, 0x67, 0x66, 0x43, 0x0F, 0x3A, 0x21, 0x84, 0xEC, 0x78, 0x56, 0x34, 0x12, 0x10],
    .insertps ⟨some .gs, true, some 3⟩ 0 (.mem (.sib 12 3 (some 13) (.d32 0x12345678))) 0x10)]

theorem test_decode_addressing : ∀ p ∈ addressingWords, decode .mode64 p.1 = .ok (p.2, []) := by decide +kernel

/-- What is refused, and what is #UD (DV-28 to DV-36, DV-38). -/
theorem test_decode_refusals :
    decode .mode64 [0x66, 0x0F, 0x38, 0x2A, 0xC1] = .error .movntdqaRegister ∧
    decode .mode64 [0xF0, 0x66, 0x0F, 0x38, 0x40, 0x0E] = .error .lockByte ∧
    decode .mode64 [0x66, 0x0F, 0xC5, 0xC2, 0x00] = .error .notAnInstruction ∧
    decode .mode64 [0x0F, 0x38, 0x40, 0xCA] = .error .notAnInstruction ∧
    decode .mode64 [0xF3, 0x66, 0x0F, 0x38, 0x17, 0xC1] = .error .repeatByte ∧
    decode .mode64 [0x66, 0x66, 0x0F, 0x38, 0x17, 0xC1] = .error .duplicateLegacy ∧
    decode .mode64 [0x48, 0x66, 0x0F, 0x38, 0x17, 0xC1] = .error .notAnInstruction ∧
    decode .mode64 [0x66, 0x0F, 0x38, 0x37, 0xC1] = .error .notAnInstruction ∧
    decode .mode64 [0xC4, 0xE2, 0x79, 0x17, 0xC1] = .error .notAnInstruction ∧
    decode .mode32 [0x67, 0x66, 0x0F, 0x38, 0x17, 0x00] = .error .addr16 := by decide +kernel

/-- A table word is its key and zeros: MPSADBW's `66 0F 3A 42` and the key of PEXTRQ (R85). -/
theorem test_decodeTableWord :
    decodeTableWord 32 0x660F3A42 = some (.mpsadbw plain 0 (.mem (.base 0 .none)) 0) ∧
    decodeTableWord 32 0x660F3A16 = some (.pextrd plain (.mem (.base 0 .none)) 0 0) ∧
    decodeTableWord 40 0x66480F3A16 = some (.pextrq (rexed 8) (.mem (.base 0 .none)) 0 0) := by decide +kernel

/-! ### One step on the spec's vectors -/

/-- A machine in mode64 at CPL 3 with the extension enabled, and the whole space admitted. -/
def base : State := { State.reset.enableSse with cpl := 3, rip := 0x400000, nanDp := .tree }

/-- `base` with xmm1, xmm2, the mask register and one general register, RBX. -/
def machine (x1 x2 : XWord) (x0 : XWord := 0) (rbx : Quad := 0) : State :=
  (((base.setXmm 1 x1).setXmm 2 x2).setXmm 0 x0).setGpr 3 rbx

/-- xmm1 after an instruction that completes. -/
def xmm1 (o : Outcome State) : Option XWord :=
  match o with
  | .next t => some (t.getXmm 1)
  | .fault _ => none
  | .refused _ => none

/-- xmm1 and MXCSR after an instruction that completes. -/
def xmm1Mxcsr (o : Outcome State) : Option (XWord × BitVec 32) :=
  match o with
  | .next t => some (t.getXmm 1, t.mxcsr)
  | .fault _ => none
  | .refused _ => none

/-- RBX after an instruction that completes. -/
def rbx (o : Outcome State) : Option Quad :=
  match o with
  | .next t => some (t.getGpr 3)
  | .fault _ => none
  | .refused _ => none

theorem test_mpsadbw_V40_5 :
    xmm1 (exec (.mpsadbw plain 1 (.reg 2) 0x00) (machine 0x2211FFEEDDCCBBAA9010FE0001FF7F80 0x0F0E0D0C0B0A09080706050403020100))
      = some 0x02BB01FF02420198010B01FC018101FD := by decide +kernel
theorem test_mpsadbw_V40_6 :
    xmm1 (exec (.mpsadbw plain 1 (.reg 2) 0x06) (machine 0x2211FFEEDDCCBBAA9010FE0001FF7F80 0x0F0E0D0C0B0A09080706050403020100))
      = some 0x02B50370032C02E8029B01DF02220188 := by decide +kernel
theorem test_phminposuw_V40_12 :
    xmm1 (exec (.phminposuw plain 1 (.reg 2)) (machine 0x2211FFEEDDCCBBAA9010FE0001FF7F80 0x00070008000900020002000300040005))
      = some 0x00000000000000000000000000030002 := by decide +kernel
theorem test_phminposuw_V40_16 :
    xmm1 (exec (.phminposuw plain 1 (.reg 2)) (machine 0x2211FFEEDDCCBBAA9010FE0001FF7F80 0x80007FFF80017FFF0009000900090009))
      = some 0x00000000000000000000000000000009 := by decide +kernel
theorem test_pmovsxbw_V40_17 :
    xmm1 (exec (.pmovsxbw plain 1 (.reg 2)) (machine 0xFFFFFFFFFFFFFFFFFFFFFFFFFFFFFFFF 0x1111111111111111807F00FF01FE7F80))
      = some 0xFF80007F0000FFFF0001FFFE007FFF80 := by decide +kernel
theorem test_pmovzxbw_V40_18 :
    xmm1 (exec (.pmovzxbw plain 1 (.reg 2)) (machine 0xFFFFFFFFFFFFFFFFFFFFFFFFFFFFFFFF 0x1111111111111111807F00FF01FE7F80))
      = some 0x0080007F000000FF000100FE007F0080 := by decide +kernel
theorem test_pmovsxbd_V40_19 :
    xmm1 (exec (.pmovsxbd plain 1 (.reg 2)) (machine 0xFFFFFFFFFFFFFFFFFFFFFFFFFFFFFFFF 0x1111111111111111807F00FF01FE7F80))
      = some 0x00000001FFFFFFFE0000007FFFFFFF80 := by decide +kernel
theorem test_pmovzxbd_V40_20 :
    xmm1 (exec (.pmovzxbd plain 1 (.reg 2)) (machine 0xFFFFFFFFFFFFFFFFFFFFFFFFFFFFFFFF 0x1111111111111111807F00FF01FE7F80))
      = some 0x00000001000000FE0000007F00000080 := by decide +kernel
theorem test_pmovsxwd_V40_23 :
    xmm1 (exec (.pmovsxwd plain 1 (.reg 2)) (machine 0xFFFFFFFFFFFFFFFFFFFFFFFFFFFFFFFF 0x1111111111111111807F00FF01FE7F80))
      = some 0xFFFF807F000000FF000001FE00007F80 := by decide +kernel
theorem test_pmovzxwd_V40_24 :
    xmm1 (exec (.pmovzxwd plain 1 (.reg 2)) (machine 0xFFFFFFFFFFFFFFFFFFFFFFFFFFFFFFFF 0x1111111111111111807F00FF01FE7F80))
      = some 0x0000807F000000FF000001FE00007F80 := by decide +kernel
theorem test_pmovsxbq_V40_21 :
    xmm1 (exec (.pmovsxbq plain 1 (.reg 2)) (machine 0xFFFFFFFFFFFFFFFFFFFFFFFFFFFFFFFF 0x1111111111111111807F00FF01FE7F80))
      = some 0x000000000000007FFFFFFFFFFFFFFF80 := by decide +kernel
theorem test_pmovzxbq_V40_22 :
    xmm1 (exec (.pmovzxbq plain 1 (.reg 2)) (machine 0xFFFFFFFFFFFFFFFFFFFFFFFFFFFFFFFF 0x1111111111111111807F00FF01FE7F80))
      = some 0x000000000000007F0000000000000080 := by decide +kernel
theorem test_pmovsxwq_V40_25 :
    xmm1 (exec (.pmovsxwq plain 1 (.reg 2)) (machine 0xFFFFFFFFFFFFFFFFFFFFFFFFFFFFFFFF 0x1111111111111111807F00FF01FE7F80))
      = some 0x00000000000001FE0000000000007F80 := by decide +kernel
theorem test_pmovzxwq_V40_26 :
    xmm1 (exec (.pmovzxwq plain 1 (.reg 2)) (machine 0xFFFFFFFFFFFFFFFFFFFFFFFFFFFFFFFF 0x1111111111111111807F00FF01FE7F80))
      = some 0x00000000000001FE0000000000007F80 := by decide +kernel
theorem test_pmovsxdq_V40_27 :
    xmm1 (exec (.pmovsxdq plain 1 (.reg 2)) (machine 0xFFFFFFFFFFFFFFFFFFFFFFFFFFFFFFFF 0x1111111111111111807F00FF01FE7F80))
      = some 0xFFFFFFFF807F00FF0000000001FE7F80 := by decide +kernel
theorem test_pmovzxdq_V40_28 :
    xmm1 (exec (.pmovzxdq plain 1 (.reg 2)) (machine 0xFFFFFFFFFFFFFFFFFFFFFFFFFFFFFFFF 0x1111111111111111807F00FF01FE7F80))
      = some 0x00000000807F00FF0000000001FE7F80 := by decide +kernel
theorem test_pminsb_V41_1 :
    xmm1 (exec (.pminsb plain 1 (.reg 2)) (machine 0x800000007FFFFFFFFFFFFFFF00000001 0x7FFFFFFF8000000000000001FFFFFFFF))
      = some 0x80FFFFFF80FFFFFFFFFFFFFFFFFFFFFF := by decide +kernel
theorem test_pminuw_V41_6 :
    xmm1 (exec (.pminuw plain 1 (.reg 2)) (machine 0x2211FFEEDDCCBBAA9010FE0001FF7F80 0x0F0E0D0C0B0A09080706050403020100))
      = some 0x0F0E0D0C0B0A09080706050401FF0100 := by decide +kernel
theorem test_pminsd_V41_9 :
    xmm1 (exec (.pminsd plain 1 (.reg 2)) (machine 0x800000007FFFFFFFFFFFFFFF00000001 0x7FFFFFFF8000000000000001FFFFFFFF))
      = some 0x8000000080000000FFFFFFFFFFFFFFFF := by decide +kernel
theorem test_pminud_V41_13 :
    xmm1 (exec (.pminud plain 1 (.reg 2)) (machine 0x800000007FFFFFFFFFFFFFFF00000001 0x7FFFFFFF8000000000000001FFFFFFFF))
      = some 0x7FFFFFFF7FFFFFFF0000000100000001 := by decide +kernel
theorem test_pmaxsb_V41_3 :
    xmm1 (exec (.pmaxsb plain 1 (.reg 2)) (machine 0x800000007FFFFFFFFFFFFFFF00000001 0x7FFFFFFF8000000000000001FFFFFFFF))
      = some 0x7F0000007F0000000000000100000001 := by decide +kernel
theorem test_pmaxuw_V41_8 :
    xmm1 (exec (.pmaxuw plain 1 (.reg 2)) (machine 0x2211FFEEDDCCBBAA9010FE0001FF7F80 0x0F0E0D0C0B0A09080706050403020100))
      = some 0x2211FFEEDDCCBBAA9010FE0003027F80 := by decide +kernel
theorem test_pmaxsd_V41_11 :
    xmm1 (exec (.pmaxsd plain 1 (.reg 2)) (machine 0x800000007FFFFFFFFFFFFFFF00000001 0x7FFFFFFF8000000000000001FFFFFFFF))
      = some 0x7FFFFFFF7FFFFFFF0000000100000001 := by decide +kernel
theorem test_pmaxud_V41_15 :
    xmm1 (exec (.pmaxud plain 1 (.reg 2)) (machine 0x800000007FFFFFFFFFFFFFFF00000001 0x7FFFFFFF8000000000000001FFFFFFFF))
      = some 0x8000000080000000FFFFFFFFFFFFFFFF := by decide +kernel
theorem test_pmuldq_V41_18 :
    xmm1 (exec (.pmuldq plain 1 (.reg 2)) (machine 0xAAAAAAAA80000000BBBBBBBB80000000 0xCCCCCCCC80000000DDDDDDDDFFFFFFFF))
      = some 0x40000000000000000000000080000000 := by decide +kernel
theorem test_pmulld_V41_22 :
    xmm1 (exec (.pmulld plain 1 (.reg 2)) (machine 0x7FFFFFFF123456780000FFFF00010001 0x7FFFFFFF9ABCDEF00000FFFF00010001))
      = some 0x00000001242D2080FFFE000100020001 := by decide +kernel
theorem test_packusdw_V41_24 :
    xmm1 (exec (.packusdw plain 1 (.reg 2)) (machine 0x0000FFFF000100000000FFFE00008000 0xFFFF0000000000000001FFFF00007FFF))
      = some 0x00000000FFFF7FFFFFFFFFFFFFFE8000 := by decide +kernel
theorem test_pcmpeqq_V41_26 :
    xmm1 (exec (.pcmpeqq plain 1 (.reg 2)) (machine 0x800000007FFFFFFFFFFFFFFF00000001 0x800000007FFFFFFFFFFFFFFF00000000))
      = some 0xFFFFFFFFFFFFFFFF0000000000000000 := by decide +kernel
theorem test_insertps_V42_3 :
    xmm1 (exec (.insertps plain 1 (.reg 2) 0x9D) (machine 0x4080000040400000400000003F800000 0x4220000041F0000041A0000041200000))
      = some 0x000000000000000041F0000000000000 := by decide +kernel
theorem test_extractps_V42_20 :
    rbx (exec (.extractps plain (.reg 3) 1 0xFE) (machine 0x2211FFEEDDCCBBAA9010FE0001FF7F80 0 0 0xFFFFFFFFFFFFFFFF))
      = some 0x00000000DDCCBBAA := by decide +kernel
theorem test_pinsrb_V42_45 :
    xmm1 (exec (.pinsrb plain 1 (.reg 3) 0xF7) (machine 0x2211FFEEDDCCBBAA9010FE0001FF7F80 0 0 0x1122334455667788))
      = some 0x2211FFEEDDCCBBAA8810FE0001FF7F80 := by decide +kernel
theorem test_pinsrd_V42_50 :
    xmm1 (exec (.pinsrd plain 1 (.reg 3) 0xFD) (machine 0x2211FFEEDDCCBBAA9010FE0001FF7F80 0 0 0x1122334455667788))
      = some 0x2211FFEEDDCCBBAA5566778801FF7F80 := by decide +kernel
theorem test_pinsrq_V42_54 :
    xmm1 (exec (.pinsrq plain 1 (.reg 3) 0xFF) (machine 0x2211FFEEDDCCBBAA9010FE0001FF7F80 0 0 0x1122334455667788))
      = some 0x11223344556677889010FE0001FF7F80 := by decide +kernel
theorem test_pextrb_V42_26 :
    rbx (exec (.pextrb plain (.reg 3) 1 0xF3) (machine 0x2211FFEEDDCCBBAA9010FE0001FF7F80 0 0 0xFFFFFFFFFFFFFFFF))
      = some 0x0000000000000001 := by decide +kernel
theorem test_pextrw_V42_31 :
    rbx (exec (.pextrw plain (.reg 3) 1 0xFD) (machine 0x2211FFEEDDCCBBAA9010FE0001FF7F80 0 0 0xFFFFFFFFFFFFFFFF))
      = some 0x000000000000DDCC := by decide +kernel
theorem test_pextrd_V42_35 :
    rbx (exec (.pextrd plain (.reg 3) 1 0x04) (machine 0x2211FFEEDDCCBBAA9010FE0001FF7F80 0 0 0xFFFFFFFFFFFFFFFF))
      = some 0x0000000001FF7F80 := by decide +kernel
theorem test_pextrq_V42_39 :
    rbx (exec (.pextrq plain (.reg 3) 1 0x02) (machine 0x2211FFEEDDCCBBAA9010FE0001FF7F80 0 0 0xFFFFFFFFFFFFFFFF))
      = some 0x9010FE0001FF7F80 := by decide +kernel
theorem test_dpps_V43_4 :
    xmm1Mxcsr (exec (.dpps plain 1 (.reg 2) 0xF1) (machine 0x000000003F8000004B8000003F800000 0x3F8000003F8000003F8000003F800000))
      = some (0x0000000000000000000000004B800000, 0x1FA0) := by decide +kernel
theorem test_dpps_V43_26_host :
    xmm1Mxcsr (exec (.dpps plain 1 (.reg 2) 0xFF) { machine 0x7FC000023F8000003F8000007FC00001 0x3F8000003F8000003F8000003F800000 with nanDp := .host })
      = some (0x7FC000027FC000027FC000017FC00001, 0x1F80) := by decide +kernel
theorem test_dppd_V43_52 :
    xmm1Mxcsr (exec (.dppd plain 1 (.reg 2) 0x31) { machine 0x3CA00000000000003FF0000000000000 0x3FF00000000000003FF0000000000000 with mxcsr := 0x5F80 })
      = some (0x00000000000000003FF0000000000001, 0x5FA0) := by decide +kernel
theorem test_dppd_V43_59_host :
    xmm1Mxcsr (exec (.dppd plain 1 (.reg 2) 0x33) { machine 0xFFF80000000000053FF0000000000000 0x3FF00000000000007FF8000000000009 with nanDp := .host })
      = some (0xFFF80000000000057FF8000000000009, 0x1F80) := by decide +kernel
theorem test_blendvps_V44_19 :
    xmm1 (exec (.blendvps plain 1 (.reg 2)) (machine 0x2211FFEEDDCCBBAA9010FE0001FF7F80 0x0F0E0D0C0B0A09080706050403020100 0x000000018000000040000000C0000000))
      = some 0x2211FFEE0B0A09089010FE0003020100 := by decide +kernel
theorem test_blendvpd_V44_23 :
    xmm1 (exec (.blendvpd plain 1 (.reg 2)) (machine 0x2211FFEEDDCCBBAA9010FE0001FF7F80 0x0F0E0D0C0B0A09080706050403020100 0x00000000800000008000000000000001))
      = some 0x2211FFEEDDCCBBAA0706050403020100 := by decide +kernel
theorem test_blendps_V44_5 :
    xmm1 (exec (.blendps plain 1 (.reg 2) 0xF5) (machine 0x2211FFEEDDCCBBAA9010FE0001FF7F80 0x0F0E0D0C0B0A09080706050403020100))
      = some 0x2211FFEE0B0A09089010FE0003020100 := by decide +kernel
theorem test_blendpd_V44_10 :
    xmm1 (exec (.blendpd plain 1 (.reg 2) 0xFE) (machine 0x2211FFEEDDCCBBAA9010FE0001FF7F80 0x0F0E0D0C0B0A09080706050403020100))
      = some 0x0F0E0D0C0B0A09089010FE0001FF7F80 := by decide +kernel
theorem test_pblendvb_V44_24 :
    xmm1 (exec (.pblendvb plain 1 (.reg 2)) (machine 0x2211FFEEDDCCBBAA9010FE0001FF7F80 0x0F0E0D0C0B0A09080706050403020100 0x807FFF0001FE807F0080FF01C03F817E))
      = some 0x0F110DEEDD0A09AA9006050003FF0180 := by decide +kernel
theorem test_pblendw_V44_14 :
    xmm1 (exec (.pblendw plain 1 (.reg 2) 0xAA) (machine 0x2211FFEEDDCCBBAA9010FE0001FF7F80 0x0F0E0D0C0B0A09080706050403020100))
      = some 0x0F0EFFEE0B0ABBAA0706FE0003027F80 := by decide +kernel
theorem test_roundps_V46_13 :
    xmm1Mxcsr (exec (.roundps plain 1 (.reg 2) 0x01) (machine 0x2211FFEEDDCCBBAA9010FE0001FF7F80 0x3EFFFFFFCAFFFFFF4B00000180000001))
      = some (0x00000000CB0000004B000001BF800000, 0x1FA0) := by decide +kernel
theorem test_roundps_V46_11 :
    xmm1Mxcsr (exec (.roundps plain 1 (.reg 2) 0x00) (machine 0x2211FFEEDDCCBBAA9010FE0001FF7F80 0xFF812345FFC123457F8000017FC00001))
      = some (0xFFC12345FFC123457FC000017FC00001, 0x1F81) := by decide +kernel
theorem test_roundpd_V46_24 :
    xmm1Mxcsr (exec (.roundpd plain 1 (.reg 2) 0x02) (machine 0x2211FFEEDDCCBBAA9010FE0001FF7F80 0x432FFFFFFFFFFFFF4330000000000001))
      = some (0x43300000000000004330000000000001, 0x1FA0) := by decide +kernel
theorem test_roundpd_V46_23 :
    xmm1Mxcsr (exec (.roundpd plain 1 (.reg 2) 0x00) (machine 0x2211FFEEDDCCBBAA9010FE0001FF7F80 0xBFE00000000000007FF0000000000001))
      = some (0x80000000000000007FF8000000000001, 0x1FA1) := by decide +kernel
theorem test_roundss_V46_26 :
    xmm1Mxcsr (exec (.roundss plain 1 (.reg 2) 0x01) (machine 0x2211FFEEDDCCBBAA9010FE0001FF7F80 0x406CCCCDBF000000402000003FC00000))
      = some (0x2211FFEEDDCCBBAA9010FE003F800000, 0x1FA0) := by decide +kernel
theorem test_roundsd_V46_31 :
    xmm1Mxcsr (exec (.roundsd plain 1 (.reg 2) 0x04) { machine 0x2211FFEEDDCCBBAA9010FE0001FF7F80 0x00000000000000004004000000000000 with mxcsr := 0x3F80 })
      = some (0x2211FFEEDDCCBBAA4000000000000000, 0x3FA0) := by decide +kernel

/-- PTEST with RFLAGS 0AD7H before (V45-7, V45-8): ZF or CF alone, AF, OF, PF and SF cleared, IF kept. -/
def flags (o : Outcome State) : Option Quad :=
  match o with
  | .next t => some t.rflags
  | .fault _ => none
  | .refused _ => none

theorem test_ptest_V45_7 :
    flags (exec (.ptest plain 1 (.reg 2)) { machine 0xFF 0xFF00 with rflags := 0xAD7 }) = some 0x242 := by decide +kernel
theorem test_ptest_V45_8 :
    flags (exec (.ptest plain 1 (.reg 2)) { machine 0xFFFF 0xF0F0 with rflags := 0xAD7 }) = some 0x203 := by decide +kernel

/-! ### Memory forms (95_test_vectors.md section 3: RSI = 2000H, RDI = 3000H, xmm2 = A) -/

/-- Bytes 00, 11, ..., FF at 2000H, `5A` from 3000H to 301FH. -/
def withData : State :=
  { ((machine 0 0x2211FFEEDDCCBBAA9010FE0001FF7F80).setGpr 6 0x2000).setGpr 7 0x3000 with
    mem := (Memory.writeLE [] 0x2000 16 0xFFEEDDCCBBAA99887766554433221100).writeList 0x3000 (List.replicate 32 0x5A) }

/-- The bytes from an address after an instruction that completes. -/
def bytesAfter (o : Outcome State) (a n : Nat) : Option (List Byte) :=
  match o with
  | .next t => some ((List.range n).map fun k => t.mem.read (a + k))
  | .fault _ => none
  | .refused _ => none

theorem test_movntdqa_MV_1 :
    xmm1 (step (withData.loadProgram [0x66, 0x0F, 0x38, 0x2A, 0x0E])) = some 0xFFEEDDCCBBAA99887766554433221100 := by
  decide +kernel
theorem test_pmovzxwd_MV_3 :
    xmm1 (step (withData.loadProgram [0x66, 0x0F, 0x38, 0x33, 0x4E, 0x01])) = some 0x00008877000066550000443300002211 := by
  decide +kernel
theorem test_pmovsxbq_MV_4 :
    xmm1 (step (withData.loadProgram [0x66, 0x0F, 0x38, 0x22, 0x4E, 0x08])) = some 0xFFFFFFFFFFFFFF99FFFFFFFFFFFFFF88 := by
  decide +kernel
theorem test_insertps_MV_6 :
    xmm1 (step (withData.loadProgram [0x66, 0x0F, 0x3A, 0x21, 0x4E, 0x04, 0x30])) = some 0x77665544000000000000000000000000 := by
  decide +kernel
theorem test_pextrd_MV_8 :
    bytesAfter (step (withData.loadProgram [0x66, 0x0F, 0x3A, 0x16, 0x57, 0x01, 0x02])) 0x3000 6
      = some [0x5A, 0xAA, 0xBB, 0xCC, 0xDD, 0x5A] := by decide +kernel
theorem test_pextrw_MV_9 :
    bytesAfter (step (withData.loadProgram [0x66, 0x0F, 0x3A, 0x15, 0x57, 0x07, 0x05])) 0x3006 4
      = some [0x5A, 0xCC, 0xDD, 0x5A] := by decide +kernel
theorem test_pextrb_MV_11 :
    bytesAfter (step (withData.loadProgram [0x66, 0x0F, 0x3A, 0x14, 0x57, 0x0F, 0x0F])) 0x300E 3
      = some [0x5A, 0x22, 0x5A] := by decide +kernel
/-- The exception of an outcome. -/
def faultOf (o : Outcome State) : Option Fault :=
  match o with
  | .next _ => none
  | .fault f => some f
  | .refused _ => none

theorem test_blendps_MV_14 :
    faultOf (step (withData.loadProgram [0x66, 0x0F, 0x3A, 0x0C, 0x4E, 0x04, 0x00]))
      = some (.generalProtection 0x400000) := by decide +kernel

/-! ### Exceptions (95_test_vectors.md section 3.3: only 1000H to 4FFFH is admitted, and the text, read-only) -/

/-- `withData` with the admitted regions of the FV rows, and RAX and RBP at the first non-canonical address. -/
def withFaults : State :=
  { (withData.setGpr 0 0x0000800000000000).setGpr 5 0x0000800000000000 with
    mapped := [⟨0x1000, 0x4000, true, false, false, .all, .wb⟩, ⟨0x400000, 0x1000, false, false, false, .all, .wb⟩] }

theorem test_fault_FV_1 : -- #GP although bytes of it are not admitted
    faultOf (step (withFaults.loadProgram [0x66, 0x0F, 0x38, 0x40, 0x0C, 0x25, 0xF8, 0x4F, 0, 0]))
      = some (.generalProtection 0x400000) := by decide +kernel
theorem test_fault_FV_3 : -- the lowest failing byte
    faultOf (step (withFaults.loadProgram [0x66, 0x0F, 0x38, 0x20, 0x0C, 0x25, 0xFC, 0x4F, 0, 0]))
      = some (.pageFault 0x400000 4 0x5000) := by decide +kernel
theorem test_fault_FV_5 : -- a write
    faultOf (step (withFaults.loadProgram [0x66, 0x0F, 0x3A, 0x16, 0x14, 0x25, 0xFE, 0x4F, 0, 0, 0]))
      = some (.pageFault 0x400000 6 0x5000) := by decide +kernel
theorem test_fault_FV_8 : -- non-canonical through SS
    faultOf (step (withFaults.loadProgram [0x66, 0x0F, 0x38, 0x17, 0x45, 0x00]))
      = some (.stackSegment 0x400000) := by decide +kernel
theorem test_fault_FV_9 : -- FS takes it out of SS
    faultOf (step (withFaults.loadProgram [0x64, 0x66, 0x0F, 0x38, 0x17, 0x45, 0x00]))
      = some (.generalProtection 0x400000) := by decide +kernel
theorem test_fault_FV_11 : -- LOCK before any operand check
    faultOf (step (withFaults.loadProgram [0xF0, 0x66, 0x0F, 0x38, 0x40, 0x0E]))
      = some (.invalidOpcode 0x400000) := by decide +kernel

/-- FV-14 to FV-16: ROUNDPS of 1.5 with the precision exception unmasked: #XM, or #UD without OSXMMEXCPT, or nothing under imm8[3]. -/
theorem test_fault_FV_14 :
    (faultOf <| exec (.roundps plain 1 (.reg 2) 0) { machine 0 0x3FC00000 with mxcsr := 0xF80, cr4 := 0x600 }).map Fault.vector = some 19 ∧
    (faultOf <| exec (.roundps plain 1 (.reg 2) 0) { machine 0 0x3FC00000 with mxcsr := 0xF80, cr4 := 0x200 }).map Fault.vector = some 6 ∧
    xmm1Mxcsr (exec (.roundps plain 1 (.reg 2) 8) { machine 0 0x3FC00000 with mxcsr := 0xF80, cr4 := 0x600 })
      = some (0x40000000, 0xF80) := by decide +kernel

/-! ### Witnesses: the hypotheses of the obligations are met together

`memForms` and `regForms` are the 49 instructions with a memory operand and (MOVNTDQA apart) with a register operand; the theorems
about them meet the hypotheses of every statement that asks for an instruction that may run, or for one that completes. -/

/-- `[RSI]`, 2000H in `withData`. -/
abbrev atRsi : Mem := .base 6 .none

/-- The `0F 38` opcodes but MOVNTDQA with a given second operand. -/
def forms38 (x : Rm) : List Instr :=
  [.phminposuw plain 1 x, .pmovsxbw plain 1 x, .pmovzxbw plain 1 x, .pmovsxbd plain 1 x, .pmovzxbd plain 1 x, .pmovsxwd plain 1 x,
   .pmovzxwd plain 1 x, .pmovsxbq plain 1 x, .pmovzxbq plain 1 x, .pmovsxwq plain 1 x, .pmovzxwq plain 1 x, .pmovsxdq plain 1 x,
   .pmovzxdq plain 1 x, .pminsb plain 1 x, .pminuw plain 1 x, .pminsd plain 1 x, .pminud plain 1 x, .pmaxsb plain 1 x,
   .pmaxuw plain 1 x, .pmaxsd plain 1 x, .pmaxud plain 1 x, .pmuldq plain 1 x, .pmulld plain 1 x, .packusdw plain 1 x,
   .pcmpeqq plain 1 x, .blendvps plain 1 x, .blendvpd plain 1 x, .pblendvb plain 1 x, .ptest plain 1 x]

/-- The `0F 3A` opcodes with a given second operand. -/
def forms3A (x : Rm) : List Instr :=
  [.mpsadbw plain 1 x 5, .insertps plain 1 x 5, .extractps plain x 2 5, .pinsrb plain 1 x 5, .pinsrd plain 1 x 5, .pinsrq (rexed 8) 1 x 5,
   .pextrb plain x 2 5, .pextrw plain x 2 5, .pextrd plain x 2 5, .pextrq (rexed 8) x 2 5, .dpps plain 1 x 0x35, .dppd plain 1 x 0x35,
   .blendps plain 1 x 5, .blendpd plain 1 x 5, .pblendw plain 1 x 5, .roundps plain 1 x 5, .roundpd plain 1 x 5, .roundss plain 1 x 5,
   .roundsd plain 1 x 5]

def memForms : List Instr := forms38 (.mem atRsi) ++ [.movntdqa plain 1 atRsi] ++ forms3A (.mem atRsi)
def regForms : List Instr := forms38 (.reg 3) ++ forms3A (.reg 3)

/-- The direction of a class's memory operand. -/
abbrev accessOf (c : ExcClass) : Access := if c.stores then .write else .read

theorem forms_are_all : memForms.length = 49 ∧ regForms.length = 48 ∧
    (∀ i ∈ memForms ++ regForms, i.wf .mode64 = true) := by decide +kernel

/-- Every memory form may run on `withData`, its operand raises nothing, and it stores into no program text. -/
theorem memForms_ready : ∀ i ∈ memForms, i.operands.rm = .mem atRsi ∧ Ready i withData ∧
    OperandOk withData (accessOf i.excClass) i.memBytes i.excClass.aligned16 i.operands.enc i.len atRsi ∧
    ¬ (addrOf withData i.operands.enc i.len atRsi < withData.codeEnd) := by decide +kernel

theorem regForms_ready : ∀ i ∈ regForms, i.operands.rm = .reg 3 ∧ Ready i withData := by decide +kernel

/-- The outcome is a next state. -/
def isNext (o : Outcome State) : Bool :=
  match o with
  | .next _ => true
  | .fault _ => false
  | .refused _ => false

theorem isNext_iff {o : Outcome State} : isNext o = true ↔ ∃ t, o = .next t := by cases o <;> simp [isNext]

theorem forms_complete : ∀ i ∈ memForms ++ regForms, isNext (exec i withData) = true := by decide +kernel

/-- With CR0.EM set and an operand that raises nothing, each of the 49 faults: what the `faults` clauses of the rules ask for. -/
theorem forms_fault : ∀ i ∈ memForms ++ regForms,
    faultOf (exec i { withData with cr0 := 0x60000014 }) = some (.invalidOpcode 0x400000) := by decide +kernel

/-! #### Encoding -/

/-- The longest instruction, 14 bytes. -/
def longest : Instr := .insertps ⟨some .gs, true, some 3⟩ 0 (.mem (.sib 12 3 (some 13) (.d32 0x12345678))) 0x10

theorem witness_DecodeEncodeRoundTrip : (∀ i ∈ memForms ++ regForms, i.wf .mode64 = true) ∧ longest.wf .mode64 = true ∧
    (Instr.ptest plain 7 (.reg 7)).wf .mode32 = true := by decide +kernel
theorem witness_DecodedLength :
    decode .mode64 [0x66, 0x0F, 0x38, 0x17, 0xD3] = .ok (.ptest plain 2 (.reg 3), []) ∧
    decode .mode64 [0x65, 0x67, 0x66, 0x43, 0x0F, 0x3A, 0x21, 0x84, 0xEC, 0x78, 0x56, 0x34, 0x12, 0x10, 0xFF]
      = .ok (longest, [0xFF]) ∧
    longest.wf .mode64 = true ∧ [0x66, 0x65, 0x67].Perm longest.operands.enc.legacy := by decide +kernel
/-- The same instruction with its legacy bytes in another order (R62). -/
theorem test_decode_permuted :
    decode .mode64 ([0x66, 0x65, 0x67] ++ encodeBody longest ++ [0xFF]) = .ok (longest, [0xFF]) := by decide +kernel
/-- Four legacy bytes of four groups, which may stand together. -/
theorem legacyRun_four : LegacyRun .mode64 [0x66, 0xF0, 0x67, 0x64] := by
  constructor
  · intro b hb
    simp only [List.mem_cons, List.not_mem_nil, or_false] at hb
    rcases hb with rfl | rfl | rfl | rfl
    · exact .inl rfl
    · exact .inr (.inl rfl)
    · exact .inr (.inr (.inl ⟨rfl, rfl⟩))
    · exact .inr (.inr (.inr ⟨.fs, rfl⟩))
  · have h : ∀ b c : Byte, (b, c) ∈ [((0x66 : Byte), (0xF0 : Byte)), (0x66, 0x67), (0x66, 0x64), (0xF0, 0x67), (0xF0, 0x64), (0x67, 0x64)] →
        ¬ SameGroup b c := by
      rintro b c hbc (rfl | ⟨g, h, rfl, rfl⟩)
      · revert hbc; revert b; decide
      · revert hbc; cases g <;> cases h <;> simp [SegOverride.byte]
    simp only [List.pairwise_cons, List.mem_cons, List.not_mem_nil, or_false, forall_eq_or_imp, forall_eq, List.Pairwise.nil, and_true,
      false_imp_iff, implies_true]
    refine ⟨⟨?_, ?_, ?_⟩, ⟨?_, ?_⟩, ?_⟩ <;> exact h _ _ (by simp)
/-- LOCK between the legacy bytes of a well-formed instruction; legacy bytes in front of a repeat byte, and of a second segment override or
a second LOCK. -/
theorem witness_ForbiddenPrefixes :
    longest.wf .mode64 = true ∧ [0x66, 0x65, 0xF0, 0x67].Perm (0xF0 :: longest.operands.enc.legacy) ∧ Mode.mode64 ≠ .mode16 ∧
    LegacyRun .mode64 [0x66, 0xF0, 0x67, 0x64] ∧ LegacyByte .mode64 0x65 ∧ SameGroup 0x65 0x64 ∧ LegacyByte .mode64 0xF0 ∧
    SameGroup 0xF0 0xF0 :=
  ⟨by decide +kernel, by decide +kernel, by decide, legacyRun_four, .inr (.inr (.inr ⟨.gs, rfl⟩)), .inr ⟨.gs, .fs, rfl, rfl⟩,
    .inr (.inl rfl), .inl rfl⟩
/-- In the bare spelling, and with a segment override behind `66`, the byte `67` and a REX byte. -/
theorem witness_MovntdqaHasNoRegisterForm :
    plain.modeOk .mode64 = true ∧ plain.modeOk .mode32 = true ∧ [0x66].Perm plain.legacy ∧
    (Enc.mk (some .gs) true (some 3)).modeOk .mode64 = true ∧ [0x66, 0x65, 0x67].Perm (Enc.mk (some .gs) true (some 3)).legacy ∧
    (0xC0 : Byte).extractLsb' 6 2 = 3 ∧ (0xFF : Byte).extractLsb' 6 2 = 3 ∧ longest.key ≠ ⟨.m38, 0x2A⟩ := by decide +kernel
/-- PMAXSD with REX 0 and with REX.W: the second is the first with W turned. -/
theorem witness_RexWIsIgnored :
    (Instr.pmaxsd (rexed 5) 9 (.reg 10)).requiredW = none ∧ (Instr.pmaxsd (rexed 5) 9 (.reg 10)).operands.enc.rex = some 5 ∧
    (Instr.pmaxsd (rexed 13) 9 (.reg 10)).key = (Instr.pmaxsd (rexed 5) 9 (.reg 10)).key ∧
    (Instr.pmaxsd (rexed 13) 9 (.reg 10)).operands =
      { (Instr.pmaxsd (rexed 5) 9 (.reg 10)).operands with
        enc := { (Instr.pmaxsd (rexed 5) 9 (.reg 10)).operands.enc with rex := some (5 ^^^ 8) } } ∧
    (Instr.pmaxsd (rexed 5) 9 (.reg 10)).wf .mode64 = true := by decide +kernel
/-- `withData` in mode32. -/
def withData32 : State := { withData with mode := .mode32 }
theorem witness_Mode32Differences :
    decode .mode32 [0x66, 0x0F, 0x38, 0x17, 0x3D, 0xFF, 0xFF, 0xFF, 0xFF] = .ok (.ptest plain 7 (.mem (.disp32 0xFFFFFFFF)), []) ∧
    (Instr.pextrq (rexed 8) (.reg 3) 2 5).requiredW = some true ∧ withData32.mode = .mode32 ∧
    plain.seg ≠ some .fs ∧ plain.seg ≠ some .gs ∧
    (Instr.pextrd plain (.reg 3) 2 5).excClass.stores = true ∧ (Instr.pextrd plain (.reg 3) 2 5).operands.rm = .reg 3 ∧
    isNext (exec (.pextrd plain (.reg 3) 2 5) withData32) = true := by decide +kernel
/-- Legacy bytes in front of `67` in mode32: none, and `66`. -/
theorem witness_Mode32Differences_67 : LegacyRun .mode32 [] ∧ LegacyRun .mode32 [0x66] :=
  ⟨⟨nofun, .nil⟩, fun _ hb => .inl (List.mem_singleton.mp hb), List.pairwise_singleton ..⟩

/-! #### The machine as a whole -/

/-- PMULLD xmm1, [RSI] behind LOCK at RIP, and behind it MOVNTDQA with a register. -/
def lockBytes : List Byte := 0xF0 :: encode (.pmulld plain 1 (.mem atRsi))
theorem witness_StepRunsTheDecodedInstruction :
    CodeAt (withData.loadProgram [0x66, 0x0F, 0x38, 0x2A, 0x0E]) [0x66, 0x0F, 0x38, 0x2A, 0x0E] ∧
    decode .mode64 [0x66, 0x0F, 0x38, 0x2A, 0x0E] = .ok (.movntdqa plain 1 atRsi, []) ∧
    CodeAt (withData32.loadProgram [0x66, 0x0F, 0x38, 0x2A, 0x0E]) [0x66, 0x0F, 0x38, 0x2A, 0x0E] ∧
    decode .mode32 [0x66, 0x0F, 0x38, 0x2A, 0x0E] = .ok (.movntdqa plain 1 atRsi, []) := by decide +kernel
theorem witness_IllegalEncodingsRaiseUd :
    (Instr.pmulld plain 1 (.mem atRsi)).wf .mode64 = true ∧ CodeAt (withData.loadProgram lockBytes) lockBytes ∧
    [0xF0, 0x66].Perm (0xF0 :: plain.legacy) ∧ lockBytes = [0xF0, 0x66] ++ encodeBody (.pmulld plain 1 (.mem atRsi)) ∧
    (0xC1 : Byte).extractLsb' 6 2 = 3 ∧
    CodeAt (withData.loadProgram [0x66, 0x0F, 0x38, 0x2A, 0xC1]) [0x66, 0x0F, 0x38, 0x2A, 0xC1] := by decide +kernel
/-- FS, `67` and REX.WRXB, in mode64. -/
abbrev spelled : Enc := ⟨some .fs, true, some 15⟩
/-- MOVNTDQA with a register, with a segment override, `67` and REX, and with LOCK among its legacy bytes. -/
theorem witness_movntdqaRegister :
    spelled.modeOk .mode64 = true ∧ [0x66, 0x67, 0x64].Perm spelled.legacy ∧ (0xC1 : Byte).extractLsb' 6 2 = 3 ∧
    CodeAt (withData.loadProgram [0x66, 0x67, 0x64, 0x4F, 0x0F, 0x38, 0x2A, 0xC1]) (movntdqaRegBytes spelled [0x66, 0x67, 0x64] 0xC1) ∧
    [0x66, 0xF0, 0x67, 0x64].Perm (0xF0 :: spelled.legacy) ∧
    CodeAt (withData.loadProgram [0x66, 0xF0, 0x67, 0x64, 0x4F, 0x0F, 0x38, 0x2A, 0xC1])
      (movntdqaRegBytes spelled [0x66, 0xF0, 0x67, 0x64] 0xC1) := by
  refine ⟨?_, ?_, ?_, ?_, ?_, ?_⟩ <;> decide +kernel
/-- Two instructions of five bytes: two steps are as many as ten bytes allow, and then the run has ended. -/
def twoTests : State := withData.loadProgram [0x66, 0x0F, 0x38, 0x17, 0xD3, 0x66, 0x0F, 0x38, 0x17, 0xD3]
theorem witness_EveryRunTerminates :
    isNext (step twoTests) = true ∧ twoTests.rip.toNat = twoTests.codeBase ∧ twoTests.codeEnd = twoTests.codeBase + 10 ∧
    (stepN 2 twoTests).isSome = true ∧
    (stepN 2 twoTests).map (fun s => decide (s.mode ≠ .mode16 ∧ s.rip.toNat = s.codeEnd)) = some true := by decide +kernel
theorem witness_StepKeepsInv :
    Inv twoTests ∧ isNext (step twoTests) = true ∧
    Inv { twoTests with mode := .mode32 } ∧ isNext (step { twoTests with mode := .mode32 }) = true ∧
    Inv (withData.loadProgram lockBytes) ∧ (faultOf (step (withData.loadProgram lockBytes))).isSome = true := by decide +kernel
theorem witness_ResetMeetsInv : Inv withData ∧ Inv withData32 := by decide +kernel
theorem witness_ResetValues : (15 : Fin 16) ≠ 0 ∧ (15 : Fin 16) ≠ 2 ∧ 29 < 64 ∧ 30 < 64 ∧ 63 < 64 ∧
    (withData.afterInit.cr0.getLsbD 30 = withData.cr0.getLsbD 30) := by decide +kernel
theorem witness_NothingRunsAtReset : (Instr.pmulld plain 1 (.mem atRsi)).wf .mode64 = true ∧
    (Instr.pmulld plain 1 (.mem atRsi)).wf .mode32 = true := by decide +kernel
/-- What the five statements about every instruction that completes ask for: each of the 49 completes, in both forms. -/
theorem every_form_completes : ∀ i ∈ memForms ++ regForms, ∃ t, exec i withData = .next t :=
  fun i hi => isNext_iff.mp (forms_complete i hi)
theorem witness_RipMovesPastTheInstruction : ∃ t, exec longest withData = .next t := isNext_iff.mp (by decide +kernel)
theorem witness_OnlyPtestWritesFlags : (∃ t, exec (.ptest plain 1 (.reg 3)) withData = .next t) ∧
    (∃ t, exec longest withData = .next t) ∧ longest.key ≠ ⟨.m38, 0x17⟩ ∧ (1 : Nat) ≠ 0 ∧ (1 : Nat) ≠ 2 ∧ (10 : Nat) ≠ 11 :=
  ⟨isNext_iff.mp (by decide +kernel), isNext_iff.mp (by decide +kernel), by decide, by decide, by decide, by decide⟩
/-- ROUNDPS of 1.5 sets PE, with IE set before; DPPS raises nothing; MPSADBW is of no floating-point class. -/
theorem witness_MxcsrFlagsAreSticky :
    xmm1Mxcsr (exec (.roundps plain 1 (.reg 2) 0) { machine 0 0x3FC00000 with mxcsr := 0x1F81 }) = some (0x40000000, 0x1FA1) ∧
    (Instr.roundps plain 1 (.reg 2) 0).roundImm.isSome = true ∧ (0x1F81 : BitVec 32).getLsbD 0 = true ∧
    isNext (exec (.mpsadbw plain 1 (.reg 2) 0) (machine 0 0)) = true ∧
    (Instr.mpsadbw plain 1 (.reg 2) 0).excClass.fp = false := by decide +kernel
/-- A load; a store that changes its lowest and its highest byte. -/
theorem witness_OnlyExtractsStore :
    isNext (exec (.movntdqa plain 1 atRsi) withData) = true ∧ (Instr.movntdqa plain 1 atRsi).excClass.stores = false ∧
    (Instr.pextrd plain (.mem atRsi) 2 2).excClass.stores = true ∧
    (bytesAfter (exec (.pextrd plain (.mem atRsi) 2 2) withData) 0x2000 5) = some [0xAA, 0xBB, 0xCC, 0xDD, 0x44] ∧
    withData.mem.read 0x2000 ≠ 0xAA ∧ withData.mem.read 0x2003 ≠ 0xDD ∧ withData.mem.read 0x2004 = 0x44 := by decide +kernel
/-- What the statement asks of a store of four bytes at `[RSI]` onto the program text. -/
abbrev StoresOnText (s : State) : Prop :=
  Ready (.pextrd plain (.mem atRsi) 2 2) s ∧ OperandOk s .write 4 false plain 6 atRsi ∧
  addrOf s plain 6 atRsi < s.codeEnd ∧ s.codeBase < addrOf s plain 6 atRsi + 4
/-- A program of ten bytes at 400000H, and four bytes stored onto its first byte, or its last. -/
theorem witness_ProgramTextIsFixed :
    isNext (step twoTests) = true ∧ twoTests.codeBase < twoTests.codeEnd ∧ (Instr.pextrd plain (.mem atRsi) 2 2).len = 6 ∧
    StoresOnText (twoTests.setGpr 6 0x3FFFFD) ∧ StoresOnText (twoTests.setGpr 6 0x400009) := by decide +kernel
/-- Each of the 49, in both forms, may run on `withData`, its operand raises nothing, and all masks are 1. -/
theorem witness_EveryInstructionCompletes : ∀ i ∈ memForms ++ regForms,
    Ready i withData ∧ OperandsOk i withData ∧ (i.excClass.fp = true → withData.mxcsr.extractLsb' 7 6 = 0x3F) := by
  intro i hi
  obtain ⟨t, ht⟩ := every_form_completes i hi
  exact ⟨(exec_next ht).1, (exec_next ht).2.1, fun _ => by decide +kernel⟩
/-- No region for supervisors, and none that is read-only; or read-only text under CR0.WP. -/
theorem witness_CplDoesNotMatter :
    (∀ g ∈ withData.mapped, g.supervisor = false ∧ (withData.wp = true ∨ g.writable = true ∧ g.key ≠ .noWrite)) ∧ withData.am = false ∧
    (∀ g ∈ withFaults.mapped, g.supervisor = false) ∧ State.wp { withFaults with cr0 := 0x60010010 } = true ∧
    State.am { withFaults with cr0 := 0x60010010 } = false ∧
    isNext (exec (.movntdqa plain 1 atRsi) { withFaults with cr0 := 0x60010010 }) = true ∧
    State.am { withData with cr0 := 0x60040010 } = true ∧ State.ac { withData with cr0 := 0x60040010 } = false ∧
    isNext (exec (.movntdqa plain 1 atRsi) withData) = true ∧
    isNext (exec (.movntdqa plain 1 atRsi) { withData with cr0 := 0x60040010 }) = true := by decide +kernel
/-- The launch turns alignment checking off: AC_ENABLED is false (R240, log 1). -/
theorem test_launch_turnsAcOff :
    State.acEnabled { withData with cr0 := 0x60040010, rflags := 0x40002 } = true ∧
    State.acEnabled (State.withFetchWord { withData with cr0 := 0x60040010, rflags := 0x40002 } 32 0x660F3842) = false := by
  decide +kernel
/-- Each region may be given each type, so a change of types is there to see. -/
theorem witness_MemoryTypeDoesNotMatter : twoTests.retype (fun _ => .wc) ≠ twoTests ∧ isNext (step twoTests) = true := by
  decide +kernel

/-! #### Exceptions -/

theorem witness_GatingExceptions :
    (∀ i ∈ memForms ++ regForms, i.wf withData.mode = true) ∧
    State.hasSse41 { withData with hasSse41 := false } = false ∧ State.em { withData with cr0 := 4 } = true ∧
    State.osfxsr { withData with cr4 := 0 } = false ∧
    State.hasSse41 { withData with cr0 := 8 } = true ∧ State.em { withData with cr0 := 8 } = false ∧
    State.osfxsr { withData with cr0 := 8 } = true ∧ State.ts { withData with cr0 := 8 } = true := by decide +kernel
/-- What the statement asks of PMINSB xmm1, [RSI]. -/
abbrev Misaligned (s : State) : Prop :=
  Ready (.pminsb plain 1 (.mem atRsi)) s ∧ segmentPermits s .read plain atRsi = true ∧ inReach s plain 5 16 atRsi = true ∧ addrOf s plain 5 atRsi % 16 ≠ 0
/-- Off by 1 and by 15. -/
theorem witness_MisalignedOperandRaisesGp :
    (Instr.pminsb plain 1 (.mem atRsi)).excClass.aligned16 = true ∧ (Instr.pminsb plain 1 (.mem atRsi)).operands.rm = .mem atRsi ∧
    Misaligned (withData.setGpr 6 0x2001) ∧ Misaligned (withData.setGpr 6 0x200F) := by decide +kernel
/-- PMOVSXBQ reads 2 bytes: the second lies outside the lower half; or it runs past the top of the space. -/
theorem witness_NonCanonicalOperandFaults_1 :
    Ready (.pmovsxbq plain 1 (.mem atRsi)) withData ∧ withData.mode = .mode64 ∧ ¬ StackBased plain atRsi ∧
    ¬ Canonical withData.vaBits (linearAddr (withData.setGpr 6 0x7FFFFFFFFFFF) plain 5 atRsi + BitVec.ofNat 64 1) ∧
    2 ^ 64 < addrOf (withData.setGpr 6 0xFFFFFFFFFFFFFFFF) plain 5 atRsi + 2 := by
  refine ⟨by decide +kernel, by decide +kernel, ?_, ?_, by decide +kernel⟩
  · rintro ⟨⟨d, h | h⟩ | ⟨sc, x, d, h | h⟩, -⟩ <;> simp at h
  · intro h
    exact absurd (h 47 (by decide) (by decide)) (by decide +kernel)
/-- PTEST xmm1, [RBP] may run, and bit 47 of its address differs from bit 63. -/
abbrev OutsideThroughSS (s : State) : Prop :=
  Ready (.ptest plain 1 (.mem (.base 5 (.d8 0)))) s ∧ s.vaBits = .b48 ∧
  (linearAddr s plain 6 (.base 5 (.d8 0)) + BitVec.ofNat 64 0).getLsbD 47 = true ∧
  (linearAddr s plain 6 (.base 5 (.d8 0)) + BitVec.ofNat 64 0).getLsbD 63 = false
theorem OutsideThroughSS.not_canonical {s : State} (h : OutsideThroughSS s) :
    ¬ Canonical s.vaBits (linearAddr s plain 6 (.base 5 (.d8 0)) + BitVec.ofNat 64 0) := by
  intro hc
  have := hc 47 (by rw [h.2.1]; decide) (by decide)
  rw [h.2.2.1, h.2.2.2] at this
  cases this
/-- Through RBP: aligned, and not. -/
theorem witness_NonCanonicalOperandFaults_2 :
    StackBased plain (.base 5 (.d8 0)) ∧ OutsideThroughSS (withData.setGpr 5 0x800000000000) ∧
    addrOf (withData.setGpr 5 0x800000000000) plain 6 (.base 5 (.d8 0)) % 16 = 0 ∧
    OutsideThroughSS (withData.setGpr 5 0x800000000001) :=
  ⟨⟨.inl ⟨_, .inr rfl⟩, by decide, by decide⟩, by decide +kernel, by decide +kernel, by decide +kernel⟩

/-- What the statement asks of PMOVSXBQ xmm1, `m` in mode32: it may run, and its two bytes run past 4 GiB. -/
abbrev PastFourGiB (s : State) (e : Enc) (m : Mem) : Prop :=
  Ready (.pmovsxbq e 1 (.mem m)) s ∧ s.mode = .mode32 ∧
  ((2 ^ 32 : Int) < eaInt s (Instr.pmovsxbq e 1 (.mem m)).len m % 2 ^ 32 + 2 ∨
    2 ^ 32 < addrOf s e (Instr.pmovsxbq e 1 (.mem m)).len m + 2)
/-- Past the end by the offset; by the linear address alone, FS.base being -1; through EBP; through the SS override; PTEST, misaligned,
through EBP. -/
theorem witness_OperandPastFourGiBFaults :
    PastFourGiB (withData32.setGpr 6 0xFFFFFFFF) plain atRsi ∧ ¬ StackBased32 plain atRsi ∧
    PastFourGiB ({ withData32 with fsBase := 0xFFFFFFFF - 0x2000 }) ⟨some .fs, false, none⟩ atRsi ∧
    ¬ StackBased32 ⟨some .fs, false, none⟩ atRsi ∧
    PastFourGiB (withData32.setGpr 5 0xFFFFFFFF) plain (.base 5 (.d8 0)) ∧ StackBased32 plain (.base 5 (.d8 0)) ∧
    PastFourGiB (withData32.setGpr 6 0xFFFFFFFF) ⟨some .ss, false, none⟩ atRsi ∧ StackBased32 ⟨some .ss, false, none⟩ atRsi ∧
    Ready (.ptest plain 1 (.mem (.base 5 (.d8 0)))) (withData32.setGpr 5 0xFFFFFFF8) ∧
    2 ^ 32 < addrOf (withData32.setGpr 5 0xFFFFFFF8) plain 6 (.base 5 (.d8 0)) + 16 := by
  refine ⟨by decide +kernel, ?_, by decide +kernel, ?_, by decide +kernel, .inr ⟨rfl, .inl ⟨_, .inr rfl⟩⟩, by decide +kernel, .inl rfl,
    by decide +kernel, by decide +kernel⟩
  · rintro (h | ⟨-, ⟨d, h | h⟩ | ⟨sc, x, d, h | h⟩⟩) <;> simp at h
  · rintro (h | ⟨h, -⟩) <;> simp at h

/-- `withData32` with a readable code segment, a data segment that may only be read and null selectors in ES, FS and GS: what a mode32
system has. -/
def segmented : State := { withData32 with segments := ⟨.null, .readOnly, .readWrite, .readOnly, .null, .null⟩ }
/-- R204 (c), R209: a store through CS or through a read-only DS, a load through a null ES, and one through an execute-only CS; a load
through CS completes, and so does a store through SS. -/
theorem test_segmentRights :
    faultOf (exec (.pextrd ⟨some .cs, false, none⟩ (.mem atRsi) 2 0) segmented) = some (.generalProtection 0x400000) ∧
    faultOf (exec (.pextrd plain (.mem atRsi) 2 0) segmented) = some (.generalProtection 0x400000) ∧
    faultOf (exec (.pmovsxbq ⟨some .es, false, none⟩ 1 (.mem atRsi)) segmented) = some (.generalProtection 0x400000) ∧
    faultOf (exec (.pmovsxbq ⟨some .cs, false, none⟩ 1 (.mem atRsi))
      { withData32 with segments := ⟨.null, .executeOnly, .readWrite, .readOnly, .null, .null⟩ }) = some (.generalProtection 0x400000) ∧
    isNext (exec (.pmovsxbq ⟨some .cs, false, none⟩ 1 (.mem atRsi)) segmented) = true ∧
    isNext (exec (.pextrd ⟨some .ss, false, none⟩ (.mem atRsi) 2 0) segmented) = true := by
  refine ⟨?_, ?_, ?_, ?_, ?_, ?_⟩ <;> decide +kernel
/-- The same hypotheses of the statement: an override, DS by default, SS by base. -/
theorem witness_OperandPastFourGiBFaults_rights :
    (Ready (.pextrd ⟨some .cs, false, none⟩ (.mem atRsi) 2 0) segmented ∧ UsesSegment32 ⟨some .cs, false, none⟩ atRsi .cs ∧
      (segmented.segments.rights .cs).Forbids true) ∧
    (Ready (.pextrd plain (.mem atRsi) 2 0) segmented ∧ UsesSegment32 plain atRsi .ds ∧ (segmented.segments.rights .ds).Forbids true) ∧
    (Ready (.pmovsxbq plain 1 (.mem (.base 5 (.d8 0)))) { segmented with segments := ⟨.null, .null, .null, .null, .null, .null⟩ } ∧
      UsesSegment32 plain (.base 5 (.d8 0)) .ss ∧ SegRights.null.Forbids false) := by
  refine ⟨⟨by decide +kernel, .inl rfl, .inr (.inr ⟨rfl, rfl⟩)⟩,
    ⟨by decide +kernel, .inr ⟨rfl, .inr ⟨rfl, ?_⟩⟩, .inr (.inr ⟨rfl, rfl⟩)⟩,
    by decide +kernel, .inr ⟨rfl, .inl ⟨rfl, .inr ⟨rfl, .inl ⟨_, .inr rfl⟩⟩⟩⟩, .inl rfl⟩
  rintro (h | ⟨-, ⟨d, h | h⟩ | ⟨sc, x, d, h | h⟩⟩) <;> simp at h

/-- The hypotheses of the page fault statement, for byte `k` of the operand of `i` at `[RSI]`. -/
abbrev PageFaultAt (s : State) (i : Instr) (k : Nat) : Prop :=
  Ready i s ∧ i.operands.rm = .mem atRsi ∧ k < i.memBytes ∧ segmentPermits s (accessOf i.excClass) i.operands.enc atRsi = true ∧
  inReach s i.operands.enc i.len i.memBytes atRsi = true ∧
  (i.excClass.aligned16 = true → addrOf s i.operands.enc i.len atRsi % 16 = 0) ∧
  (∀ j < k, pageError s (accessOf i.excClass) (addrOf s i.operands.enc i.len atRsi + j) = none) ∧
  (pageError s (accessOf i.excClass) (addrOf s i.operands.enc i.len atRsi + k)).isSome = true

/-- `withData` with the whole space as one region of the given permissions. -/
def oneRegion (writable supervisor reserved : Bool) (key : KeyRights) : State :=
  { withData with mapped := [⟨0, 2 ^ 64, writable, supervisor, reserved, key, .wb⟩] }

/-- A read that is not admitted from its first byte, or from its last; a write to a page that may only be read; a read in user mode of a
page for supervisors; a page with a reserved bit; reads and writes its key forbids; a supervisor's write under CR0.WP. -/
theorem witness_PageFaultNamesTheLowestByte :
    PageFaultAt (withFaults.setGpr 6 0x5000) (.pminsb plain 1 (.mem atRsi)) 0 ∧
    PageFaultAt (withFaults.setGpr 6 0x4FF9) (.pmovsxbw plain 1 (.mem atRsi)) 7 ∧
    PageFaultAt (withFaults.setGpr 6 0x400800) (.pextrd plain (.mem atRsi) 2 0) 0 ∧
    PageFaultAt (oneRegion true true false .all) (.pminsb plain 1 (.mem atRsi)) 0 ∧
    PageFaultAt (oneRegion true false true .nothing) (.pminsb plain 1 (.mem atRsi)) 0 ∧
    PageFaultAt (oneRegion true false false .nothing) (.pminsb plain 1 (.mem atRsi)) 0 ∧
    PageFaultAt (oneRegion true false false .noWrite) (.pextrd plain (.mem atRsi) 2 0) 0 ∧
    PageFaultAt { oneRegion false false false .all with cpl := 0, cr0 := 0x60010010 } (.pextrd plain (.mem atRsi) 2 0) 0 := by
  refine ⟨?_, ?_, ?_, ?_, ?_, ?_, ?_, ?_⟩ <;> decide +kernel
/-- The error codes of R206: RSVD; PK on a read and on a write; a supervisor's write under CR0.WP, and none without it. -/
theorem test_pageCodes :
    pageError (oneRegion true false true .all) .read 0x2000 = some 0x0D ∧
    pageError (oneRegion true false false .nothing) .read 0x2000 = some 0x25 ∧
    pageError (oneRegion true false false .noWrite) .write 0x2000 = some 0x27 ∧
    pageError (oneRegion true false false .noWrite) .read 0x2000 = none ∧
    pageError { oneRegion false false false .all with cpl := 0, cr0 := 0x60010010 } .write 0x2000 = some 0x03 ∧
    pageError { oneRegion false false false .all with cpl := 0 } .write 0x2000 = none ∧
    pageError (oneRegion false false false .all) .write 0x2000 = some 0x07 := by decide +kernel
/-- Both sides: a writable byte, and a byte that permits reading alone; a supervisor's write without CR0.WP; a fetch and a read under a
key that permits nothing. -/
theorem witness_PagePermissions :
    pageError withFaults .write 0x4FFF = none ∧ pageError withFaults .read 0x400000 = none ∧
    (pageError withFaults .write 0x400000).isSome = true ∧ (pageError withFaults .read 0x5000).isSome = true ∧
    pageError { withFaults with cpl := 0 } .write 0x400000 = none ∧
    pageError (oneRegion true false false .nothing) .fetch 0x2000 = none ∧
    (pageError (oneRegion true false false .nothing) .read 0x2000).isSome = true := by decide +kernel

/-- `withData` with AM and AC set, at CPL 3, and RSI odd. -/
def checked : State := { withData.setGpr 6 0x2001 with cr0 := 0x60040010, rflags := 0x40002 }
theorem witness_AlignmentChecking :
    checked.cr0.getLsbD 18 = true ∧ checked.rflags.getLsbD 18 = true ∧ checked.cpl = 3 ∧
    ∀ i ∈ [Instr.pmovsxbq plain 1 (.mem atRsi), .pmovsxbd plain 1 (.mem atRsi), .roundsd plain 1 (.mem atRsi) 0,
        .pextrw plain (.mem atRsi) 2 0],
      Ready i checked ∧ i.operands.rm = .mem atRsi ∧ i.excClass.aligned16 = false ∧
      segmentPermits checked (accessOf i.excClass) i.operands.enc atRsi = true ∧
      inReach checked i.operands.enc i.len i.memBytes atRsi = true ∧
      (∀ k < i.memBytes, pageError checked (accessOf i.excClass) (addrOf checked i.operands.enc i.len atRsi + k) = none) ∧
      addrOf checked i.operands.enc i.len atRsi % i.memBytes ≠ 0 ∧
      faultOf (exec i checked) = some (.alignmentCheck checked.rip) := by decide +kernel
/-- An instruction of each class that faults, in its memory form: #GP, #PF, #PF on a write, #XM, #AC. -/
theorem witness_ExceptionClasses :
    faultOf (exec (.pminsb plain 1 (.mem atRsi)) checked) = some (.generalProtection 0x400000) ∧
    faultOf (exec (.pmovsxbw plain 1 (.mem atRsi)) (withFaults.setGpr 6 0x5000)) = some (.pageFault 0x400000 4 0x5000) ∧
    faultOf (exec (.pextrd plain (.mem atRsi) 2 0) (withFaults.setGpr 6 0x5000)) = some (.pageFault 0x400000 6 0x5000) ∧
    (faultOf (exec (.roundps plain 1 (.reg 2) 0) { machine 0 0x3FC00000 with mxcsr := 0xF80, cr4 := 0x600 })).map Fault.vector
      = some 19 ∧
    faultOf (exec (.roundsd plain 1 (.mem atRsi) 0) checked) = some (.alignmentCheck 0x400000) := by decide +kernel
/-- A fault that is no #PF, of no floating-point class; a page fault; a floating-point fault with IE set before. -/
theorem witness_FaultsLeaveTheState :
    faultOf (exec (.pminsb plain 1 (.mem atRsi)) checked) = some (.generalProtection 0x400000) ∧
    (Fault.generalProtection 0x400000).vector ≠ 14 ∧ (Instr.pminsb plain 1 (.mem atRsi)).excClass.fp = false ∧
    (faultOf (exec (.pminsb plain 1 (.mem atRsi)) (withFaults.setGpr 6 0x5000))).map Fault.vector = some 14 ∧
    (faultOf (exec (.roundps plain 1 (.reg 2) 0) { machine 0 0x3FC00000 with mxcsr := 0xF81, cr4 := 0x600 })).map Fault.vector
      = some 19 ∧ (0xF81 : BitVec 32).getLsbD 0 = true := by decide +kernel

/-! #### Memory and addresses -/

theorem witness_LittleEndianMemory : (16 : Nat) ≤ 16 ∧ (0 : Nat) < 16 ∧ 15 < 16 ∧ ¬ (0x2000 ≤ 0x1FFF ∧ 0x1FFF < 0x2000 + 16) ∧
    ¬ (0x2000 ≤ 0x2010 ∧ 0x2010 < 0x2000 + 16) := by decide
theorem witness_CanonicalMeansEveryByte : (1 : Nat) ≤ 1 ∧ 1 ≤ 16 ∧ (16 : Nat) ≤ 16 := by decide
theorem witness_AddressArithmetic :
    withData.mode ≠ .mode16 ∧ withData.mode = .mode64 ∧ plain.addr32 = false ∧ (Enc.mk none true none).addr32 = true ∧
    withData32.mode ≠ .mode16 ∧ withData32.mode = .mode32 := by decide +kernel

/-! #### The rules of the instructions: each may run on `withData` and its source raises nothing, in memory and (MOVNTDQA apart) in
registers; `forms_fault` meets the hypothesis of their fault clauses -/

/-- What an `XRule`, a `GRule` or an `ExtractRule` asks for, of both forms of an instruction. -/
abbrev RuleRuns (i j : Instr) (n : Nat) (align : Bool) : Prop :=
  i.operands.rm = .mem atRsi ∧ Ready i withData ∧ OperandOk withData (accessOf i.excClass) n align i.operands.enc i.len atRsi ∧
  j.operands.rm = .reg 3 ∧ Ready j withData

theorem witness_MpsadbwSumsDifferences : RuleRuns (.mpsadbw plain 1 (.mem atRsi) 7) (.mpsadbw plain 1 (.reg 3) 7) 16 true := by
  decide +kernel
theorem witness_PhminposuwFindsTheFirstMinimum : RuleRuns (.phminposuw plain 1 (.mem atRsi)) (.phminposuw plain 1 (.reg 3)) 16 true := by
  decide +kernel
theorem witness_PmovsxExtendsTheLowFields :
    RuleRuns (.pmovsxbw plain 1 (.mem atRsi)) (.pmovsxbw plain 1 (.reg 3)) 8 false ∧
    RuleRuns (.pmovsxbd plain 1 (.mem atRsi)) (.pmovsxbd plain 1 (.reg 3)) 4 false ∧
    RuleRuns (.pmovsxbq plain 1 (.mem atRsi)) (.pmovsxbq plain 1 (.reg 3)) 2 false ∧
    RuleRuns (.pmovsxwd plain 1 (.mem atRsi)) (.pmovsxwd plain 1 (.reg 3)) 8 false ∧
    RuleRuns (.pmovsxwq plain 1 (.mem atRsi)) (.pmovsxwq plain 1 (.reg 3)) 4 false ∧
    RuleRuns (.pmovsxdq plain 1 (.mem atRsi)) (.pmovsxdq plain 1 (.reg 3)) 8 false := by
  refine ⟨?_, ?_, ?_, ?_, ?_, ?_⟩ <;> decide +kernel
theorem witness_PmovzxExtendsTheLowFields :
    RuleRuns (.pmovzxbw plain 1 (.mem atRsi)) (.pmovzxbw plain 1 (.reg 3)) 8 false ∧
    RuleRuns (.pmovzxbd plain 1 (.mem atRsi)) (.pmovzxbd plain 1 (.reg 3)) 4 false ∧
    RuleRuns (.pmovzxbq plain 1 (.mem atRsi)) (.pmovzxbq plain 1 (.reg 3)) 2 false ∧
    RuleRuns (.pmovzxwd plain 1 (.mem atRsi)) (.pmovzxwd plain 1 (.reg 3)) 8 false ∧
    RuleRuns (.pmovzxwq plain 1 (.mem atRsi)) (.pmovzxwq plain 1 (.reg 3)) 4 false ∧
    RuleRuns (.pmovzxdq plain 1 (.mem atRsi)) (.pmovzxdq plain 1 (.reg 3)) 8 false := by
  refine ⟨?_, ?_, ?_, ?_, ?_, ?_⟩ <;> decide +kernel
theorem witness_MinimaAndMaxima :
    RuleRuns (.pminsb plain 1 (.mem atRsi)) (.pminsb plain 1 (.reg 3)) 16 true ∧
    RuleRuns (.pminuw plain 1 (.mem atRsi)) (.pminuw plain 1 (.reg 3)) 16 true ∧
    RuleRuns (.pminsd plain 1 (.mem atRsi)) (.pminsd plain 1 (.reg 3)) 16 true ∧
    RuleRuns (.pminud plain 1 (.mem atRsi)) (.pminud plain 1 (.reg 3)) 16 true ∧
    RuleRuns (.pmaxsb plain 1 (.mem atRsi)) (.pmaxsb plain 1 (.reg 3)) 16 true ∧
    RuleRuns (.pmaxuw plain 1 (.mem atRsi)) (.pmaxuw plain 1 (.reg 3)) 16 true ∧
    RuleRuns (.pmaxsd plain 1 (.mem atRsi)) (.pmaxsd plain 1 (.reg 3)) 16 true ∧
    RuleRuns (.pmaxud plain 1 (.mem atRsi)) (.pmaxud plain 1 (.reg 3)) 16 true := by
  refine ⟨?_, ?_, ?_, ?_, ?_, ?_, ?_, ?_⟩ <;> decide +kernel
theorem witness_IntegerProducts :
    RuleRuns (.pmuldq plain 1 (.mem atRsi)) (.pmuldq plain 1 (.reg 3)) 16 true ∧
    RuleRuns (.pmulld plain 1 (.mem atRsi)) (.pmulld plain 1 (.reg 3)) 16 true := by
  refine ⟨?_, ?_⟩ <;> decide +kernel
/-- Two equal quadwords and two that differ, beside the forms. -/
theorem witness_PackAndCompare :
    RuleRuns (.packusdw plain 1 (.mem atRsi)) (.packusdw plain 1 (.reg 3)) 16 true ∧
    RuleRuns (.pcmpeqq plain 1 (.mem atRsi)) (.pcmpeqq plain 1 (.reg 3)) 16 true ∧
    lane 64 0 (1 : XWord) = lane 64 0 1 ∧ lane 64 1 (1 : XWord) ≠ lane 64 1 (BitVec.allOnes 128) := by
  refine ⟨?_, ?_, ?_, ?_⟩ <;> decide +kernel
/-- imm8 = 0 inserts into field 0 and zeroes nothing, B1H inserts into field 3 and zeroes field 0. -/
theorem witness_InsertpsInsertsThenZeroes :
    RuleRuns (.insertps plain 1 (.mem atRsi) 0) (.insertps plain 1 (.reg 3) 0) 4 false ∧
    RuleRuns (.insertps plain 1 (.mem atRsi) 0xB1) (.insertps plain 1 (.reg 3) 0xB1) 4 false ∧
    (0xB1 : Byte).getLsbD 0 = true ∧ (0xB1 : Byte).getLsbD 3 = false ∧ 3 = (0xB1 : Byte).toNat / 16 % 4 ∧
    (0xB1 : Byte).getLsbD 1 = false ∧ 1 ≠ (0xB1 : Byte).toNat / 16 % 4 := by
  refine ⟨?_, ?_, ?_, ?_, ?_, ?_, ?_⟩ <;> decide +kernel
theorem witness_PinsrReplacesOneField :
    RuleRuns (.pinsrb plain 1 (.mem atRsi) 15) (.pinsrb plain 1 (.reg 3) 15) 1 false ∧ 15 = (15 : Byte).toNat % 16 ∧
    RuleRuns (.pinsrd plain 1 (.mem atRsi) 3) (.pinsrd plain 1 (.reg 3) 3) 4 false ∧ 2 ≠ (3 : Byte).toNat % 4 ∧
    RuleRuns (.pinsrq (rexed 8) 1 (.mem atRsi) 1) (.pinsrq (rexed 8) 1 (.reg 3) 1) 8 false := by
  refine ⟨?_, ?_, ?_, ?_, ?_⟩ <;> decide +kernel
theorem witness_ExtractsMoveOneField :
    RuleRuns (.extractps plain (.mem atRsi) 2 3) (.extractps plain (.reg 3) 2 3) 4 false ∧
    RuleRuns (.pextrb plain (.mem atRsi) 2 15) (.pextrb plain (.reg 3) 2 15) 1 false ∧
    RuleRuns (.pextrw plain (.mem atRsi) 2 7) (.pextrw plain (.reg 3) 2 7) 2 false ∧
    RuleRuns (.pextrd plain (.mem atRsi) 2 3) (.pextrd plain (.reg 3) 2 3) 4 false ∧
    RuleRuns (.pextrq (rexed 8) (.mem atRsi) 2 1) (.pextrq (rexed 8) (.reg 3) 2 1) 8 false ∧
    ∀ n ∈ [0, 1, 2, 3, 4, 5, 6, 7, 8],
      ¬ (addrOf withData plain n atRsi < withData.codeEnd ∧ withData.codeBase < addrOf withData plain n atRsi + n) := by
  refine ⟨?_, ?_, ?_, ?_, ?_, ?_⟩ <;> decide +kernel
/-- Lane 0 selected with a signaling NaN, which raises IE: masked, and not masked. -/
theorem witness_DppsSumsProducts :
    RuleRuns (.dpps plain 1 (.mem atRsi) 0x1F) (.dpps plain 1 (.reg 3) 0x1F) 16 true ∧
    (0x1F : Byte).getLsbD 0 = true ∧ (0x1E : Byte).getLsbD 0 = false ∧
    (let s := { machine 0x7F800001 0x3F800000 with nanDp := .host }
     (fmul32 s.fpEnv (lane 32 0 (s.getXmm 1)) (lane 32 0 (s.getXmm 2))).2 = fIE ∧ unmasked s fIE = 0 ∧
     unmasked { s with mxcsr := 0x1F00 } fIE ≠ 0) ∧
    State.nanDp withData = .tree ∧ State.nanDp { withData with nanDp := .draw } = .draw := by decide +kernel
/-- A machine whose one product, 00800001H * 3F000000H, is a denormal; U is unmasked, D is masked. -/
def unmaskedU : State := { machine 0x00800001 0x3F000000 with mxcsr := 0x1780, cr4 := 0x600 }
/-- The same with D unmasked. -/
def unmaskedUD : State := { machine 0x00800001 0x3F000000 with mxcsr := 0x1680, cr4 := 0x600 }
/-- The product raises U and P, the add behind it D; only the product is detected, and its U alone is an unmasked exception that counts. -/
abbrev FaultsByU (s : State) : Prop :=
  dppsLevels s (dppsTerm s.fpEnv 0x11 (s.getXmm 1) (s.getXmm 2)) = [fUE ||| fPE, 0, 0] ∧
  (dpps s 0x11 (s.getXmm 1) (s.getXmm 2)).2 = fDE ||| fUE ||| fPE ∧
  unmasked s (allFlags [fUE ||| fPE, 0, 0]) = fUE ∧ unmasked s (untilFault s [fUE ||| fPE, 0, 0]) = fUE ∧
  (faultOf (exec (.dpps plain 1 (.reg 2) 0x11) s)).map Fault.vector = some 19
theorem test_dpps_faultsByTheProduct : FaultsByU unmaskedU ∧ FaultsByU unmaskedUD := by
  refine ⟨⟨?_, ?_, ?_, ?_, ?_⟩, ?_, ?_, ?_, ?_, ?_⟩ <;> decide +kernel
/-- R154, U4: whatever is drawn, U is recorded there, with any of the flags the masked run raises. -/
theorem test_dpps_recordsTheProduct {s : State} (h : FaultsByU s) (later : Bool) (n : Nat) (x : FpFlags) :
    drawFlags s later n x (fDE ||| fUE ||| fPE) [fUE ||| fPE, 0, 0] = fUE ||| (x &&& (fDE ||| fUE ||| fPE)) := by
  have hs : splitFlags fUE = [fUE] := by decide
  have hp : (fUE &&& preFlags != 0) = false := by decide
  cases later <;> simp only [drawFlags, Bool.false_eq_true, if_true, if_false, h.2.2.1, h.2.2.2.1, hp, hs, List.length_singleton,
    Nat.mod_one] <;> rfl
theorem witness_DppdSumsProducts :
    RuleRuns (.dppd plain 1 (.mem atRsi) 0x13) (.dppd plain 1 (.reg 3) 0x13) 16 true ∧
    (0x13 : Byte).getLsbD 1 = true ∧ (0x11 : Byte).getLsbD 1 = false ∧
    (let s := { machine 0x7FF0000000000001 0x3FF0000000000000 with nanDp := .host }
     (fmul64 s.fpEnv (lane 64 0 (s.getXmm 1)) (lane 64 0 (s.getXmm 2))).2 = fIE ∧ unmasked s fIE = 0 ∧
     unmasked { s with mxcsr := 0x1F00 } fIE ≠ 0) ∧
    State.nanDp withData = .tree ∧ State.nanDp { withData with nanDp := .draw } = .draw := by decide +kernel
/-- Quiet NaNs in lanes 0 and 1 of xmm1, under a draw. -/
theorem witness_NanProductsGiveQuietNans :
    (let s := { machine 0x7FC000027FC00001 0x3F8000003F800000 with nanDp := .draw }
     isNext (exec (.dpps plain 1 (.reg 2) 0x3F) s) = true ∧ (0x3F : Byte).getLsbD (4 + 1) = true ∧ (0x3F : Byte).getLsbD 3 = true ∧
     isNaN32 (fmul32 s.fpEnv (lane 32 1 (s.getXmm 1)) (lane 32 1 (srcXmm s 16 plain 6 (.reg 2)))).1 = true) ∧
    (let s := { machine 0x7FF80000000000020000000000000000 0 with nanDp := .draw }
     isNext (exec (.dppd plain 1 (.reg 2) 0x33) s) = true ∧ (0x33 : Byte).getLsbD (4 + 1) = true ∧
     isNaN64 (fmul64 s.fpEnv (lane 64 1 (s.getXmm 1)) (lane 64 1 (srcXmm s 16 plain 6 (.reg 2)))).1 = true) := by decide +kernel
/-- A NaN in the one lane that is not selected. -/
theorem witness_NanDpMattersOnlyForNans :
    (let s := machine 0x7FC000003F8000003F8000003F800000 0x3F8000003F8000003F8000003F800000
     ∀ i < 4, (0x7F : Byte).getLsbD (4 + i) = true →
       isNaN32 (fmul32 s.fpEnv (lane 32 i (s.getXmm 1)) (lane 32 i (srcXmm s 16 plain 6 (.reg 2)))).1 = false) ∧
    (let s := machine 0x7FF80000000000003FF0000000000000 0x3FF00000000000003FF0000000000000
     ∀ i < 2, (0x13 : Byte).getLsbD (4 + i) = true →
       isNaN64 (fmul64 s.fpEnv (lane 64 i (s.getXmm 1)) (lane 64 i (srcXmm s 16 plain 6 (.reg 2)))).1 = false) := by decide +kernel
theorem witness_NoProductSelectedGivesZero :
    Enabled withData ∧ OperandOk withData .read 16 true plain 6 atRsi ∧ (0x0F : Byte).toNat / 16 = 0 ∧ (0xCF : Byte).toNat / 16 % 4 = 0 := by
  decide +kernel
/-- Finite fields at the ends of both formats: the least denormal and the greatest finite number; both flushing and not, from MXCSR. -/
theorem witness_MultiplyAndAddRoundCorrectly :
    FpEnv.flush base.fpEnv = false ∧ FpEnv.flush (State.fpEnv { base with mxcsr := 0x9F80 }) = true ∧
    fmt32.Finite (0x00000001 : BitVec 32).toNat ∧ fmt32.Finite (0x7F7FFFFF : BitVec 32).toNat ∧
    fmt64.Finite (0x0000000000000001 : BitVec 64).toNat ∧ fmt64.Finite (0x7FEFFFFFFFFFFFFF : BitVec 64).toNat := by
  refine ⟨by decide +kernel, by decide +kernel, ⟨?_, ?_⟩, ⟨?_, ?_⟩, ⟨?_, ?_⟩, ⟨?_, ?_⟩⟩ <;> decide +kernel
/-- R151's overflow table with OE and PE, for 2^127 * 2 and its negative under RC = 00, 01, 10, 11. -/
theorem test_overflowTable :
    ([0, 1, 2, 3].map fun rc : BitVec 2 => (fmul32 ⟨rc, false, false⟩ 0x7F000000 0x40000000).1)
      = [0x7F800000, 0x7F7FFFFF, 0x7F800000, 0x7F7FFFFF] ∧
    ([0, 1, 2, 3].map fun rc : BitVec 2 => (fmul32 ⟨rc, false, false⟩ 0xFF000000 0x40000000).1)
      = [0xFF800000, 0xFF800000, 0xFF7FFFFF, 0xFF7FFFFF] ∧
    ∀ rc : BitVec 2, (fmul32 ⟨rc, false, false⟩ 0x7F000000 0x40000000).2 = fOE ||| fPE := by decide +kernel
/-- R153: 00800001H * 3F000000H is tiny and inexact: the denormal of even fraction, or the zero of FTZ; -00800000H * 0.5 is tiny and exact:
a denormal without UE, or the flushed -0 with it. -/
theorem test_tinyResults :
    fmul32 ⟨0, false, false⟩ 0x00800001 0x3F000000 = (0x00400000, fUE ||| fPE) ∧
    fmul32 ⟨0, false, true⟩ 0x00800001 0x3F000000 = (0, fUE ||| fPE) ∧
    fmul32 ⟨0, false, false⟩ 0x80800000 0x3F000000 = (0x80400000, 0) ∧
    fmul32 ⟨0, false, true⟩ 0x80800000 0x3F000000 = (0x80000000, fUE ||| fPE) := by decide +kernel
/-- The operands of each clause, in both formats: NaN, infinity, zero, a denormal with DAZ and without, a finite number. -/
theorem witness_SpecialCasesOfMultiplyAndAdd :
    (fmt32.isNaN (0x7F800001 : BitVec 32).toNat = true ∧ fmt32.isNaN (0x7F800000 : BitVec 32).toNat = false ∧
     (0xFF800000 : BitVec 32) &&& ~~~0x80000000 = 0x7F800000 ∧ (0x80000000 : BitVec 32) &&& ~~~0x80000000 = 0 ∧
     (0x00000001 : BitVec 32) &&& ~~~0x80000000 ≠ 0 ∧ fmt32.isDenormal (0x00000001 : BitVec 32).toNat = true ∧
     fmt32.isNaN (0x00000001 : BitVec 32).toNat = false ∧
     (0x7F7FFFFF : BitVec 32).toNat < 2 ^ (1 + fmt32.ew + fmt32.fw) ∧ fmt32.exp (0x7F7FFFFF : BitVec 32).toNat ≠ fmt32.emax) ∧
    (fmt64.isNaN (0x7FF0000000000001 : BitVec 64).toNat = true ∧ fmt64.isNaN (0x7FF0000000000000 : BitVec 64).toNat = false ∧
     (0xFFF0000000000000 : BitVec 64) &&& ~~~0x8000000000000000 = 0x7FF0000000000000 ∧
     (0x8000000000000000 : BitVec 64) &&& ~~~0x8000000000000000 = 0 ∧
     (0x0000000000000001 : BitVec 64) &&& ~~~0x8000000000000000 ≠ 0 ∧ fmt64.isDenormal (0x0000000000000001 : BitVec 64).toNat = true ∧
     fmt64.isNaN (0x0000000000000001 : BitVec 64).toNat = false ∧
     (0x7FEFFFFFFFFFFFFF : BitVec 64).toNat < 2 ^ (1 + fmt64.ew + fmt64.fw) ∧
     fmt64.exp (0x7FEFFFFFFFFFFFFF : BitVec 64).toNat ≠ fmt64.emax) := by
  refine ⟨⟨?_, ?_, ?_, ?_, ?_, ?_, ?_, ?_, ?_⟩, ?_, ?_, ?_, ?_, ?_, ?_, ?_, ?_, ?_⟩ <;> decide +kernel
theorem witness_VariableBlends :
    RuleRuns (.blendvps plain 1 (.mem atRsi)) (.blendvps plain 1 (.reg 3)) 16 true ∧
    RuleRuns (.blendvpd plain 1 (.mem atRsi)) (.blendvpd plain 1 (.reg 3)) 16 true ∧
    RuleRuns (.pblendvb plain 1 (.mem atRsi)) (.pblendvb plain 1 (.reg 3)) 16 true := by
  refine ⟨?_, ?_, ?_⟩ <;> decide +kernel
theorem witness_ImmediateBlends :
    RuleRuns (.blendps plain 1 (.mem atRsi) 8) (.blendps plain 1 (.reg 3) 8) 16 true ∧
    RuleRuns (.blendpd plain 1 (.mem atRsi) 2) (.blendpd plain 1 (.reg 3) 2) 16 true ∧
    RuleRuns (.pblendw plain 1 (.mem atRsi) 0x80) (.pblendw plain 1 (.reg 3) 0x80) 16 true := by
  refine ⟨?_, ?_, ?_⟩ <;> decide +kernel
theorem witness_PtestSetsZfAndCf :
    RuleRuns (.ptest plain 1 (.mem atRsi)) (.ptest plain 1 (.reg 3)) 16 true ∧
    (1 : Nat) ≠ 0 ∧ (1 : Nat) ≠ 2 ∧ (10 : Nat) ≠ 11 ∧ (12 : Nat) ≠ 11 := by decide +kernel
/-- 1.5 raises PE: masked, not masked, and suppressed. -/
theorem witness_PackedRoundings :
    RuleRuns (.roundps plain 1 (.mem atRsi) 4) (.roundps plain 1 (.reg 3) 4) 16 true ∧
    RuleRuns (.roundpd plain 1 (.mem atRsi) 4) (.roundpd plain 1 (.reg 3) 4) 16 true ∧
    (rti32 false 0 false 0x3FC00000).2 = fPE ∧ (rti64 false 0 false 0x3FF8000000000000).2 = fPE ∧
    (rti32 false 0 true 0x3FC00000).2 = 0 ∧
    unmasked withData fPE = 0 ∧ unmasked { withData with mxcsr := 0xF80 } fPE ≠ 0 := by
  refine ⟨?_, ?_, ?_, ?_, ?_, ?_, ?_⟩ <;> decide +kernel
theorem witness_ScalarRoundings :
    RuleRuns (.roundss plain 1 (.mem atRsi) 4) (.roundss plain 1 (.reg 3) 4) 4 false ∧
    RuleRuns (.roundsd plain 1 (.mem atRsi) 4) (.roundsd plain 1 (.reg 3) 4) 8 false ∧
    (rti32 false 0 false 0x3FC00000).2 = fPE ∧ (rti64 false 0 false 0x3FF8000000000000).2 = fPE ∧
    unmasked withData fPE = 0 ∧ unmasked { withData with mxcsr := 0xF80 } fPE ≠ 0 := by
  refine ⟨?_, ?_, ?_, ?_, ?_, ?_⟩ <;> decide +kernel
/-- A field of each kind, in both formats. -/
theorem witness_RoundsToTheNamedInteger :
    (fmt32.isSNaN (0x7F800001 : BitVec 32).toNat = true ∧ fmt32.isNaN (0x7FC00000 : BitVec 32).toNat = true ∧
     fmt32.isSNaN (0x7FC00000 : BitVec 32).toNat = false ∧ fmt32.isDenormal (0x00000001 : BitVec 32).toNat = true ∧
     (0x80000000 : BitVec 32) &&& 0x7FFFFFFF = 0 ∧ (0xFF800000 : BitVec 32) &&& 0x7FFFFFFF = 0x7F800000 ∧
     fmt32.Finite (0x7F7FFFFF : BitVec 32).toNat ∧ fmt32.isDenormal (0x7F7FFFFF : BitVec 32).toNat = false) ∧
    (fmt64.isSNaN (0x7FF0000000000001 : BitVec 64).toNat = true ∧ fmt64.isNaN (0x7FF8000000000000 : BitVec 64).toNat = true ∧
     fmt64.isSNaN (0x7FF8000000000000 : BitVec 64).toNat = false ∧ fmt64.isDenormal (0x0000000000000001 : BitVec 64).toNat = true ∧
     (0x8000000000000000 : BitVec 64) &&& 0x7FFFFFFFFFFFFFFF = 0 ∧
     (0xFFF0000000000000 : BitVec 64) &&& 0x7FFFFFFFFFFFFFFF = 0x7FF0000000000000 ∧
     fmt64.Finite (0x7FEFFFFFFFFFFFFF : BitVec 64).toNat ∧ fmt64.isDenormal (0x7FEFFFFFFFFFFFFF : BitVec 64).toNat = false) := by
  refine ⟨⟨?_, ?_, ?_, ?_, ?_, ?_, ⟨?_, ?_⟩, ?_⟩, ?_, ?_, ?_, ?_, ?_, ?_, ⟨?_, ?_⟩, ?_⟩ <;> decide +kernel
/-- Bits 4 and 7 set under refuse; under ignore the same control bits with other reserved bits. -/
theorem witness_ReservedRoundingBits :
    (Enabled { withData with roundImmHi := .refuse } ∧ (Instr.roundss plain 1 (.reg 3) 0x10).roundImm = some 0x10 ∧
     (0x10 : Byte).extractLsb' 4 4 ≠ 0 ∧ (0x80 : Byte).extractLsb' 4 4 ≠ 0) ∧
    (State.roundImmHi withData = .ignore ∧ (Instr.roundss plain 1 (.reg 3) 0xF5).roundImm = some 0xF5 ∧
     (Instr.roundss plain 1 (.reg 3) 0xF5).key = (Instr.roundss plain 1 (.reg 3) 5).key ∧
     (Instr.roundss plain 1 (.reg 3) 0xF5).operands = { (Instr.roundss plain 1 (.reg 3) 5).operands with imm := some 0xF5 } ∧
     (0xF5 : Byte).extractLsb' 0 4 = (5 : Byte).extractLsb' 0 4) := by decide +kernel
/-- The register form: `witness_movntdqaRegister`. -/
theorem witness_MovntdqaLoadsSixteenBytes :
    Ready (.movntdqa plain 1 atRsi) withData ∧ OperandOk withData .read 16 true plain 5 atRsi ∧
    (0xC1 : Byte).extractLsb' 6 2 = 3 ∧
    CodeAt (withData.loadProgram [0x66, 0x0F, 0x38, 0x2A, 0xC1]) [0x66, 0x0F, 0x38, 0x2A, 0xC1] := by decide +kernel

end Sys2Proof.Tests
end

namespace Sys2Proof.Machine

/-! ## Reset and INIT (10_state.md R33) -/

/-- INIT keeps bits 29 and 30 of CR0; its other bits are those of the value 10H. -/
theorem State.getLsbD_afterInit_cr0 (s : State) {k : Nat} (hk : k < 64) :
    s.afterInit.cr0.getLsbD k = if k = 29 ∨ k = 30 then s.cr0.getLsbD k else (0x10 : Quad).getLsbD k := by
  have bits : ∀ k : Fin 64, (0x60000000#64).getLsbD k = decide (k.val = 29 ∨ k.val = 30) ∧
      (State.reset.cr0 &&& ~~~0x60000000#64).getLsbD k =
        (!decide (k.val = 29 ∨ k.val = 30) && (0x10 : Quad).getLsbD k) := by decide
  obtain ⟨hkept, hreset⟩ := bits ⟨k, hk⟩
  dsimp only at hkept hreset
  have hcr0 : s.afterInit.cr0 = (State.reset.cr0 &&& ~~~0x60000000#64) ||| (s.cr0 &&& 0x60000000#64) := rfl
  rw [hcr0, BitVec.getLsbD_or, hreset, BitVec.getLsbD_and, hkept]
  by_cases h : k = 29 ∨ k = 30 <;> simp [h]

/-- Settles O12: memory is empty at reset and kept by INIT, MXCSR is kept, RFLAGS is 2, and the mode is not mode32. -/
theorem resetMeetsInv : Obligations.ResetMeetsInv := by
  unfold Obligations.ResetMeetsInv
  refine ⟨⟨⟨.nil, nofun⟩, nofun, rfl, rfl, nofun⟩, fun s h => ?_⟩
  obtain ⟨hwf, haddr, hmxcsr, -, -⟩ := h
  exact ⟨hwf, haddr, hmxcsr, show State.reset.rflags.getLsbD 1 = true from rfl, nofun⟩

/-- Settles O13: the registers by evaluation, CR0 after INIT bit by bit. -/
theorem resetValues : Obligations.ResetValues := by
  unfold Obligations.ResetValues
  refine ⟨by decide, rfl, rfl, rfl, by decide, rfl, rfl, rfl, rfl, rfl, rfl, rfl, rfl, rfl, rfl, fun s => ?_⟩
  exact ⟨rfl, rfl, rfl, rfl, rfl, rfl, rfl, rfl, rfl, rfl, fun k hk => s.getLsbD_afterInit_cr0 hk⟩

/-! ## What an instruction that completes writes

Each fact is read off the five effects of `exec_next`. -/

/-- Every effect writes XMM registers, general registers, memory, RFLAGS, MXCSR or the draw counter, and moves RIP; the system state is
not among these. -/
theorem Effect.systemSame {i : Instr} {s t : State} (h : Effect i s t) : SystemSame s t := by
  cases h <;> constructor <;> rfl

/-- Every effect ends with the advance of RIP past the instruction. -/
theorem Effect.rip_eq {i : Instr} {s t : State} (h : Effect i s t) : t.rip = modeWidth s.mode (s.rip + BitVec.ofNat 64 i.len) := by
  cases h <;> rfl

/-- RFLAGS is kept, or PTEST has given it new status flags. -/
theorem Effect.rflags_cases {i : Instr} {s t : State} (h : Effect i s t) :
    t.rflags = s.rflags ∨ i.key = ⟨.m38, 0x17⟩ ∧ ∃ zf cf, t.rflags = ptestFlags s.rflags zf cf := by
  cases h with
  | flags zf cf _ _ hp => exact .inr ⟨hp, zf, cf, rfl⟩
  | xmm | gpr | mem | fp => exact .inl rfl

/-- MXCSR is kept, or a floating-point instruction has accumulated flags without ZE, ROUND* none but IE and PE. -/
theorem Effect.mxcsr_cases {i : Instr} {s t : State} (h : Effect i s t) :
    t.mxcsr = s.mxcsr ∨ i.excClass.fp = true ∧
      ∃ f, t.mxcsr = orFlags s.mxcsr f ∧ NoZe f ∧ (i.roundImm.isSome = true → OnlyIePe f) := by
  cases h with
  | fp _ _ f hf _ _ hz hr _ => exact .inr ⟨hf, f, rfl, hz, hr⟩
  | xmm | gpr | mem | flags => exact .inl rfl

/-- Settles O15, from the advance of RIP and the frame of every effect. -/
theorem ripMovesPastTheInstruction : Obligations.RipMovesPastTheInstruction := by
  unfold Obligations.RipMovesPastTheInstruction
  intro i s t h
  obtain ⟨-, -, heff⟩ := exec_next h
  exact ⟨heff.rip_eq, heff.systemSame⟩

/-- Settles O16: only PTEST's effect writes RFLAGS, and `ptestFlags` keeps every bit outside the six status flags. -/
theorem onlyPtestWritesFlags : Obligations.OnlyPtestWritesFlags := by
  unfold Obligations.OnlyPtestWritesFlags
  intro i s t h
  obtain ⟨-, -, heff⟩ := exec_next h
  rcases heff.rflags_cases with hsame | ⟨hptest, zf, cf, hflags⟩
  · exact ⟨fun _ => hsame, fun k _ _ _ _ _ _ => by rw [hsame]⟩
  · exact ⟨fun hne => absurd hptest hne, fun k h0 h2 h4 h6 h7 h11 => by
      rw [hflags, getLsbD_ptestFlags _ _ _ h0 h2 h4 h6 h7 h11]⟩

/-- A bit that is clear in the accumulated flags keeps its value. -/
theorem getLsbD_orFlags_of_false {m : BitVec 32} {f : FpFlags} {k : Nat} (h : f.getLsbD k = false) :
    (orFlags m f).getLsbD k = m.getLsbD k := by
  rw [getLsbD_orFlags, h, Bool.or_false]

/-- Settles O17: MXCSR is kept or `orFlags` accumulates into it, and what is accumulated has no bit above 5, no ZE, and for ROUND* none but
IE and PE. -/
theorem mxcsrFlagsAreSticky : Obligations.MxcsrFlagsAreSticky := by
  unfold Obligations.MxcsrFlagsAreSticky
  intro i s t h
  obtain ⟨-, -, heff⟩ := exec_next h
  rcases heff.mxcsr_cases with hsame | ⟨hfp, f, hor, hnoZe, hround⟩
  · rw [hsame]
    exact ⟨fun _ => rfl, fun _ _ => rfl, fun _ hk => hk, rfl, fun _ _ _ _ => rfl⟩
  · rw [hor]
    refine ⟨fun hnot => ?notFp, fun k hk => ?above, fun k hk => ?sticky, ?ze, fun hr k h0 h5 => ?round⟩
    case notFp => exact absurd hfp (by simp [hnot])
    case above => exact getLsbD_orFlags_of_false (BitVec.getLsbD_of_ge _ _ hk)
    case sticky => rw [getLsbD_orFlags, hk, Bool.true_or]
    case ze => exact getLsbD_orFlags_of_false hnoZe.getLsbD
    case round => exact getLsbD_orFlags_of_false ((hround hr).getLsbD h0 h5)

/-! ## The invariant under each write -/

/-- The reserved half of MXCSR takes no flag. -/
theorem extractLsb'_orFlags (m : BitVec 32) (f : FpFlags) : (orFlags m f).extractLsb' 16 16 = m.extractLsb' 16 16 := by
  apply BitVec.eq_of_getLsbD_eq
  intro k _
  rw [BitVec.getLsbD_extractLsb', BitVec.getLsbD_extractLsb', getLsbD_orFlags_of_false (BitVec.getLsbD_of_ge _ _ (by omega))]

/-- A canonical range does not run past the top of the space. -/
theorem le_of_canonicalRange {va : VaBits} {a n : Nat} (h : canonicalRange va a n = true) : a + n ≤ 2 ^ 64 := by
  simp only [canonicalRange, Bool.or_eq_true, Bool.and_eq_true, decide_eq_true_eq] at h
  cases va <;> simp only [VaBits.toNat] at h <;> omega

/-- The bytes of an operand in reach of its segment are addresses of the space, in every mode. -/
theorem addrOf_add_le_of_inReach {s : State} {e : Enc} {len n : Nat} {m : Mem} (h : inReach s e len n m = true) :
    addrOf s e len m + n ≤ 2 ^ 64 := by
  unfold inReach at h
  cases hmode : s.mode <;> simp only [hmode] at h
  case mode64 => exact le_of_canonicalRange h
  case mode16 | mode32 =>
    have hlimit : addrOf s e len m + n ≤ 2 ^ 32 := of_decide_eq_true (Bool.and_eq_true_iff.mp h).2
    omega

theorem Inv.setXmm {s : State} (h : Inv s) (r : Reg) (v : XWord) : Inv (s.setXmm r v) := h

theorem Inv.setGpr {s : State} (h : Inv s) (r : Reg) (v : Quad) : Inv (s.setGpr r v) := by
  obtain ⟨hwf, haddr, hmxcsr, hflags, hmode32⟩ := h
  refine ⟨hwf, haddr, hmxcsr, hflags, fun hm => ⟨(hmode32 hm).1, fun q => ?_⟩⟩
  by_cases hq : r = q
  · subst hq
    rw [State.gpr_setGpr, show s.mode = .mode32 from hm]
    exact modeWidth_lt v
  · rw [State.gpr_setGpr_ne _ _ hq]
    exact (hmode32 hm).2 q

theorem Inv.advance {s : State} (h : Inv s) (n : Nat) : Inv (s.advance n) := by
  obtain ⟨hwf, haddr, hmxcsr, hflags, hmode32⟩ := h
  refine ⟨hwf, haddr, hmxcsr, hflags, fun hm => ⟨?_, (hmode32 hm).2⟩⟩
  rw [State.advance_rip, show s.mode = .mode32 from hm]
  exact modeWidth_lt _

/-- A store in reach of its segment lists addresses of the space only. -/
theorem Inv.writeLE {s : State} (h : Inv s) {a n : Nat} (hspace : a + n ≤ 2 ^ 64) (v : XWord) :
    Inv { s with mem := s.mem.writeLE a n v } := by
  obtain ⟨hwf, haddr, hrest⟩ := h
  refine ⟨Memory.wf_writeLE hwf _ _ _, fun c hc => ?_, hrest⟩
  rcases Memory.mem_writeLE hc with hold | ⟨-, hnew⟩
  · exact haddr c hold
  · omega

theorem Inv.accumulateFlags {s : State} (h : Inv s) (f : FpFlags) : Inv { s with mxcsr := orFlags s.mxcsr f } := by
  obtain ⟨hwf, haddr, hmxcsr, hrest⟩ := h
  exact ⟨hwf, haddr, (extractLsb'_orFlags _ f).trans hmxcsr, hrest⟩

/-- Bit 1 of RFLAGS is none of the status flags. -/
theorem Inv.setStatusFlags {s : State} (h : Inv s) (zf cf : Bool) : Inv { s with rflags := ptestFlags s.rflags zf cf } := by
  obtain ⟨hwf, haddr, hmxcsr, hflags, hmode32⟩ := h
  refine ⟨hwf, haddr, hmxcsr, ?_, hmode32⟩
  rw [getLsbD_ptestFlags _ _ _ (by decide) (by decide) (by decide) (by decide) (by decide) (by decide)]
  exact hflags

/-- Where a class stores to memory, its bytes are addresses of the space. -/
theorem OperandsOk.addrOf_add_le {i : Instr} {s : State} {m : Mem} (h : OperandsOk i s) (hs : i.excClass.stores = true)
    (hm : i.operands.rm = .mem m) : addrOf s i.operands.enc i.len m + i.memBytes ≤ 2 ^ 64 := by
  rw [OperandsOk, hs, hm] at h
  obtain ⟨⟨-, hreach, -⟩, -⟩ := h
  exact addrOf_add_le_of_inReach hreach

/-- Every instruction that completes keeps the invariant: each effect is one write followed by the advance of RIP. -/
theorem Inv.of_exec_next {i : Instr} {s t : State} (h : Inv s) (hexec : exec i s = .next t) : Inv t := by
  obtain ⟨-, hok, heff⟩ := exec_next hexec
  cases heff with
  | xmm v => exact (h.setXmm _ v).advance _
  | gpr r v => exact (h.setGpr r v).advance _
  | mem m v _ hs _ hm => exact (h.writeLE (OperandsOk.addrOf_add_le hok hs hm) v).advance _
  | fp n v f =>
    have hflags : Inv { s with draws := n, mxcsr := orFlags s.mxcsr f } := h.accumulateFlags f
    exact (hflags.setXmm _ v).advance _
  | flags zf cf => exact (h.setStatusFlags zf cf).advance _

/-! ## What a fault leaves -/

/-- A fault met while fetching is the page fault of a byte that does not permit the fetch. -/
theorem fetchBytes_fault {s : State} {n a : Nat} {f : Fault} (h : (fetchBytes s n a).2 = some f) :
    ∃ b c, f = .pageFault s.rip c (BitVec.ofNat 64 b) ∧ pageError s .fetch b = some c := by
  induction n generalizing a with
  | zero => cases h
  | succ n ih =>
    rw [fetchBytes] at h
    split at h
    · cases h
    · cases hp : pageError s .fetch a with
      | some c =>
        simp only [hp, Option.some.injEq] at h
        exact ⟨a, c, h.symm, hp⟩
      | none =>
        simp only [hp] at h
        exact ih h

/-- Bytes that do not decode fault by #UD, or by the page fault they ran into. -/
theorem decodeFailure_fault {α : Type} {s : State} {pf : Option Fault} {x : DecodeError} {f : Fault}
    (h : decodeFailure (α := α) s pf x = .fault f) : f = .invalidOpcode s.rip ∨ pf = some f := by
  cases x with
  | lockByte | movntdqaRegister => cases h; exact .inl rfl
  | truncated =>
    cases pf with
    | some g => cases h; exact .inr rfl
    | none => cases h
  | notAnInstruction | duplicateLegacy | repeatByte | addr16 | mode16 => cases h

/-- INVERSION: a fault of the fetch is #GP at a RIP that is not canonical, #UD of an encoding, or the page fault of a byte fetched. -/
theorem fetchInstr_fault {s : State} {f : Fault} (h : fetchInstr s = .fault f) :
    f = .generalProtection s.rip ∨ f = .invalidOpcode s.rip ∨
      ∃ b c, f = .pageFault s.rip c (BitVec.ofNat 64 b) ∧ pageError s .fetch b = some c := by
  simp only [fetchInstr] at h
  split at h
  · cases h
  split at h
  · cases h
  split at h
  · cases h
  split at h
  · cases h; exact .inl rfl
  split at h
  · cases h
  split at h
  · cases h
  split at h
  · cases h
  · rcases decodeFailure_fault h with hud | hpf
    · exact .inr (.inl hud)
    · exact .inr (.inr (fetchBytes_fault hpf))

/-- The states a fault leaves: the state as it was, but for CR2 after #PF and accumulated flags after a floating-point fault
(60_exceptions.md R206, R208, R211). -/
inductive FaultLeaves (s : State) : State → Prop where
  | same : FaultLeaves s s
  | cr2 (a : Quad) : FaultLeaves s { s with cr2 := a }
  | flags (g : FpFlags) : FaultLeaves s { s with mxcsr := orFlags s.mxcsr g }

theorem exec_fault_leaves {i : Instr} {s : State} {f : Fault} (h : exec i s = .fault f) : FaultLeaves s (f.leaves s) := by
  rcases exec_fault h with ⟨-, rfl | rfl⟩ | ⟨-, m, g, -, rfl, hg⟩ | ⟨-, -, x, levels, -, rfl⟩
  · exact .same
  · exact .same
  · rcases operandFault_cases hg with rfl | rfl | ⟨b, c, rfl, -⟩ | ⟨rfl, -⟩
    · exact .same
    · exact .same
    · exact .cr2 _
    · exact .same
  · cases s.osxmmexcpt <;> exact .flags (faultFlagsOf s x levels)

theorem step_fault_leaves {s : State} {f : Fault} (h : step s = .fault f) : FaultLeaves s (f.leaves s) := by
  rcases andThen_eq_fault.mp h with hfetch | ⟨i, -, hexec⟩
  · rcases fetchInstr_fault hfetch with rfl | rfl | ⟨b, c, rfl, -⟩
    · exact .same
    · exact .same
    · exact .cr2 _
  · exact exec_fault_leaves hexec

theorem Inv.of_faultLeaves {s u : State} (h : Inv s) (hu : FaultLeaves s u) : Inv u := by
  cases hu with
  | same | cr2 => exact h
  | flags g => exact h.accumulateFlags g

/-- Settles O11: each effect keeps the invariant, and a fault changes nothing of it but the flags of MXCSR. -/
theorem stepKeepsInv : Obligations.StepKeepsInv := by
  unfold Obligations.StepKeepsInv
  refine ⟨fun s t hs h => ?_, fun s f hs h => hs.of_faultLeaves (step_fault_leaves h)⟩
  obtain ⟨i, -, hexec⟩ := andThen_eq_next.mp h
  exact hs.of_exec_next hexec

end Sys2Proof.Machine

namespace Sys2Proof

/-! ## The memory operand of each class (20_memory.md R43, R44) -/

theorem Instr.memBytes_pos (i : Instr) : 1 ≤ i.memBytes := by cases i <;> simp [Instr.memBytes]

theorem Instr.memBytes_le (i : Instr) : i.memBytes ≤ 16 := by cases i <;> simp [Instr.memBytes]

/-- The aligned classes read 16 bytes. -/
theorem Instr.of_aligned16 {i : Instr} : i.excClass.aligned16 = true → i.memBytes = 16 ∧ i.excClass.stores = false := by
  cases i <;> simp [Instr.excClass, ExcClass.aligned16, ExcClass.stores, Instr.memBytes]

theorem ExcClass.stores_iff {c : ExcClass} : c.stores = true ↔ c = .nw := by
  cases c <;> simp [ExcClass.stores]

end Sys2Proof

namespace Sys2Proof.Machine

/-! ## The bytes of memory (20_memory.md R41 to R43, R53) -/

/-- Settles O32, from the rules of `readLE` and `writeLE`. -/
theorem littleEndianMemory : Obligations.LittleEndianMemory := by
  unfold Obligations.LittleEndianMemory
  intro m a n hn
  exact ⟨fun v _ hk => m.read_writeLE v hk, fun v _ hb => m.read_writeLE_ne v hb, fun _ hk => m.extract_readLE hn hk,
    m.readLE_lt a n hn⟩

/-- Only the store of a storing class writes memory, and it writes the bytes of its operand alone. -/
theorem Effect.mem_cases {i : Instr} {s t : State} (h : Effect i s t) :
    t.mem = s.mem ∨ i.excClass.stores = true ∧ ∃ m v, i.operands.rm = .mem m ∧
      t.mem = s.mem.writeLE (addrOf s i.operands.enc i.len m) i.memBytes v := by
  cases h with
  | mem m v _ hs _ hm => exact .inr ⟨hs, m, v, hm, rfl⟩
  | xmm | gpr | fp | flags => exact .inl rfl

/-- A class that does not store keeps the general registers. -/
theorem Effect.gpr_eq {i : Instr} {s t : State} (h : Effect i s t) (hs : i.excClass.stores = false) : t.gpr = s.gpr := by
  cases h with
  | gpr _ _ _ hstores => exact nomatch hs.symm.trans hstores
  | xmm | mem | fp | flags => rfl

/-- A class that stores keeps the XMM registers. -/
theorem Effect.xmm_eq {i : Instr} {s t : State} (h : Effect i s t) (hs : i.excClass.stores = true) : t.xmm = s.xmm := by
  cases h with
  | xmm _ _ hreads | fp _ _ _ _ hreads => exact nomatch hs.symm.trans hreads
  | gpr | mem | flags => rfl

/-- A byte of memory that changes is one of the bytes of the operand that a storing class writes. -/
theorem Effect.of_read_ne {i : Instr} {s t : State} {a : Nat} (h : Effect i s t) (ha : t.mem.read a ≠ s.mem.read a) :
    i.excClass.stores = true ∧ ∃ m, i.operands.rm = .mem m ∧
      addrOf s i.operands.enc i.len m ≤ a ∧ a < addrOf s i.operands.enc i.len m + i.memBytes := by
  rcases h.mem_cases with hsame | ⟨hs, m, v, hm, hmem⟩
  · exact absurd (by rw [hsame]) ha
  · refine ⟨hs, m, hm, not_not.mp fun hout => ha ?_⟩
    rw [hmem, Memory.read_writeLE_ne _ _ hout]

/-- Settles O18: each part is read off the effect of an instruction that completes. -/
theorem onlyExtractsStore : Obligations.OnlyExtractsStore := by
  unfold Obligations.OnlyExtractsStore
  intro i s t h
  obtain ⟨-, -, heff⟩ := exec_next h
  refine ⟨fun hs => ⟨fun a => ?reads, heff.gpr_eq hs⟩, heff.xmm_eq, fun a ha => (heff.of_read_ne ha).2⟩
  case reads =>
    by_contra ha
    exact nomatch hs.symm.trans (heff.of_read_ne ha).1

/-- A store whose operand raises nothing and overlaps the program text is refused. -/
theorem storeOperand_eq_refused {s : State} {n : Nat} {v : XWord} {e : Enc} {len : Nat} {m : Mem}
    (hok : OperandOk s .write n false e len m) (hend : addrOf s e len m < s.codeEnd) (hbase : s.codeBase < addrOf s e len m + n) :
    storeOperand s n v e len m = .refused .storesIntoProgram := by
  have hoverlaps : overlapsProgram s (addrOf s e len m) n = true := by simp [overlapsProgram, hend, hbase]
  simp only [storeOperand, operandFault_eq_none.mpr hok, hoverlaps, if_true]

/-- An instruction of a storing class, where it may run, answers what its store onto the program text answers. -/
theorem exec_storesIntoProgram {i : Instr} {s : State} {m : Mem} (hr : Ready i s) (hs : i.excClass.stores = true)
    (hm : i.operands.rm = .mem m) (hok : OperandOk s .write i.memBytes false i.operands.enc i.len m)
    (hend : addrOf s i.operands.enc i.len m < s.codeEnd) (hbase : s.codeBase < addrOf s i.operands.enc i.len m + i.memBytes) :
    exec i s = .refused .storesIntoProgram := by
  obtain ⟨henabled, hmode, -⟩ := hr
  have hc : i.excClass = .nw := ExcClass.stores_iff.mp hs
  have hsh := exec_shape i s
  generalize exec i s = o at hsh
  cases hsh with
  | extract v => rw [gate_of_enabled henabled, hm, andThen_next, writeGprOrMem, storeOperand_eq_refused hok hend hbase, andThen_refused]
  | wrongMode hw h32 => exact nomatch (hmode hw).symm.trans h32
  | xmm _ hx => rcases hx with hx | hx <;> exact nomatch hc.symm.trans hx
  | insert _ hx | test hx => exact nomatch hc.symm.trans hx
  | fp _ _ _ hfp => rw [hc] at hfp; exact nomatch hfp

/-- Settles O19: a byte that a completed instruction changes is one of its operand's, which misses the text; and a store onto the text is
refused. -/
theorem programTextIsFixed : Obligations.ProgramTextIsFixed := by
  unfold Obligations.ProgramTextIsFixed
  refine ⟨fun s t h a hbase hend => ?_, fun i s m => exec_storesIntoProgram⟩
  obtain ⟨i, -, hexec⟩ := andThen_eq_next.mp h
  obtain ⟨-, hok, heff⟩ := exec_next hexec
  by_contra ha
  obtain ⟨hs, m, hm, hlow, hhigh⟩ := heff.of_read_ne ha
  rw [OperandsOk, hs, hm] at hok
  obtain ⟨-, hmisses⟩ := hok
  exact hmisses ⟨by omega, by omega⟩

/-! ## Which byte permits which access (60_exceptions.md R206) -/

theorem State.heedsReadOnly_eq_false {s : State} : s.heedsReadOnly = false ↔ s.cpl ≠ 3 ∧ s.cr0.getLsbD 16 = false := by
  simp [State.heedsReadOnly, State.user, State.wp]

theorem Region.keyForbids_eq_false {g : Region} {s : State} {acc : Access} :
    g.keyForbids s acc = false ↔
      (acc ≠ .fetch → g.key ≠ .nothing) ∧ (acc = .write → g.key ≠ .noWrite ∨ s.heedsReadOnly = false) := by
  unfold Region.keyForbids
  cases g.key <;> cases acc <;> simp

theorem Region.forbids_eq_false {g : Region} {s : State} {acc : Access} :
    g.forbids s acc = false ↔
      (acc = .write → g.writable = true ∨ s.heedsReadOnly = false) ∧ (s.cpl = 3 → g.supervisor = false) := by
  unfold Region.forbids State.user
  cases acc <;> cases g.writable <;> cases g.supervisor <;> simp

/-- Settles O27: `pageError` asks the first region that holds the byte, and each of its three tests is a rule of R206. -/
theorem pagePermissions : Obligations.PagePermissions := by
  unfold Obligations.PagePermissions
  intro s acc a
  simp only [pageError_eq_none, Region.keyForbids_eq_false, Region.forbids_eq_false, State.heedsReadOnly_eq_false]
  refine exists_congr fun g => and_congr_right fun _ => and_congr_right fun _ => ?_
  constructor
  · exact fun ⟨⟨hread, hkey⟩, hwrite, huser⟩ => ⟨hwrite, huser, hread, hkey⟩
  · exact fun ⟨hwrite, huser, hread, hkey⟩ => ⟨⟨hread, hkey⟩, hwrite, huser⟩

/-! ## Canonical addresses (20_memory.md R46) -/

/-- A value is below 2^w exactly when its bits from `w` up are 0. -/
theorem toNat_lt_two_pow_iff {x : Quad} {w : Nat} : x.toNat < 2 ^ w ↔ ∀ k, w ≤ k → k < 64 → x.getLsbD k = false := by
  constructor
  · exact fun h k hk _ => Nat.testBit_lt_two_pow (lt_of_lt_of_le h (Nat.pow_le_pow_right (by decide) hk))
  · intro h
    refine Nat.lt_pow_two_of_testBit _ fun k hk => ?_
    by_cases h64 : k < 64
    · exact h k hk h64
    · exact BitVec.getLsbD_of_ge x k (by omega)

/-- The canonical addresses are the lowest and the highest 2^(VA_BITS - 1) of the space: bit 63 says which. -/
theorem canonical_iff {va : VaBits} {a : Quad} :
    Canonical va a ↔ a.toNat < 2 ^ (va.toNat - 1) ∨ 2 ^ 64 - 2 ^ (va.toNat - 1) ≤ a.toNat := by
  have hnot : (~~~a).toNat < 2 ^ (va.toNat - 1) ↔ 2 ^ 64 - 2 ^ (va.toNat - 1) ≤ a.toNat := by
    have hlt := a.isLt
    rw [BitVec.toNat_not]
    cases va <;> simp only [VaBits.toNat] <;> omega
  have h63 : va.toNat - 1 ≤ 63 := by cases va <;> decide
  rw [← hnot, toNat_lt_two_pow_iff, toNat_lt_two_pow_iff]
  constructor
  · intro hcan
    cases h : a.getLsbD 63 with
    | false => exact .inl fun k hk h64 => (hcan k hk h64).trans h
    | true => exact .inr fun k hk h64 => by rw [BitVec.getLsbD_not, hcan k hk h64, h]; simp
  · rintro (hlow | hhigh) k hk h64
    · rw [hlow k hk h64, hlow 63 h63 (by decide)]
    · have hset : ∀ j, va.toNat - 1 ≤ j → j < 64 → a.getLsbD j = true := fun j hj hj64 => by
        simpa [hj64] using hhigh j hj hj64
      rw [hset k hk h64, hset 63 h63 (by decide)]

/-- The range check, as the check of each byte: since at most 16 bytes do not span the gap, the first and the last byte decide. -/
theorem canonicalRange_iff {va : VaBits} {a : Quad} {n : Nat} (h1 : 1 ≤ n) (h16 : n ≤ 16) :
    canonicalRange va a.toNat n = true ↔ a.toNat + n ≤ 2 ^ 64 ∧ ∀ k < n, Canonical va (a + BitVec.ofNat 64 k) := by
  have hbyte : a.toNat + n ≤ 2 ^ 64 → ∀ k < n, (a + BitVec.ofNat 64 k).toNat = a.toNat + k := fun hspace k hk => by
    rw [BitVec.toNat_add, BitVec.toNat_ofNat]
    omega
  constructor
  · intro h
    have hspace := le_of_canonicalRange h
    refine ⟨hspace, fun k hk => ?_⟩
    rw [canonical_iff, hbyte hspace k hk]
    simp only [canonicalRange, Bool.or_eq_true, Bool.and_eq_true, decide_eq_true_eq] at h
    omega
  · intro ⟨hspace, hall⟩
    have hfirst := hall 0 (by omega)
    have hlast := hall (n - 1) (by omega)
    rw [canonical_iff, hbyte hspace _ (by omega)] at hfirst hlast
    simp only [canonicalRange, Bool.or_eq_true, Bool.and_eq_true, decide_eq_true_eq]
    cases va <;> simp only [VaBits.toNat] at hfirst hlast ⊢ <;> omega

/-- Settles O33. -/
theorem canonicalMeansEveryByte : Obligations.CanonicalMeansEveryByte := by
  unfold Obligations.CanonicalMeansEveryByte
  exact fun va a n => canonicalRange_iff

/-! ## Operands out of reach, and misaligned ones (20_memory.md R44, R46; 60_exceptions.md R204, R205) -/

/-- In mode64 the access goes through SS exactly when it is based on RSP or RBP and neither FS nor GS overrides. -/
theorem throughSS_mode64 {e : Enc} {m : Mem} : throughSS .mode64 e m = true ↔ StackBased e m := by
  unfold throughSS StackBased
  rw [← baseReg_isStack]
  cases e.seg with
  | none => simp
  | some g => cases g <;> simp

/-- An operand out of its segment's reach raises #SS when it goes through SS and is aligned or the draw says so, else #GP. -/
theorem operandFault_of_outOfReach {s : State} {acc : Access} {n : Nat} {align : Bool} {e : Enc} {len : Nat} {m : Mem}
    (h : inReach s e len n m = false) :
    operandFault s acc n align e len m =
      some (if throughSS s.mode e m && (!(align && addrOf s e len m % 16 != 0) || Config.stackFaultFirst s.draws) then .stackSegment
        else .generalProtection) := by
  simp only [operandFault, h, Bool.and_false, Bool.not_false, if_true]
  split <;> rfl

/-- A misaligned 16-byte operand within its segment's rights and reach raises #GP. -/
theorem operandFault_of_misaligned {s : State} {acc : Access} {n : Nat} {e : Enc} {len : Nat} {m : Mem}
    (hrights : segmentPermits s acc e m = true) (hreach : inReach s e len n m = true) (ha : addrOf s e len m % 16 ≠ 0) :
    operandFault s acc n true e len m = some .generalProtection := by
  simp [operandFault, hrights, hreach, ha]

/-- Settles O24: the check of alignment comes after rights and reach, and before the pages. -/
theorem misalignedOperandRaisesGp : Obligations.MisalignedOperandRaisesGp := by
  unfold Obligations.MisalignedOperandRaisesGp
  intro i s m hr halign hm hrights hreach ha
  obtain ⟨h16, hreads⟩ := Instr.of_aligned16 halign
  refine exec_operandFault hr hm ?_
  rw [halign, h16, hreads]
  exact operandFault_of_misaligned hrights hreach ha

/-- Settles O25: such an operand fails the canonical check of its range, and the draw decides only where it is misaligned too. -/
theorem nonCanonicalOperandFaults : Obligations.NonCanonicalOperandFaults := by
  unfold Obligations.NonCanonicalOperandFaults
  intro i s m hr h64 hm hbad
  have hreach : inReach s i.operands.enc i.len i.memBytes m = false := by
    rw [inReach, h64, ← Bool.not_eq_true, canonicalRange_iff i.memBytes_pos i.memBytes_le]
    rintro ⟨hspace, hall⟩
    rcases hbad with ⟨k, hk, hnot⟩ | htop
    · exact hnot (hall k hk)
    · exact absurd hspace (Nat.not_le.mpr htop)
  have hexec := exec_operandFault hr hm (operandFault_of_outOfReach hreach)
  rw [h64] at hexec
  refine ⟨fun hbase => ?other, fun hbase halign => ?stack, fun hbase => ?either⟩
  case other =>
    rw [← throughSS_mode64, Bool.not_eq_true] at hbase
    simpa only [hbase, Bool.false_and, Bool.false_eq_true, if_false] using hexec
  case stack =>
    have haligned : (i.excClass.aligned16 && addrOf s i.operands.enc i.len m % 16 != 0) = false := by simpa using halign
    simpa only [throughSS_mode64.mpr hbase, haligned, Bool.not_false, Bool.true_or, Bool.and_self, if_true] using hexec
  case either =>
    split at hexec
    · exact .inl hexec
    · exact .inr hexec

end Sys2Proof.Machine
namespace Sys2Proof.Machine

/-! ## What an instruction reads of the pages (20_memory.md R48, 60_exceptions.md R214)

The regions and CPL enter a meaning by the checks of its memory operand alone: with other regions and another CPL for which these checks
find the same, the instruction answers the same, and leaves the other regions and the other CPL. -/

/-- The same machine with other regions and another CPL. -/
def State.withPages (s : State) (regions : List Region) (c : BitVec 2) : State := { s with mapped := regions, cpl := c }

/-- The checks of a memory operand find the same with the other regions and CPL; a register has none. -/
def SameChecks (s : State) (regions : List Region) (c : BitVec 2) (acc : Access) (n : Nat) (align : Bool) (e : Enc) (len : Nat) (rm : Rm) :
    Prop :=
  ∀ m, rm = .mem m → operandFault (s.withPages regions c) acc n align e len m = operandFault s acc n align e len m

/-- Mapping the state of a sequence maps it at the end. -/
theorem mapNext_andThen {α : Type} (g : State → State) (x : Outcome α) (k : α → Outcome State) :
    mapNext g (andThen x k) = andThen x fun a => mapNext g (k a) := by
  cases x <;> rfl

theorem mapNext_ite (g : State → State) (p : Prop) [Decidable p] (x y : Outcome State) :
    mapNext g (if p then x else y) = if p then mapNext g x else mapNext g y := apply_ite ..

section
variable {s : State} {regions : List Region} {c : BitVec 2}

theorem gate_withPages : gate (s.withPages regions c) = gate s := rfl

theorem loadOperand_withPages {n : Nat} {align : Bool} {e : Enc} {len : Nat} {m : Mem}
    (h : SameChecks s regions c .read n align e len (.mem m)) :
    loadOperand (s.withPages regions c) n align e len m = loadOperand s n align e len m := by
  unfold loadOperand
  rw [h m rfl]
  rfl

theorem storeOperand_withPages {n : Nat} {v : XWord} {e : Enc} {len : Nat} {m : Mem}
    (h : SameChecks s regions c .write n false e len (.mem m)) :
    storeOperand (s.withPages regions c) n v e len m = mapNext (·.withPages regions c) (storeOperand s n v e len m) := by
  unfold storeOperand
  rw [h m rfl]
  cases operandFault s .write n false e len m with
  | some f => rfl
  | none =>
    simp only [mapNext_ite]
    rfl

theorem xmmOperand_withPages {n : Nat} {align : Bool} {e : Enc} {len : Nat} {rm : Rm} (h : SameChecks s regions c .read n align e len rm) :
    xmmOperand (s.withPages regions c) n align e len rm = xmmOperand s n align e len rm := by
  cases rm with
  | reg r => rfl
  | mem m => exact loadOperand_withPages h

theorem gprOperand_withPages {n : Nat} {e : Enc} {len : Nat} {rm : Rm} (h : SameChecks s regions c .read n false e len rm) :
    gprOperand (s.withPages regions c) n e len rm = gprOperand s n e len rm := by
  cases rm with
  | reg r => rfl
  | mem m => exact loadOperand_withPages h

theorem writeGprOrMem_withPages {n : Nat} {v : XWord} {e : Enc} {len : Nat} {rm : Rm} (h : SameChecks s regions c .write n false e len rm) :
    writeGprOrMem (s.withPages regions c) n v e len rm = mapNext (·.withPages regions c) (writeGprOrMem s n v e len rm) := by
  cases rm with
  | reg r => rfl
  | mem m => exact storeOperand_withPages h

theorem untilFault_withPages (levels : List FpFlags) : untilFault (s.withPages regions c) levels = untilFault s levels := by
  induction levels with
  | nil => rfl
  | cons f fs ih =>
    simp only [untilFault, ih]
    rfl

theorem faultFlagsOf_withPages (f : FpFlags) (levels : List FpFlags) :
    faultFlagsOf (s.withPages regions c) f levels = faultFlagsOf s f levels := by
  simp only [faultFlagsOf, drawFlags, untilFault_withPages]
  rfl

theorem fpComplete_withPages {t : State} {len : Nat} {dst : Reg} {v : XWord} {f : FpFlags} {levels : List FpFlags} :
    fpComplete (s.withPages regions c) (t.withPages regions c) len dst v f levels =
      mapNext (·.withPages regions c) (fpComplete s t len dst v f levels) := by
  simp only [fpComplete, mapNext_ite, faultFlagsOf_withPages]
  rfl

/-! ### The shapes of the instructions -/

theorem execXmm_withPages {n : Nat} {align : Bool} {e : Enc} {len : Nat} {dst : Reg} {src : Rm} {f : XWord → XWord → XWord}
    (h : SameChecks s regions c .read n align e len src) :
    execXmm (s.withPages regions c) n align e len dst src f = mapNext (·.withPages regions c) (execXmm s n align e len dst src f) := by
  simp only [execXmm, gate_withPages, xmmOperand_withPages h, mapNext_andThen]
  rfl

theorem execRMIG_withPages {n : Nat} {e : Enc} {dst : Reg} {src : Rm} {f : XWord → XWord → XWord}
    (h : SameChecks s regions c .read n false e (len3A e src) src) :
    execRMIG (s.withPages regions c) n e dst src f = mapNext (·.withPages regions c) (execRMIG s n e dst src f) := by
  simp only [execRMIG, gate_withPages, gprOperand_withPages h, mapNext_andThen]
  rfl

theorem execMRIG_withPages {n : Nat} {e : Enc} {dst : Rm} {v : XWord} (h : SameChecks s regions c .write n false e (len3A e dst) dst) :
    execMRIG (s.withPages regions c) n e dst v = mapNext (·.withPages regions c) (execMRIG s n e dst v) := by
  simp only [execMRIG, gate_withPages, writeGprOrMem_withPages h, mapNext_andThen]
  cases writeGprOrMem s n v e (len3A e dst) dst <;> rfl

theorem execPtest_withPages {e : Enc} {dst : Reg} {src : Rm} (h : SameChecks s regions c .read 16 true e (len38 e src) src) :
    execPtest e dst src (s.withPages regions c) = mapNext (·.withPages regions c) (execPtest e dst src s) := by
  simp only [execPtest, gate_withPages, xmmOperand_withPages h, mapNext_andThen]
  rfl

theorem execRound_withPages {n : Nat} {align : Bool} {e : Enc} {dst : Reg} {src : Rm} {imm : Byte} {f : XWord → XWord → XWord × FpFlags}
    (h : SameChecks s regions c .read n align e (len3A e src) src) :
    execRound (s.withPages regions c) n align e dst src imm f = mapNext (·.withPages regions c) (execRound s n align e dst src imm f) := by
  simp only [execRound, gate_withPages, xmmOperand_withPages h, mapNext_andThen, mapNext_ite, ← fpComplete_withPages]
  rfl

theorem execDpps_withPages {e : Enc} {dst : Reg} {src : Rm} {imm : Byte} (h : SameChecks s regions c .read 16 true e (len3A e src) src) :
    execDpps e dst src imm (s.withPages regions c) = mapNext (·.withPages regions c) (execDpps e dst src imm s) := by
  simp only [execDpps, gate_withPages, xmmOperand_withPages h, mapNext_andThen, ← fpComplete_withPages]
  rfl

theorem execDppd_withPages {e : Enc} {dst : Reg} {src : Rm} {imm : Byte} (h : SameChecks s regions c .read 16 true e (len3A e src) src) :
    execDppd e dst src imm (s.withPages regions c) = mapNext (·.withPages regions c) (execDppd e dst src imm s) := by
  simp only [execDppd, gate_withPages, xmmOperand_withPages h, mapNext_andThen, ← fpComplete_withPages]
  rfl

/-- Where the checks of its operand find the same, an instruction answers the same. -/
theorem exec_withPages {i : Instr} (h : SameChecks s regions c (if i.excClass.stores then .write else .read) i.memBytes
      i.excClass.aligned16 i.operands.enc i.len i.operands.rm) :
    exec i (s.withPages regions c) = mapNext (·.withPages regions c) (exec i s) := by
  cases i
  case pinsrb | pinsrd => exact execRMIG_withPages h
  case pinsrq e d x im =>
    simp only [exec, execPinsrq, mapNext_ite, ← execRMIG_withPages (n := 8) (e := e) (src := x) h]
    rfl
  case extractps | pextrb | pextrw | pextrd => exact execMRIG_withPages h
  case pextrq e d x im =>
    simp only [exec, execPextrq, mapNext_ite, ← execMRIG_withPages (n := 8) (e := e) (dst := d) h]
    rfl
  case dpps => exact execDpps_withPages h
  case dppd => exact execDppd_withPages h
  case ptest => exact execPtest_withPages h
  case roundps | roundpd | roundss | roundsd =>
    simp only [exec, execRoundps, execRoundpd, execRoundss, execRoundsd]
    exact execRound_withPages h
  case mpsadbw | insertps | blendps | blendpd | pblendw =>
    simp only [exec, execMpsadbw, execInsertps, execBlendps, execBlendpd, execPblendw, execRMI]
    exact execXmm_withPages h
  case pmovsxbw | pmovzxbw | pmovsxbd | pmovzxbd | pmovsxwd | pmovzxwd | pmovsxbq | pmovzxbq | pmovsxwq | pmovzxwq | pmovsxdq | pmovzxdq =>
    simp only [exec, execPmovsxbw, execPmovzxbw, execPmovsxbd, execPmovzxbd, execPmovsxwd, execPmovzxwd, execPmovsxbq, execPmovzxbq,
      execPmovsxwq, execPmovzxwq, execPmovsxdq, execPmovzxdq, execRM]
    exact execXmm_withPages h
  case pminsb | pminuw | pminsd | pminud | pmaxsb | pmaxuw | pmaxsd | pmaxud =>
    simp only [exec, execPminsb, execPminuw, execPminsd, execPminud, execPmaxsb, execPmaxuw, execPmaxsd, execPmaxud, execRM]
    exact execXmm_withPages h
  case phminposuw | pmuldq | pmulld | packusdw | pcmpeqq | blendvps | blendvpd | pblendvb | movntdqa =>
    simp only [exec, execPhminposuw, execPmuldq, execPmulld, execPackusdw, execPcmpeqq, execBlendvps, execBlendvpd, execPblendvb,
      execMovntdqa, execRM]
    exact execXmm_withPages h

end

/-! ## The memory types (20_memory.md R48, D8) -/

theorem State.retype_eq_withPages (s : State) (g : Region → MemType) :
    s.retype g = s.withPages (s.mapped.map fun r => { r with memType := g r }) s.cpl := rfl

/-- The region that decides is the retyped one, which has the permissions it had. -/
theorem pageError_retype (s : State) (g : Region → MemType) (acc : Access) (a : Nat) :
    pageError (s.retype g) acc a = pageError s acc a := by
  have hfind : (s.retype g).mapped.find? (·.holds a) = (s.mapped.find? (·.holds a)).map fun r => { r with memType := g r } :=
    List.find?_map
  unfold pageError
  rw [hfind]
  cases s.mapped.find? (·.holds a) <;> rfl

theorem firstPageError_retype (s : State) (g : Region → MemType) (acc : Access) (a n : Nat) :
    firstPageError (s.retype g) acc a n = firstPageError s acc a n := by
  induction n generalizing a with
  | zero => rfl
  | succ n ih => simp only [firstPageError, pageError_retype, ih]

theorem fetchBytes_retype (s : State) (g : Region → MemType) (n a : Nat) : fetchBytes (s.retype g) n a = fetchBytes s n a := by
  induction n generalizing a with
  | zero => rfl
  | succ n ih =>
    simp only [fetchBytes, pageError_retype, ih]
    rfl

theorem fetchInstr_retype (s : State) (g : Region → MemType) : fetchInstr (s.retype g) = fetchInstr s := by
  unfold fetchInstr
  simp only [fetchBytes_retype]
  rfl

/-- No check of an operand reads a memory type. -/
theorem operandFault_retype (s : State) (g : Region → MemType) (acc : Access) (n : Nat) (align : Bool) (e : Enc) (len : Nat) (m : Mem) :
    operandFault (s.retype g) acc n align e len m = operandFault s acc n align e len m := by
  unfold operandFault
  simp only [firstPageError_retype]
  rfl

/-- An instruction of the retyped machine answers as it does, retyped: it does not write the regions. -/
theorem exec_retype (i : Instr) (s : State) (g : Region → MemType) : exec i (s.retype g) = mapNext (fun t => t.retype g) (exec i s) := by
  rw [State.retype_eq_withPages, exec_withPages fun m _ => operandFault_retype s g ..]
  cases h : exec i s with
  | next t =>
    obtain ⟨-, -, heff⟩ := exec_next h
    simp only [mapNext, State.retype_eq_withPages, heff.systemSame.mapped, heff.systemSame.cpl]
  | fault | refused => rfl

/-- Settles O22: neither the fetch nor the meanings read a memory type. -/
theorem memoryTypeDoesNotMatter : Obligations.MemoryTypeDoesNotMatter := by
  unfold Obligations.MemoryTypeDoesNotMatter
  intro s g
  simp only [step, fetchInstr_retype, exec_retype, mapNext_andThen]

end Sys2Proof.Machine
namespace Sys2Proof

/-! ## The fields of bytes and register numbers (30_encoding.md R64 to R67) -/

section
variable (hi : BitVec 2) (mid lo : BitVec 3)

@[simp] theorem fieldByte_hi : (fieldByte hi mid lo).extractLsb' 6 2 = hi := by
  revert hi mid lo; decide

@[simp] theorem fieldByte_mid : (fieldByte hi mid lo).extractLsb' 3 3 = mid := by
  revert hi mid lo; decide

@[simp] theorem fieldByte_lo : (fieldByte hi mid lo).extractLsb' 0 3 = lo := by
  revert hi mid lo; decide

end

/-- A byte is made of its three fields. -/
theorem fieldByte_extract : ∀ b : Byte, fieldByte (b.extractLsb' 6 2) (b.extractLsb' 3 3) (b.extractLsb' 0 3) = b := by
  decide

/-- A REX byte is `4` above its four bits. -/
theorem rexByte_extract : ∀ b : Byte, b.extractLsb' 4 4 = 4#4 → 4#4 ++ b.extractLsb' 0 4 = b := by
  decide

@[simp] theorem mkReg_regHigh_regLow : ∀ r : Reg, mkReg (regHigh r) (regLow r) = r := by
  decide

@[simp] theorem regHigh_mkReg : ∀ (h : Bool) (l : BitVec 3), regHigh (mkReg h l) = h := by
  decide

@[simp] theorem regLow_mkReg : ∀ (h : Bool) (l : BitVec 3), regLow (mkReg h l) = l := by
  decide

/-- The register of a REX bit and a field is `r` exactly when these are the two parts of `r`. -/
theorem mkReg_eq_iff {h : Bool} {l : BitVec 3} {r : Reg} : mkReg h l = r ↔ regHigh r = h ∧ regLow r = l := by
  constructor
  · rintro rfl
    simp
  · rintro ⟨rfl, rfl⟩
    simp

/-! ## The legacy bytes (30_encoding.md R61 to R63, R84 step 1) -/

theorem segOf_byte (g : SegOverride) : segOf g.byte = some g := by
  cases g <;> rfl

/-- A byte is a segment override exactly when it is the override's byte. -/
theorem segOf_eq_some : ∀ {b : Byte} {g : SegOverride}, segOf b = some g ↔ b = g.byte := by
  have sound : ∀ b : Byte, ∀ g ∈ segOf b, b = g.byte := by decide
  intro b g
  exact ⟨fun h => sound b g h, fun h => by rw [h, segOf_byte]⟩

theorem SegOverride.byte_injective : Function.Injective SegOverride.byte := fun g h e => by
  simpa only [segOf_byte, Option.some.injEq] using congrArg segOf e

section
variable (g : SegOverride)

@[simp] theorem SegOverride.ne_byte_66 : 0x66#8 ≠ g.byte := by cases g <;> decide
@[simp] theorem SegOverride.ne_byte_67 : 0x67#8 ≠ g.byte := by cases g <;> decide
@[simp] theorem SegOverride.ne_byte_F0 : 0xF0#8 ≠ g.byte := by cases g <;> decide

end

theorem SameGroup.symm {b c : Byte} (h : SameGroup b c) : SameGroup c b := by
  rcases h with h | ⟨g, k, hb, hc⟩
  · exact .inl h.symm
  · exact .inr ⟨k, g, hc, hb⟩

/-- The legacy bytes a scan has seen, in the order segment override, `67`, `66`, LOCK. -/
def Legacy.bytes (p : Legacy) : List Byte :=
  (p.seg.map SegOverride.byte).toList ++ (if p.addr32 then [0x67#8] else []) ++ (if p.has66 then [0x66#8] else []) ++
    (if p.lock then [0xF0#8] else [])

/-- Where a scan of legacy bytes starts: none seen. -/
abbrev Legacy.empty : Legacy := ⟨none, false, false, false⟩

/-- What a scan of the legacy bytes of an instruction ends with. -/
abbrev Enc.scanned (e : Enc) (lock : Bool) : Legacy := ⟨e.seg, e.addr32, true, lock⟩

theorem Enc.bytes_scanned (e : Enc) : (e.scanned false).bytes = e.legacy := by
  simp [Legacy.bytes, Enc.legacy]

theorem Enc.bytes_scanned_lock (e : Enc) : (e.scanned true).bytes.Perm (0xF0#8 :: e.legacy) := by
  simp only [Legacy.bytes, Enc.legacy, if_true]
  exact List.perm_append_singleton ..

theorem Legacy.mem_bytes {p : Legacy} {c : Byte} : c ∈ p.bytes ↔
    (∃ g, p.seg = some g ∧ c = g.byte) ∨ (p.addr32 = true ∧ c = 0x67) ∨ (p.has66 = true ∧ c = 0x66) ∨ (p.lock = true ∧ c = 0xF0) := by
  simp only [Legacy.bytes, List.mem_append, Option.mem_toList, Option.map_eq_some_iff, List.mem_ite_nil_right, List.mem_singleton,
    or_assoc, eq_comm (a := c)]
  rfl

/-- The group of a byte that is no segment override is the byte alone. -/
theorem sameGroup_iff_eq {b c : Byte} (h : ∀ g : SegOverride, b ≠ g.byte) : SameGroup b c ↔ b = c := by
  constructor
  · rintro (h | ⟨g, _, hg, -⟩)
    · exact h
    · exact absurd hg (h g)
  · exact .inl

theorem not_sameGroup {b c : Byte} (hc : ∀ g : SegOverride, c ≠ g.byte) (hne : b ≠ c) : ¬ SameGroup b c := fun h =>
  hne ((sameGroup_iff_eq hc).mp h.symm).symm

/-- A byte of the group of `b` has been seen. -/
def Legacy.Seen (p : Legacy) (b : Byte) : Prop := ∃ c ∈ p.bytes, SameGroup b c

section
variable {p q : Legacy}

theorem Legacy.seen_iff_mem {b : Byte} (h : ∀ g : SegOverride, b ≠ g.byte) : p.Seen b ↔ b ∈ p.bytes := by
  simp only [Legacy.Seen, sameGroup_iff_eq h, exists_eq_right']

theorem Legacy.seen_66 : p.Seen 0x66 ↔ p.has66 = true := by
  rw [Legacy.seen_iff_mem (b := 0x66) SegOverride.ne_byte_66, Legacy.mem_bytes]
  simp

theorem Legacy.seen_67 : p.Seen 0x67 ↔ p.addr32 = true := by
  rw [Legacy.seen_iff_mem (b := 0x67) SegOverride.ne_byte_67, Legacy.mem_bytes]
  simp

theorem Legacy.seen_F0 : p.Seen 0xF0 ↔ p.lock = true := by
  rw [Legacy.seen_iff_mem (b := 0xF0) SegOverride.ne_byte_F0, Legacy.mem_bytes]
  simp

theorem Legacy.byte_mem_bytes {g : SegOverride} : g.byte ∈ p.bytes ↔ p.seg = some g := by
  rw [Legacy.mem_bytes]
  simp [(SegOverride.ne_byte_66 g).symm, (SegOverride.ne_byte_67 g).symm, (SegOverride.ne_byte_F0 g).symm,
    SegOverride.byte_injective.eq_iff]

theorem Legacy.seen_seg (g : SegOverride) : p.Seen g.byte ↔ p.seg.isSome = true := by
  constructor
  · rintro ⟨c, hc, rfl | ⟨_, k, -, rfl⟩⟩ <;> simp [Legacy.byte_mem_bytes.mp hc]
  · intro h
    obtain ⟨k, hk⟩ := Option.isSome_iff_exists.mp h
    exact ⟨k.byte, Legacy.byte_mem_bytes.mpr hk, .inr ⟨g, k, rfl, rfl⟩⟩

/-- The bytes seen, in whatever order, determine the scan's record. -/
theorem Legacy.eq_of_perm (h : p.bytes.Perm q.bytes) : p = q := by
  have hseen : ∀ b, p.Seen b ↔ q.Seen b := fun b => by simp only [Legacy.Seen, h.mem_iff]
  have hseg : p.seg = q.seg := Option.ext fun g => by rw [← byte_mem_bytes, ← byte_mem_bytes, h.mem_iff]
  have h67 : p.addr32 = q.addr32 := Bool.eq_iff_iff.mpr (by rw [← seen_67, ← seen_67, hseen])
  have h66 : p.has66 = q.has66 := Bool.eq_iff_iff.mpr (by rw [← seen_66, ← seen_66, hseen])
  have hF0 : p.lock = q.lock := Bool.eq_iff_iff.mpr (by rw [← seen_F0, ← seen_F0, hseen])
  exact (Legacy.mk.injEq ..).mpr ⟨hseg, h67, h66, hF0⟩

end

/-! ### One byte of the scan -/

section
variable {md : Mode} {p : Legacy} {bs : List Byte}

theorem scanLegacy_66 : scanLegacy md p (0x66 :: bs) =
    if p.has66 then .error .duplicateLegacy else scanLegacy md { p with has66 := true } bs := rfl

theorem scanLegacy_67 : scanLegacy md p (0x67 :: bs) =
    if md ≠ .mode64 then .error .addr16
    else if p.addr32 then .error .duplicateLegacy else scanLegacy md { p with addr32 := true } bs := rfl

theorem scanLegacy_F0 : scanLegacy md p (0xF0 :: bs) =
    if p.lock then .error .duplicateLegacy else scanLegacy md { p with lock := true } bs := rfl

theorem scanLegacy_seg (g : SegOverride) : scanLegacy md p (g.byte :: bs) =
    if p.seg.isSome then .error .duplicateLegacy else scanLegacy md { p with seg := some g } bs := by
  cases g <;> rfl

theorem scanLegacy_F2 : scanLegacy md p (0xF2 :: bs) = .error .repeatByte := rfl

theorem scanLegacy_F3 : scanLegacy md p (0xF3 :: bs) = .error .repeatByte := rfl

/-- Any other byte ends the scan. -/
theorem scanLegacy_stop {b : Byte} (h66 : b ≠ 0x66#8) (h67 : b ≠ 0x67#8) (hF0 : b ≠ 0xF0#8) (hF2 : b ≠ 0xF2#8)
    (hF3 : b ≠ 0xF3#8) (hseg : segOf b = none) : scanLegacy md p (b :: bs) = .ok (p, b :: bs) := by
  rw [scanLegacy, if_neg h66, if_neg h67, if_neg hF0, if_neg (not_or.mpr ⟨hF2, hF3⟩), hseg]

/-- A second byte of a group is refused. -/
theorem scanLegacy_of_seen {b : Byte} (hb : LegacyByte md b) (h : p.Seen b) : scanLegacy md p (b :: bs) = .error .duplicateLegacy := by
  rcases hb with rfl | rfl | ⟨rfl, hmd⟩ | ⟨g, rfl⟩
  · rw [scanLegacy_66, if_pos (Legacy.seen_66.mp h)]
  · rw [scanLegacy_F0, if_pos (Legacy.seen_F0.mp h)]
  · rw [scanLegacy_67, if_neg (not_not.mpr hmd), if_pos (Legacy.seen_67.mp h)]
  · rw [scanLegacy_seg, if_pos ((Legacy.seen_seg g).mp h)]

/-- The first byte of a group is added to those seen. -/
theorem scanLegacy_of_not_seen {b : Byte} (hb : LegacyByte md b) (h : ¬ p.Seen b) :
    ∃ q : Legacy, q.bytes.Perm (b :: p.bytes) ∧ ∀ bs, scanLegacy md p (b :: bs) = scanLegacy md q bs := by
  rcases hb with rfl | rfl | ⟨rfl, hmd⟩ | ⟨g, rfl⟩
  · rw [Legacy.seen_66, Bool.not_eq_true] at h
    refine ⟨{ p with has66 := true }, ?_, fun bs => by rw [scanLegacy_66, if_neg (by simp [h])]⟩
    simpa [Legacy.bytes, h] using List.perm_middle (l₁ := (p.seg.map SegOverride.byte).toList ++ if p.addr32 then [0x67#8] else [])
  · rw [Legacy.seen_F0, Bool.not_eq_true] at h
    refine ⟨{ p with lock := true }, ?_, fun bs => by rw [scanLegacy_F0, if_neg (by simp [h])]⟩
    simp only [Legacy.bytes, h, if_true, Bool.false_eq_true, if_false, List.append_nil]
    exact List.perm_append_singleton ..
  · rw [Legacy.seen_67, Bool.not_eq_true] at h
    refine ⟨{ p with addr32 := true }, ?_, fun bs => by rw [scanLegacy_67, if_neg (not_not.mpr hmd), if_neg (by simp [h])]⟩
    simp [Legacy.bytes, h]
  · rw [Legacy.seen_seg, Option.not_isSome_iff_eq_none] at h
    refine ⟨{ p with seg := some g }, ?_, fun bs => by rw [scanLegacy_seg, if_neg (by simp [h])]⟩
    simp [Legacy.bytes, h]

end

/-! ### A run of legacy bytes -/

theorem LegacyRun.perm {md : Mode} {l k : List Byte} (h : LegacyRun md l) (hp : l.Perm k) : LegacyRun md k := by
  obtain ⟨hbytes, hgroups⟩ := h
  exact ⟨fun b hb => hbytes b (hp.mem_iff.mpr hb), (hp.pairwise_iff fun hn hs => hn hs.symm).mp hgroups⟩

theorem LegacyRun.sublist {md : Mode} {l k : List Byte} (h : LegacyRun md k) (hs : l.Sublist k) : LegacyRun md l :=
  ⟨fun b hb => h.1 b (hs.subset hb), h.2.sublist hs⟩

/-- A run may be led by a byte of a group that has not been seen. -/
theorem legacyRun_cons {md : Mode} {p : Legacy} {b : Byte} :
    LegacyRun md (b :: p.bytes) ↔ LegacyByte md b ∧ ¬ p.Seen b ∧ LegacyRun md p.bytes := by
  simp only [LegacyRun, Legacy.Seen, List.forall_mem_cons, List.pairwise_cons, not_exists, not_and]
  tauto

/-- The bytes of a record are a run in every mode that has them. -/
theorem Legacy.legacyRun_bytes {md : Mode} {p : Legacy} (h : p.addr32 = true → md = .mode64) : LegacyRun md p.bytes := by
  constructor
  · intro b hb
    rcases Legacy.mem_bytes.mp hb with ⟨g, -, rfl⟩ | ⟨ha, rfl⟩ | ⟨-, rfl⟩ | ⟨-, rfl⟩
    · exact .inr (.inr (.inr ⟨g, rfl⟩))
    · exact .inr (.inr (.inl ⟨rfl, h ha⟩))
    · exact .inl rfl
    · exact .inr (.inl rfl)
  · have hseg : ∀ g : SegOverride, ¬ SameGroup g.byte 0x67#8 ∧ ¬ SameGroup g.byte 0x66#8 ∧ ¬ SameGroup g.byte 0xF0#8 := fun g =>
      ⟨not_sameGroup SegOverride.ne_byte_67 (SegOverride.ne_byte_67 g).symm,
        not_sameGroup SegOverride.ne_byte_66 (SegOverride.ne_byte_66 g).symm,
        not_sameGroup SegOverride.ne_byte_F0 (SegOverride.ne_byte_F0 g).symm⟩
    have h67 : ¬ SameGroup 0x67#8 0x66#8 ∧ ¬ SameGroup 0x67#8 0xF0#8 :=
      ⟨not_sameGroup SegOverride.ne_byte_66 (by decide), not_sameGroup SegOverride.ne_byte_F0 (by decide)⟩
    have h66 : ¬ SameGroup 0x66#8 0xF0#8 := not_sameGroup SegOverride.ne_byte_F0 (by decide)
    obtain ⟨seg, a, m, k⟩ := p
    unfold Legacy.bytes
    cases seg <;> split_ifs <;> simp [hseg, h67, h66]

/-- The scan passes a run of legacy bytes whose groups have not been seen, and records it. -/
theorem scanLegacy_append {md : Mode} {l : List Byte} {p : Legacy} (h : LegacyRun md (l ++ p.bytes)) :
    ∃ q : Legacy, q.bytes.Perm (l ++ p.bytes) ∧ ∀ bs, scanLegacy md p (l ++ bs) = scanLegacy md q bs := by
  induction l generalizing p with
  | nil => exact ⟨p, .refl _, fun _ => rfl⟩
  | cons b l ih =>
    have hb : LegacyRun md (b :: p.bytes) := h.sublist ((List.sublist_append_right l p.bytes).cons_cons b)
    obtain ⟨hlegacy, hnew, -⟩ := legacyRun_cons.mp hb
    obtain ⟨q, hq, hstep⟩ := scanLegacy_of_not_seen hlegacy hnew
    have hperm : (l ++ q.bytes).Perm (b :: l ++ p.bytes) := (hq.append_left l).trans List.perm_middle
    obtain ⟨r, hr, hscan⟩ := ih (h.perm hperm.symm)
    exact ⟨r, hr.trans hperm, fun bs => (hstep _).trans (hscan bs)⟩

theorem Legacy.append_bytes_empty (l : List Byte) : l ++ Legacy.empty.bytes = l := List.append_nil l

/-- The scan of a run from the start records exactly its bytes. -/
theorem scanLegacy_run {md : Mode} {l : List Byte} {q : Legacy} (hl : LegacyRun md l) (hq : q.bytes.Perm l) (bs : List Byte) :
    scanLegacy md .empty (l ++ bs) = scanLegacy md q bs := by
  obtain ⟨r, hr, hscan⟩ := scanLegacy_append (p := .empty) ((Legacy.append_bytes_empty l).symm ▸ hl)
  rw [Legacy.append_bytes_empty] at hr
  rw [hscan, Legacy.eq_of_perm (hr.trans hq.symm)]

/-- A scan that goes on past a byte has met a legacy byte of a new group; otherwise it ends before the byte. -/
theorem scanLegacy_cons_eq_ok {md : Mode} {p q : Legacy} {b : Byte} {bs rest : List Byte} (h : scanLegacy md p (b :: bs) = .ok (q, rest)) :
    (LegacyByte md b ∧ ¬ p.Seen b) ∨ (q = p ∧ rest = b :: bs) := by
  by_cases hb : LegacyByte md b
  · refine .inl ⟨hb, fun hs => ?_⟩
    rw [scanLegacy_of_seen hb hs] at h
    cases h
  · simp only [LegacyByte, not_or, not_and, not_exists] at hb
    obtain ⟨h66, hF0, h67, hseg⟩ := hb
    have hnone : segOf b = none := Option.eq_none_iff_forall_ne_some.mpr fun g hg => hseg g (segOf_eq_some.mp hg)
    by_cases b67 : b = 0x67
    · rw [b67, scanLegacy_67, if_pos (h67 b67)] at h
      cases h
    by_cases bF2 : b = 0xF2
    · rw [bF2, scanLegacy_F2] at h
      cases h
    by_cases bF3 : b = 0xF3
    · rw [bF3, scanLegacy_F3] at h
      cases h
    rw [scanLegacy_stop h66 b67 hF0 bF2 bF3 hnone] at h
    cases h
    exact .inr ⟨rfl, rfl⟩

/-- INVERSION: what a scan has passed are the bytes it has recorded. -/
theorem scanLegacy_eq_ok {md : Mode} {p q : Legacy} {bs rest : List Byte} (hp : LegacyRun md p.bytes)
    (h : scanLegacy md p bs = .ok (q, rest)) : LegacyRun md q.bytes ∧ ∃ l, bs = l ++ rest ∧ q.bytes.Perm (l ++ p.bytes) := by
  induction bs generalizing p with
  | nil => cases h
  | cons b bs ih =>
    rcases scanLegacy_cons_eq_ok h with ⟨hlegacy, hnew⟩ | ⟨rfl, rfl⟩
    · obtain ⟨r, hr, hstep⟩ := scanLegacy_of_not_seen hlegacy hnew
      have hrun : LegacyRun md r.bytes := (legacyRun_cons.mpr ⟨hlegacy, hnew, hp⟩).perm hr.symm
      obtain ⟨hq, l, rfl, hperm⟩ := ih hrun ((hstep bs).symm.trans h)
      exact ⟨hq, b :: l, rfl, hperm.trans ((hr.append_left l).trans List.perm_middle)⟩
    · exact ⟨hp, [], rfl, .refl _⟩

/-- The scan ends at a REX byte or an escape. -/
theorem scanLegacy_rexBytes (md : Mode) (p : Legacy) (e : Enc) (bs : List Byte) :
    scanLegacy md p (e.rexBytes ++ 0x0F#8 :: bs) = .ok (p, e.rexBytes ++ 0x0F#8 :: bs) := by
  have stops : ∀ r : BitVec 4, 4#4 ++ r ≠ 0x66#8 ∧ 4#4 ++ r ≠ 0x67#8 ∧ 4#4 ++ r ≠ 0xF0#8 ∧ 4#4 ++ r ≠ 0xF2#8 ∧ 4#4 ++ r ≠ 0xF3#8 ∧
      segOf (4#4 ++ r) = none := by decide
  unfold Enc.rexBytes
  cases e.rex with
  | none => rfl
  | some r =>
    obtain ⟨h66, h67, hF0, hF2, hF3, hseg⟩ := stops r
    exact scanLegacy_stop h66 h67 hF0 hF2 hF3 hseg

/-! ## REX and the key (30_encoding.md R64, R75, R76, R84 steps 2 to 4) -/

theorem scanRex_rexBytes {md : Mode} {e : Enc} (h : e.rex.isSome = true → md = .mode64) (bs : List Byte) :
    scanRex md (e.rexBytes ++ 0x0F#8 :: bs) = (e.rex, 0x0F#8 :: bs) := by
  have parts : ∀ r : BitVec 4, (4#4 ++ r).extractLsb' 4 4 = 4#4 ∧ (4#4 ++ r).extractLsb' 0 4 = r := by decide
  unfold Enc.rexBytes
  cases hr : e.rex with
  | none => exact if_neg fun hrex => absurd hrex.2 (by decide)
  | some r =>
    obtain ⟨htag, hbits⟩ := parts r
    refine (if_pos ⟨h (by rw [hr]; rfl), htag⟩).trans ?_
    rw [hbits]
    rfl

/-- INVERSION: the bits that are read are those of a REX byte at the head. -/
theorem scanRex_eq {md : Mode} {e : Enc} {bs rest : List Byte} (h : scanRex md bs = (e.rex, rest)) :
    bs = e.rexBytes ++ rest ∧ (e.rex.isSome = true → md = .mode64) := by
  unfold Enc.rexBytes
  cases bs with
  | nil =>
    obtain ⟨hrex, rfl⟩ := Prod.mk.inj h
    rw [← hrex]
    exact ⟨rfl, nofun⟩
  | cons b bs =>
    rw [scanRex] at h
    split_ifs at h with htag
    · obtain ⟨hrex, rfl⟩ := Prod.mk.inj h
      rw [← hrex]
      exact ⟨congrArg (· :: _) (rexByte_extract b htag.2).symm, fun _ => htag.1⟩
    · obtain ⟨hrex, rfl⟩ := Prod.mk.inj h
      rw [← hrex]
      exact ⟨rfl, nofun⟩

/-- The key is read from the escape and the opcode byte, and from nothing else. -/
theorem scanKey_eq_ok {bs rest : List Byte} {m : OpMap} {op : Byte} :
    scanKey bs = .ok (m, op, rest) ↔ bs = 0x0F#8 :: m.escape :: op :: rest := by
  constructor
  · intro h
    match bs with
    | [] => cases h
    | [b] | [b, _] =>
      rw [scanKey] at h
      · split_ifs at h
      · simp
    | b :: esc :: op' :: bs =>
      rw [scanKey] at h
      split_ifs at h with hb h38 h3A
      · cases h
        rw [not_not.mp hb, h38]
        rfl
      · cases h
        rw [not_not.mp hb, h3A]
        rfl
  · rintro rfl
    cases m <;> rfl

/-! ## Displacements (30_encoding.md R67) -/

/-- The bytes of a doubleword are its four parts, lowest first. -/
theorem bytes32_append (b3 b2 b1 b0 : Byte) : bytes32 (b3 ++ b2 ++ b1 ++ b0) = [b0, b1, b2, b3] := by
  have h0 : (b3 ++ b2 ++ b1 ++ b0).extractLsb' 0 8 = b0 := BitVec.extractLsb'_append_eq_right
  have h1 : (b3 ++ b2 ++ b1 ++ b0).extractLsb' 8 8 = b1 :=
    (BitVec.extractLsb'_append_eq_of_le (by decide)).trans BitVec.extractLsb'_append_eq_right
  have h2 : (b3 ++ b2 ++ b1 ++ b0).extractLsb' 16 8 = b2 :=
    (BitVec.extractLsb'_append_eq_of_le (by decide)).trans
      ((BitVec.extractLsb'_append_eq_of_le (by decide)).trans BitVec.extractLsb'_append_eq_right)
  have h3 : (b3 ++ b2 ++ b1 ++ b0).extractLsb' 24 8 = b3 :=
    (BitVec.extractLsb'_append_eq_of_le (by decide)).trans
      ((BitVec.extractLsb'_append_eq_of_le (by decide)).trans BitVec.extractLsb'_append_eq_left)
  exact List.cons_eq_cons.mpr ⟨h0, List.cons_eq_cons.mpr ⟨h1, List.cons_eq_cons.mpr ⟨h2, List.cons_eq_cons.mpr ⟨h3, rfl⟩⟩⟩⟩

/-- A doubleword is made of its four bytes. -/
theorem append_bytes32 (d : BitVec 32) :
    d.extractLsb' 24 8 ++ d.extractLsb' 16 8 ++ d.extractLsb' 8 8 ++ d.extractLsb' 0 8 = d := by
  rw [BitVec.extractLsb'_append_extractLsb'_eq_extractLsb' (by rfl), BitVec.extractLsb'_append_extractLsb'_eq_extractLsb' (by rfl),
    BitVec.extractLsb'_append_extractLsb'_eq_extractLsb' (by rfl)]
  exact BitVec.extractLsb'_eq_self

@[simp] theorem take32_bytes32 (d : BitVec 32) (rest : List Byte) : take32 (bytes32 d ++ rest) = .ok (d, rest) :=
  congrArg (fun x => Except.ok (x, rest)) (append_bytes32 d)

theorem take32_eq_ok {bs rest : List Byte} {d : BitVec 32} : take32 bs = .ok (d, rest) ↔ bs = bytes32 d ++ rest := by
  constructor
  · intro h
    match bs with
    | [] | [_] | [_, _] | [_, _, _] => cases h
    | b0 :: b1 :: b2 :: b3 :: bs =>
      cases h
      rw [bytes32_append]
      rfl
  · rintro rfl
    exact take32_bytes32 d rest

theorem Disp.md_ne_three (d : Disp) : d.md ≠ 3#2 := by
  cases d <;> simp [Disp.md]

/-- A displacement is read where ModR/M.mod is its width and its bytes are at the head. -/
theorem takeDisp_eq_ok {md : BitVec 2} {bs rest : List Byte} {d : Disp} (h3 : md ≠ 3#2) :
    takeDisp md bs = .ok (d, rest) ↔ d.md = md ∧ bs = d.encode ++ rest := by
  constructor
  · intro h
    unfold takeDisp at h
    split_ifs at h with h0 h1
    · cases h
      exact ⟨h0.symm, rfl⟩
    · cases bs with
      | nil => cases h
      | cons b bs =>
        cases h
        exact ⟨h1.symm, rfl⟩
    · have h2 : ∀ md : BitVec 2, md ≠ 0#2 → md ≠ 1#2 → md ≠ 3#2 → 2 = md := by decide
      cases ht : take32 bs with
      | error x =>
        rw [ht] at h
        cases h
      | ok r =>
        rw [ht] at h
        cases h
        exact ⟨h2 md h0 h1 h3, take32_eq_ok.mp ht⟩
  · rintro ⟨rfl, rfl⟩
    cases d with
    | none | d8 => rfl
    | d32 d => simp [takeDisp, Disp.md, Disp.encode]

/-! ## Memory operands and ModR/M (30_encoding.md R65, R66, R84 step 5) -/

/-- No bytes of displacement is what mod 00 calls for. -/
theorem Disp.md_eq_zero {d : Disp} : d.md = 0#2 ↔ d = .none := by
  cases d <;> simp [Disp.md]

/-- The index of a field is `i` exactly when `i` is one that REX.X admits and the field is its own. -/
theorem indexOf_eq_iff {e : Enc} {f : BitVec 3} {i : Option Reg} : indexOf e f = i ↔ e.indexOk i = true ∧ indexField i = f := by
  unfold indexOf
  cases i with
  | none =>
    have h4 : mkReg e.rexX f = 4 ↔ false = e.rexX ∧ 4 = f := mkReg_eq_iff
    simp [Enc.indexOk, indexField, h4]
  | some r =>
    simp only [Enc.indexOk, indexField, Bool.and_eq_true, beq_iff_eq, bne_iff_ne]
    constructor
    · intro h
      split_ifs at h with h4
      obtain ⟨hx, hf⟩ := mkReg_eq_iff.mp (Option.some.inj h)
      exact ⟨⟨hx, Option.some.inj h ▸ h4⟩, hf⟩
    · rintro ⟨⟨hx, h4⟩, hf⟩
      rw [mkReg_eq_iff.mpr ⟨hx, hf⟩, if_neg h4]

/-- ModR/M.mod of a memory operand. -/
def Mem.mod : Mem → BitVec 2
  | .base _ d | .sib _ _ _ d => d.md
  | .sibNoBase .. | .disp32 _ => 0

/-- ModR/M.rm of a memory operand. -/
def Mem.rmField : Mem → BitVec 3
  | .base b _ => regLow b
  | .sib .. | .sibNoBase .. => 4
  | .disp32 _ => 5

/-- The bytes of a memory operand behind ModR/M. -/
def Mem.tail : Mem → List Byte
  | .base _ d => d.encode
  | .sib b s i d => fieldByte s (indexField i) (regLow b) :: d.encode
  | .sibNoBase s i d => fieldByte s (indexField i) 5 :: bytes32 d
  | .disp32 d => bytes32 d

theorem Rm.encode_mem (reg : Reg) (m : Mem) : Rm.encode reg (.mem m) = fieldByte m.mod (regLow reg) m.rmField :: m.tail := by
  cases m <;> rfl

theorem Mem.mod_ne_three (m : Mem) : m.mod ≠ 3#2 := by
  cases m with
  | base _ d | sib _ _ _ d => exact d.md_ne_three
  | sibNoBase | disp32 => simp [Mem.mod]

section
variable {e : Enc}

theorem Mem.wf_base {b : Reg} {d : Disp} :
    (Mem.base b d).wf e = true ↔ regHigh b = e.rexB ∧ regLow b ≠ 4#3 ∧ ¬ (d.md = 0#2 ∧ regLow b = 5#3) := by
  simp only [Mem.wf, Disp.md_eq_zero, Bool.and_eq_true, Bool.or_eq_true, beq_iff_eq, bne_iff_ne, and_assoc, not_and_or]
  rfl

theorem Mem.wf_sib {b : Reg} {s : BitVec 2} {i : Option Reg} {d : Disp} :
    (Mem.sib b s i d).wf e = true ↔ regHigh b = e.rexB ∧ e.indexOk i = true ∧ ¬ (regLow b = 5#3 ∧ d.md = 0#2) := by
  simp only [Mem.wf, Disp.md_eq_zero, Bool.and_eq_true, Bool.or_eq_true, beq_iff_eq, bne_iff_ne, and_assoc, not_and_or,
    or_comm (a := ¬ regLow b = 5#3)]
  rfl

/-- A SIB byte and what follows it is read as `m` exactly when these are the bytes of `m`. -/
theorem scanSib_eq_ok {md : BitVec 2} {bs rest : List Byte} {m : Mem} (h3 : md ≠ 3#2) :
    scanSib e md bs = .ok (m, rest) ↔ m.wf e = true ∧ m.mod = md ∧ m.rmField = 4#3 ∧ bs = m.tail ++ rest := by
  constructor
  · intro h
    match bs with
    | [] => cases h
    | sib :: bs =>
      obtain ⟨hindex, hfield⟩ := indexOf_eq_iff.mp (rfl : indexOf e (sib.extractLsb' 3 3) = _)
      simp only [scanSib] at h
      split_ifs at h with hbase
      · split at h
        · next d rest' ht =>
          cases h
          refine ⟨hindex, hbase.2.symm, rfl, ?_⟩
          rw [Mem.tail, hfield, show (5 : BitVec 3) = _ from hbase.1.symm, fieldByte_extract, take32_eq_ok.mp ht]
          rfl
        · cases h
      · split at h
        · next d rest' ht =>
          cases h
          obtain ⟨hmd, hbytes⟩ := (takeDisp_eq_ok h3).mp ht
          refine ⟨Mem.wf_sib.mpr ⟨regHigh_mkReg .., hindex, ?_⟩, hmd, rfl, ?_⟩
          · rwa [regLow_mkReg, hmd]
          · rw [Mem.tail, hfield, regLow_mkReg, fieldByte_extract, hbytes]
            rfl
        · cases h
  · rintro ⟨hwf, rfl, h4, rfl⟩
    cases m with
    | base b d => exact absurd h4 (Mem.wf_base.mp hwf).2.1
    | sib b s i d =>
      obtain ⟨hb, hi, hbase⟩ := Mem.wf_sib.mp hwf
      have hindex : indexOf e (indexField i) = i := indexOf_eq_iff.mpr ⟨hi, rfl⟩
      have hreg : mkReg e.rexB (regLow b) = b := mkReg_eq_iff.mpr ⟨hb, rfl⟩
      have hdisp : takeDisp d.md (d.encode ++ rest) = .ok (d, rest) := (takeDisp_eq_ok h3).mpr ⟨rfl, rfl⟩
      simp only [Mem.tail, List.cons_append, scanSib, fieldByte_hi, fieldByte_mid, fieldByte_lo, hindex, hreg, Mem.mod]
      rw [if_neg hbase, hdisp]
    | sibNoBase s i d =>
      have hindex : indexOf e (indexField i) = i := indexOf_eq_iff.mpr ⟨hwf, rfl⟩
      simp only [Mem.tail, List.cons_append, scanSib, fieldByte_hi, fieldByte_mid, fieldByte_lo, hindex, Mem.mod]
      simp
    | disp32 d => exact absurd h4 (by simp [Mem.rmField])

/-- A memory operand is read as `m` exactly when mod, rm and the bytes behind ModR/M are those of `m`. -/
theorem scanMem_eq_ok {md : BitVec 2} {rm : BitVec 3} {bs rest : List Byte} {m : Mem} (h3 : md ≠ 3#2) :
    scanMem e md rm bs = .ok (m, rest) ↔ m.wf e = true ∧ m.mod = md ∧ m.rmField = rm ∧ bs = m.tail ++ rest := by
  by_cases h4 : rm = 4#3
  · subst h4
    exact scanSib_eq_ok h3
  unfold scanMem
  rw [if_neg h4]
  constructor
  · intro h
    split_ifs at h with h5
    · split at h
      · next d rest' ht =>
        cases h
        exact ⟨rfl, h5.1.symm, h5.2.symm, take32_eq_ok.mp ht⟩
      · cases h
    · split at h
      · next d rest' ht =>
        cases h
        obtain ⟨rfl, hbytes⟩ := (takeDisp_eq_ok h3).mp ht
        exact ⟨Mem.wf_base.mpr ⟨regHigh_mkReg .., by rwa [regLow_mkReg], by rwa [regLow_mkReg]⟩, rfl, regLow_mkReg .., hbytes⟩
      · cases h
  · rintro ⟨hwf, rfl, rfl, rfl⟩
    cases m with
    | base b d =>
      obtain ⟨hb, -, hdisp⟩ := Mem.wf_base.mp hwf
      have hreg : mkReg e.rexB (regLow b) = b := mkReg_eq_iff.mpr ⟨hb, rfl⟩
      have hbytes : takeDisp d.md (d.encode ++ rest) = .ok (d, rest) := (takeDisp_eq_ok h3).mpr ⟨rfl, rfl⟩
      simp only [Mem.mod, Mem.rmField, Mem.tail, hreg]
      rw [if_neg hdisp, hbytes]
    | sib | sibNoBase => exact absurd rfl h4
    | disp32 d => simp [Mem.mod, Mem.rmField, Mem.tail]

/-- ModR/M and what follows it are read as a register and an operand exactly when these are their bytes. -/
theorem scanModRm_eq_ok {bs rest : List Byte} {reg : Reg} {rm : Rm} :
    scanModRm e bs = .ok (reg, rm, rest) ↔ e.regOk reg = true ∧ rm.wf e = true ∧ bs = rm.encode reg ++ rest := by
  constructor
  · intro h
    match bs with
    | [] => cases h
    | b :: bs =>
      have hreg : e.regOk (mkReg e.rexR (b.extractLsb' 3 3)) = true := by simp [Enc.regOk]
      have hlow := regLow_mkReg e.rexR (b.extractLsb' 3 3)
      simp only [scanModRm] at h
      split_ifs at h with hmd
      · cases h
        refine ⟨hreg, beq_iff_eq.mpr (regHigh_mkReg ..), ?_⟩
        rw [Rm.encode, hlow, regLow_mkReg, show (3 : BitVec 2) = b.extractLsb' 6 2 from hmd.symm, fieldByte_extract]
        rfl
      · split at h
        · next m rest' hm =>
          cases h
          obtain ⟨hwf, hmod, hrm, rfl⟩ := (scanMem_eq_ok hmd).mp hm
          refine ⟨hreg, hwf, ?_⟩
          rw [Rm.encode_mem, hlow, hmod, hrm, fieldByte_extract]
          rfl
        · cases h
  · rintro ⟨hreg, hwf, rfl⟩
    have hreg : mkReg e.rexR (regLow reg) = reg := mkReg_eq_iff.mpr ⟨beq_iff_eq.mp hreg, rfl⟩
    cases rm with
    | reg r =>
      have hr : mkReg e.rexB (regLow r) = r := mkReg_eq_iff.mpr ⟨beq_iff_eq.mp hwf, rfl⟩
      simp [Rm.encode, scanModRm, hreg, hr]
    | mem m =>
      have hm : scanMem e m.mod m.rmField (m.tail ++ rest) = .ok (m, rest) := (scanMem_eq_ok m.mod_ne_three).mpr ⟨hwf, rfl, rfl, rfl⟩
      rw [Rm.encode_mem]
      simp only [List.cons_append, scanModRm, fieldByte_hi, fieldByte_mid, fieldByte_lo, hreg]
      rw [if_neg m.mod_ne_three, hm]

end

/-! ## Rows and keys (30_encoding.md R74 to R79, R84 steps 4 and 6) -/

/-- The instruction has the key, the operands, and no need of another REX.W than `w`. -/
structure Instr.Has (i : Instr) (k : OpKey) (w : Bool) (o : Operands) : Prop where
  key : i.key = k
  operands : i.operands = o
  requiredW : i.requiredW = none ∨ i.requiredW = some w

/-- What a layout builds are instructions of the key with the operands it is given. -/
def Layout.Makes (k : OpKey) (w : Bool) : Layout → Prop
  | .rm mk => ∀ e r x, (mk e r x).Has k w ⟨e, r, x, none⟩
  | .mem mk => ∀ e r m, (mk e r m).Has k w ⟨e, r, .mem m, none⟩
  | .rmi mk => ∀ e r x imm, (mk e r x imm).Has k w ⟨e, r, x, some imm⟩
  | .mri mk => ∀ e r x imm, (mk e x r imm).Has k w ⟨e, r, x, some imm⟩

theorem eq_ofNat_of_toNat {op : Byte} {n : Nat} (h : op.toNat = n) : op = BitVec.ofNat 8 n := by
  rw [← h, BitVec.ofNat_toNat, BitVec.setWidth_eq]

theorem row38_makes {op : Byte} {w : Bool} {lay : Layout} (h : row38 op = some lay) : lay.Makes ⟨.m38, op⟩ w := by
  unfold row38 at h
  split at h
  case h_31 => cases h
  all_goals
    next hop =>
    cases h
    rw [eq_ofNat_of_toNat hop]
    exact fun _ _ _ => ⟨rfl, rfl, .inl rfl⟩

theorem row3A_makes {op : Byte} {w : Bool} {lay : Layout} (h : row3A op w = some lay) : lay.Makes ⟨.m3A, op⟩ w := by
  unfold row3A at h
  split at h
  case h_18 => cases h
  case h_10 hop | h_14 hop =>
    cases h
    rw [eq_ofNat_of_toNat hop]
    cases w <;> exact fun _ _ _ _ => ⟨rfl, rfl, .inr rfl⟩
  all_goals
    next hop =>
    cases h
    rw [eq_ofNat_of_toNat hop]
    exact fun _ _ _ _ => ⟨rfl, rfl, .inl rfl⟩

/-- A row builds instructions of its key. -/
theorem row_makes {m : OpMap} {op : Byte} {w : Bool} {lay : Layout} (h : row m op w = some lay) : lay.Makes ⟨m, op⟩ w := by
  cases m with
  | m38 => exact row38_makes h
  | m3A => exact row3A_makes h

/-- INVERSION: what a layout builds has the operands it was given and the immediate it has taken from the bytes. -/
theorem build_eq_ok {lay : Layout} {k : OpKey} {w : Bool} (hlay : lay.Makes k w) {e : Enc} {reg : Reg} {rm : Rm} {bs rest : List Byte}
    {i : Instr} (h : build lay e reg rm bs = .ok (i, rest)) : ∃ imm, i.Has k w ⟨e, reg, rm, imm⟩ ∧ bs = imm.toList ++ rest := by
  cases lay with
  | rm mk =>
    cases h
    exact ⟨none, hlay e reg rm, rfl⟩
  | mem mk =>
    cases rm with
    | reg r => cases h
    | mem m =>
      cases h
      exact ⟨none, hlay e reg m, rfl⟩
  | rmi mk | mri mk =>
    cases bs with
    | nil => cases h
    | cons imm bs =>
      cases h
      exact ⟨some imm, hlay e reg rm imm, rfl⟩

end Sys2Proof

namespace Sys2Proof.Laws.Rebuild

/-- The family as one statement: every instruction is rebuilt by the row of its key. -/
theorem statement : ∀ i : Instr, Statement i
  | .mpsadbw .. => mpsadbw _ _ _ _ | .phminposuw .. => phminposuw _ _ _ | .pmovsxbw .. => pmovsxbw _ _ _
  | .pmovzxbw .. => pmovzxbw _ _ _ | .pmovsxbd .. => pmovsxbd _ _ _ | .pmovzxbd .. => pmovzxbd _ _ _ | .pmovsxwd .. => pmovsxwd _ _ _
  | .pmovzxwd .. => pmovzxwd _ _ _ | .pmovsxbq .. => pmovsxbq _ _ _ | .pmovzxbq .. => pmovzxbq _ _ _ | .pmovsxwq .. => pmovsxwq _ _ _
  | .pmovzxwq .. => pmovzxwq _ _ _ | .pmovsxdq .. => pmovsxdq _ _ _ | .pmovzxdq .. => pmovzxdq _ _ _ | .pminsb .. => pminsb _ _ _
  | .pminuw .. => pminuw _ _ _ | .pminsd .. => pminsd _ _ _ | .pminud .. => pminud _ _ _ | .pmaxsb .. => pmaxsb _ _ _
  | .pmaxuw .. => pmaxuw _ _ _ | .pmaxsd .. => pmaxsd _ _ _ | .pmaxud .. => pmaxud _ _ _ | .pmuldq .. => pmuldq _ _ _
  | .pmulld .. => pmulld _ _ _ | .packusdw .. => packusdw _ _ _ | .pcmpeqq .. => pcmpeqq _ _ _ | .insertps .. => insertps _ _ _ _
  | .extractps .. => extractps _ _ _ _ | .pinsrb .. => pinsrb _ _ _ _ | .pinsrd .. => pinsrd _ _ _ _ | .pinsrq .. => pinsrq _ _ _ _
  | .pextrb .. => pextrb _ _ _ _ | .pextrw .. => pextrw _ _ _ _ | .pextrd .. => pextrd _ _ _ _ | .pextrq .. => pextrq _ _ _ _
  | .dpps .. => dpps _ _ _ _ | .dppd .. => dppd _ _ _ _ | .blendvps .. => blendvps _ _ _ | .blendvpd .. => blendvpd _ _ _
  | .blendps .. => blendps _ _ _ _ | .blendpd .. => blendpd _ _ _ _ | .pblendvb .. => pblendvb _ _ _ | .pblendw .. => pblendw _ _ _ _
  | .ptest .. => ptest _ _ _ | .roundps .. => roundps _ _ _ _ | .roundpd .. => roundpd _ _ _ _ | .roundss .. => roundss _ _ _ _
  | .roundsd .. => roundsd _ _ _ _ | .movntdqa .. => movntdqa _ _ _

end Sys2Proof.Laws.Rebuild

namespace Sys2Proof

/-! ## Behind the legacy bytes (30_encoding.md R84 steps 2 to 6) -/

theorem Enc.wOk_of_requiredW {e : Enc} {o : Option Bool} (h : o = none ∨ o = some e.rexW) : e.wOk o = true := by
  rcases h with rfl | rfl
  · rfl
  · exact beq_self_eq_true _

/-- The bytes behind the legacy bytes, the key apart. -/
theorem encodeBody_append (i : Instr) (rest : List Byte) :
    encodeBody i ++ rest = i.operands.enc.rexBytes ++ 0x0F#8 :: i.key.map.escape :: i.key.byte ::
      (i.operands.rm.encode i.operands.reg ++ (i.operands.imm.toList ++ rest)) := by
  simp [encodeBody]

section
variable {md : Mode} {e : Enc} {m : OpMap} {op : Byte} {lay : Layout}

/-- Where the key has a row, its layout gets the operands that are read behind it. -/
theorem decodeBody_of_row (hrex : e.rex.isSome = true → md = .mode64) (hrow : row m op e.rexW = some lay) {bs rest : List Byte} {reg : Reg}
    {rm : Rm} (hscan : scanModRm e bs = .ok (reg, rm, rest)) :
    decodeBody md (e.scanned false) (e.rexBytes ++ 0x0F#8 :: m.escape :: op :: bs) = build lay e reg rm rest := by
  simp only [decodeBody, scanRex_rexBytes hrex, scanKey_eq_ok.mpr rfl, hrow, hscan]
  rfl

/-- Where the key has a row, LOCK is refused whatever follows. -/
theorem decodeBody_lock (hrex : e.rex.isSome = true → md = .mode64) (hrow : row m op e.rexW = some lay) (bs : List Byte) :
    decodeBody md (e.scanned true) (e.rexBytes ++ 0x0F#8 :: m.escape :: op :: bs) = .error .lockByte := by
  simp only [decodeBody, scanRex_rexBytes hrex, scanKey_eq_ok.mpr rfl, hrow]
  rfl

end

/-- The bytes behind the legacy bytes are read as `i` exactly when the legacy bytes were those of `i` and these are the bytes of `i`, whose
REX byte the mode has and whose fields agree with it. -/
theorem decodeBody_eq_ok {md : Mode} {p : Legacy} {bs rest : List Byte} {i : Instr} :
    decodeBody md p bs = .ok (i, rest) ↔ p = i.operands.enc.scanned false ∧ (i.operands.enc.rex.isSome = true → md = .mode64) ∧
      i.operands.enc.regOk i.operands.reg = true ∧ i.operands.rm.wf i.operands.enc = true ∧ i.operands.enc.wOk i.requiredW = true ∧
      bs = encodeBody i ++ rest := by
  constructor
  · intro h
    rcases hr : scanRex md bs with ⟨rex, body⟩
    simp only [decodeBody, hr] at h
    split at h
    · cases h
    next m op tail hkey =>
    split at h
    · cases h
    next h66 =>
    split at h
    · cases h
    next lay hrow =>
    split at h
    · cases h
    next hlock =>
    split at h
    · cases h
    next reg rm after hscan =>
    obtain ⟨imm, ⟨hikey, hops, hw⟩, rfl⟩ := build_eq_ok (row_makes hrow) h
    obtain ⟨hreg, hrm, rfl⟩ := scanModRm_eq_ok.mp hscan
    obtain ⟨rfl, hrex⟩ := scanRex_eq (e := ⟨p.seg, p.addr32, rex⟩) hr
    obtain rfl := scanKey_eq_ok.mp hkey
    rw [encodeBody_append, hops, hikey]
    refine ⟨?_, hrex, hreg, hrm, Enc.wOk_of_requiredW hw, rfl⟩
    exact (Legacy.mk.injEq ..).mpr ⟨rfl, rfl, by simpa using h66, by simpa using hlock⟩
  · rintro ⟨rfl, hrex, hreg, hrm, hw, rfl⟩
    obtain ⟨lay, hrow, hbuild⟩ := Laws.Rebuild.statement i hw rest
    rw [encodeBody_append, decodeBody_of_row hrex hrow (scanModRm_eq_ok.mpr ⟨hreg, hrm, rfl⟩), hbuild]

/-! ## What decodes (30_encoding.md R60 to R64, R84) -/

/-- The bytes before the escape exist in the modes of the spec, REX and `67` in mode64 alone. -/
theorem Enc.modeOk_iff {e : Enc} {md : Mode} :
    e.modeOk md = true ↔ md ≠ .mode16 ∧ (e.rex.isSome = true → md = .mode64) ∧ (e.addr32 = true → md = .mode64) := by
  cases md <;> simp [Enc.modeOk]

theorem Instr.wf_iff {md : Mode} {i : Instr} :
    i.wf md = true ↔ i.operands.enc.modeOk md = true ∧ i.operands.enc.regOk i.operands.reg = true ∧
      i.operands.rm.wf i.operands.enc = true ∧ i.operands.enc.wOk i.requiredW = true := by
  simp only [Instr.wf, Bool.and_eq_true, and_assoc]

/-- Behind a run of legacy bytes the scan goes on, unless the mode is a 16-bit one. -/
theorem decode_eq {md : Mode} (h : md ≠ .mode16) {bs rest : List Byte} {p : Legacy}
    (hscan : scanLegacy md .empty bs = .ok (p, rest)) : decode md bs = decodeBody md p rest := by
  rw [decode, if_neg h, hscan]

theorem decode_eq_error {md : Mode} (h : md ≠ .mode16) {bs : List Byte} {x : DecodeError}
    (hscan : scanLegacy md .empty bs = .error x) : decode md bs = .error x := by
  rw [decode, if_neg h, hscan]

/-- The legacy bytes of an instruction, with LOCK or without, may stand in any order. -/
theorem decode_append {md : Mode} {e : Enc} (he : e.modeOk md = true) {lock : Bool} {l : List Byte}
    (hl : l.Perm (e.scanned lock).bytes) (bs : List Byte) :
    decode md (l ++ (e.rexBytes ++ 0x0F#8 :: bs)) = decodeBody md (e.scanned lock) (e.rexBytes ++ 0x0F#8 :: bs) := by
  obtain ⟨h16, -, haddr⟩ := Enc.modeOk_iff.mp he
  have hrun : LegacyRun md l := (Legacy.legacyRun_bytes haddr).perm hl.symm
  refine decode_eq h16 ?_
  rw [scanLegacy_run hrun hl.symm, scanLegacy_rexBytes]

/-- What decodes to `i` are its legacy bytes in any order and its further bytes, where it is well-formed; the rest is left. -/
theorem decode_eq_ok {md : Mode} {bs rest : List Byte} {i : Instr} :
    decode md bs = .ok (i, rest) ↔ i.wf md = true ∧ ∃ l, l.Perm i.operands.enc.legacy ∧ bs = l ++ encodeBody i ++ rest := by
  constructor
  · intro h
    have h16 : md ≠ .mode16 := by
      rintro rfl
      cases h
    rw [decode, if_neg h16] at h
    split at h
    · cases h
    next p tail hscan =>
    obtain ⟨rfl, hrex, hreg, hrm, hw, rfl⟩ := decodeBody_eq_ok.mp h
    obtain ⟨hrun, l, rfl, hperm⟩ := scanLegacy_eq_ok (p := .empty) ⟨nofun, .nil⟩ hscan
    have haddr : i.operands.enc.addr32 = true → md = .mode64 := fun ha => by
      simpa [LegacyByte, SegOverride.ne_byte_67] using hrun.1 0x67 (Legacy.mem_bytes.mpr (.inr (.inl ⟨ha, rfl⟩)))
    refine ⟨Instr.wf_iff.mpr ⟨Enc.modeOk_iff.mpr ⟨h16, hrex, haddr⟩, hreg, hrm, hw⟩, l, ?_, (List.append_assoc ..).symm⟩
    rw [← Enc.bytes_scanned]
    exact (Legacy.append_bytes_empty l ▸ hperm).symm
  · rintro ⟨hwf, l, hl, rfl⟩
    obtain ⟨hmode, hreg, hrm, hw⟩ := Instr.wf_iff.mp hwf
    rw [← Enc.bytes_scanned] at hl
    have hbody := encodeBody_append i rest
    rw [List.append_assoc, hbody, decode_append hmode hl, ← hbody]
    exact decodeBody_eq_ok.mpr ⟨rfl, (Enc.modeOk_iff.mp hmode).2.1, hreg, hrm, hw, rfl⟩

/-- A well-formed instruction decodes from its bytes, whatever bytes follow. -/
theorem decode_encode {md : Mode} {i : Instr} (h : i.wf md = true) (rest : List Byte) : decode md (encode i ++ rest) = .ok (i, rest) :=
  decode_eq_ok.mpr ⟨h, _, .refl _, rfl⟩

/-- Settles O1: the encoding is one of the byte sequences that decode to the instruction. -/
theorem decodeEncodeRoundTrip : Obligations.DecodeEncodeRoundTrip := by
  unfold Obligations.DecodeEncodeRoundTrip
  exact fun md i rest h => decode_encode h rest

/-! ## Lengths (30_encoding.md R73) -/

theorem Disp.length_encode (d : Disp) : d.encode.length = d.len := by
  cases d <;> rfl

theorem Rm.length_encode (reg : Reg) (rm : Rm) : (rm.encode reg).length = rm.len := by
  match rm with
  | .reg _ => rfl
  | .mem (.base _ d) | .mem (.sib _ _ _ d) =>
    simp only [Rm.encode, Rm.len, List.length_cons, d.length_encode]
    omega
  | .mem (.sibNoBase ..) | .mem (.disp32 _) => rfl

theorem Enc.length_legacy_rexBytes (e : Enc) : e.legacy.length + e.rexBytes.length = e.len := by
  obtain ⟨seg, a, rex⟩ := e
  cases seg <;> cases a <;> cases rex <;> rfl

theorem Instr.len_eq (i : Instr) : i.len = i.operands.enc.len + 3 + i.operands.rm.len + i.operands.imm.isSome.toNat := by
  unfold Instr.len
  dsimp only
  cases i.operands.imm <;> rfl

theorem length_encodeBody (i : Instr) : i.operands.enc.legacy.length + (encodeBody i).length = i.len := by
  have himm : ∀ o : Option Byte, o.toList.length = o.isSome.toNat := fun o => by cases o <;> rfl
  simp only [encodeBody, List.length_append, Rm.length_encode, himm, Instr.len_eq, ← Enc.length_legacy_rexBytes, List.length_cons,
    List.length_nil]
  omega

theorem Enc.len_bounds (e : Enc) : 1 ≤ e.len ∧ e.len ≤ 4 := by
  have hseg := e.seg.isSome.toNat_le
  have haddr := e.addr32.toNat_le
  have hrex := e.rex.isSome.toNat_le
  unfold Enc.len
  omega

theorem Rm.len_bounds (rm : Rm) : 1 ≤ rm.len ∧ rm.len ≤ 6 := by
  have hdisp : ∀ d : Disp, d.len ≤ 4 := fun d => by cases d <;> simp [Disp.len]
  match rm with
  | .reg _ | .mem (.sibNoBase ..) | .mem (.disp32 _) => simp [Rm.len]
  | .mem (.base _ d) | .mem (.sib _ _ _ d) =>
    have := hdisp d
    simp only [Rm.len]
    omega

theorem Instr.len_bounds (i : Instr) : 5 ≤ i.len ∧ i.len ≤ 14 := by
  have henc := i.operands.enc.len_bounds
  have hrm := i.operands.rm.len_bounds
  have himm := i.operands.imm.isSome.toNat_le
  rw [Instr.len_eq]
  omega

/-- Settles O2: which bytes decode is `decode_eq_ok`, and their number is counted part by part. -/
theorem decodedLength : Obligations.DecodedLength := by
  unfold Obligations.DecodedLength
  refine ⟨fun md bs i rest => decode_eq_ok, fun md bs i rest h => ⟨?_, i.len_bounds⟩, Instr.len_eq⟩
  obtain ⟨-, l, hl, rfl⟩ := decode_eq_ok.mp h
  rw [List.length_append, List.length_append, hl.length_eq, length_encodeBody]

/-! ## Refused legacy bytes (30_encoding.md R62, R63, R80) -/

/-- Settles O4: LOCK is recorded like the other legacy bytes and refused once the key has a row; the scan itself refuses the rest. -/
theorem forbiddenPrefixes : Obligations.ForbiddenPrefixes := by
  unfold Obligations.ForbiddenPrefixes
  refine ⟨fun md i l rest hwf hl => ?lock, fun md l bs h16 hl => ?scan⟩
  case lock =>
    obtain ⟨hmode, -, -, hw⟩ := Instr.wf_iff.mp hwf
    obtain ⟨lay, hrow, -⟩ := Laws.Rebuild.statement i hw []
    rw [List.append_assoc, encodeBody_append, decode_append hmode (hl.trans i.operands.enc.bytes_scanned_lock.symm),
      decodeBody_lock (Enc.modeOk_iff.mp hmode).2.1 hrow]
  case scan =>
    obtain ⟨p, hp, hscan⟩ := scanLegacy_append (p := .empty) (l := l) ((Legacy.append_bytes_empty l).symm ▸ hl)
    refine ⟨decode_eq_error h16 ((hscan _).trans scanLegacy_F2), decode_eq_error h16 ((hscan _).trans scanLegacy_F3),
      fun b c hb hc hbc => decode_eq_error h16 ((hscan _).trans (scanLegacy_of_seen hb ⟨c, ?_, hbc⟩))⟩
    exact hp.mem_iff.mpr (List.mem_append_left _ hc)

/-! ## Other spellings of an instruction (30_encoding.md R74, R77, R78) -/

/-- The instruction with other bytes before the escape and another ModR/M operand; MOVNTDQA keeps its operand where the other is a
register. -/
def Instr.respell (e : Enc) (x : Rm) : Instr → Instr
  | .mpsadbw _ d _ i => .mpsadbw e d x i | .insertps _ d _ i => .insertps e d x i | .pinsrb _ d _ i => .pinsrb e d x i
  | .pinsrd _ d _ i => .pinsrd e d x i | .pinsrq _ d _ i => .pinsrq e d x i | .dpps _ d _ i => .dpps e d x i
  | .dppd _ d _ i => .dppd e d x i | .blendps _ d _ i => .blendps e d x i | .blendpd _ d _ i => .blendpd e d x i
  | .pblendw _ d _ i => .pblendw e d x i | .roundps _ d _ i => .roundps e d x i | .roundpd _ d _ i => .roundpd e d x i
  | .roundss _ d _ i => .roundss e d x i | .roundsd _ d _ i => .roundsd e d x i | .extractps _ _ s i => .extractps e x s i
  | .pextrb _ _ s i => .pextrb e x s i | .pextrw _ _ s i => .pextrw e x s i | .pextrd _ _ s i => .pextrd e x s i
  | .pextrq _ _ s i => .pextrq e x s i | .phminposuw _ d _ => .phminposuw e d x | .pmovsxbw _ d _ => .pmovsxbw e d x
  | .pmovzxbw _ d _ => .pmovzxbw e d x | .pmovsxbd _ d _ => .pmovsxbd e d x | .pmovzxbd _ d _ => .pmovzxbd e d x
  | .pmovsxwd _ d _ => .pmovsxwd e d x | .pmovzxwd _ d _ => .pmovzxwd e d x | .pmovsxbq _ d _ => .pmovsxbq e d x
  | .pmovzxbq _ d _ => .pmovzxbq e d x | .pmovsxwq _ d _ => .pmovsxwq e d x | .pmovzxwq _ d _ => .pmovzxwq e d x
  | .pmovsxdq _ d _ => .pmovsxdq e d x | .pmovzxdq _ d _ => .pmovzxdq e d x | .pminsb _ d _ => .pminsb e d x
  | .pminuw _ d _ => .pminuw e d x | .pminsd _ d _ => .pminsd e d x | .pminud _ d _ => .pminud e d x | .pmaxsb _ d _ => .pmaxsb e d x
  | .pmaxuw _ d _ => .pmaxuw e d x | .pmaxsd _ d _ => .pmaxsd e d x | .pmaxud _ d _ => .pmaxud e d x | .pmuldq _ d _ => .pmuldq e d x
  | .pmulld _ d _ => .pmulld e d x | .packusdw _ d _ => .packusdw e d x | .pcmpeqq _ d _ => .pcmpeqq e d x
  | .blendvps _ d _ => .blendvps e d x | .blendvpd _ d _ => .blendvpd e d x | .pblendvb _ d _ => .pblendvb e d x
  | .ptest _ d _ => .ptest e d x
  | .movntdqa _ d m => .movntdqa e d (match x with | .mem m' => m' | .reg _ => m)

section
variable (e : Enc) (x : Rm) (i : Instr)

@[simp] theorem Instr.key_respell : (i.respell e x).key = i.key := by
  cases i <;> rfl

@[simp] theorem Instr.requiredW_respell : (i.respell e x).requiredW = i.requiredW := by
  cases i <;> rfl

theorem Instr.operands_respell (h : i.key ≠ ⟨.m38, 0x2A⟩) : (i.respell e x).operands = { i.operands with enc := e, rm := x } := by
  cases i
  case movntdqa => exact absurd rfl h
  all_goals rfl

theorem Instr.operands_respell_rm : (i.respell e i.operands.rm).operands = { i.operands with enc := e } := by
  cases i <;> rfl

/-- With its own bytes and operand an instruction is spelled as it was. -/
theorem Instr.respell_self : i.respell i.operands.enc i.operands.rm = i := by
  cases i <;> rfl

end

/-- The bytes of MOVNTDQA with a register are refused by its layout, which takes memory alone. -/
theorem decode_movntdqaRegBytes {md : Mode} {e : Enc} {l : List Byte} {modrm : Byte} (he : e.modeOk md = true) (hl : l.Perm e.legacy)
    (hmod : modrm.extractLsb' 6 2 = 3#2) (rest : List Byte) :
    decode md (movntdqaRegBytes e l modrm ++ rest) = .error .movntdqaRegister := by
  have hbytes : movntdqaRegBytes e l modrm ++ rest = l ++ (e.rexBytes ++ 0x0F#8 :: OpMap.m38.escape :: 0x2A#8 :: modrm :: rest) := by
    simp [movntdqaRegBytes, OpMap.escape]
  have hscan : scanModRm e (modrm :: rest) =
      .ok (mkReg e.rexR (modrm.extractLsb' 3 3), .reg (mkReg e.rexB (modrm.extractLsb' 0 3)), rest) := if_pos hmod
  rw [← Enc.bytes_scanned] at hl
  rw [hbytes, decode_append he hl, decodeBody_of_row (Enc.modeOk_iff.mp he).2.1 rfl hscan]
  rfl

/-- Settles O5: MOVNTDQA's row has a memory operand only, and every other instruction can be respelled with any operand. -/
theorem movntdqaHasNoRegisterForm : Obligations.MovntdqaHasNoRegisterForm := by
  unfold Obligations.MovntdqaHasNoRegisterForm
  exact ⟨fun md e l modrm rest he hl hmod => decode_movntdqaRegBytes he hl hmod rest,
    fun i hi rm => ⟨i.respell i.operands.enc rm, i.key_respell .., i.operands_respell _ _ hi⟩⟩

/-- The key, REX.W where it matters, and the operands determine the instruction. -/
theorem Instr.eq_of_key_of_operands {i j : Instr} (hkey : j.key = i.key) (hops : j.operands = i.operands)
    (hi : i.operands.enc.wOk i.requiredW = true) (hj : j.operands.enc.wOk j.requiredW = true) : j = i := by
  obtain ⟨lay, hrow, hbuild⟩ := Laws.Rebuild.statement i hi []
  obtain ⟨lay', hrow', hbuild'⟩ := Laws.Rebuild.statement j hj []
  rw [hkey, hops] at hrow'
  rw [hops, Option.some.inj (hrow'.symm.trans hrow), hbuild] at hbuild'
  cases hbuild'
  rfl

/-- REX.W is free exactly where the key is neither of the two shared ones. -/
theorem Instr.requiredW_eq_none_iff {i : Instr} : i.requiredW = none ↔ i.key ≠ ⟨.m3A, 0x22⟩ ∧ i.key ≠ ⟨.m3A, 0x16⟩ := by
  cases i <;> simp [Instr.requiredW, Instr.key]

/-- Turning REX.W keeps the three other bits. -/
theorem Enc.rexBit_turnW {e : Enc} {b : BitVec 4} (h : e.rex = some b) {k : Nat} (hk : k < 3) :
    ({ e with rex := some (b ^^^ 8) } : Enc).rexBit k = e.rexBit k := by
  have bits : ∀ (b : BitVec 4) (k : Fin 3), (b ^^^ 8).getLsbD k = b.getLsbD k := by decide
  simp only [Enc.rexBit, h, Option.getD_some]
  exact bits b ⟨k, hk⟩

/-- Of the REX byte a ModR/M operand is checked against X and B alone. -/
theorem Rm.wf_congr {e e' : Enc} (hx : e'.rexX = e.rexX) (hb : e'.rexB = e.rexB) (rm : Rm) : rm.wf e' = rm.wf e := by
  have hindex : ∀ i, e'.indexOk i = e.indexOk i := fun i => by cases i <;> simp only [Enc.indexOk, hx]
  match rm with
  | .reg _ | .mem (.base ..) | .mem (.sib ..) | .mem (.sibNoBase ..) | .mem (.disp32 _) => simp only [Rm.wf, Mem.wf, hb, hindex]

/-- Where REX.W is free, an instruction with the other REX.W is as well-formed. -/
theorem Instr.wf_turnW {md : Mode} {i j : Instr} {b : BitVec 4} (hj : j.requiredW = none)
    (hrex : i.operands.enc.rex = some b)
    (hops : j.operands = { i.operands with enc := { i.operands.enc with rex := some (b ^^^ 8) } }) (h : i.wf md = true) :
    j.wf md = true := by
  obtain ⟨hmode, hreg, hrm, hw⟩ := Instr.wf_iff.mp h
  refine Instr.wf_iff.mpr ⟨?_, ?_, ?_, hj ▸ rfl⟩
  · rw [hops, Enc.modeOk_iff]
    rw [Enc.modeOk_iff, hrex] at hmode
    exact hmode
  · rwa [hops, Enc.regOk, Enc.rexR, Enc.rexBit_turnW hrex (by decide)]
  · rwa [hops, Rm.wf_congr (Enc.rexBit_turnW hrex (by decide)) (Enc.rexBit_turnW hrex (by decide))]

end Sys2Proof

namespace Sys2Proof.Machine

/-- The meanings read whether there is a REX byte and not its bits, which the operands already hold. -/
theorem exec_respell_rex (i : Instr) (seg : Option SegOverride) (a : Bool) (b c : BitVec 4) (x : Rm) (s : State) :
    exec (i.respell ⟨seg, a, some c⟩ x) s = exec (i.respell ⟨seg, a, some b⟩ x) s := by
  cases i <;> rfl

/-- Settles O6: turning W keeps what `wf` checks, and the meanings do not read the bits of REX. -/
theorem rexWIsIgnored : Obligations.RexWIsIgnored := by
  unfold Obligations.RexWIsIgnored
  intro i j b hw hrex hkey hops
  have hjw : j.requiredW = none := by rwa [Instr.requiredW_eq_none_iff, hkey, ← Instr.requiredW_eq_none_iff]
  refine ⟨fun md rest hwf => decode_encode (Instr.wf_turnW hjw hrex hops hwf) rest, fun s => ?_⟩
  have hj : j = i.respell { i.operands.enc with rex := some (b ^^^ 8) } i.operands.rm :=
    Instr.eq_of_key_of_operands (hkey.trans (i.key_respell ..).symm) (hops.trans (i.operands_respell_rm _).symm)
      (by rw [Instr.requiredW_respell, hw]; rfl) (by rw [hjw]; rfl)
  have hi : i = i.respell { i.operands.enc with rex := some b } i.operands.rm := by
    rw [← hrex]
    exact i.respell_self.symm
  rw [hj, exec_respell_rex (b := b), ← hi]

/-! ## Addresses as integers (30_encoding.md R65 to R71) -/

theorem dispValue_eq (d : Disp) : dispValue d = BitVec.ofInt 64 (dispInt d) := by
  cases d <;> rfl

theorem ofInt_toNat (v : Quad) : BitVec.ofInt 64 v.toNat = v := by
  rw [BitVec.ofInt_natCast, BitVec.ofNat_toNat, BitVec.setWidth_eq]

theorem indexTerm_eq (s : State) (scale : BitVec 2) (x : Option Reg) :
    indexTerm s scale x = BitVec.ofInt 64 (indexInt s scale x) := by
  cases x with
  | none => rfl
  | some r =>
    have hcast : indexInt s scale (some r) = ((s.getGpr r).toNat * 2 ^ scale.toNat : Nat) := by
      push_cast
      rfl
    rw [hcast, BitVec.ofInt_natCast]
    apply BitVec.eq_of_toNat_eq
    simp [indexTerm, Nat.shiftLeft_eq]

theorem segBase_eq (s : State) (e : Enc) : segBase s e = BitVec.ofInt 64 (segInt s e) := by
  unfold segBase segInt
  cases e.seg with
  | none => rfl
  | some g => cases g <;> simp

/-- The sum of an address is the integer sum modulo 2^64; only mode64 counts from the next instruction. -/
theorem addressSum_eq (s : State) (len : Nat) (m : Mem) : addressSum s len m = BitVec.ofInt 64 (eaInt s len m) := by
  cases m with
  | base b d => rw [addressSum, eaInt, BitVec.ofInt_add, ofInt_toNat, dispValue_eq]
  | sib b sc x d => rw [addressSum, eaInt, BitVec.ofInt_add, BitVec.ofInt_add, ofInt_toNat, indexTerm_eq, dispValue_eq]
  | sibNoBase sc x d =>
    rw [addressSum, eaInt, BitVec.ofInt_add, indexTerm_eq]
    rfl
  | disp32 d =>
    rw [addressSum, eaInt]
    split
    next h64 =>
      rw [BitVec.ofInt_add, BitVec.ofInt_add, ofInt_toNat, BitVec.ofInt_natCast, State.nextRip, h64]
      rfl
    · rw [zero_add]
      rfl

/-- As a number, the word of an integer is the integer modulo 2^64. -/
theorem toNat_ofInt_quad (x : Int) : ((BitVec.ofInt 64 x).toNat : Int) = x % 2 ^ 64 := by
  rw [BitVec.toNat_ofInt]
  omega

/-- The low half of a word is the word modulo 2^32. -/
theorem toNat_lowHalf (v : Quad) : ((v.setWidth 32).setWidth 64).toNat = v.toNat % 2 ^ 32 := by
  simp only [BitVec.toNat_setWidth]
  omega

theorem segBase_toNat (s : State) (e : Enc) : ((segBase s e).toNat : Int) = segInt s e % 2 ^ 64 := by
  rw [segBase_eq, toNat_ofInt_quad]

theorem addressSum_toNat (s : State) (len : Nat) (m : Mem) : ((addressSum s len m).toNat : Int) = eaInt s len m % 2 ^ 64 := by
  rw [addressSum_eq, toNat_ofInt_quad]

section
variable {s : State} {e : Enc} {len : Nat} {m : Mem}

theorem addrOf_mode64 (h : s.mode = .mode64) : addrOf s e len m = ((segBase s e).toNat + (effAddr s e len m).toNat) % 2 ^ 64 := by
  rw [addrOf, linearAddr, h]
  exact BitVec.toNat_add ..

theorem addrOf_mode32 (h : s.mode = .mode32) : addrOf s e len m = ((segBase s e).toNat + (effAddr s e len m).toNat) % 2 ^ 32 := by
  rw [addrOf, linearAddr, h]
  simp only [modeWidth, toNat_lowHalf, BitVec.toNat_add]
  omega

theorem effAddr_full (h : s.mode = .mode64) (ha : e.addr32 = false) : effAddr s e len m = addressSum s len m :=
  if_pos ⟨h, by rw [ha]; rfl⟩

theorem effAddr_low (h : s.mode ≠ .mode64 ∨ e.addr32 = true) :
    (effAddr s e len m).toNat = (addressSum s len m).toNat % 2 ^ 32 := by
  have hlow : ¬ (s.mode = .mode64 ∧ !e.addr32) := by
    rintro ⟨h64, haddr⟩
    rcases h with h | h
    · exact h h64
    · simp [h] at haddr
  rw [effAddr, if_neg hlow, toNat_lowHalf]

end

/-- Settles O34: the sums of words are integer sums, and each truncation is a remainder. -/
theorem addressArithmetic : Obligations.AddressArithmetic := by
  unfold Obligations.AddressArithmetic
  intro s e len m _
  have hseg := segBase_toNat s e
  have hsum := addressSum_toNat s len m
  refine ⟨fun h64 ha => ?_, fun h64 ha => ?_, fun h32 => ?_⟩
  · rw [addrOf_mode64 h64, effAddr_full h64 ha]
    omega
  · rw [addrOf_mode64 h64, effAddr_low (.inr ha)]
    omega
  · rw [addrOf_mode32 h32, effAddr_low (.inl (by rw [h32]; decide))]
    omega

end Sys2Proof.Machine

namespace Sys2Proof

/-! ## What mode32 does not have (30_encoding.md R62, R80) -/

/-- Without a REX byte every bit of it is 0. -/
theorem Enc.rexBit_of_none {e : Enc} (h : e.rex = none) (k : Nat) : e.rexBit k = false := by
  simp [Enc.rexBit, h]

theorem lt_eight_of_regHigh {r : Reg} (h : regHigh r = false) : r.val < 8 :=
  Nat.lt_of_not_le (of_decide_eq_false h)

theorem Enc.index_lt_eight {e : Enc} {x : Option Reg} (hx : e.rexX = false) (h : e.indexOk x = true) : (x.getD 0).val < 8 := by
  cases x with
  | none => decide
  | some r =>
    simp only [Enc.indexOk, hx, Bool.and_eq_true, beq_iff_eq] at h
    exact lt_eight_of_regHigh h.1

/-- Without a REX byte an operand names the first eight registers only. -/
theorem Rm.belowEight_of_wf {e : Enc} (h : e.rex = none) {rm : Rm} (hwf : rm.wf e = true) : rm.BelowEight := by
  have hx : e.rexX = false := e.rexBit_of_none h 1
  have hb : e.rexB = false := e.rexBit_of_none h 0
  match rm with
  | .reg r =>
    exact lt_eight_of_regHigh ((beq_iff_eq.mp hwf).trans hb)
  | .mem (.base b d) =>
    exact lt_eight_of_regHigh ((Mem.wf_base.mp hwf).1.trans hb)
  | .mem (.sib b sc x d) =>
    obtain ⟨hbase, hindex, -⟩ := (Mem.wf_sib (s := sc)).mp hwf
    exact ⟨lt_eight_of_regHigh (hbase.trans hb), e.index_lt_eight hx hindex⟩
  | .mem (.sibNoBase sc x d) =>
    exact e.index_lt_eight hx hwf
  | .mem (.disp32 d) => trivial

/-- What is well-formed in mode32 has neither REX nor `67`, names the first eight registers and is not one of the REX.W instructions. -/
theorem Instr.of_wf_mode32 {i : Instr} (h : i.wf .mode32 = true) : i.operands.enc.rex = none ∧ i.operands.enc.addr32 = false ∧
    i.operands.reg.val < 8 ∧ i.operands.rm.BelowEight ∧ i.requiredW ≠ some true := by
  obtain ⟨hmode, hreg, hrm, hw⟩ := Instr.wf_iff.mp h
  simp only [Enc.modeOk, Bool.and_eq_true, Option.isNone_iff_eq_none, Bool.not_eq_true'] at hmode
  obtain ⟨hrex, haddr⟩ := hmode
  refine ⟨hrex, haddr, lt_eight_of_regHigh ((beq_iff_eq.mp hreg).trans (Enc.rexBit_of_none hrex 2)), Rm.belowEight_of_wf hrex hrm,
    fun htrue => ?_⟩
  rw [htrue] at hw
  exact nomatch (beq_iff_eq.mp hw).symm.trans (Enc.rexBit_of_none hrex 3)

/-- In mode32 `67` is refused behind any legacy bytes. -/
theorem decode_67_mode32 {l : List Byte} (h : LegacyRun .mode32 l) (bs : List Byte) :
    decode .mode32 (l ++ 0x67 :: bs) = .error .addr16 := by
  obtain ⟨p, -, hscan⟩ := scanLegacy_append (p := .empty) ((Legacy.append_bytes_empty l).symm ▸ h)
  exact decode_eq_error (by decide) ((hscan _).trans scanLegacy_67)

end Sys2Proof

namespace Sys2Proof.Machine

/-- PINSRQ and PEXTRQ have no meaning in mode32. -/
theorem exec_mode64Only {i : Instr} {s : State} (hw : i.requiredW = some true) (h32 : s.mode = .mode32) :
    exec i s = .refused .mode64Only := by
  cases i
  case pinsrq => exact if_pos h32
  case pextrq => exact if_pos h32
  all_goals cases hw

/-- The address without base and index is its displacement in mode32, unless FS or GS is added. -/
theorem linearAddr_disp32_mode32 {s : State} {e : Enc} {len : Nat} {d : BitVec 32} (h32 : s.mode = .mode32) (hfs : e.seg ≠ some .fs)
    (hgs : e.seg ≠ some .gs) : linearAddr s e len (.disp32 d) = d.setWidth 64 := by
  have hseg : segInt s e = 0 := by rw [segInt, if_neg hfs, if_neg hgs]
  have hea : eaInt s len (.disp32 d) = d.toInt := by simp [eaInt, h32]
  have haddr : ((linearAddr s e len (.disp32 d)).toNat : Int) = (segInt s e + eaInt s len (.disp32 d) % 2 ^ 32) % 2 ^ 32 :=
    (addressArithmetic s e len _ (by rw [h32]; decide)).2.2 h32
  have hd := d.isLt
  apply BitVec.eq_of_toNat_eq
  rw [hseg, hea, BitVec.toInt_eq_toNat_cond] at haddr
  rw [BitVec.toNat_setWidth]
  split at haddr <;> omega

/-- Settles O7: what is well-formed there, the scan of `67`, the two meanings, the address of a disp32, and the effect that writes a general
register. -/
theorem mode32Differences : Obligations.Mode32Differences := by
  unfold Obligations.Mode32Differences
  refine ⟨fun bs i rest h => Instr.of_wf_mode32 (decode_eq_ok.mp h).1, fun l bs hl => decode_67_mode32 hl bs,
    fun i s => exec_mode64Only, fun s e len d => linearAddr_disp32_mode32, fun i s t r h32 hs hr h => ?_⟩
  obtain ⟨-, -, heff⟩ := exec_next h
  cases heff with
  | gpr q v _ _ _ hq =>
    cases hr.symm.trans hq
    rw [State.advance_gpr, State.gpr_setGpr, h32]
    exact modeWidth_lt v
  | mem m v _ _ _ hm => cases hr.symm.trans hm
  | xmm _ _ hreads | fp _ _ _ _ hreads | flags _ _ _ hreads => exact nomatch hs.symm.trans hreads

/-- Settles O3, by running the decoder. -/
theorem decodesWrittenOutWords : Obligations.DecodesWrittenOutWords := by
  unfold Obligations.DecodesWrittenOutWords
  exact ⟨rfl, rfl, rfl, rfl, rfl, rfl, rfl, rfl⟩

end Sys2Proof.Machine

namespace Sys2Proof.Machine

/-! ## The shape of the rules that write one XMM register

Every such rule is a key, the exceptions of its class, and the write of one register; `xmmRule_of_exec` asks for the value written alone. -/

/-- The exceptions of an instruction are those of its class (60_exceptions.md R209): the code of a page fault has the direction of the
class, and alignment checking concerns operands of 2, 4 and 8 bytes, which no aligned class has. -/
theorem exec_mayRaise {i : Instr} {s : State} {f : Fault} (h : exec i s = .fault f) :
    MayRaise i.excClass (∃ m, i.operands.rm = .mem m) i.memBytes s f := by
  rcases exec_fault h with ⟨-, rfl | rfl⟩ | ⟨-, m, g, hm, rfl, hg⟩ | ⟨-, hfp, x, levels, -, rfl⟩
  · exact rfl
  · exact rfl
  · rcases operandFault_cases hg with rfl | rfl | ⟨b, c, rfl, hc⟩ | ⟨rfl, hac, hn, -⟩
    · exact ⟨rfl, m, hm⟩
    · exact ⟨rfl, m, hm⟩
    · obtain ⟨p, r, k, rfl⟩ := pageError_code hc
      obtain ⟨-, hwrite, -, -, hfetch, -⟩ := getLsbD_pageCode s (if i.excClass.stores then .write else .read) p r k
      refine ⟨rfl, ⟨m, hm⟩, hwrite.trans ?_, hfetch.trans ?_⟩ <;> cases i.excClass.stores <;> rfl
    · refine ⟨rfl, ⟨m, hm⟩, ?_, by omega, hac⟩
      by_contra hne
      obtain ⟨h16, -⟩ := Instr.of_aligned16 (Bool.eq_true_of_not_eq_false hne)
      omega
  · cases hx : s.osxmmexcpt <;> exact ⟨rfl, hfp, hx⟩

/-- Where the extension is enabled and the source raises nothing, `execXmm` writes `f DEST SRC` and advances. -/
theorem execXmm_eq_next {s : State} {n : Nat} {align : Bool} {e : Enc} {len : Nat} {dst : Reg} {src : Rm} {f : XWord → XWord → XWord}
    (henabled : Enabled s) (hread : ReadOk s n align e len src) :
    execXmm s n align e len dst src f = .next ((s.setXmm dst (f (s.getXmm dst) (srcXmm s n e len src))).advance len) := by
  rw [execXmm, gate_of_enabled henabled, andThen_next, xmmOperand_eq_next.mpr ⟨hread, rfl⟩, andThen_next]

/-- The write of one XMM register, with the advance of RIP, leaves everything else as it was. -/
theorem frame_setXmm_advance (s : State) (dst : Reg) (v : XWord) (len : Nat) :
    Frame s ((s.setXmm dst v).advance len) len (some dst) none 0 0 where
  system := by constructor <;> rfl
  rip := rfl
  xmm r hr := s.getXmm_setXmm_ne v fun h => hr (congrArg some h)
  gpr _ _ := rfl
  mem _ _ := rfl

/-- An instruction whose meaning is `execXmm` keeps its rule when what it writes is as the rule says. -/
theorem xmmRule_of_exec {i : Instr} {post : State → XWord → XWord → Prop} (f : State → XWord → XWord → XWord)
    (hexec : ∀ s, exec i s =
      execXmm s i.memBytes i.excClass.aligned16 i.operands.enc i.len i.operands.reg i.operands.rm (f s))
    (hpost : ∀ s v, post s v (f s (s.getXmm i.operands.reg) v)) :
    XRule i i.key i.excClass i.memBytes i.operands.reg i.operands.rm post where
  key := rfl
  faults _ _ := exec_mayRaise
  runs s hready hread := by
    obtain ⟨henabled, -⟩ := hready
    refine ⟨_, (hexec s).trans (execXmm_eq_next henabled hread), ?_, frame_setXmm_advance .., rfl, rfl⟩
    rw [State.getXmm_advance, State.getXmm_setXmm]
    exact hpost s _

/-! ## MPSADBW (40_video.md R100) -/

theorem sad_eq_sum (a b : XWord) (s1 s2 i : Nat) :
    sad a b s1 s2 i = ∑ k ∈ Finset.range 4, absDiff (lane 8 (s1 + i + k) a) (lane 8 (s2 + k) b) := by
  simp only [sad, Finset.sum_range_succ, Finset.sum_range_zero, Nat.add_zero, Nat.zero_add]

theorem absDiff_lt (x y : Byte) : absDiff x y < 2 ^ 8 := by
  have hx := x.isLt
  have hy := y.isLt
  unfold absDiff
  omega

/-- A word holds the sum of four absolute differences of bytes. -/
theorem sad_lt (a b : XWord) (s1 s2 i : Nat) : sad a b s1 s2 i < 2 ^ 16 := by
  have h0 := absDiff_lt (lane 8 (s1 + i) a) (lane 8 s2 b)
  have h1 := absDiff_lt (lane 8 (s1 + i + 1) a) (lane 8 (s2 + 1) b)
  have h2 := absDiff_lt (lane 8 (s1 + i + 2) a) (lane 8 (s2 + 2) b)
  have h3 := absDiff_lt (lane 8 (s1 + i + 3) a) (lane 8 (s2 + 3) b)
  unfold sad
  omega

/-- The two fields of imm8 that give the offsets. -/
theorem mpsadbw_offsets : ∀ imm : Byte,
    (imm.extractLsb' 2 1).toNat = (imm.getLsbD 2).toNat ∧ (imm.extractLsb' 0 2).toNat = imm.toNat % 4 := by
  decide

theorem toNat_lane_mpsadbw (imm : Byte) (a b : XWord) {i : Nat} (hi : i < 8) :
    (lane 16 i (mpsadbw imm a b)).toNat = sad a b ((imm.getLsbD 2).toNat * 4) (imm.toNat % 4 * 4) i := by
  obtain ⟨h1, h2⟩ := mpsadbw_offsets imm
  rw [mpsadbw, lane_pack _ _ _ _ (by decide) hi, BitVec.toNat_ofNat, Nat.mod_eq_of_lt (sad_lt ..), h1, h2]

/-- Settles O35: each word is one `sad`, which fits in 16 bits. -/
theorem mpsadbwSumsDifferences : Obligations.MpsadbwSumsDifferences := by
  unfold Obligations.MpsadbwSumsDifferences
  intro e d x imm
  exact xmmRule_of_exec (fun _ => mpsadbw imm) (fun _ => rfl) fun s v i hi =>
    (toNat_lane_mpsadbw imm (s.getXmm d) v hi).trans (sad_eq_sum ..)

/-! ## PHMINPOSUW (40_video.md R101) -/

/-- `m` is the smallest of words 0 to `n` of `v`, and `p` the lowest position that holds it. -/
structure FirstMin (v : XWord) (n : Nat) (m : BitVec 16) (p : Nat) : Prop where
  pos_le : p ≤ n
  holds : lane 16 p v = m
  least : ∀ j ≤ n, m.toNat ≤ (lane 16 j v).toNat
  first : ∀ j < p, m.toNat < (lane 16 j v).toNat

/-- A strictly smaller next word is the new minimum, and every word before it is larger. -/
theorem FirstMin.smaller {v : XWord} {n p : Nat} {m : BitVec 16} (h : FirstMin v n m p)
    (hlt : (lane 16 (n + 1) v).toNat < m.toNat) : FirstMin v (n + 1) (lane 16 (n + 1) v) (n + 1) where
  pos_le := le_refl _
  holds := rfl
  least j hj := by
    rcases Nat.le_succ_iff.mp hj with hle | rfl
    · exact (hlt.trans_le (h.least j hle)).le
    · exact le_refl _
  first j hj := hlt.trans_le (h.least j (Nat.le_of_lt_succ hj))

/-- A next word that is no smaller leaves the minimum and its position. -/
theorem FirstMin.keep {v : XWord} {n p : Nat} {m : BitVec 16} (h : FirstMin v n m p)
    (hge : ¬ (lane 16 (n + 1) v).toNat < m.toNat) : FirstMin v (n + 1) m p where
  pos_le := Nat.le_succ_of_le h.pos_le
  holds := h.holds
  least j hj := by
    rcases Nat.le_succ_iff.mp hj with hle | rfl
    · exact h.least j hle
    · exact Nat.le_of_not_lt hge
  first := h.first

theorem minScan_succ (v : XWord) (n : Nat) : minScan v (n + 1) =
    if (lane 16 (n + 1) v).toNat < (minScan v n).1.toNat then (lane 16 (n + 1) v, n + 1) else minScan v n := rfl

theorem minScan_firstMin (v : XWord) (n : Nat) : FirstMin v n (minScan v n).1 (minScan v n).2 := by
  induction n with
  | zero =>
    refine ⟨le_refl _, rfl, fun j hj => ?_, fun j hj => absurd hj (Nat.not_lt_zero j)⟩
    rw [Nat.le_zero.mp hj]
    exact le_refl _
  | succ n ih =>
    rw [minScan_succ]
    split
    next hlt => exact ih.smaller hlt
    next hge => exact ih.keep hge

/-- The words of PHMINPOSUW's result: minimum, position, zeros. -/
theorem lane_phminposuw (v : XWord) {i : Nat} (hi : i < 8) :
    lane 16 i (phminposuw v) =
      if i = 0 then (minScan v 7).1 else if i = 1 then BitVec.ofNat 16 (minScan v 7).2 else 0 := by
  unfold phminposuw
  generalize minScan v 7 = found
  exact lane_pack _ _ _ _ (by decide) hi

/-- Settles O36: the scan of all eight words ends with the first minimum, whose position a word holds. -/
theorem phminposuwFindsTheFirstMinimum : Obligations.PhminposuwFindsTheFirstMinimum := by
  unfold Obligations.PhminposuwFindsTheFirstMinimum
  intro e d x
  refine xmmRule_of_exec (fun _ _ b => phminposuw b) (fun _ => rfl) fun s v => ?_
  obtain ⟨hpos, hholds, hleast, hfirst⟩ := minScan_firstMin v 7
  have hmin : lane 16 0 (phminposuw v) = (minScan v 7).1 := lane_phminposuw v (by decide)
  have hindex : (lane 16 1 (phminposuw v)).toNat = (minScan v 7).2 := by
    rw [show lane 16 1 (phminposuw v) = BitVec.ofNat 16 (minScan v 7).2 from lane_phminposuw v (by decide), BitVec.toNat_ofNat]
    omega
  simp only [hmin, hindex]
  refine ⟨by omega, hholds, fun j hj => hleast j (by omega), hfirst, fun j h2 h8 => ?_⟩
  rw [lane_phminposuw v h8, if_neg (by omega), if_neg (by omega)]

/-! ## PMOVSX and PMOVZX (40_video.md R102 to R114) -/

theorem toInt_lane_pmovsx {iw ow n : Nat} (hw : iw ≤ ow) (hn : ow * n ≤ 128) (v : XWord) :
    ∀ i < n, (lane ow i (pmovsx iw ow n v)).toInt = (lane iw i v).toInt := fun i hi => by
  rw [pmovsx, lane_pack _ _ _ _ hn hi, BitVec.toInt_signExtend_of_le hw]

theorem toNat_lane_pmovzx {iw ow n : Nat} (hw : iw ≤ ow) (hn : ow * n ≤ 128) (v : XWord) :
    ∀ i < n, (lane ow i (pmovzx iw ow n v)).toNat = (lane iw i v).toNat := fun i hi => by
  rw [pmovzx, lane_pack _ _ _ _ hn hi, BitVec.toNat_setWidth_of_le hw]

/-- Settles O37: sign extension keeps the signed value of each field. -/
theorem pmovsxExtendsTheLowFields : Obligations.PmovsxExtendsTheLowFields := by
  unfold Obligations.PmovsxExtendsTheLowFields
  intro e d x
  exact ⟨xmmRule_of_exec (fun _ _ => pmovsx 8 16 8) (fun _ => rfl) fun _ => toInt_lane_pmovsx (by decide) (by decide),
    xmmRule_of_exec (fun _ _ => pmovsx 8 32 4) (fun _ => rfl) fun _ => toInt_lane_pmovsx (by decide) (by decide),
    xmmRule_of_exec (fun _ _ => pmovsx 8 64 2) (fun _ => rfl) fun _ => toInt_lane_pmovsx (by decide) (by decide),
    xmmRule_of_exec (fun _ _ => pmovsx 16 32 4) (fun _ => rfl) fun _ => toInt_lane_pmovsx (by decide) (by decide),
    xmmRule_of_exec (fun _ _ => pmovsx 16 64 2) (fun _ => rfl) fun _ => toInt_lane_pmovsx (by decide) (by decide),
    xmmRule_of_exec (fun _ _ => pmovsx 32 64 2) (fun _ => rfl) fun _ => toInt_lane_pmovsx (by decide) (by decide)⟩

/-- Settles O38: zero extension keeps the unsigned value of each field. -/
theorem pmovzxExtendsTheLowFields : Obligations.PmovzxExtendsTheLowFields := by
  unfold Obligations.PmovzxExtendsTheLowFields
  intro e d x
  exact ⟨xmmRule_of_exec (fun _ _ => pmovzx 8 16 8) (fun _ => rfl) fun _ => toNat_lane_pmovzx (by decide) (by decide),
    xmmRule_of_exec (fun _ _ => pmovzx 8 32 4) (fun _ => rfl) fun _ => toNat_lane_pmovzx (by decide) (by decide),
    xmmRule_of_exec (fun _ _ => pmovzx 8 64 2) (fun _ => rfl) fun _ => toNat_lane_pmovzx (by decide) (by decide),
    xmmRule_of_exec (fun _ _ => pmovzx 16 32 4) (fun _ => rfl) fun _ => toNat_lane_pmovzx (by decide) (by decide),
    xmmRule_of_exec (fun _ _ => pmovzx 16 64 2) (fun _ => rfl) fun _ => toNat_lane_pmovzx (by decide) (by decide),
    xmmRule_of_exec (fun _ _ => pmovzx 32 64 2) (fun _ => rfl) fun _ => toNat_lane_pmovzx (by decide) (by decide)⟩

end Sys2Proof.Machine

namespace Sys2Proof.Machine

/-! ## PMIN and PMAX (41_vector_primitives.md R120 to R128) -/

/-- A field of a field-wise result is the operation on the two fields. -/
theorem lane_lanewise {w i : Nat} (f : BitVec w → BitVec w → BitVec w) (a b : XWord) (hi : i < 128 / w) :
    lane w i (lanewise w f a b) = f (lane w i a) (lane w i b) :=
  lane_pack _ _ _ _ (Nat.mul_div_le 128 w) hi

theorem toInt_lane_minS (w : Nat) (a b : XWord) :
    ∀ i < 128 / w, (lane w i (lanewise w minS a b)).toInt = min (lane w i a).toInt (lane w i b).toInt := fun i hi => by
  rw [lane_lanewise _ _ _ hi, minS, apply_ite BitVec.toInt, min_def]

theorem toInt_lane_maxS (w : Nat) (a b : XWord) :
    ∀ i < 128 / w, (lane w i (lanewise w maxS a b)).toInt = max (lane w i a).toInt (lane w i b).toInt := fun i hi => by
  rw [lane_lanewise _ _ _ hi, maxS, apply_ite BitVec.toInt, max_def']

theorem toNat_lane_minU (w : Nat) (a b : XWord) :
    ∀ i < 128 / w, (lane w i (lanewise w minU a b)).toNat = min (lane w i a).toNat (lane w i b).toNat := fun i hi => by
  rw [lane_lanewise _ _ _ hi, minU, apply_ite BitVec.toNat, min_def]

theorem toNat_lane_maxU (w : Nat) (a b : XWord) :
    ∀ i < 128 / w, (lane w i (lanewise w maxU a b)).toNat = max (lane w i a).toNat (lane w i b).toNat := fun i hi => by
  rw [lane_lanewise _ _ _ hi, maxU, apply_ite BitVec.toNat, max_def']

/-- Settles O39: each of the eight is field-wise, and the comparison that chooses a field is that of `min` and `max`. -/
theorem minimaAndMaxima : Obligations.MinimaAndMaxima := by
  unfold Obligations.MinimaAndMaxima
  intro e d x
  exact ⟨xmmRule_of_exec (fun _ => lanewise 8 minS) (fun _ => rfl) fun s => toInt_lane_minS 8 (s.getXmm d),
    xmmRule_of_exec (fun _ => lanewise 16 minU) (fun _ => rfl) fun s => toNat_lane_minU 16 (s.getXmm d),
    xmmRule_of_exec (fun _ => lanewise 32 minS) (fun _ => rfl) fun s => toInt_lane_minS 32 (s.getXmm d),
    xmmRule_of_exec (fun _ => lanewise 32 minU) (fun _ => rfl) fun s => toNat_lane_minU 32 (s.getXmm d),
    xmmRule_of_exec (fun _ => lanewise 8 maxS) (fun _ => rfl) fun s => toInt_lane_maxS 8 (s.getXmm d),
    xmmRule_of_exec (fun _ => lanewise 16 maxU) (fun _ => rfl) fun s => toNat_lane_maxU 16 (s.getXmm d),
    xmmRule_of_exec (fun _ => lanewise 32 maxS) (fun _ => rfl) fun s => toInt_lane_maxS 32 (s.getXmm d),
    xmmRule_of_exec (fun _ => lanewise 32 maxU) (fun _ => rfl) fun s => toNat_lane_maxU 32 (s.getXmm d)⟩

/-! ## PMULDQ and PMULLD (41_vector_primitives.md R129, R130) -/

/-- A quadword holds the product of two signed doublewords. -/
theorem toInt_ofInt_mul (x y : BitVec 32) : (BitVec.ofInt 64 (x.toInt * y.toInt)).toInt = x.toInt * y.toInt := by
  have hle : x.toInt * y.toInt ≤ 2 ^ 62 := BitVec.toInt_mul_toInt_le
  have hge : -2 ^ 62 ≤ x.toInt * y.toInt := le_trans (by decide) BitVec.le_toInt_mul_toInt
  exact BitVec.toInt_ofInt_eq_self (by decide) (by omega) (by omega)

theorem toInt_lane_pmuldq (a b : XWord) :
    ∀ i < 2, (lane 64 i (pmuldq a b)).toInt = (lane 32 (2 * i) a).toInt * (lane 32 (2 * i) b).toInt := fun i hi => by
  rw [pmuldq, lane_pack _ _ _ _ (by decide) hi, toInt_ofInt_mul]

theorem toNat_lane_pmulld (a b : XWord) :
    ∀ i < 4, ((lane 32 i (pmulld a b)).toNat : Int) = ((lane 32 i a).toInt * (lane 32 i b).toInt) % 2 ^ 32 := fun i hi => by
  rw [pmulld, lane_lanewise _ _ _ hi, BitVec.toNat_ofInt]
  exact Int.toNat_of_nonneg (Int.emod_nonneg _ (by decide))

/-- Settles O40: the exact products of doublewords fit in 64 bits, and PMULLD keeps their remainder modulo 2^32. -/
theorem integerProducts : Obligations.IntegerProducts := by
  unfold Obligations.IntegerProducts
  intro e d x
  exact ⟨xmmRule_of_exec (fun _ => pmuldq) (fun _ => rfl) fun s => toInt_lane_pmuldq (s.getXmm d),
    xmmRule_of_exec (fun _ => pmulld) (fun _ => rfl) fun s => toNat_lane_pmulld (s.getXmm d)⟩

/-! ## PACKUSDW and PCMPEQQ (41_vector_primitives.md R131, R132) -/

theorem satU16_eq (n : Int) : satU16 n = max 0 (min 65535 n) := by
  unfold satU16
  split
  · omega
  · split <;> omega

/-- A word holds a saturated value. -/
theorem toNat_ofInt_satU16 (n : Int) : ((BitVec.ofInt 16 (satU16 n)).toNat : Int) = max 0 (min 65535 n) := by
  rw [BitVec.toNat_ofInt, satU16_eq]
  omega

theorem toNat_lane_packusdw (a b : XWord) {i : Nat} (hi : i < 8) :
    ((lane 16 i (packusdw a b)).toNat : Int) =
      max 0 (min 65535 (if i < 4 then (lane 32 i a).toInt else (lane 32 (i - 4) b).toInt)) := by
  rw [packusdw, lane_pack _ _ _ _ (by decide) hi, toNat_ofInt_satU16]

theorem lane_pcmpeqq (a b : XWord) {i : Nat} (hi : i < 2) :
    lane 64 i (pcmpeqq a b) = if lane 64 i a = lane 64 i b then BitVec.allOnes 64 else 0 :=
  lane_lanewise _ a b hi

/-- Settles O41: the low words come from DEST and the high ones from SRC, and a quadword of PCMPEQQ's result is one of two values. -/
theorem packAndCompare : Obligations.PackAndCompare := by
  unfold Obligations.PackAndCompare
  intro e d x
  refine ⟨xmmRule_of_exec (fun _ => packusdw) (fun _ => rfl) fun s v i hi => ?_,
    xmmRule_of_exec (fun _ => pcmpeqq) (fun _ => rfl) fun s v i hi => ?_⟩
  · have hlow := toNat_lane_packusdw (s.getXmm d) v (show i < 8 by omega)
    have hhigh := toNat_lane_packusdw (s.getXmm d) v (show i + 4 < 8 by omega)
    rw [if_pos hi] at hlow
    rw [if_neg (by omega), Nat.add_sub_cancel] at hhigh
    exact ⟨hlow, hhigh⟩
  · have hfield := lane_pcmpeqq (s.getXmm d) v hi
    exact ⟨fun heq => hfield.trans (if_pos heq), fun hne => hfield.trans (if_neg hne)⟩

end Sys2Proof.Machine

namespace Sys2Proof.Machine

/-! ## Immediates that number a field (42_insert_extract.md R140 to R148) -/

theorem fieldNumber_eq (k : Nat) (imm : Byte) : fieldNumber k imm = imm.toNat % 2 ^ k := by
  rw [fieldNumber, BitVec.extractLsb'_toNat, Nat.shiftRight_zero]

/-- Bits 5:4 of an immediate. -/
theorem toNat_extractLsb'_four_two (imm : Byte) : (imm.extractLsb' 4 2).toNat = imm.toNat / 16 % 4 := by
  rw [BitVec.extractLsb'_toNat, Nat.shiftRight_eq_div_pow]

/-- Bits 7:6 of an immediate. -/
theorem toNat_extractLsb'_six_two (imm : Byte) : (imm.extractLsb' 6 2).toNat = imm.toNat / 64 := by
  rw [BitVec.extractLsb'_toNat, Nat.shiftRight_eq_div_pow]
  have := imm.isLt
  omega

/-! ## INSERTPS (42_insert_extract.md R140) -/

theorem insertpsField_reg (q : Reg) (imm : Byte) (v : XWord) : insertpsField (.reg q) imm v = lane 32 (imm.toNat / 64) v := by
  rw [insertpsField, toNat_extractLsb'_six_two]

theorem insertpsField_mem (m : Mem) (imm : Byte) (v : XWord) : insertpsField (.mem m) imm v = lane 32 0 v := rfl

/-- The fields of INSERTPS's result: the zero mask, then the inserted field, then the old ones. -/
theorem lane_insertps (src : Rm) (imm : Byte) (a v : XWord) {i : Nat} (hi : i < 4) :
    lane 32 i (insertps src imm a v) =
      if imm.getLsbD i then 0 else if i = imm.toNat / 16 % 4 then insertpsField src imm v else lane 32 i a := by
  rw [insertps, lane_pack _ _ _ _ (by decide) hi, toNat_extractLsb'_four_two]

/-- Settles O42: the clauses are the branches of `lane_insertps`. -/
theorem insertpsInsertsThenZeroes : Obligations.InsertpsInsertsThenZeroes := by
  unfold Obligations.InsertpsInsertsThenZeroes
  intro e d x imm
  refine xmmRule_of_exec (fun _ => insertps x imm) (fun _ => rfl) fun s v i hi => ?_
  have hfield := lane_insertps x imm (s.getXmm d) v hi
  refine ⟨fun hmask => ?zeroed, fun hmask hnumber => ?inserted, fun hmask hnumber => ?kept⟩
  case zeroed => exact hfield.trans (if_pos hmask)
  case inserted =>
    rw [hmask, if_neg Bool.false_ne_true, if_pos hnumber] at hfield
    exact ⟨fun q hx => hfield.trans (hx ▸ insertpsField_reg q imm v), fun m hx => hfield.trans (hx ▸ insertpsField_mem m imm v)⟩
  case kept => rwa [hmask, if_neg Bool.false_ne_true, if_neg hnumber] at hfield

/-! ## Instructions of mode64 only (30_encoding.md R80) -/

theorem Ready.mode_ne_mode32 {i : Instr} {s : State} (h : Ready i s) (hw : i.requiredW = some true) : s.mode ≠ .mode32 := by
  obtain ⟨-, hmode, -⟩ := h
  rw [hmode hw]
  decide

theorem mode64_of_exec_next {i : Instr} {s t : State} (hw : i.requiredW = some true) (h : exec i s = .next t) : s.mode = .mode64 := by
  obtain ⟨⟨-, hmode, -⟩, -⟩ := exec_next h
  exact hmode hw

/-! ## PINSRx (42_insert_extract.md R142 to R144) -/

/-- Where the extension is enabled and the source raises nothing, `execRMIG` writes `f DEST SRC` and advances. -/
theorem execRMIG_eq_next {s : State} {n : Nat} {e : Enc} {dst : Reg} {src : Rm} {f : XWord → XWord → XWord} (henabled : Enabled s)
    (hread : ReadOk s n false e (len3A e src) src) : execRMIG s n e dst src f =
      .next ((s.setXmm dst (f (s.getXmm dst) (srcGpr s n e (len3A e src) src))).advance (len3A e src)) := by
  rw [execRMIG, gate_of_enabled henabled, andThen_next, gprOperand_eq_next.mpr ⟨hread, rfl⟩, andThen_next]

/-- An instruction whose meaning is `execRMIG` keeps its rule when what it writes is as the rule says. -/
theorem gprRule_of_exec {i : Instr} {post : State → XWord → XWord → Prop} (f : XWord → XWord → XWord) (hclass : i.excClass = .n)
    (hlen : i.len = len3A i.operands.enc i.operands.rm)
    (hexec : ∀ s, Ready i s → exec i s = execRMIG s i.memBytes i.operands.enc i.operands.reg i.operands.rm f)
    (hpost : ∀ s v, post s v (f (s.getXmm i.operands.reg) v)) :
    GRule i i.key i.memBytes i.operands.reg i.operands.rm post where
  key := rfl
  faults _ _ h := hclass ▸ exec_mayRaise h
  runs s hready hread := by
    have ⟨henabled, _⟩ := hready
    rw [hlen] at hread ⊢
    refine ⟨_, (hexec s hready).trans (execRMIG_eq_next henabled hread), ?_, frame_setXmm_advance .., rfl, rfl⟩
    rw [State.getXmm_advance, State.getXmm_setXmm]
    exact hpost s _

/-- Inserting a field replaces that field alone. -/
theorem lane_insertField (w k : Nat) (imm : Byte) (a v : XWord) : ∀ i < 128 / w,
    (i = imm.toNat % 2 ^ k → (lane w i (insertField w k imm a v)).toNat = v.toNat % 2 ^ w) ∧
    (i ≠ imm.toNat % 2 ^ k → lane w i (insertField w k imm a v) = lane w i a) := fun i hi => by
  rw [insertField, lane_setLane _ _ _ _ _ hi, fieldNumber_eq]
  exact ⟨fun heq => by rw [if_pos heq, BitVec.toNat_setWidth], fun hne => if_neg hne⟩

/-- Settles O43: each of the three inserts one field, and PINSRQ is ready in mode64 alone. -/
theorem pinsrReplacesOneField : Obligations.PinsrReplacesOneField := by
  unfold Obligations.PinsrReplacesOneField
  intro e d x imm
  exact ⟨⟨rfl, rfl, rfl, fun _ _ => mode64_of_exec_next rfl⟩,
    gprRule_of_exec (insertField 8 4 imm) rfl rfl (fun _ _ => rfl) fun s => lane_insertField 8 4 imm (s.getXmm d),
    gprRule_of_exec (insertField 32 2 imm) rfl rfl (fun _ _ => rfl) fun s => lane_insertField 32 2 imm (s.getXmm d),
    gprRule_of_exec (insertField 64 1 imm) rfl rfl (fun _ hready => if_neg (hready.mode_ne_mode32 rfl))
      fun s => lane_insertField 64 1 imm (s.getXmm d)⟩

/-! ## EXTRACTPS and PEXTRx (42_insert_extract.md R141, R145 to R148) -/

/-- The write of one general register, with the advance of RIP, leaves everything else as it was. -/
theorem frame_setGpr_advance (s : State) (dst : Reg) (v : Quad) (len : Nat) :
    Frame s ((s.setGpr dst v).advance len) len none (some dst) 0 0 where
  system := by constructor <;> rfl
  rip := rfl
  xmm _ _ := rfl
  gpr r hr := s.gpr_setGpr_ne v fun h => hr (congrArg some h)
  mem _ _ := rfl

/-- A store, with the advance of RIP, leaves everything but its bytes as it was. -/
theorem frame_writeLE_advance (s : State) (a n : Nat) (v : XWord) (len : Nat) :
    Frame s (State.advance { s with mem := s.mem.writeLE a n v } len) len none none a n where
  system := by constructor <;> rfl
  rip := rfl
  xmm _ _ := rfl
  gpr _ _ := rfl
  mem _ hb := s.mem.read_writeLE_ne v hb

@[simp] theorem State.getGpr_setGpr (s : State) (r : Reg) (v : Quad) : (s.setGpr r v).getGpr r = modeWidth s.mode v := by
  rw [State.getGpr, State.setGpr_mode, State.gpr_setGpr, modeWidth_modeWidth]

theorem extractField_eq (w k : Nat) (imm : Byte) (v : XWord) : extractField w k imm v = (lane w (imm.toNat % 2 ^ k) v).setWidth 128 := by
  rw [extractField, fieldNumber_eq]

/-- A byte of a zero-extended value is a byte of the value, or 0 above it. -/
theorem extractLsb'_setWidth {w : Nat} (hw : w ≤ 128) (v : BitVec w) (k : Nat) :
    (v.setWidth 128).extractLsb' (8 * k) 8 = v.extractLsb' (8 * k) 8 := by
  rw [← BitVec.toNat_inj, BitVec.extractLsb'_toNat, BitVec.extractLsb'_toNat, BitVec.toNat_setWidth_of_le hw]

section
variable {s : State} {n : Nat} {e : Enc} {v : XWord}

/-- Where the extension is enabled, the register form of `execMRIG` writes the register and advances. -/
theorem execMRIG_reg {r : Reg} (henabled : Enabled s) :
    execMRIG s n e (.reg r) v = .next ((s.setGpr r (v.setWidth 64)).advance (len3A e (.reg r))) := by
  rw [execMRIG, gate_of_enabled henabled, andThen_next, writeGprOrMem, andThen_next]

/-- Where the extension is enabled and the operand can be written, the memory form of `execMRIG` stores its bytes and advances. -/
theorem execMRIG_mem {m : Mem} (henabled : Enabled s) (hwrite : WriteOk s n e (len3A e (.mem m)) (.mem m)) :
    execMRIG s n e (.mem m) v = .next (State.advance { s with mem := s.mem.writeLE (addrOf s e (len3A e (.mem m)) m) n v }
      (len3A e (.mem m))) := by
  rw [execMRIG, gate_of_enabled henabled, andThen_next, writeGprOrMem, storeOperand_eq_next.mpr ⟨hwrite, rfl⟩, andThen_next]

end

/-- An instruction whose meaning is `execMRIG` keeps its rule when it extracts the field that the low `k` bits of imm8 number. -/
theorem extractRule_of_exec {i : Instr} {w : Nat} (k : Nat) (imm : Byte) (hclass : i.excClass = .nw)
    (hlen : i.len = len3A i.operands.enc i.operands.rm) (h128 : w ≤ 128) (hw : w ≤ 32 ∨ i.requiredW = some true)
    (hexec : ∀ s, Ready i s → exec i s =
      execMRIG s i.memBytes i.operands.enc i.operands.rm (extractField w k imm (s.getXmm i.operands.reg))) :
    ExtractRule i i.key i.memBytes w i.operands.rm fun s => lane w (imm.toNat % 2 ^ k) (s.getXmm i.operands.reg) where
  key := rfl
  faults _ _ h := hclass ▸ exec_mayRaise h
  toRegister s r hr hready := by
    have ⟨henabled, hmode, _⟩ := hready
    have hnext := hexec s hready
    rw [hr, execMRIG_reg henabled, ← hr, ← hlen, extractField_eq, BitVec.setWidth_setWidth_of_le _ (by decide)] at hnext
    refine ⟨_, hnext, ?_, frame_setGpr_advance .., rfl, rfl⟩
    rw [State.getGpr_advance, State.getGpr_setGpr]
    exact modeWidth_setWidth _ _ (hw.imp_right hmode)
  toMemory s m hm hready hwrite := by
    have ⟨henabled, _⟩ := hready
    have hnext := hexec s hready
    rw [hm] at hlen hnext
    rw [hlen] at hwrite ⊢
    rw [execMRIG_mem henabled hwrite, extractField_eq] at hnext
    refine ⟨_, hnext, fun j hj => ?_, frame_writeLE_advance .., rfl, rfl⟩
    rw [State.advance_mem, Memory.read_writeLE _ _ hj, extractLsb'_setWidth h128]

/-- Settles O44: each of the five extracts one field, and PEXTRQ is ready in mode64 alone. -/
theorem extractsMoveOneField : Obligations.ExtractsMoveOneField := by
  unfold Obligations.ExtractsMoveOneField
  intro e x q imm
  exact ⟨⟨rfl, rfl, rfl, rfl, rfl, fun _ _ => mode64_of_exec_next rfl⟩,
    extractRule_of_exec 2 imm rfl rfl (by decide) (.inl (by decide)) fun _ _ => rfl,
    extractRule_of_exec 4 imm rfl rfl (by decide) (.inl (by decide)) fun _ _ => rfl,
    extractRule_of_exec 3 imm rfl rfl (by decide) (.inl (by decide)) fun _ _ => rfl,
    extractRule_of_exec 2 imm rfl rfl (by decide) (.inl (by decide)) fun _ _ => rfl,
    extractRule_of_exec 1 imm rfl rfl (by decide) (.inr rfl) fun _ hready => if_neg (hready.mode_ne_mode32 rfl)⟩

end Sys2Proof.Machine

namespace Sys2Proof.Machine

/-! ## The fields of a floating-point format (43_dot_product.md R150) -/

/-- A format with normals, denormals and NaNs: what the facts about fields need of the two widths. -/
structure FpFmt.Proper (k : FpFmt) : Prop where
  two_le_ew : 2 ≤ k.ew
  one_le_fw : 1 ≤ k.fw

theorem fmt32_proper : fmt32.Proper := ⟨by decide, by decide⟩
theorem fmt64_proper : fmt64.Proper := ⟨by decide, by decide⟩

section
variable {k : FpFmt}

theorem FpFmt.Proper.emax_eq (hk : k.Proper) : k.emax = 2 * k.bias + 1 := by
  have hew := hk.two_le_ew
  have hpow : 2 ^ k.ew = 2 * 2 ^ (k.ew - 1) := by rw [← Nat.pow_succ']; congr 1; omega
  have hpos := Nat.two_pow_pos (k.ew - 1)
  simp only [FpFmt.emax, FpFmt.bias]
  omega

theorem FpFmt.Proper.one_le_bias (hk : k.Proper) : 1 ≤ k.bias := by
  have hew := hk.two_le_ew
  have hpow : 2 ^ 1 ≤ 2 ^ (k.ew - 1) := Nat.pow_le_pow_right (by decide) (by omega)
  simp only [FpFmt.bias]
  omega

theorem FpFmt.emax_lt (k : FpFmt) : k.emax < 2 ^ k.ew := Nat.sub_lt (Nat.two_pow_pos _) (by decide)

theorem FpFmt.frac_lt (k : FpFmt) (v : Nat) : k.frac v < 2 ^ k.fw := Nat.mod_lt _ (Nat.two_pow_pos _)

theorem FpFmt.exp_lt (k : FpFmt) (v : Nat) : k.exp v < 2 ^ k.ew := Nat.mod_lt _ (Nat.two_pow_pos _)

/-- A field as sign bit, exponent field and fraction laid side by side. -/
theorem FpFmt.mk'_eq (k : FpFmt) (sg : Bool) (e f : Nat) : k.mk' sg e f = f + 2 ^ k.fw * (e + 2 ^ k.ew * sg.toNat) := by
  rw [FpFmt.mk', Nat.pow_add]
  ring

theorem FpFmt.frac_mk' (sg : Bool) (e : Nat) {f : Nat} (hf : f < 2 ^ k.fw) : k.frac (k.mk' sg e f) = f := by
  rw [FpFmt.frac, FpFmt.mk'_eq, Nat.add_mul_mod_self_left, Nat.mod_eq_of_lt hf]

theorem FpFmt.exp_mk' (sg : Bool) {e f : Nat} (he : e < 2 ^ k.ew) (hf : f < 2 ^ k.fw) : k.exp (k.mk' sg e f) = e := by
  rw [FpFmt.exp, FpFmt.mk'_eq, Nat.add_mul_div_left _ _ (Nat.two_pow_pos _), Nat.div_eq_of_lt hf, Nat.zero_add,
    Nat.add_mul_mod_self_left, Nat.mod_eq_of_lt he]

theorem FpFmt.mk'_lt (sg : Bool) {e f : Nat} (he : e < 2 ^ k.ew) (hf : f < 2 ^ k.fw) : k.mk' sg e f < 2 ^ (1 + k.ew + k.fw) := by
  have hlow : e * 2 ^ k.fw + f < 2 ^ (k.ew + k.fw) := by
    calc e * 2 ^ k.fw + f < (e + 1) * 2 ^ k.fw := by rw [Nat.succ_mul]; omega
      _ ≤ 2 ^ (k.ew + k.fw) := by rw [Nat.pow_add]; exact Nat.mul_le_mul_right _ he
  have hsign : sg.toNat * 2 ^ (k.ew + k.fw) ≤ 2 ^ (k.ew + k.fw) := (Nat.mul_le_mul_right _ sg.toNat_le).trans_eq (Nat.one_mul _)
  rw [FpFmt.mk', Nat.add_assoc 1, Nat.add_comm 1, Nat.pow_succ]
  omega

theorem FpFmt.sign_mk' (sg : Bool) {e f : Nat} (he : e < 2 ^ k.ew) (hf : f < 2 ^ k.fw) : k.sign (k.mk' sg e f) = sg := by
  rw [FpFmt.sign, Nat.testBit_eq_decide_div_mod_eq, Nat.add_comm, Nat.pow_add, FpFmt.mk'_eq, ← Nat.div_div_eq_div_mul,
    Nat.add_mul_div_left _ _ (Nat.two_pow_pos _), Nat.div_eq_of_lt hf, Nat.zero_add,
    Nat.add_mul_div_left _ _ (Nat.two_pow_pos _), Nat.div_eq_of_lt he]
  cases sg <;> rfl

/-- A number of the format's width is the field of its parts. -/
theorem FpFmt.mk'_parts {v : Nat} (hv : v < 2 ^ (1 + k.ew + k.fw)) : k.mk' (k.sign v) (k.exp v) (k.frac v) = v := by
  have hhigh : v / 2 ^ k.fw / 2 ^ k.ew < 2 := by
    rw [Nat.div_div_eq_div_mul, ← Nat.pow_add]
    apply Nat.div_lt_of_lt_mul
    rwa [← Nat.pow_succ, show (k.fw + k.ew).succ = 1 + k.ew + k.fw by omega]
  have hsign : (k.sign v).toNat = v / 2 ^ k.fw / 2 ^ k.ew := by
    rw [FpFmt.sign, Nat.testBit_eq_decide_div_mod_eq, Nat.add_comm, Nat.pow_add, ← Nat.div_div_eq_div_mul]
    generalize v / 2 ^ k.fw / 2 ^ k.ew = h at hhigh
    interval_cases h <;> rfl
  rw [FpFmt.mk'_eq, hsign, FpFmt.exp, FpFmt.frac, Nat.mod_add_div, Nat.mod_add_div]

end

end Sys2Proof.Machine

namespace Sys2Proof.Machine

/-! ## The number a field stands for (43_dot_product.md R150) -/

/-- The factor that a sign bit contributes. -/
def signFactor (neg : Bool) : ℚ := if neg then -1 else 1

section
variable {neg : Bool} {a b : ℚ}

@[simp] theorem signFactor_false : signFactor false = 1 := rfl
@[simp] theorem signFactor_true : signFactor true = -1 := rfl

@[simp] theorem abs_signFactor_mul : |signFactor neg * a| = |a| := by cases neg <;> simp

theorem signFactor_mul_self : signFactor neg * signFactor neg = 1 := by cases neg <;> simp

theorem signFactor_ne_zero : signFactor neg ≠ 0 := by cases neg <;> simp

theorem signFactor_xor (neg neg' : Bool) : signFactor (neg != neg') = signFactor neg * signFactor neg' := by
  cases neg <;> cases neg' <;> simp

/-- A sign and a positive magnitude make a negative number exactly when the sign bit is set. -/
theorem signFactor_mul_neg_iff (ha : 0 < a) : signFactor neg * a < 0 ↔ neg = true := by
  cases neg
  · simp [ha.le]
  · simp [ha]

end

section
variable {k : FpFmt}

/-- Two sides of `value` in one: the significand times its unit. -/
theorem FpFmt.value_eq (v : Nat) : k.value v = signFactor (k.sign v) * (k.mant v * (2 : ℚ) ^ k.qexp v) := by
  unfold FpFmt.value FpFmt.mant FpFmt.qexp signFactor
  by_cases he : k.exp v = 0
  · simp [he]
  · simp [he, Nat.one_le_iff_ne_zero.mpr he]

theorem FpFmt.qmin_le_qexp (v : Nat) : k.qmin ≤ k.qexp v := by
  unfold FpFmt.qmin FpFmt.qexp
  omega

/-- The value of a zero or a denormal. -/
theorem FpFmt.value_mk'_zero (neg : Bool) {f : Nat} (hf : f < 2 ^ k.fw) :
    k.value (k.mk' neg 0 f) = signFactor neg * (f * (2 : ℚ) ^ k.qmin) := by
  have he := Nat.two_pow_pos k.ew
  rw [FpFmt.value, FpFmt.sign_mk' neg he hf, FpFmt.exp_mk' neg he hf, if_pos rfl, FpFmt.frac_mk' neg 0 hf]
  rfl

/-- The value of a normal number, by its significand. -/
theorem FpFmt.value_mk'_normal (neg : Bool) {e q : Nat} (he : e < 2 ^ k.ew) (h1 : 1 ≤ e) (hq : 2 ^ k.fw ≤ q) (hq' : q < 2 ^ (k.fw + 1)) :
    k.value (k.mk' neg e (q - 2 ^ k.fw)) = signFactor neg * (q * (2 : ℚ) ^ ((e : Int) - k.bias - k.fw)) := by
  have hf : q - 2 ^ k.fw < 2 ^ k.fw := by rw [Nat.pow_succ] at hq'; omega
  rw [FpFmt.value, FpFmt.sign_mk' neg he hf, FpFmt.exp_mk' neg he hf, if_neg (show e ≠ 0 by omega), FpFmt.frac_mk' neg e hf,
    Nat.add_sub_cancel' hq]
  rfl

/-- A field is finite when it is of the format's width and its exponent is not the greatest. -/
theorem FpFmt.finite_mk' (neg : Bool) {e f : Nat} (he : e < k.emax) (hf : f < 2 ^ k.fw) : k.Finite (k.mk' neg e f) := by
  have he' := he.trans k.emax_lt
  exact ⟨FpFmt.mk'_lt neg he' hf, by rw [FpFmt.exp_mk' neg he' hf]; exact he.ne⟩

/-- The largest finite number has the greatest significand and the greatest unit. -/
theorem FpFmt.Proper.value_maxFinite (hk : k.Proper) :
    k.value (k.maxFinite false) = ((2 ^ (k.fw + 1) - 1 : Nat) : ℚ) * (2 : ℚ) ^ k.qmax := by
  have hbias := hk.one_le_bias
  have hemax := hk.emax_eq
  have hlt := k.emax_lt
  have hpow : 2 ^ (k.fw + 1) = 2 * 2 ^ k.fw := Nat.pow_succ'
  have hpos := Nat.two_pow_pos k.fw
  have := FpFmt.value_mk'_normal (k := k) false (e := k.emax - 1) (q := 2 ^ (k.fw + 1) - 1) (by omega) (by omega) (by omega) (by omega)
  rw [show 2 ^ (k.fw + 1) - 1 - 2 ^ k.fw = 2 ^ k.fw - 1 by omega] at this
  rw [FpFmt.maxFinite, this, signFactor_false, one_mul, FpFmt.qmax, Nat.cast_sub (show 1 ≤ k.emax by omega), Nat.cast_one]

/-- A finite field is worth zero exactly when it is a zero. -/
theorem FpFmt.value_eq_zero_iff (v : Nat) : k.value v = 0 ↔ k.isZero v = true := by
  have hpow : ∀ z : Int, (2 : ℚ) ^ z ≠ 0 := fun z => zpow_ne_zero z (by decide)
  have hfw := Nat.two_pow_pos k.fw
  simp only [FpFmt.value_eq, mul_eq_zero, hpow, signFactor_ne_zero, false_or, or_false, Nat.cast_eq_zero, FpFmt.mant,
    FpFmt.isZero, Bool.and_eq_true,    beq_iff_eq]
  split
  next he => simp [he]
  next he => simp only [he, false_and, iff_false]; omega

end

end Sys2Proof.Machine

namespace Sys2Proof.Machine

/-! ## Rounding a magnitude to an integer (10_state.md R28, 43_dot_product.md R151) -/

/-- `n` is the magnitude `a` rounded to an integer under `rc`, `neg` the sign of the number; `q` is the integer part of `a`. -/
structure RoundsMagnitude (rc : BitVec 2) (neg : Bool) (a : ℚ) (q n : Nat) : Prop where
  floor_le : (q : ℚ) ≤ a
  lt_succ : a < q + 1
  adjacent : n = q ∨ n = q + 1 ∧ (q : ℚ) < a
  nearest : rc = 0 → |(n : ℚ) - a| ≤ 1 / 2 ∧ (|(n : ℚ) - a| = 1 / 2 → n % 2 = 0)
  below : rc = 1 → (neg = false → (n : ℚ) ≤ a) ∧ (neg = true → a ≤ n)
  above : rc = 2 → (neg = false → a ≤ n) ∧ (neg = true → (n : ℚ) ≤ a)
  within : rc = 3 → (n : ℚ) ≤ a

section
variable {rc : BitVec 2} {neg : Bool} {a p : ℚ} {q n : Nat}

/-- Dropping a part `p` of less than one is the rounding where the mode and the sign say so. -/
theorem RoundsMagnitude.down (h0 : 0 ≤ p) (h1 : p < 1) (hnear : rc = 0 → p ≤ 1 / 2 ∧ (p = 1 / 2 → q % 2 = 0))
    (hbelow : rc = 1 → neg = true → p = 0) (habove : rc = 2 → neg = false → p = 0) : RoundsMagnitude rc neg (q + p) q q where
  floor_le := by linarith
  lt_succ := by linarith
  adjacent := .inl rfl
  nearest hrc := by
    rw [sub_add_cancel_left, abs_neg, abs_of_nonneg h0]
    exact hnear hrc
  below hrc := ⟨fun _ => by linarith, fun hneg => by linarith [hbelow hrc hneg]⟩
  above hrc := ⟨fun hneg => by linarith [habove hrc hneg], fun _ => by linarith⟩
  within _ := by linarith

/-- Completing a part `p` of less than one is the rounding where the mode and the sign say so. -/
theorem RoundsMagnitude.up (h0 : 0 < p) (h1 : p < 1) (hnear : rc = 0 → 1 / 2 ≤ p ∧ (p = 1 / 2 → (q + 1) % 2 = 0))
    (hbelow : rc = 1 → neg = true) (habove : rc = 2 → neg = false) (hwithin : rc ≠ 3) : RoundsMagnitude rc neg (q + p) q (q + 1) where
  floor_le := by linarith
  lt_succ := by linarith
  adjacent := .inr ⟨rfl, by linarith⟩
  nearest hrc := by
    obtain ⟨hle, heven⟩ := hnear hrc
    rw [Nat.cast_succ, add_sub_add_left_eq_sub, abs_of_nonneg (by linarith)]
    exact ⟨by linarith, fun heq => heven (by linarith)⟩
  below hrc := by simpa [hbelow hrc] using h1.le
  above hrc := by simpa [habove hrc] using h1.le
  within hrc := absurd hrc hwithin

/-- An integer is its own rounding. -/
theorem RoundsMagnitude.self (rc : BitVec 2) (neg : Bool) (n : Nat) : RoundsMagnitude rc neg n n n := by
  have := RoundsMagnitude.down (rc := rc) (neg := neg) (q := n) (le_refl (0 : ℚ)) one_pos (fun _ => by norm_num) (fun _ _ => rfl)
    fun _ _ => rfl
  rwa [add_zero] at this

/-- Rounding keeps the magnitude exactly when it is an integer. -/
theorem RoundsMagnitude.exact_iff (h : RoundsMagnitude rc neg a q n) : (n : ℚ) = a ↔ (q : ℚ) = a := by
  rcases h.adjacent with rfl | ⟨rfl, hlt⟩
  · rfl
  · exact ⟨fun heq => absurd h.lt_succ (by rw [← heq, Nat.cast_succ]; exact lt_irrefl _),
    fun heq => absurd hlt (by rw [heq]; exact lt_irrefl _)⟩

end

/-- A quotient of natural numbers is its integer part and the remainder's share of the divisor. -/
theorem cast_div_eq (m : Nat) {d : Nat} (hd : 0 < d) : (m : ℚ) / d = (m / d : Nat) + (m % d : Nat) / d := by
  have hd' : (d : ℚ) ≠ 0 := by positivity
  have hm : (m : ℚ) = d * (m / d : Nat) + (m % d : Nat) := by exact_mod_cast (Nat.div_add_mod m d).symm
  field_simp
  linarith

/-- The four rounding modes. -/
theorem rc_cases : ∀ rc : BitVec 2, rc = 0 ∨ rc = 1 ∨ rc = 2 ∨ rc = 3 := by decide

/-- What `roundUp` decides, mode by mode. -/
theorem roundUp_iff (rc : BitVec 2) (neg odd : Bool) (r d : Nat) : roundUp rc neg odd r d = true ↔
    rc = 0 ∧ (d < 2 * r ∨ 2 * r = d ∧ odd = true) ∨ rc = 1 ∧ neg = true ∧ r ≠ 0 ∨ rc = 2 ∧ neg = false ∧ r ≠ 0 := by
  rcases rc_cases rc with rfl | rfl | rfl | rfl <;> simp [roundUp]

/-- A quotient with `roundUp` is the rounding of the magnitude. -/
theorem roundsMagnitude_div (rc : BitVec 2) (neg : Bool) (m : Nat) {d : Nat} (hd : 0 < d) :
    RoundsMagnitude rc neg (m / d) (m / d) (if roundUp rc neg (m / d % 2 == 1) (m % d) d then m / d + 1 else m / d) := by
  rw [cast_div_eq m hd]
  generalize m / d = q
  have hr : m % d < d := Nat.mod_lt _ hd
  generalize m % d = r at hr
  have hd' : (0 : ℚ) < d := Nat.cast_pos.mpr hd
  have hpart : (r : ℚ) / d < 1 := (div_lt_one hd').mpr (Nat.cast_lt.mpr hr)
  have hle_half : (r : ℚ) / d ≤ 1 / 2 ↔ 2 * r ≤ d := by
    rw [div_le_div_iff₀ hd' two_pos]
    norm_cast
    omega
  have hhalf_le : 1 / 2 ≤ (r : ℚ) / d ↔ d ≤ 2 * r := by
    rw [div_le_div_iff₀ two_pos hd']
    norm_cast
    omega
  split
  next hup =>
    rw [roundUp_iff] at hup
    have hr0 : 0 < r := by rcases hup with ⟨-, h⟩ | ⟨-, -, h⟩ | ⟨-, -, h⟩ <;> omega
    refine .up (div_pos (Nat.cast_pos.mpr hr0) hd') hpart ?nearest ?below ?above ?within
    case nearest =>
      rintro rfl
      have hup : d < 2 * r ∨ 2 * r = d ∧ q % 2 = 1 := by simpa using hup
      refine ⟨hhalf_le.mpr (by omega), fun heq => ?_⟩
      have := hle_half.mp heq.le
      omega
    case below => rintro rfl; simpa [hr0.ne'] using hup
    case above => rintro rfl; simpa [hr0.ne'] using hup
    case within => rintro rfl; simp at hup
  next hup =>
    rw [roundUp_iff] at hup
    refine .down (by positivity) hpart ?_ ?_ ?_
    · rintro rfl
      have hup : 2 * r ≤ d ∧ (2 * r = d → q % 2 = 0) := by simpa using hup
      refine ⟨hle_half.mpr hup.1, fun heq => hup.2 ?_⟩
      have := hhalf_le.mp heq.ge
      omega
    · rintro rfl hneg
      have : r = 0 := by simpa [hneg] using hup
      simp [this]
    · rintro rfl hneg
      have : r = 0 := by simpa [hneg] using hup
      simp [this]

/-- `scaleRound` rounds the scaled magnitude, and says whether that changed it. -/
theorem scaleRound_spec (rc : BitVec 2) (neg : Bool) (m : Nat) (sh : Int) : ∃ q,
    RoundsMagnitude rc neg (m * (2 : ℚ) ^ (-sh)) q (scaleRound rc neg m sh).1 ∧
    ((scaleRound rc neg m sh).2 = false ↔ ((scaleRound rc neg m sh).1 : ℚ) = m * (2 : ℚ) ^ (-sh)) := by
  unfold scaleRound
  by_cases hsh : sh ≤ 0
  · have hexact : ((m * 2 ^ (-sh).toNat : Nat) : ℚ) = m * (2 : ℚ) ^ (-sh) := by
      push_cast
      rw [← zpow_natCast, Int.toNat_of_nonneg (by omega)]
    rw [if_pos hsh, ← hexact]
    exact ⟨_, .self .., by simp⟩
  · have hscale : (m : ℚ) * (2 : ℚ) ^ (-sh) = m / (2 ^ sh.toNat : Nat) := by
      rw [zpow_neg, ← div_eq_mul_inv]
      push_cast
      rw [← zpow_natCast, Int.toNat_of_nonneg (by omega)]
    have hd := Nat.two_pow_pos sh.toNat
    have hround := roundsMagnitude_div rc neg m hd
    rw [if_neg hsh, hscale]
    refine ⟨_, hround, ?_⟩
    rw [hround.exact_iff, cast_div_eq m hd]
    simp

end Sys2Proof.Machine

namespace Sys2Proof.Machine

/-! ## Rounding to a set of numbers (43_dot_product.md R151)

`Rounds` and `RoundsFree` say the same of two sets: the values of finite fields, and the numbers of bounded precision. Both sets have no
member strictly between two neighbouring multiples of a unit, and this alone makes a rounded magnitude a rounding. -/

/-- `y` is `x` rounded under `rc` to the set `S`; `even` holds of the one that is taken of two nearest. -/
structure RoundsTo (S : ℚ → Prop) (even : Prop) (rc : BitVec 2) (x y : ℚ) : Prop where
  nearest : rc = 0 → ∀ z, S z → |y - x| ≤ |z - x| ∧ (|y - x| = |z - x| → z ≠ y → even)
  below : rc = 1 → y ≤ x ∧ ∀ z, S z → z ≤ x → z ≤ y
  above : rc = 2 → x ≤ y ∧ ∀ z, S z → x ≤ z → y ≤ z
  within : rc = 3 → |y| ≤ |x| ∧ ∀ z, S z → |z| ≤ |x| → |z| ≤ |y|

/-- `w` does not lie strictly between `q` and `q + 1` units. -/
def Skips (u : ℚ) (q : Nat) (w : ℚ) : Prop := w ≤ q * u ∨ (q + 1) * u ≤ w

theorem skips_of_abs {u w : ℚ} {q : Nat} (hu : 0 < u) (h : Skips u q |w|) : Skips u q w ∧ Skips u q (-w) := by
  have hq : 0 ≤ q * u := by positivity
  rcases h with h | h
  · exact ⟨.inl ((le_abs_self w).trans h), .inl ((neg_le_abs w).trans h)⟩
  · rcases abs_cases w with ⟨heq, hsign⟩ | ⟨heq, hsign⟩
    · exact ⟨.inr (heq ▸ h), .inl (by linarith)⟩
    · exact ⟨.inl (by linarith), .inr (heq ▸ h)⟩

section
variable {rc : BitVec 2} {neg : Bool} {a u w : ℚ} {q n : Nat}

theorem RoundsMagnitude.le_of_le (h : RoundsMagnitude rc neg a q n) (hu : 0 < u) (hskip : Skips u q w) (hw : w ≤ a * u) : w ≤ n * u := by
  have hfloor : (q : ℚ) * u ≤ n * u := mul_le_mul_of_nonneg_right (by rcases h.adjacent with rfl | ⟨rfl, -⟩ <;> simp) hu.le
  rcases hskip with hskip | hskip
  · exact hskip.trans hfloor
  · have := mul_lt_mul_of_pos_right h.lt_succ hu
    linarith

theorem RoundsMagnitude.ge_of_ge (h : RoundsMagnitude rc neg a q n) (hu : 0 < u) (hskip : Skips u q w) (hw : a * u ≤ w) : n * u ≤ w := by
  rcases hskip with hskip | hskip
  · have haq : a ≤ q := le_of_mul_le_mul_right (hw.trans hskip) hu
    rcases h.adjacent with rfl | ⟨-, hlt⟩
    · exact (mul_le_mul_of_nonneg_right h.floor_le hu.le).trans hw
    · exact absurd hlt haq.not_gt
  · refine le_trans (mul_le_mul_of_nonneg_right ?_ hu.le) hskip
    rcases h.adjacent with rfl | ⟨rfl, -⟩ <;> simp

/-- The nearest integer is no farther away than either neighbour, and even where both are as near. -/
theorem RoundsMagnitude.nearest_neighbours (h : RoundsMagnitude rc neg a q n) (hrc : rc = 0) :
    |n - a| ≤ a - q ∧ |n - a| ≤ q + 1 - a ∧ (|n - a| = a - q → n ≠ q → n % 2 = 0) ∧ (|n - a| = q + 1 - a → n ≠ q + 1 → n % 2 = 0) := by
  obtain ⟨hhalf, heven⟩ := h.nearest hrc
  rcases h.adjacent with rfl | ⟨rfl, hlt⟩
  · have habs : |(n : ℚ) - a| = a - n := by rw [abs_sub_comm, abs_of_nonneg (by linarith [h.floor_le])]
    rw [habs] at hhalf heven ⊢
    exact ⟨le_refl _, by linarith, fun _ hne => absurd rfl hne, fun heq _ => heven (by linarith)⟩
  · have hsucc := h.lt_succ
    have habs : |((q + 1 : Nat) : ℚ) - a| = q + 1 - a := by rw [Nat.cast_succ, abs_of_nonneg (by linarith)]
    rw [habs] at hhalf heven ⊢
    exact ⟨by linarith, le_refl _, fun heq _ => heven (by linarith), fun _ hne => absurd rfl hne⟩

theorem RoundsMagnitude.nearest_of_skips (h : RoundsMagnitude rc neg a q n) (hrc : rc = 0) (hu : 0 < u) (hskip : Skips u q w) :
    |n * u - a * u| ≤ |w - a * u| ∧ (|n * u - a * u| = |w - a * u| → w ≠ n * u → n % 2 = 0) := by
  obtain ⟨hlow, hhigh, hlow', hhigh'⟩ := h.nearest_neighbours hrc
  rw [← sub_mul, abs_mul, abs_of_pos hu]
  rcases hskip with hskip | hskip
  · have hdist : (a - q) * u ≤ |w - a * u| := by
      rw [abs_sub_comm]; exact le_trans (by linarith) (le_abs_self _)
    have hle := mul_le_mul_of_nonneg_right hlow hu.le
    refine ⟨hle.trans hdist, fun heq hne => hlow' (mul_right_cancel₀ hu.ne' (by linarith)) ?_⟩
    rintro rfl
    refine hne (le_antisymm hskip ?_)
    have hfloor := mul_le_mul_of_nonneg_right h.floor_le hu.le
    rw [abs_of_nonpos (by linarith : w - a * u ≤ 0)] at heq hdist
    linarith
  · have hdist : (q + 1 - a) * u ≤ |w - a * u| := le_trans (by linarith) (le_abs_self _)
    have hle := mul_le_mul_of_nonneg_right hhigh hu.le
    refine ⟨hle.trans hdist, fun heq hne => hhigh' (mul_right_cancel₀ hu.ne' (by linarith)) ?_⟩
    rintro rfl
    refine hne (le_antisymm ?_ (by push_cast; exact hskip))
    have hsucc := mul_lt_mul_of_pos_right h.lt_succ hu
    rw [abs_of_nonneg (by linarith : 0 ≤ w - a * u)] at heq hdist
    push_cast
    linarith

/-- A rounded magnitude with its sign is a rounding to every set that skips what lies between the two neighbours. -/
theorem RoundsMagnitude.roundsTo (h : RoundsMagnitude rc neg a q n) (hu : 0 < u) {S : ℚ → Prop} (hS : ∀ z, S z → Skips u q |z|) :
    RoundsTo S (n % 2 = 0) rc (signFactor neg * (a * u)) (signFactor neg * (n * u)) := by
  have hfloor := h.floor_le
  have ha : 0 ≤ a * u := mul_nonneg (le_trans (by positivity) hfloor) hu.le
  have hn : 0 ≤ n * u := by positivity
  constructor
  case nearest =>
    intro hrc z hz
    obtain ⟨hpos, hneg⟩ := skips_of_abs hu (hS z hz)
    cases neg
    · simpa using h.nearest_of_skips hrc hu hpos
    · have := h.nearest_of_skips hrc hu hneg
      rw [← abs_neg (-z - a * u), show -(-z - a * u) = z - -(a * u) by ring, ← abs_neg (n * u - a * u),
        show -(n * u - a * u) = -(n * u) - -(a * u) by ring] at this
      simpa [neg_eq_iff_eq_neg] using this
  case below =>
    intro hrc
    have hdir := h.below hrc
    cases neg
    · rw [signFactor_false, one_mul, one_mul]
      exact ⟨mul_le_mul_of_nonneg_right (hdir.1 rfl) hu.le, fun z hz => h.le_of_le hu (skips_of_abs hu (hS z hz)).1⟩
    · rw [signFactor_true, neg_one_mul, neg_one_mul]
      exact ⟨neg_le_neg (mul_le_mul_of_nonneg_right (hdir.2 rfl) hu.le), fun z hz hle =>
        le_neg.mp (h.ge_of_ge hu (skips_of_abs hu (hS z hz)).2 (le_neg.mp hle))⟩
  case above =>
    intro hrc
    have hdir := h.above hrc
    cases neg
    · rw [signFactor_false, one_mul, one_mul]
      exact ⟨mul_le_mul_of_nonneg_right (hdir.1 rfl) hu.le, fun z hz => h.ge_of_ge hu (skips_of_abs hu (hS z hz)).1⟩
    · rw [signFactor_true, neg_one_mul, neg_one_mul]
      exact ⟨neg_le_neg (mul_le_mul_of_nonneg_right (hdir.2 rfl) hu.le), fun z hz hle =>
        neg_le.mp (h.le_of_le hu (skips_of_abs hu (hS z hz)).2 (neg_le.mp hle))⟩
  case within =>
    intro hrc
    rw [abs_signFactor_mul, abs_signFactor_mul, abs_of_nonneg ha, abs_of_nonneg hn]
    exact ⟨mul_le_mul_of_nonneg_right (h.within hrc) hu.le, fun z hz => h.le_of_le hu (hS z hz)⟩

end

/-! ### The two sets -/

/-- A whole number of units is not strictly between two neighbouring ones. -/
theorem skips_mul (u : ℚ) (hu : 0 < u) (q j : Nat) : Skips u q (j * u) := by
  rcases Nat.lt_or_ge q j with hlt | hle
  · exact .inr (mul_le_mul_of_nonneg_right (by exact_mod_cast hlt) hu.le)
  · exact .inl (mul_le_mul_of_nonneg_right (by exact_mod_cast hle) hu.le)

/-- A power of two that is no smaller is a whole number of units. -/
theorem natCast_mul_zpow (n : Nat) {e d : Int} (h : d ≤ e) : (n : ℚ) * (2 : ℚ) ^ e = (n * 2 ^ (e - d).toNat : Nat) * (2 : ℚ) ^ d := by
  have hexp : e = (e - d).toNat + d := by omega
  rw [show (2 : ℚ) ^ e = 2 ^ (e - d).toNat * 2 ^ d by rw [← zpow_natCast, ← zpow_add₀ two_ne_zero, ← hexp]]
  push_cast
  ring

/-- A number of `p` bits below the next power of two is a whole number of units, or smaller than all that have `p` bits in this unit. -/
theorem skips_of_precise {p : Nat} {d : Int} {q : Nat} (hq : 2 ^ p ≤ q) {z : ℚ} (hz : Precise (p + 1) z) : Skips ((2 : ℚ) ^ d) q |z| := by
  obtain ⟨n, e, hn, heq⟩ := hz
  have hu : (0 : ℚ) < 2 ^ d := by positivity
  rw [heq]
  rcases le_or_gt d e with hde | hed
  · rw [natCast_mul_zpow n hde]
    exact skips_mul _ hu q _
  · refine .inl ?_
    calc (n : ℚ) * 2 ^ e ≤ (2 * q : Nat) * 2 ^ e := by
          refine mul_le_mul_of_nonneg_right ?_ (by positivity)
          rw [Nat.pow_succ] at hn
          exact_mod_cast (by omega : n ≤ 2 * q)
      _ = q * 2 ^ (e + 1) := by rw [zpow_add_one₀ two_ne_zero]; push_cast; ring
      _ ≤ q * 2 ^ d := mul_le_mul_of_nonneg_left (zpow_le_zpow_right₀ one_le_two (by omega)) (by positivity)

/-- The value of every field is a whole number of the smallest units. -/
theorem FpFmt.skips_value (k : FpFmt) (q y : Nat) : Skips ((2 : ℚ) ^ k.qmin) q |k.value y| := by
  have hu : (0 : ℚ) < 2 ^ k.qmin := by positivity
  rw [k.value_eq, abs_signFactor_mul, abs_of_nonneg (by positivity), natCast_mul_zpow _ (k.qmin_le_qexp y)]
  exact skips_mul _ hu q _

end Sys2Proof.Machine

namespace Sys2Proof.Machine

/-! ## `round` is one correct rounding (43_dot_product.md R151, R153) -/

/-- A significand of `p` bits, or the next power of two. -/
theorem precise_of_le {p n : Nat} (hp : 1 ≤ p) (hn : n ≤ 2 ^ p) (neg : Bool) (d : Int) :
    Precise p (signFactor neg * (n * (2 : ℚ) ^ d)) := by
  rcases hn.lt_or_eq with hlt | rfl
  · exact ⟨n, d, hlt, by rw [abs_signFactor_mul, abs_of_nonneg (by positivity)]⟩
  · refine ⟨1, p + d, Nat.one_lt_two_pow (by omega), ?_⟩
    rw [abs_signFactor_mul, abs_of_nonneg (by positivity), zpow_add₀ two_ne_zero, zpow_natCast]
    push_cast
    ring

/-- An even significand has one bit less. -/
theorem precise_of_even {p n : Nat} (hp : 1 ≤ p) (hn : n ≤ 2 ^ (p + 1)) (heven : n % 2 = 0) (neg : Bool) (d : Int) :
    Precise p (signFactor neg * (n * (2 : ℚ) ^ d)) := by
  have hhalf : (n : ℚ) * 2 ^ d = (n / 2 : Nat) * 2 ^ (d + 1) := by
    rw [zpow_add_one₀ two_ne_zero, Nat.cast_div (Nat.dvd_of_mod_eq_zero heven) (by norm_num)]
    push_cast
    ring
  rw [hhalf]
  rw [Nat.pow_succ] at hn
  exact precise_of_le hp (by omega) neg _

section
variable {k : FpFmt}

/-- A rounded significand gives the number rounded with unbounded exponent. -/
theorem RoundsMagnitude.roundsFree (hk : k.Proper) {rc : BitVec 2} {neg : Bool} {a : ℚ} {q n : Nat} (h : RoundsMagnitude rc neg a q n)
    (hlow : 2 ^ k.fw ≤ q) (hhigh : n ≤ 2 ^ (k.fw + 1)) (d : Int) :
    k.RoundsFree rc (signFactor neg * (a * 2 ^ d)) (signFactor neg * (n * 2 ^ d)) := by
  have hfw := hk.one_le_fw
  have hu : (0 : ℚ) < 2 ^ d := by positivity
  have hto := h.roundsTo hu fun z => skips_of_precise hlow
  have ha : 0 ≤ a := le_trans (by positivity) h.floor_le
  refine ⟨precise_of_le (by omega) hhigh neg d, fun hrc z hz => ?_, hto.below, hto.above, fun hrc => ⟨?_, hto.within hrc⟩⟩
  · obtain ⟨hle, heven⟩ := hto.nearest hrc z hz
    exact ⟨hle, fun heq hne => precise_of_even hfw hhigh (heven heq hne) neg d⟩
  · rw [mul_mul_mul_comm, signFactor_mul_self, one_mul]
    positivity

/-- The significand of `round`, scaled to the precision of the format, lies between two powers of two. -/
theorem scaled_bounds (fw : Nat) {m : Nat} (hm : m ≠ 0) :
    (2 : ℚ) ^ fw ≤ m * 2 ^ (-((Nat.log2 m : Int) - fw)) ∧ m * (2 : ℚ) ^ (-((Nat.log2 m : Int) - fw)) < 2 ^ (fw + 1) := by
  have hscale : (2 : ℚ) ^ (-((Nat.log2 m : Int) - fw)) = 2 ^ fw / 2 ^ Nat.log2 m := by
    rw [neg_sub, zpow_sub₀ two_ne_zero, zpow_natCast, zpow_natCast]
  have hlow : (2 : ℚ) ^ Nat.log2 m ≤ m := by exact_mod_cast Nat.log2_self_le hm
  have hhigh : (m : ℚ) < 2 ^ (Nat.log2 m + 1) := by exact_mod_cast Nat.lt_log2_self
  rw [hscale, ← mul_div_assoc]
  constructor
  · rw [le_div_iff₀ (by positivity), mul_comm]
    exact mul_le_mul_of_nonneg_right hlow (by positivity)
  · rw [div_lt_iff₀ (by positivity), pow_succ, mul_assoc, ← pow_succ', mul_comm]
    exact mul_lt_mul_of_pos_left hhigh (by positivity)

/-- What `round` answers: a significand `q` with a unit `2 ^ qe` that is the exact number rounded with unbounded exponent, packed
where it fits the format. -/
theorem FpFmt.Proper.round_spec (hk : k.Proper) (env : FpEnv) (neg : Bool) {m : Nat} (hm : m ≠ 0) (e : Int) : ∃ (q : Nat) (qe : Int),
    2 ^ k.fw ≤ q ∧ q < 2 ^ (k.fw + 1) ∧ e + (Nat.log2 m - k.fw) ≤ qe ∧
    k.RoundsFree env.rc (signFactor neg * (m * 2 ^ e)) (signFactor neg * (q * 2 ^ qe)) ∧
    k.round env neg m e = if k.qmax < qe then (k.overflow env.rc neg, fOE ||| fPE) else if qe < k.qmin then k.tiny env neg m e
      else (k.mk' neg (qe - k.qmin + 1).toNat (q - 2 ^ k.fw),
        if signFactor neg * (q * (2 : ℚ) ^ qe) = signFactor neg * (m * 2 ^ e) then 0 else fPE) := by
  obtain ⟨hlow, hhigh⟩ := scaled_bounds k.fw hm
  obtain ⟨q, hround, hexact⟩ := scaleRound_spec env.rc neg m (Nat.log2 m - k.fw)
  dsimp only [FpFmt.round]
  generalize (Nat.log2 m : Int) - k.fw = sh at *
  generalize scaleRound env.rc neg m sh = rounded at *
  obtain ⟨n, inexact⟩ := rounded
  dsimp only at hround hexact ⊢
  have hq : 2 ^ k.fw ≤ q := by
    have : (2 : ℚ) ^ k.fw < q + 1 := hlow.trans_lt hround.lt_succ
    exact Nat.le_of_lt_succ (by exact_mod_cast this)
  have hq' : q < 2 ^ (k.fw + 1) := by exact_mod_cast hround.floor_le.trans_lt hhigh
  have hnq : q ≤ n ∧ n ≤ 2 ^ (k.fw + 1) := by rcases hround.adjacent with rfl | ⟨rfl, -⟩ <;> omega
  have hx : (m : ℚ) * 2 ^ (-sh) * 2 ^ (e + sh) = m * 2 ^ e := by
    rw [mul_assoc, ← zpow_add₀ two_ne_zero]
    congr 2
    ring
  have hfree := hround.roundsFree hk hq hnq.2 (e + sh)
  have hflag : (if inexact = true then fPE else 0) =
      if signFactor neg * (n * (2 : ℚ) ^ (e + sh)) = signFactor neg * (m * 2 ^ e) then 0 else fPE := by
    have hiff : signFactor neg * (n * (2 : ℚ) ^ (e + sh)) = signFactor neg * (m * 2 ^ e) ↔ inexact = false := by
      rw [hexact, ← hx, mul_right_inj' signFactor_ne_zero, mul_left_inj' (by positivity)]
    cases inexact <;> simp [hiff]
  rw [hx] at hfree
  by_cases hcarry : n = 2 ^ (k.fw + 1)
  · have hvalue : (n : ℚ) * 2 ^ (e + sh) = (2 ^ k.fw : Nat) * 2 ^ (e + sh + 1) := by
      rw [hcarry, zpow_add_one₀ two_ne_zero]
      push_cast
      ring
    rw [hvalue] at hfree hflag
    refine ⟨2 ^ k.fw, e + sh + 1, le_refl _, Nat.pow_lt_pow_right (by decide) (by omega), by omega, hfree, ?_⟩
    simp only [hcarry, if_true, hflag]
  · refine ⟨n, e + sh, by omega, by omega, le_refl _, hfree, ?_⟩
    simp only [hcarry, if_false, hflag]

end

end Sys2Proof.Machine

namespace Sys2Proof.Machine

section
variable {k : FpFmt}

/-! ### Tiny results -/

theorem FpFmt.Proper.one_lt_emax (hk : k.Proper) : 1 < k.emax := by
  have := hk.one_le_bias
  have := hk.emax_eq
  omega

/-- A significand of the smallest unit is a denormal's, or that of the smallest normal number. -/
theorem FpFmt.Proper.smallField (hk : k.Proper) (neg : Bool) {n : Nat} (hn : n ≤ 2 ^ k.fw) :
    k.Finite (k.mk' neg 0 n) ∧ k.sign (k.mk' neg 0 n) = neg ∧ k.value (k.mk' neg 0 n) = signFactor neg * (n * (2 : ℚ) ^ k.qmin) ∧
    (n % 2 = 0 → k.frac (k.mk' neg 0 n) % 2 = 0) := by
  have hemax := hk.one_lt_emax
  have hlt := k.emax_lt
  have hfw := Nat.two_pow_pos k.fw
  rcases hn.lt_or_eq with hlt' | rfl
  · refine ⟨FpFmt.finite_mk' neg (by omega) hlt', FpFmt.sign_mk' neg (by omega) hlt', FpFmt.value_mk'_zero neg hlt', fun heven => ?_⟩
    rwa [FpFmt.frac_mk' neg 0 hlt']
  · have hnormal : k.mk' neg 0 (2 ^ k.fw) = k.mk' neg 1 (2 ^ k.fw - 2 ^ k.fw) := by simp [FpFmt.mk']
    rw [hnormal]
    refine ⟨FpFmt.finite_mk' neg hemax (by omega), FpFmt.sign_mk' neg (by omega) (by omega), ?_, fun _ => ?_⟩
    · exact FpFmt.value_mk'_normal neg (by omega) (le_refl 1) (le_refl _) (Nat.pow_lt_pow_right (by decide) (by omega))
    · rw [FpFmt.frac_mk' neg 1 (by omega), Nat.sub_self]

/-- Where tiny results are not flushed, `tiny` rounds once to the fields of the smallest unit. -/
theorem FpFmt.Proper.tiny_spec (hk : k.Proper) {env : FpEnv} (hflush : env.flush = false) (neg : Bool) (m : Nat) (e : Int)
    (hsmall : (m : ℚ) * 2 ^ e < 2 ^ k.fw * 2 ^ k.qmin) :
    k.Finite (k.tiny env neg m e).1 ∧ k.sign (k.tiny env neg m e).1 = neg ∧
    k.Rounds env.rc (signFactor neg * (m * 2 ^ e)) (k.tiny env neg m e).1 ∧
    (k.tiny env neg m e).2 = if k.value (k.tiny env neg m e).1 = signFactor neg * (m * 2 ^ e) then 0 else fUE ||| fPE := by
  obtain ⟨q, hround, hexact⟩ := scaleRound_spec env.rc neg m (k.qmin - e)
  simp only [FpFmt.tiny, hflush, Bool.false_eq_true, if_false]
  generalize scaleRound env.rc neg m (k.qmin - e) = rounded at *
  obtain ⟨n, inexact⟩ := rounded
  dsimp only at hround hexact ⊢
  have hu : (0 : ℚ) < 2 ^ k.qmin := by positivity
  have hx : (m : ℚ) * 2 ^ (-(k.qmin - e)) * 2 ^ k.qmin = m * 2 ^ e := by
    rw [mul_assoc, ← zpow_add₀ two_ne_zero]
    congr 2
    ring
  generalize (m : ℚ) * 2 ^ (-(k.qmin - e)) = a at *
  rw [← hx] at hsmall ⊢
  have hn : n ≤ 2 ^ k.fw := by
    have hq : (q : ℚ) < 2 ^ k.fw := hround.floor_le.trans_lt (lt_of_mul_lt_mul_right hsmall hu.le)
    have hq' : q < 2 ^ k.fw := by exact_mod_cast hq
    rcases hround.adjacent with rfl | ⟨rfl, -⟩ <;> omega
  obtain ⟨hfinite, hsign, hvalue, heven⟩ := hk.smallField neg hn
  obtain ⟨hnear, hbelow, habove, hwithin⟩ := hround.roundsTo (S := fun z => ∃ y, k.Finite y ∧ k.value y = z) hu
    (by rintro z ⟨y, -, rfl⟩; exact k.skips_value q y)
  rw [← hvalue] at hnear hbelow habove hwithin
  refine ⟨hfinite, hsign, ⟨fun hrc y hy => ?_, fun hrc => ?_, fun hrc => ?_, fun hrc => ?_⟩, ?_⟩
  · obtain ⟨hle, htie⟩ := hnear hrc _ ⟨y, hy, rfl⟩
    exact ⟨hle, fun heq hne => heven (htie heq hne)⟩
  · exact ⟨(hbelow hrc).1, fun y hy => (hbelow hrc).2 _ ⟨y, hy, rfl⟩⟩
  · exact ⟨(habove hrc).1, fun y hy => (habove hrc).2 _ ⟨y, hy, rfl⟩⟩
  · exact ⟨(hwithin hrc).1, fun y hy => (hwithin hrc).2 _ ⟨y, hy, rfl⟩⟩
  · have hiff : k.value (k.mk' neg 0 n) = signFactor neg * (a * 2 ^ k.qmin) ↔ inexact = false := by
      rw [hvalue, hexact, mul_right_inj' signFactor_ne_zero, mul_left_inj' hu.ne']
    cases inexact <;> simp [hiff]

/-! ### Overflow -/

theorem FpFmt.overflowed (k : FpFmt) (rc : BitVec 2) (neg : Bool) : k.Overflowed rc (neg = true) (k.overflow rc neg) := by
  rcases rc_cases rc with rfl | rfl | rfl | rfl <;> cases neg <;> simp [FpFmt.Overflowed, FpFmt.overflow]

/-! ### All results -/

/-- The unit of a normalised significand tells whether the number is beyond the largest finite one. -/
theorem FpFmt.Proper.maxFinite_lt_iff (hk : k.Proper) {q : Nat} (hlow : 2 ^ k.fw ≤ q) (hhigh : q < 2 ^ (k.fw + 1)) (qe : Int) :
    k.value (k.maxFinite false) < q * (2 : ℚ) ^ qe ↔ k.qmax < qe := by
  have hlow' : (2 : ℚ) ^ k.fw ≤ q := by exact_mod_cast hlow
  have hhigh' : (q : ℚ) ≤ (2 ^ (k.fw + 1) - 1 : Nat) := by exact_mod_cast (by omega : q ≤ 2 ^ (k.fw + 1) - 1)
  rw [hk.value_maxFinite]
  constructor
  · intro hlt
    by_contra hle
    refine hlt.not_ge (mul_le_mul hhigh' (zpow_le_zpow_right₀ one_le_two (by omega)) (by positivity) (by positivity))
  · intro hlt
    calc ((2 ^ (k.fw + 1) - 1 : Nat) : ℚ) * 2 ^ k.qmax < 2 ^ (k.fw + 1) * 2 ^ k.qmax := by
          refine mul_lt_mul_of_pos_right ?_ (by positivity)
          exact_mod_cast Nat.sub_lt (Nat.two_pow_pos _) one_pos
      _ = 2 ^ k.fw * 2 ^ (k.qmax + 1) := by rw [pow_succ, zpow_add_one₀ two_ne_zero]; ring
      _ ≤ q * 2 ^ qe := mul_le_mul hlow' (zpow_le_zpow_right₀ one_le_two (by omega)) (by positivity) (by positivity)

/-- The smallest normal number. -/
theorem FpFmt.two_zpow_one_sub_bias (k : FpFmt) : (2 : ℚ) ^ (1 - (k.bias : Int)) = 2 ^ k.fw * 2 ^ k.qmin := by
  rw [FpFmt.qmin, ← zpow_natCast, ← zpow_add₀ two_ne_zero]
  congr 1
  ring

/-- The unit of a normalised significand tells whether the number is tiny. -/
theorem FpFmt.lt_minNormal_iff (k : FpFmt) {q : Nat} (hlow : 2 ^ k.fw ≤ q) (hhigh : q < 2 ^ (k.fw + 1)) (qe : Int) :
    q * (2 : ℚ) ^ qe < 2 ^ (1 - (k.bias : Int)) ↔ qe < k.qmin := by
  have hlow' : (2 : ℚ) ^ k.fw ≤ q := by exact_mod_cast hlow
  have hhigh' : (q : ℚ) < 2 ^ (k.fw + 1) := by exact_mod_cast hhigh
  rw [k.two_zpow_one_sub_bias]
  constructor
  · intro hlt
    by_contra hle
    exact hlt.not_ge (mul_le_mul hlow' (zpow_le_zpow_right₀ one_le_two (by omega)) (by positivity) (by positivity))
  · intro hlt
    calc q * (2 : ℚ) ^ qe < 2 ^ (k.fw + 1) * 2 ^ qe := mul_lt_mul_of_pos_right hhigh' (by positivity)
      _ = 2 ^ k.fw * 2 ^ (qe + 1) := by rw [pow_succ, zpow_add_one₀ two_ne_zero]; ring
      _ ≤ 2 ^ k.fw * 2 ^ k.qmin := mul_le_mul_of_nonneg_left (zpow_le_zpow_right₀ one_le_two (by omega)) (by positivity)

theorem FpFmt.Proper.qmin_le_qmax (hk : k.Proper) : k.qmin ≤ k.qmax := by
  have := hk.one_le_bias
  have := hk.emax_eq
  unfold FpFmt.qmin FpFmt.qmax
  omega

/-- A significand that lies below the tiny bound before rounding. -/
theorem FpFmt.lt_minNormal_of_log2 (k : FpFmt) {m : Nat} {e qe : Int} (hqe : e + (Nat.log2 m - k.fw) ≤ qe) (htiny : qe < k.qmin) :
    (m : ℚ) * 2 ^ e < 2 ^ k.fw * 2 ^ k.qmin := by
  have hm : (m : ℚ) < 2 ^ (Nat.log2 m + 1) := by exact_mod_cast Nat.lt_log2_self
  calc (m : ℚ) * 2 ^ e < 2 ^ (Nat.log2 m + 1) * 2 ^ e := mul_lt_mul_of_pos_right hm (by positivity)
    _ = 2 ^ ((Nat.log2 m : Int) + 1 + e) := by rw [zpow_add₀ two_ne_zero]; norm_cast
    _ ≤ 2 ^ ((k.fw : Int) + k.qmin) := zpow_le_zpow_right₀ one_le_two (by omega)
    _ = 2 ^ k.fw * 2 ^ k.qmin := by rw [zpow_add₀ two_ne_zero, zpow_natCast]

/-- `round` answers as R151 and R153 say of the exact number `± m * 2 ^ e`; `de` is raised beside its flags. -/
theorem FpFmt.Proper.round_roundedOp (hk : k.Proper) (env : FpEnv) (neg : Bool) {m : Nat} (hm : m ≠ 0) (e : Int) (de : FpFlags)
    (zneg : Bool) : k.RoundedOp env de (signFactor neg * (m * 2 ^ e)) zneg (k.round env neg m e).1 ((k.round env neg m e).2 ||| de) := by
  obtain ⟨q, qe, hlow, hhigh, hqe, hfree, hround⟩ := hk.round_spec env neg hm e
  have hpos : (0 : ℚ) < m * 2 ^ e := mul_pos (by exact_mod_cast Nat.pos_of_ne_zero hm) (by positivity)
  have hneg : signFactor neg * (m * (2 : ℚ) ^ e) < 0 ↔ neg = true := signFactor_mul_neg_iff hpos
  have hdecide : decide (signFactor neg * (m * (2 : ℚ) ^ e) < 0) = neg := by simp [hneg]
  have habs : |signFactor neg * (q * (2 : ℚ) ^ qe)| = q * 2 ^ qe := by rw [abs_signFactor_mul, abs_of_nonneg (by positivity)]
  have hunits := hk.qmin_le_qmax
  refine ⟨fun hzero => absurd hzero (mul_ne_zero signFactor_ne_zero hpos.ne'), fun _ => ⟨_, hfree, ?_⟩⟩
  rw [habs, hk.maxFinite_lt_iff hlow hhigh, k.lt_minNormal_iff hlow hhigh, ← not_lt, hk.maxFinite_lt_iff hlow hhigh, ← not_lt,
    k.lt_minNormal_iff hlow hhigh, hdecide, hround]
  refine ⟨fun hover => ?_, fun htiny hflush => ?_, fun htiny hflush => ?_, fun hover htiny => ?_⟩
  · rw [if_pos hover, hneg]
    exact ⟨k.overflowed env.rc neg, (BitVec.or_comm ..).trans (BitVec.or_assoc ..).symm⟩
  · rw [if_neg (by omega), if_pos htiny, FpFmt.tiny, if_pos hflush]
    exact ⟨rfl, (BitVec.or_comm ..).trans (BitVec.or_assoc ..).symm⟩
  · rw [if_neg (by omega), if_pos htiny]
    obtain ⟨hfinite, hsign, hrounds, hflags⟩ := hk.tiny_spec hflush neg m e (k.lt_minNormal_of_log2 hqe htiny)
    exact ⟨hfinite, hsign, hrounds, by rw [hflags, BitVec.or_comm]⟩
  · rw [if_neg hover, if_neg htiny]
    have hemax := hk.emax_eq
    have hbias := hk.one_le_bias
    have hexp : (qe - k.qmin + 1).toNat < k.emax := by unfold FpFmt.qmin FpFmt.qmax at *; omega
    have hf : q - 2 ^ k.fw < 2 ^ k.fw := by rw [Nat.pow_succ] at hhigh; omega
    refine ⟨FpFmt.finite_mk' neg hexp hf, FpFmt.sign_mk' neg (hexp.trans k.emax_lt) hf, ?_, BitVec.or_comm ..⟩
    rw [FpFmt.value_mk'_normal neg (hexp.trans k.emax_lt) (by omega) hlow hhigh]
    congr 3
    have hqmin : k.qmin = 1 - k.bias - k.fw := rfl
    omega

end

end Sys2Proof.Machine

namespace Sys2Proof.Machine

/-! ## Multiply and add of finite operands (43_dot_product.md R151, R153) -/

section
variable {k : FpFmt}

theorem FpFmt.Finite.not_isInf {v : Nat} (h : k.Finite v) : k.isInf v = false := by
  obtain ⟨-, hexp⟩ := h
  simp [FpFmt.isInf, hexp]

theorem FpFmt.Finite.not_isNaN {v : Nat} (h : k.Finite v) : k.isNaN v = false := by
  obtain ⟨-, hexp⟩ := h
  simp [FpFmt.isNaN, hexp]

theorem FpFmt.Proper.finite_zero (hk : k.Proper) (neg : Bool) : k.Finite (k.zero neg) :=
  FpFmt.finite_mk' neg (zero_lt_one.trans hk.one_lt_emax) (Nat.two_pow_pos _)

theorem FpFmt.sign_zero (neg : Bool) : k.sign (k.zero neg) = neg := FpFmt.sign_mk' neg (Nat.two_pow_pos _) (Nat.two_pow_pos _)

theorem FpFmt.isZero_zero (neg : Bool) : k.isZero (k.zero neg) = true := by
  simp [FpFmt.isZero, FpFmt.zero, FpFmt.exp_mk', FpFmt.frac_mk']

/-- The DAZ step keeps the sign. -/
theorem FpFmt.sign_dazStep (env : FpEnv) (v : Nat) : k.sign (k.dazStep env v) = k.sign v := by
  unfold FpFmt.dazStep
  split
  · exact FpFmt.sign_zero _
  · rfl

/-- The DAZ step keeps a field finite. -/
theorem FpFmt.Finite.dazStep (hk : k.Proper) {v : Nat} (h : k.Finite v) (env : FpEnv) : k.Finite (k.dazStep env v) := by
  unfold FpFmt.dazStep
  split
  · exact hk.finite_zero _
  · exact h

theorem FpFmt.mant_ne_zero {v : Nat} (h : k.isZero v = false) : k.mant v ≠ 0 := fun h0 => by
  have hvalue : k.value v = 0 := by rw [k.value_eq, h0]; simp
  rw [k.value_eq_zero_iff, h] at hvalue
  cases hvalue

/-- The two signs of a product. -/
theorem FpFmt.value_mul_value (a b : Nat) : k.value a * k.value b =
    signFactor (k.sign a != k.sign b) * ((k.mant a * k.mant b : Nat) * (2 : ℚ) ^ (k.qexp a + k.qexp b)) := by
  rw [k.value_eq, k.value_eq, signFactor_xor, zpow_add₀ two_ne_zero]
  push_cast
  ring

theorem FpFmt.Proper.mulCore_roundedOp (hk : k.Proper) (env : FpEnv) {a b : Nat} (ha : k.Finite a) (hb : k.Finite b) (de : FpFlags) :
    k.RoundedOp env de (k.value a * k.value b) (k.sign a != k.sign b) (k.mulCore env a b).1 ((k.mulCore env a b).2 ||| de) := by
  unfold FpFmt.mulCore
  simp only [ha.not_isInf, hb.not_isInf, Bool.or_self, Bool.false_eq_true, if_false]
  by_cases hzero : (k.isZero a || k.isZero b) = true
  · have hx : k.value a * k.value b = 0 := by simpa [mul_eq_zero, k.value_eq_zero_iff] using hzero
    rw [if_pos hzero]
    exact ⟨fun _ => ⟨rfl, BitVec.zero_or⟩, fun hne => absurd hx hne⟩
  · rw [if_neg hzero, k.value_mul_value]
    simp only [Bool.or_eq_true, not_or, Bool.not_eq_true] at hzero
    exact hk.round_roundedOp env _ (mul_ne_zero (FpFmt.mant_ne_zero hzero.1) (FpFmt.mant_ne_zero hzero.2)) _ de _

/-- The value of a field in a unit that is no larger than its own. -/
theorem FpFmt.value_eq_of_le {v : Nat} {e : Int} (h : e ≤ k.qexp v) :
    k.value v = (((if k.sign v then -1 else 1) * (k.mant v * 2 ^ (k.qexp v - e).toNat : Nat) : Int) : ℚ) * 2 ^ e := by
  rw [k.value_eq, natCast_mul_zpow _ h, signFactor]
  push_cast
  ring

theorem FpFmt.value_add_value (a b : Nat) :
    k.value a + k.value b = (k.exactSum a b : ℚ) * (2 : ℚ) ^ min (k.qexp a) (k.qexp b) := by
  rw [FpFmt.value_eq_of_le (min_le_left (k.qexp a) (k.qexp b)), FpFmt.value_eq_of_le (min_le_right (k.qexp a) (k.qexp b)), ← add_mul,
    FpFmt.exactSum, ← Int.cast_add]

/-- A number as sign and magnitude. -/
theorem signFactor_natAbs (z : Int) : (z : ℚ) = signFactor (decide (z < 0)) * z.natAbs := by
  rcases lt_or_ge z 0 with h | h
  · rw [decide_eq_true h, signFactor_true, Nat.cast_natAbs, abs_of_neg h]
    push_cast
    ring
  · rw [decide_eq_false h.not_gt, signFactor_false, Nat.cast_natAbs, abs_of_nonneg h, one_mul]

theorem FpFmt.Proper.addCore_roundedOp (hk : k.Proper) (env : FpEnv) {a b : Nat} (ha : k.Finite a) (hb : k.Finite b) (de : FpFlags) :
    k.RoundedOp env de (k.value a + k.value b) (if k.sign a = k.sign b then k.sign a else env.rc == 1) (k.addCore env a b).1
      ((k.addCore env a b).2 ||| de) := by
  unfold FpFmt.addCore
  simp only [ha.not_isInf, hb.not_isInf, Bool.false_and, Bool.false_eq_true, if_false]
  rw [k.value_add_value]
  by_cases hzero : k.exactSum a b = 0
  · rw [if_pos hzero, hzero]
    exact ⟨fun _ => ⟨rfl, BitVec.zero_or⟩, fun hne => absurd (by simp) hne⟩
  · rw [if_neg hzero, signFactor_natAbs, mul_assoc]
    exact hk.round_roundedOp env _ (Int.natAbs_ne_zero.mpr hzero) _ de _

/-- The DE of two operands, as the claims say it. -/
theorem FpFmt.denormFlag_eq (env : FpEnv) (a b : Nat) :
    (if (!env.daz && (k.isDenormal a || k.isDenormal b)) = true then fDE else 0) = k.denormFlag env a b := by
  simp [FpFmt.denormFlag]

/-- An operation on operands that are not NaNs: the DAZ step, then the operation, with DE beside its flags. -/
theorem FpFmt.binary_of_not_isNaN (env : FpEnv) (op : Nat → Nat → Nat × FpFlags) {a b : Nat} (ha : k.isNaN a = false)
    (hb : k.isNaN b = false) : k.binary env op a b =
      ((op (k.dazStep env a) (k.dazStep env b)).1, (op (k.dazStep env a) (k.dazStep env b)).2 ||| k.denormFlag env a b) := by
  simp only [FpFmt.binary, ha, hb, Bool.or_self, Bool.false_eq_true, if_false, FpFmt.denormFlag_eq]

theorem FpFmt.Proper.mul_roundedOp (hk : k.Proper) (env : FpEnv) {a b : Nat} (ha : k.Finite a) (hb : k.Finite b) :
    k.RoundedOp env (k.denormFlag env a b) (k.value (k.dazStep env a) * k.value (k.dazStep env b)) (k.sign a != k.sign b)
      (k.binary env (k.mulCore env) a b).1 (k.binary env (k.mulCore env) a b).2 := by
  have hop := hk.mulCore_roundedOp env (ha.dazStep hk env) (hb.dazStep hk env) (k.denormFlag env a b)
  rw [k.sign_dazStep, k.sign_dazStep] at hop
  rw [FpFmt.binary_of_not_isNaN env _ ha.not_isNaN hb.not_isNaN]
  exact hop

theorem FpFmt.Proper.add_roundedOp (hk : k.Proper) (env : FpEnv) {a b : Nat} (ha : k.Finite a) (hb : k.Finite b) :
    k.RoundedOp env (k.denormFlag env a b) (k.value (k.dazStep env a) + k.value (k.dazStep env b))
      (if k.sign a = k.sign b then k.sign a else env.rc == 1)
      (k.binary env (k.addCore env) a b).1 (k.binary env (k.addCore env) a b).2 := by
  have hop := hk.addCore_roundedOp env (ha.dazStep hk env) (hb.dazStep hk env) (k.denormFlag env a b)
  rw [k.sign_dazStep, k.sign_dazStep] at hop
  rw [FpFmt.binary_of_not_isNaN env _ ha.not_isNaN hb.not_isNaN]
  exact hop

/-! ### The answer is a field of the format -/

theorem FpFmt.Proper.finite_maxFinite (hk : k.Proper) (neg : Bool) : k.Finite (k.maxFinite neg) := by
  have hemax := hk.one_lt_emax
  exact FpFmt.finite_mk' neg (by omega) (Nat.sub_lt (Nat.two_pow_pos _) one_pos)

theorem FpFmt.Overflowed.cases {rc : BitVec 2} {neg : Prop} {r : Nat} (h : k.Overflowed rc neg r) :
    (∃ sg, r = k.inf sg) ∨ ∃ sg, r = k.maxFinite sg := by
  obtain ⟨h0, h1, h2, h3⟩ := h
  rcases rc_cases rc with hrc | hrc | hrc | hrc <;> by_cases hneg : neg
  · exact .inl ⟨_, (h0 hrc).1 hneg⟩
  · exact .inl ⟨_, (h0 hrc).2 hneg⟩
  · exact .inl ⟨_, (h1 hrc).1 hneg⟩
  · exact .inr ⟨_, (h1 hrc).2 hneg⟩
  · exact .inr ⟨_, (h2 hrc).1 hneg⟩
  · exact .inl ⟨_, (h2 hrc).2 hneg⟩
  · exact .inr ⟨_, (h3 hrc).1 hneg⟩
  · exact .inr ⟨_, (h3 hrc).2 hneg⟩

/-- The answer of a multiply or add of finite operands is finite, or an infinity. -/
theorem FpFmt.RoundedOp.finite_or_inf (hk : k.Proper) {env : FpEnv} {de f : FpFlags} {x : ℚ} {zneg : Bool} {r : Nat}
    (h : k.RoundedOp env de x zneg r f) : k.Finite r ∨ ∃ sg, r = k.inf sg := by
  obtain ⟨hzero, hrounded⟩ := h
  by_cases hx : x = 0
  · rw [(hzero hx).1]
    exact .inl (hk.finite_zero _)
  obtain ⟨y, -, hover, hflush, htiny, hnormal⟩ := hrounded hx
  rcases lt_or_ge (k.value (k.maxFinite false)) |y| with hy | hy
  · rcases (hover hy).1.cases with hinf | ⟨sg, rfl⟩
    · exact .inr hinf
    · exact .inl (hk.finite_maxFinite sg)
  rcases lt_or_ge |y| ((2 : ℚ) ^ (1 - (k.bias : Int))) with hy' | hy'
  · cases hf : env.flush with
    | true => rw [(hflush hy' hf).1]; exact .inl (hk.finite_zero _)
    | false => exact .inl (htiny hy' hf).1
  · exact .inl (hnormal hy hy').1

theorem FpFmt.inf_lt (k : FpFmt) (sg : Bool) : k.inf sg < 2 ^ (1 + k.ew + k.fw) := FpFmt.mk'_lt sg k.emax_lt (Nat.two_pow_pos _)

theorem FpFmt.RoundedOp.lt (hk : k.Proper) {env : FpEnv} {de f : FpFlags} {x : ℚ} {zneg : Bool} {r : Nat}
    (h : k.RoundedOp env de x zneg r f) : r < 2 ^ (1 + k.ew + k.fw) := by
  rcases h.finite_or_inf hk with hfinite | ⟨sg, rfl⟩
  · exact hfinite.1
  · exact k.inf_lt sg

end

/-! ### Fields as bit vectors -/

/-- An operation on fields held as numbers, on bit vectors. -/
def onFields (w : Nat) (op : Nat → Nat → Nat × FpFlags) (a b : BitVec w) : BitVec w × FpFlags :=
  (BitVec.ofNat w (op a.toNat b.toNat).1, (op a.toNat b.toNat).2)

theorem fmul32_eq (env : FpEnv) : fmul32 env = onFields 32 (fmt32.binary env (fmt32.mulCore env)) := rfl
theorem fadd32_eq (env : FpEnv) : fadd32 env = onFields 32 (fmt32.binary env (fmt32.addCore env)) := rfl
theorem fmul64_eq (env : FpEnv) : fmul64 env = onFields 64 (fmt64.binary env (fmt64.mulCore env)) := rfl
theorem fadd64_eq (env : FpEnv) : fadd64 env = onFields 64 (fmt64.binary env (fmt64.addCore env)) := rfl

/-- An answer of the format's width is not cut off. -/
theorem FpFmt.RoundedOp.toBitVec {k : FpFmt} (hk : k.Proper) {w : Nat} (hw : w = 1 + k.ew + k.fw) {env : FpEnv} {de : FpFlags} {x : ℚ}
    {zneg : Bool} {op : Nat → Nat → Nat × FpFlags} {a b : BitVec w}
    (h : k.RoundedOp env de x zneg (op a.toNat b.toNat).1 (op a.toNat b.toNat).2) :
    k.RoundedOp env de x zneg (onFields w op a b).1.toNat (onFields w op a b).2 := by
  have hlt := h.lt hk
  rw [← hw] at hlt
  rwa [onFields, BitVec.toNat_ofNat, Nat.mod_eq_of_lt hlt]

/-- Settles O50: `round` rounds the exact product or sum once, and a zero result is one of `mulCore` and `addCore`. -/
theorem multiplyAndAddRoundCorrectly : Obligations.MultiplyAndAddRoundCorrectly := by
  unfold Obligations.MultiplyAndAddRoundCorrectly
  refine ⟨fun s => rfl, fun env => ⟨fun a b ha hb => ?_, fun a b ha hb => ?_⟩⟩
  · exact ⟨(fmt32_proper.mul_roundedOp env ha hb).toBitVec fmt32_proper rfl,
    (fmt32_proper.add_roundedOp env ha hb).toBitVec fmt32_proper rfl⟩
  · exact ⟨(fmt64_proper.mul_roundedOp env ha hb).toBitVec fmt64_proper rfl,
    (fmt64_proper.add_roundedOp env ha hb).toBitVec fmt64_proper rfl⟩

end Sys2Proof.Machine

namespace Sys2Proof.Machine

/-! ## The special cases of multiply and add (43_dot_product.md R151, R152) -/

section
variable {k : FpFmt}

/-! ### Sign and magnitude of a field -/

/-- The magnitude of a number is the field of its exponent and fraction. -/
theorem FpFmt.mod_two_pow_eq (v : Nat) : v % 2 ^ (k.ew + k.fw) = k.mk' false (k.exp v) (k.frac v) := by
  rw [FpFmt.mk'_eq, FpFmt.exp, FpFmt.frac, Bool.toNat_false, Nat.mul_zero, Nat.add_zero, Nat.add_comm k.ew, Nat.pow_add, Nat.mod_mul]

theorem FpFmt.mod_two_pow_eq_mk'_iff {v e f : Nat} (he : e < 2 ^ k.ew) (hf : f < 2 ^ k.fw) :
    v % 2 ^ (k.ew + k.fw) = k.mk' false e f ↔ k.exp v = e ∧ k.frac v = f := by
  rw [k.mod_two_pow_eq]
  constructor
  · intro h
    have hexp := congrArg k.exp h
    have hfrac := congrArg k.frac h
    rw [FpFmt.exp_mk' _ (k.exp_lt v) (k.frac_lt v), FpFmt.exp_mk' _ he hf] at hexp
    rw [FpFmt.frac_mk' _ _ (k.frac_lt v), FpFmt.frac_mk' _ _ hf] at hfrac
    exact ⟨hexp, hfrac⟩
  · rintro ⟨rfl, rfl⟩
    rfl

/-- Two numbers of one magnitude have the same exponent and fraction. -/
theorem FpFmt.parts_eq_of_mod_eq {v v' : Nat} (h : v % 2 ^ (k.ew + k.fw) = v' % 2 ^ (k.ew + k.fw)) :
    k.exp v = k.exp v' ∧ k.frac v = k.frac v' := by
  rwa [k.mod_two_pow_eq v', FpFmt.mod_two_pow_eq_mk'_iff (k.exp_lt v') (k.frac_lt v')] at h

variable {w : Nat} {a b : BitVec w}

theorem toNat_and_not_twoPow (a : BitVec w) {n : Nat} (hw : w = n + 1) : (a &&& ~~~BitVec.twoPow w n).toNat = a.toNat % 2 ^ n := by
  refine Nat.eq_of_testBit_eq fun i => ?_
  rw [Nat.testBit_mod_two_pow, BitVec.testBit_toNat, BitVec.testBit_toNat, BitVec.getLsbD_and, BitVec.getLsbD_not, BitVec.getLsbD_twoPow]
  rcases lt_trichotomy i n with hi | rfl | hi
  · simp [hi, hi.ne', show i < w by omega]
  · simp [hw]
  · simp [hi.not_gt, show ¬ i < w by omega]

theorem sign_xor (a b : BitVec w) : k.sign (a ^^^ b).toNat = (k.sign a.toNat != k.sign b.toNat) := by
  rw [FpFmt.sign, BitVec.toNat_xor, Nat.testBit_xor]
  rfl

/-- Turning the sign bit keeps the magnitude. -/
theorem parts_xor_twoPow (a : BitVec w) : k.exp (a ^^^ BitVec.twoPow w (k.ew + k.fw)).toNat = k.exp a.toNat ∧
    k.frac (a ^^^ BitVec.twoPow w (k.ew + k.fw)).toNat = k.frac a.toNat := by
  apply FpFmt.parts_eq_of_mod_eq
  rw [BitVec.toNat_xor, Nat.xor_mod_two_pow, BitVec.toNat_twoPow]
  rcases Nat.lt_or_ge (k.ew + k.fw) w with h | h
  · rw [Nat.mod_eq_of_lt (Nat.pow_lt_pow_right (by decide) h), Nat.mod_self, Nat.xor_zero]
  · rw [Nat.mod_eq_zero_of_dvd (Nat.pow_dvd_pow 2 h), Nat.zero_mod, Nat.xor_zero]

theorem ofNat_quiet (a : BitVec w) : BitVec.ofNat w (k.quiet a.toNat) = a ||| BitVec.twoPow w (k.fw - 1) := by
  apply BitVec.eq_of_toNat_eq
  rw [FpFmt.quiet, BitVec.toNat_ofNat, BitVec.toNat_or, BitVec.toNat_twoPow, Nat.or_mod_two_pow, Nat.mod_eq_of_lt a.isLt]

/-- The field of a sign and a magnitude, bit by bit. -/
theorem ofNat_mk' (sg : Bool) {e f : Nat} (he : e < 2 ^ k.ew) (hf : f < 2 ^ k.fw) :
    BitVec.ofNat w (k.mk' sg e f) = BitVec.ofNat w (k.mk' false e f) ||| if sg then BitVec.twoPow w (k.ew + k.fw) else 0#w := by
  cases sg
  · simp
  · have hlow : k.mk' false e f < 2 ^ (k.ew + k.fw) := by
      rw [← (FpFmt.mod_two_pow_eq_mk'_iff he hf).mpr ⟨FpFmt.exp_mk' false he hf, FpFmt.frac_mk' false e hf⟩]
      exact Nat.mod_lt _ (Nat.two_pow_pos _)
    have hor : k.mk' true e f = 2 ^ (k.ew + k.fw) * 1 ||| k.mk' false e f := by
      rw [← Nat.two_pow_add_eq_or_of_lt hlow]
      simp only [FpFmt.mk', Bool.toNat_true, Bool.toNat_false]
      ring
    apply BitVec.eq_of_toNat_eq
    rw [if_pos rfl, BitVec.toNat_or, BitVec.toNat_ofNat, BitVec.toNat_ofNat, BitVec.toNat_twoPow, hor, Nat.or_mod_two_pow, Nat.mul_one,
      Nat.or_comm]

/-- The sign bit of a field that was built from two others by exclusive or. -/
theorem xor_and_twoPow (a b : BitVec w) : (a ^^^ b) &&& BitVec.twoPow w (k.ew + k.fw) =
    if (k.sign a.toNat != k.sign b.toNat) = true then BitVec.twoPow w (k.ew + k.fw) else 0#w := by
  rw [BitVec.and_twoPow, ← sign_xor]
  rfl

/-! ### The kinds of fields -/

theorem isInf_iff (hw : w = k.ew + k.fw + 1) :
    a &&& ~~~BitVec.twoPow w (k.ew + k.fw) = BitVec.ofNat w (k.inf false) ↔ k.isInf a.toNat = true := by
  have hlt : k.inf false < 2 ^ w := by rw [hw, show k.ew + k.fw + 1 = 1 + k.ew + k.fw by omega]; exact k.inf_lt false
  rw [← BitVec.toNat_inj, toNat_and_not_twoPow a hw, BitVec.toNat_ofNat, Nat.mod_eq_of_lt hlt, FpFmt.inf,
    FpFmt.mod_two_pow_eq_mk'_iff k.emax_lt (Nat.two_pow_pos _)]
  simp [FpFmt.isInf]

theorem isZero_iff (hw : w = k.ew + k.fw + 1) : a &&& ~~~BitVec.twoPow w (k.ew + k.fw) = 0 ↔ k.isZero a.toNat = true := by
  have hzero : 0 = k.mk' false 0 0 := by simp [FpFmt.mk']
  rw [← BitVec.toNat_inj, toNat_and_not_twoPow a hw, show (0 : BitVec w).toNat = k.mk' false 0 0 from (Nat.zero_mod _).trans hzero,
    FpFmt.mod_two_pow_eq_mk'_iff (Nat.two_pow_pos _) (Nat.two_pow_pos _)]
  simp [FpFmt.isZero]

theorem FpFmt.not_isNaN_of_isInf {v : Nat} (h : k.isInf v = true) : k.isNaN v = false := by
  simp only [FpFmt.isInf, Bool.and_eq_true, beq_iff_eq] at h
  simp [FpFmt.isNaN, h.2]

theorem FpFmt.dazStep_eq_self {v : Nat} (env : FpEnv) (h : k.isDenormal v = false) : k.dazStep env v = v := by simp [FpFmt.dazStep, h]

theorem FpFmt.not_isDenormal_of_isZero {v : Nat} (h : k.isZero v = true) : k.isDenormal v = false := by
  simp only [FpFmt.isZero, Bool.and_eq_true, beq_iff_eq] at h
  simp [FpFmt.isDenormal, h.2]

theorem FpFmt.not_isDenormal_of_isInf {v : Nat} (h : k.isInf v = true) : k.isDenormal v = false := by
  simp only [FpFmt.isInf, Bool.and_eq_true, beq_iff_eq] at h
  simp [FpFmt.isDenormal, h.2]

theorem FpFmt.Proper.not_isZero_of_isInf (hk : k.Proper) {v : Nat} (h : k.isInf v = true) : k.isZero v = false := by
  have := hk.one_lt_emax
  simp only [FpFmt.isInf, Bool.and_eq_true, beq_iff_eq] at h
  simp [FpFmt.isZero, h.1, show k.emax ≠ 0 by omega]

theorem FpFmt.Proper.finite_of_isZero_or_isDenormal (hk : k.Proper) {v : Nat} (hv : v < 2 ^ (1 + k.ew + k.fw))
    (h : k.isZero v = true ∨ k.isDenormal v = true) : k.Finite v := by
  have := hk.one_lt_emax
  refine ⟨hv, ?_⟩
  have hexp : k.exp v = 0 := by
    rcases h with h | h
    · exact eq_of_beq (Bool.and_eq_true_iff.mp h).1
    · exact eq_of_beq (Bool.and_eq_true_iff.mp h).1
  omega

/-- A field that the DAZ step reads as a zero. -/
theorem FpFmt.isZero_dazStep (env : FpEnv) (v : Nat) :
    k.isZero (k.dazStep env v) = true ↔ k.isZero v = true ∨ k.isDenormal v = true ∧ env.daz = true := by
  unfold FpFmt.dazStep
  by_cases h : (env.daz && k.isDenormal v) = true
  · rw [if_pos h]
    rw [Bool.and_eq_true] at h
    simp [FpFmt.isZero_zero, h.1, h.2]
  · rw [if_neg h]
    rw [Bool.and_eq_true] at h
    tauto

theorem FpFmt.Proper.isInf_dazStep (hk : k.Proper) (env : FpEnv) (v : Nat) : k.isInf (k.dazStep env v) = k.isInf v := by
  by_cases h : (env.daz && k.isDenormal v) = true
  · have hden : k.isInf v = false := by
      by_contra hinf
      rw [Bool.not_eq_false] at hinf
      rw [k.not_isDenormal_of_isInf hinf, Bool.and_false] at h
      cases h
    rw [FpFmt.dazStep, if_pos h, (hk.finite_zero _).not_isInf, hden]
  · rw [FpFmt.dazStep, if_neg h]

/-! ### Both orders of the operands -/

theorem FpFmt.mulCore_comm (k : FpFmt) (env : FpEnv) (a b : Nat) : k.mulCore env a b = k.mulCore env b a := by
  unfold FpFmt.mulCore
  rw [bne_comm, Bool.or_comm (k.isInf a), Bool.or_comm (k.isZero a), Nat.mul_comm (k.mant a), add_comm (k.qexp a)]

theorem FpFmt.exactSum_comm (k : FpFmt) (a b : Nat) : k.exactSum a b = k.exactSum b a := by
  unfold FpFmt.exactSum
  rw [min_comm (k.qexp a), add_comm]

theorem FpFmt.eq_inf {v : Nat} (hv : v < 2 ^ (1 + k.ew + k.fw)) (h : k.isInf v = true) : v = k.inf (k.sign v) := by
  obtain ⟨hexp, hfrac⟩ : k.exp v = k.emax ∧ k.frac v = 0 := by simpa [FpFmt.isInf] using h
  rw [FpFmt.inf, ← hexp, ← hfrac, FpFmt.mk'_parts hv]

theorem FpFmt.addCore_comm (env : FpEnv) {a b : Nat} (ha : a < 2 ^ (1 + k.ew + k.fw)) (hb : b < 2 ^ (1 + k.ew + k.fw)) :
    k.addCore env a b = k.addCore env b a := by
  have hsign : (if k.sign a = k.sign b then k.sign a else env.rc == 1) = if k.sign b = k.sign a then k.sign b else env.rc == 1 := by
    cases k.sign a <;> cases k.sign b <;> rfl
  unfold FpFmt.addCore
  rw [k.exactSum_comm a b, min_comm (k.qexp a), hsign, bne_comm (a := k.sign a)]
  cases hinf : k.isInf a <;> cases hinf' : k.isInf b
  case true.true =>
    cases hne : k.sign b != k.sign a
    · have heq : a = b := by rw [k.eq_inf ha hinf, k.eq_inf hb hinf', bne_eq_false_iff_eq.mp hne]
      simp [heq]
    · simp
  all_goals simp

theorem FpFmt.binary_comm (env : FpEnv) {op : Nat → Nat → Nat × FpFlags} {a b : Nat} (ha : k.isNaN a = false) (hb : k.isNaN b = false)
    (hop : op (k.dazStep env a) (k.dazStep env b) = op (k.dazStep env b) (k.dazStep env a)) :
    k.binary env op a b = k.binary env op b a := by
  rw [FpFmt.binary_of_not_isNaN env op ha hb, FpFmt.binary_of_not_isNaN env op hb ha, hop, ← FpFmt.denormFlag_eq, ← FpFmt.denormFlag_eq,
    Bool.or_comm (k.isDenormal a)]

end

end Sys2Proof.Machine

namespace Sys2Proof.Machine

/-! ### The cases of the two cores, and of the whole operation -/

theorem flags_zero_or (f : FpFlags) : 0 ||| f = f := BitVec.zero_or

theorem flags_or_zero (f : FpFlags) : f ||| 0 = f := BitVec.or_zero

section
variable {k : FpFmt}

theorem FpFmt.mulCore_invalid (env : FpEnv) {a b : Nat} (ha : k.isInf a = true) (hb : k.isZero b = true) :
    k.mulCore env a b = (k.indefinite, fIE) := by simp [FpFmt.mulCore, ha, hb]

theorem FpFmt.Proper.mulCore_inf (hk : k.Proper) (env : FpEnv) {a b : Nat} (ha : k.isInf a = true) (hb : k.isZero b = false) :
    k.mulCore env a b = (k.inf (k.sign a != k.sign b), 0) := by simp [FpFmt.mulCore, ha, hb, hk.not_isZero_of_isInf ha]

theorem FpFmt.mulCore_zero (env : FpEnv) {a b : Nat} (ha : k.isZero a = true) (ha' : k.isInf a = false) (hb : k.isInf b = false) :
    k.mulCore env a b = (k.zero (k.sign a != k.sign b), 0) := by simp [FpFmt.mulCore, ha, ha', hb]

theorem FpFmt.addCore_opposite (env : FpEnv) {a b : Nat} (ha : k.isInf a = true) (hb : k.isInf b = true) (h : k.sign a ≠ k.sign b) :
    k.addCore env a b = (k.indefinite, fIE) := by simp [FpFmt.addCore, ha, hb, h]

theorem FpFmt.addCore_inf (env : FpEnv) {a b : Nat} (ha : k.isInf a = true) (h : k.isInf b = true → k.sign a = k.sign b) :
    k.addCore env a b = (a, 0) := by
  cases hb : k.isInf b
  · simp [FpFmt.addCore, ha, hb]
  · simp [FpFmt.addCore, ha, hb, h hb]

theorem FpFmt.addCore_exactZero (env : FpEnv) {a b : Nat} (ha : k.isInf a = false) (hb : k.isInf b = false) (h : k.exactSum a b = 0) :
    k.addCore env a b = (k.zero (if k.sign a = k.sign b then k.sign a else env.rc == 1), 0) := by simp [FpFmt.addCore, ha, hb, h]

/-- Two numbers of one magnitude and opposite signs have the sum zero. -/
theorem FpFmt.exactSum_opposite {a b : Nat} (he : k.exp b = k.exp a) (hf : k.frac b = k.frac a) (hs : k.sign b = !k.sign a) :
    k.exactSum a b = 0 := by
  have hq : k.qexp b = k.qexp a := by rw [FpFmt.qexp, FpFmt.qexp, he]
  have hm : k.mant b = k.mant a := by rw [FpFmt.mant, FpFmt.mant, he, hf]
  simp only [FpFmt.exactSum, hq, hm, hs]
  cases k.sign a <;> simp

theorem FpFmt.exactSum_zeros {a : Nat} (h : k.isZero a = true) : k.exactSum a a = 0 := by
  obtain ⟨hexp, hfrac⟩ : k.exp a = 0 ∧ k.frac a = 0 := by simpa [FpFmt.isZero] using h
  simp [FpFmt.exactSum, FpFmt.mant, hexp, hfrac]

/-- The DAZ step reads two fields of one magnitude as fields of one magnitude. -/
theorem FpFmt.parts_dazStep_congr (env : FpEnv) {a b : Nat} (he : k.exp b = k.exp a) (hf : k.frac b = k.frac a) :
    k.exp (k.dazStep env b) = k.exp (k.dazStep env a) ∧ k.frac (k.dazStep env b) = k.frac (k.dazStep env a) := by
  have hden : k.isDenormal b = k.isDenormal a := by rw [FpFmt.isDenormal, FpFmt.isDenormal, he, hf]
  have hpos := Nat.two_pow_pos
  simp only [FpFmt.dazStep, hden]
  split
  · simp only [FpFmt.zero, FpFmt.exp_mk' _ (hpos _) (hpos _), FpFmt.frac_mk' _ _ (hpos _), and_self]
  · exact ⟨he, hf⟩

/-! ### DE of two operands -/

theorem FpFmt.denormFlag_of_not (env : FpEnv) {a b : Nat} (ha : k.isDenormal a = false) (hb : k.isDenormal b = true → env.daz = true) :
    k.denormFlag env a b = 0 := by
  refine if_neg fun ⟨hdaz, hden⟩ => ?_
  rw [ha] at hden
  rw [hb (hden.resolve_left Bool.false_ne_true)] at hdaz
  cases hdaz

end

section
variable {k : FpFmt} {w : Nat} {a b : BitVec w}

/-- Operands that are not NaNs: what the operation answers after the DAZ step, with DE beside its flags. -/
theorem onFields_of_not_isNaN {env : FpEnv} {op : Nat → Nat → Nat × FpFlags} (ha : k.isNaN a.toNat = false) (hb : k.isNaN b.toNat = false)
    {v : Nat} {f : FpFlags} (hop : op (k.dazStep env a.toNat) (k.dazStep env b.toNat) = (v, f)) :
    onFields w (k.binary env op) a b = (BitVec.ofNat w v, f ||| k.denormFlag env a.toNat b.toNat) := by
  rw [onFields, FpFmt.binary_of_not_isNaN env op ha hb, hop]

/-- NaN operands: the first one quieted, and IE for a signalling one. -/
theorem onFields_of_isNaN (env : FpEnv) (op : Nat → Nat → Nat × FpFlags) (h : k.isNaN a.toNat = true ∨ k.isNaN b.toNat = true) :
    onFields w (k.binary env op) a b = ((if k.isNaN a.toNat then a else b) ||| BitVec.twoPow w (k.fw - 1),
      if k.isSNaN a.toNat || k.isSNaN b.toNat then fIE else 0) := by
  rw [← Bool.or_eq_true] at h
  rw [onFields, FpFmt.binary, if_pos h]
  cases k.isNaN a.toNat <;> simp [ofNat_quiet]

theorem onFields_mul_comm (env : FpEnv) (ha : k.isNaN a.toNat = false) (hb : k.isNaN b.toNat = false) :
    onFields w (k.binary env (k.mulCore env)) b a = onFields w (k.binary env (k.mulCore env)) a b := by
  rw [onFields, onFields, FpFmt.binary_comm env ha hb (k.mulCore_comm env _ _)]

theorem FpFmt.dazStep_lt {v : Nat} (hv : v < 2 ^ (1 + k.ew + k.fw)) (env : FpEnv) : k.dazStep env v < 2 ^ (1 + k.ew + k.fw) := by
  unfold FpFmt.dazStep
  split
  · exact FpFmt.mk'_lt _ (Nat.two_pow_pos _) (Nat.two_pow_pos _)
  · exact hv

/-- Turning the sign bit turns the sign. -/
theorem sign_xor_twoPow (hw : w = k.ew + k.fw + 1) (a : BitVec w) :
    k.sign (a ^^^ BitVec.twoPow w (k.ew + k.fw)).toNat = !k.sign a.toNat := by
  have hset : k.sign (BitVec.twoPow w (k.ew + k.fw)).toNat = true := by
    rw [FpFmt.sign, BitVec.testBit_toNat, BitVec.getLsbD_twoPow]
    simp [hw]
  rw [sign_xor, hset, Bool.bne_true]

/-- A zero of a sign as bits. -/
theorem ofNat_zero (sg : Bool) : BitVec.ofNat w (k.zero sg) = if sg then BitVec.twoPow w (k.ew + k.fw) else 0#w := by
  rw [FpFmt.zero, ofNat_mk' sg (Nat.two_pow_pos _) (Nat.two_pow_pos _), show k.mk' false 0 0 = 0 by simp [FpFmt.mk']]
  exact BitVec.zero_or

theorem FpFmt.toNat_lt (hw : w = 1 + k.ew + k.fw) (a : BitVec w) : a.toNat < 2 ^ (1 + k.ew + k.fw) := hw ▸ a.isLt

theorem onFields_add_comm (hw : w = 1 + k.ew + k.fw) (env : FpEnv) (ha : k.isNaN a.toNat = false) (hb : k.isNaN b.toNat = false) :
    onFields w (k.binary env (k.addCore env)) b a = onFields w (k.binary env (k.addCore env)) a b := by
  have ha' := FpFmt.toNat_lt hw a
  have hb' := FpFmt.toNat_lt hw b
  rw [onFields, onFields, FpFmt.binary_comm env ha hb (FpFmt.addCore_comm env (FpFmt.dazStep_lt ha' env) (FpFmt.dazStep_lt hb' env))]

/-- An operand that is a zero, or a denormal read as one. -/
theorem FpFmt.Proper.readAsZero (hk : k.Proper) (hw : w = 1 + k.ew + k.fw) {env : FpEnv}
    (h : a &&& ~~~BitVec.twoPow w (k.ew + k.fw) = 0 ∨ k.isDenormal a.toNat = true ∧ env.daz = true) :
    k.Finite a.toNat ∧ k.isZero (k.dazStep env a.toNat) = true ∧ (k.isDenormal a.toNat = true → env.daz = true) := by
  rw [isZero_iff (by omega)] at h
  refine ⟨hk.finite_of_isZero_or_isDenormal (FpFmt.toNat_lt hw a) (h.imp_right And.left), (k.isZero_dazStep env _).mpr h, fun hden => ?_⟩
  rcases h with h | ⟨-, h⟩
  · rw [k.not_isDenormal_of_isZero h] at hden
    cases hden
  · exact h

theorem onFields_mul_inf_zero (env : FpEnv) (ha : k.isInf a.toNat = true) (hb : k.Finite b.toNat)
    (hzero : k.isZero (k.dazStep env b.toNat) = true) (hdaz : k.isDenormal b.toNat = true → env.daz = true) :
    onFields w (k.binary env (k.mulCore env)) a b = (BitVec.ofNat w k.indefinite, fIE) := by
  have hden := k.not_isDenormal_of_isInf ha
  rw [onFields_of_not_isNaN (k.not_isNaN_of_isInf ha) hb.not_isNaN (by rw [k.dazStep_eq_self env hden, k.mulCore_invalid env ha hzero]),
    k.denormFlag_of_not env hden hdaz, flags_or_zero]

theorem onFields_mul_inf (hk : k.Proper) (env : FpEnv) (ha : k.isInf a.toNat = true) (hb : k.isNaN b.toNat = false)
    (hzero : k.isZero (k.dazStep env b.toNat) = false) : onFields w (k.binary env (k.mulCore env)) a b =
      (BitVec.ofNat w (k.inf false) ||| ((a ^^^ b) &&& BitVec.twoPow w (k.ew + k.fw)), k.denormFlag env a.toNat b.toNat) := by
  rw [onFields_of_not_isNaN (k.not_isNaN_of_isInf ha) hb
    (by rw [k.dazStep_eq_self env (k.not_isDenormal_of_isInf ha), hk.mulCore_inf env ha hzero]), flags_zero_or, k.sign_dazStep,
    FpFmt.inf, ofNat_mk' _ k.emax_lt (Nat.two_pow_pos _), ← xor_and_twoPow, FpFmt.inf]

theorem onFields_mul_zero (hk : k.Proper) (env : FpEnv) (ha : k.Finite a.toNat) (hb : k.Finite b.toNat)
    (hzero : k.isZero (k.dazStep env a.toNat) = true) :
    onFields w (k.binary env (k.mulCore env)) a b =
      ((a ^^^ b) &&& BitVec.twoPow w (k.ew + k.fw), k.denormFlag env a.toNat b.toNat) := by
  rw [onFields_of_not_isNaN ha.not_isNaN hb.not_isNaN
    (k.mulCore_zero env hzero (ha.dazStep hk env).not_isInf (hb.dazStep hk env).not_isInf), flags_zero_or, k.sign_dazStep, k.sign_dazStep,
    ofNat_zero, xor_and_twoPow]

theorem onFields_add_inf (hk : k.Proper) (env : FpEnv) (ha : k.isInf a.toNat = true) (hb : k.isNaN b.toNat = false)
    (hsign : k.isInf b.toNat = true → k.sign a.toNat = k.sign b.toNat) :
    onFields w (k.binary env (k.addCore env)) a b = (a, k.denormFlag env a.toNat b.toNat) := by
  rw [onFields_of_not_isNaN (k.not_isNaN_of_isInf ha) hb (k.addCore_inf env (by rwa [hk.isInf_dazStep])
    (by rwa [hk.isInf_dazStep, k.sign_dazStep, k.sign_dazStep])), k.dazStep_eq_self env (k.not_isDenormal_of_isInf ha),
    BitVec.ofNat_toNat, BitVec.setWidth_eq, flags_zero_or]

theorem onFields_add_opposite_infs (env : FpEnv) (ha : k.isInf a.toNat = true) (hb : k.isInf b.toNat = true)
    (hsign : k.sign a.toNat ≠ k.sign b.toNat) :
    onFields w (k.binary env (k.addCore env)) a b = (BitVec.ofNat w k.indefinite, fIE) := by
  have hden := k.not_isDenormal_of_isInf ha
  have hden' := k.not_isDenormal_of_isInf hb
  rw [onFields_of_not_isNaN (k.not_isNaN_of_isInf ha) (k.not_isNaN_of_isInf hb)
    (by rw [k.dazStep_eq_self env hden, k.dazStep_eq_self env hden', k.addCore_opposite env ha hb hsign]),
    k.denormFlag_of_not env hden (by simp [hden']), flags_or_zero]

/-- A number and its negative: each has the other's magnitude, also after the DAZ step. -/
theorem onFields_add_negative (hk : k.Proper) (env : FpEnv) (ha : k.Finite a.toNat) (hb : k.Finite b.toNat)
    (hexp : k.exp b.toNat = k.exp a.toNat)
    (hfrac : k.frac b.toNat = k.frac a.toNat) (hsign : k.sign b.toNat = !k.sign a.toNat) :
    onFields w (k.binary env (k.addCore env)) a b =
      (if env.rc = 1 then BitVec.twoPow w (k.ew + k.fw) else 0, k.denormFlag env a.toNat a.toNat) := by
  have hden : k.denormFlag env a.toNat b.toNat = k.denormFlag env a.toNat a.toNat := by
    rw [FpFmt.denormFlag, FpFmt.denormFlag, show k.isDenormal b.toNat = k.isDenormal a.toNat by
      rw [FpFmt.isDenormal, FpFmt.isDenormal, hexp, hfrac]]
  obtain ⟨hexp', hfrac'⟩ := FpFmt.parts_dazStep_congr env hexp hfrac
  have hsum : k.exactSum (k.dazStep env a.toNat) (k.dazStep env b.toNat) = 0 :=
    FpFmt.exactSum_opposite hexp' hfrac' (by rw [k.sign_dazStep, k.sign_dazStep, hsign])
  rw [onFields_of_not_isNaN ha.not_isNaN hb.not_isNaN
    (k.addCore_exactZero env (ha.dazStep hk env).not_isInf (hb.dazStep hk env).not_isInf hsum), k.sign_dazStep, k.sign_dazStep, hsign,
    ofNat_zero, hden, flags_zero_or]
  cases k.sign a.toNat <;> simp

theorem onFields_add_zeros (hk : k.Proper) (hw : w = 1 + k.ew + k.fw) (env : FpEnv) (ha : k.isZero a.toNat = true) :
    onFields w (k.binary env (k.addCore env)) a a = (a, 0) := by
  have hden := k.not_isDenormal_of_isZero ha
  have hfinite := hk.finite_of_isZero_or_isDenormal (FpFmt.toNat_lt hw a) (.inl ha)
  obtain ⟨hexp, hfrac⟩ : k.exp a.toNat = 0 ∧ k.frac a.toNat = 0 := by simpa [FpFmt.isZero] using ha
  have hself : k.zero (k.sign a.toNat) = a.toNat := by
    conv_rhs => rw [← FpFmt.mk'_parts (FpFmt.toNat_lt hw a), hexp, hfrac]
    rfl
  rw [onFields_of_not_isNaN hfinite.not_isNaN hfinite.not_isNaN (by rw [k.dazStep_eq_self env hden,
    k.addCore_exactZero env hfinite.not_isInf hfinite.not_isInf (FpFmt.exactSum_zeros ha), if_pos rfl, hself]),
    k.denormFlag_of_not env hden (by simp [hden]), BitVec.ofNat_toNat, BitVec.setWidth_eq, flags_or_zero]

/-- The special cases of a format, its constants as powers of two and fields. -/
theorem FpFmt.Proper.specialCases (hk : k.Proper) (hw : w = 1 + k.ew + k.fw) (env : FpEnv) :
    SpecialCases k env (onFields w (k.binary env (k.mulCore env)))
    (onFields w (k.binary env (k.addCore env))) (BitVec.twoPow w (k.ew + k.fw)) (BitVec.twoPow w (k.fw - 1))
    (BitVec.ofNat w (k.inf false)) (BitVec.ofNat w k.indefinite) := by
  have hw' : w = k.ew + k.fw + 1 := by omega
  constructor
  case firstNaN =>
    intro a b ha
    rw [onFields_of_isNaN env _ (.inl ha), onFields_of_isNaN env _ (.inl ha), ha]
    exact ⟨rfl, rfl⟩
  case secondNaN =>
    intro a b ha hb
    rw [onFields_of_isNaN env _ (.inr hb), onFields_of_isNaN env _ (.inr hb), ha]
    exact ⟨rfl, rfl⟩
  case nanFlags =>
    intro a b h
    rw [onFields_of_isNaN env _ h, onFields_of_isNaN env _ h]
    exact ⟨rfl, rfl⟩
  case infTimesZero =>
    intro a b ha hb
    rw [isInf_iff hw'] at ha
    obtain ⟨hfinite, hzero, hdaz⟩ := hk.readAsZero hw hb
    rw [onFields_mul_comm env (k.not_isNaN_of_isInf ha) hfinite.not_isNaN, and_self]
    exact onFields_mul_inf_zero env ha hfinite hzero hdaz
  case infTimesOther =>
    intro a b ha hb hne hdaz
    rw [isInf_iff hw'] at ha
    rw [Ne, isZero_iff hw'] at hne
    have hzero : k.isZero (k.dazStep env b.toNat) = false := by
      rw [← Bool.not_eq_true, k.isZero_dazStep]
      rintro (h | ⟨h, h'⟩)
      · exact hne h
      · rw [hdaz h] at h'
        cases h'
    rw [onFields_mul_comm env (k.not_isNaN_of_isInf ha) hb, and_self]
    exact onFields_mul_inf hk env ha hb hzero
  case zeroTimesFinite =>
    intro a b ha hb
    obtain ⟨hfinite, hzero, -⟩ := hk.readAsZero hw ha
    rw [onFields_mul_comm env hfinite.not_isNaN hb.not_isNaN, and_self]
    exact onFields_mul_zero hk env hfinite hb hzero
  case oppositeInfs =>
    intro a ha
    rw [isInf_iff hw'] at ha
    obtain ⟨hexp, hfrac⟩ := parts_xor_twoPow (k := k) a
    exact onFields_add_opposite_infs env ha (by rwa [FpFmt.isInf, hexp, hfrac])
      (by rw [sign_xor_twoPow hw']; cases k.sign a.toNat <;> decide)
  case sameInfs =>
    intro a ha
    rw [isInf_iff hw'] at ha
    rw [onFields_add_inf hk env ha (k.not_isNaN_of_isInf ha) fun _ => rfl, k.denormFlag_of_not env (k.not_isDenormal_of_isInf ha)
      (by simp [k.not_isDenormal_of_isInf ha])]
  case infPlusFinite =>
    intro a b ha hb
    rw [isInf_iff hw'] at ha
    rw [onFields_add_comm hw env (k.not_isNaN_of_isInf ha) hb.not_isNaN, and_self]
    exact onFields_add_inf hk env ha hb.not_isNaN fun h => absurd h (by rw [hb.not_isInf]; decide)
  case cancels =>
    intro a ha
    obtain ⟨hexp, hfrac⟩ := parts_xor_twoPow (k := k) a
    exact onFields_add_negative hk env ha ⟨FpFmt.toNat_lt hw _, by rw [hexp]; exact ha.2⟩ hexp hfrac (sign_xor_twoPow hw' a)
  case zeros => exact fun a ha => onFields_add_zeros hk hw env ((isZero_iff hw').mp ha)

end

/-- Settles O51: `specialCases` of both formats. -/
theorem specialCasesOfMultiplyAndAdd : Obligations.SpecialCasesOfMultiplyAndAdd := by
  unfold Obligations.SpecialCasesOfMultiplyAndAdd
  exact fun env => ⟨fmt32_proper.specialCases rfl env, fmt64_proper.specialCases rfl env⟩

end Sys2Proof.Machine

namespace Sys2Proof.Machine

/-! ## The shape of the floating-point rules (43_dot_product.md R154, 60_exceptions.md R208)

The key and the exceptions of such a rule are those of its class; `fpRule_of_exec` asks for the value written, and that what the operations
detect are flags of the masked run with an unmasked one among them where the run has one. -/

/-- Gate, read the second operand, and complete with the value and the flags that `r` computes of it; `l` is what the operations detect. -/
def execFp (s : State) (n : Nat) (align : Bool) (e : Enc) (len : Nat) (dst : Reg) (src : Rm) (draws : Nat) (r : XWord → XWord × FpFlags)
    (l : XWord → List FpFlags) : Outcome State :=
  andThen (gate s) fun _ =>
  andThen (xmmOperand s n align e len src) fun v =>
  fpComplete s { s with draws := draws } len dst (r v).1 (r v).2 (l v)

section
variable {s : State} {n : Nat} {align : Bool} {e : Enc} {len : Nat} {dst : Reg} {src : Rm} {draws : Nat} {r : XWord → XWord × FpFlags}
  {l : XWord → List FpFlags}

/-- The state after a floating-point instruction that completes. -/
def State.afterFp (s : State) (len : Nat) (dst : Reg) (draws : Nat) (v : XWord) (f : FpFlags) : State :=
  (State.setXmm { s with draws := draws, mxcsr := orFlags s.mxcsr f } dst v).advance len

/-- Where the extension is enabled and the source raises nothing, the instruction completes as its flags say. -/
theorem execFp_eq (henabled : Enabled s) (hread : ReadOk s n align e len src) : execFp s n align e len dst src draws r l =
    fpComplete s { s with draws := draws } len dst (r (srcXmm s n e len src)).1 (r (srcXmm s n e len src)).2
      (l (srcXmm s n e len src)) := by
  rw [execFp, gate_of_enabled henabled, andThen_next, xmmOperand_eq_next.mpr ⟨hread, rfl⟩, andThen_next]

theorem execFp_eq_next (henabled : Enabled s) (hread : ReadOk s n align e len src)
    (hmasked : unmasked s (r (srcXmm s n e len src)).2 = 0) : execFp s n align e len dst src draws r l =
      .next (s.afterFp len dst draws (r (srcXmm s n e len src)).1 (r (srcXmm s n e len src)).2) := by
  rw [execFp_eq henabled hread]
  exact fpComplete_eq_next.mpr ⟨hmasked, rfl⟩

/-- Where it completed, the destination holds the value computed of the source. -/
theorem getXmm_of_execFp_eq_next {t : State} (h : execFp s n align e len dst src draws r l = .next t) :
    t.getXmm dst = (r (srcXmm s n e len src)).1 := by
  obtain ⟨_, -, h⟩ := andThen_eq_next.mp h
  obtain ⟨v, hv, h⟩ := andThen_eq_next.mp h
  obtain ⟨-, rfl⟩ := xmmOperand_eq_next.mp hv
  obtain ⟨-, rfl⟩ := fpComplete_eq_next.mp h
  rw [State.getXmm_advance, State.getXmm_setXmm]

@[simp] theorem State.getXmm_afterFp (v : XWord) (f : FpFlags) : (s.afterFp len dst draws v f).getXmm dst = v := by
  rw [State.afterFp, State.getXmm_advance, State.getXmm_setXmm]

theorem frame_afterFp (v : XWord) (f : FpFlags) : Frame s (s.afterFp len dst draws v f) len (some dst) none 0 0 where
  system := by constructor <;> rfl
  rip := rfl
  xmm q hq := (State.getXmm_setXmm_ne _ v fun h => hq (congrArg some h) :)
  gpr _ _ := rfl
  mem _ _ := rfl

end

/-- An instruction whose meaning is `execFp` keeps its rule when what it writes and what it detects are as the rule says. -/
theorem fpRule_of_exec {i : Instr} {post : State → XWord → XWord → Prop} {levels : State → XWord → List FpFlags}
    (draws : State → Nat) (r : State → XWord → XWord × FpFlags) (l : State → XWord → List FpFlags)
    (hexec : ∀ s, Ready i s → exec i s = execFp s i.memBytes i.excClass.aligned16 i.operands.enc i.len i.operands.reg i.operands.rm
      (draws s) (r s) (l s))
    (hunmasked : ∀ s v, unmasked s (r s v).2 ≠ 0 → ∃ f ∈ l s v, unmasked s f ≠ 0) (hzero : ∀ s v, ∀ f ∈ l s v, NoZe f)
    (hsub : ∀ s v, ∀ f ∈ l s v, f &&& (r s v).2 = f) (hlevels : ∀ s v, l s v = levels s v) (hpost : ∀ s v, post s v (r s v).1) :
    FpRule i i.key i.excClass i.memBytes i.operands.reg i.operands.rm (fun s v => (r s v).2) levels post where
  key := rfl
  faults _ _ := exec_mayRaise
  runs s hready hread hmasked := by
    have ⟨henabled, _⟩ := hready
    refine ⟨_, (hexec s hready).trans (execFp_eq_next henabled hread hmasked), ?_, frame_afterFp .., rfl, rfl⟩
    rw [State.getXmm_afterFp]
    exact hpost s _
  traps s hready hread hraised := by
    have ⟨henabled, _⟩ := hready
    rw [← hlevels]
    refine ⟨_, faultFlagsOf_faultSet (hunmasked s _ hraised) (hzero s _) (hsub s _), ?_⟩
    rw [hexec s hready, execFp_eq henabled hread]
    exact fpComplete_eq_fault.mpr ⟨hraised, rfl⟩

end Sys2Proof.Machine

namespace Sys2Proof.Machine

/-! ## NaN answers (43_dot_product.md R151, R152) -/

/-- A quiet NaN of the format: a NaN with the top fraction bit set. -/
def QuietNaN (k : FpFmt) {w : Nat} (v : BitVec w) : Prop := k.isNaN v.toNat = true ∧ v.getLsbD (k.fw - 1) = true

section
variable {k : FpFmt}

theorem FpFmt.testBit_frac (v : Nat) {i : Nat} (hi : i < k.fw) : (k.frac v).testBit i = v.testBit i := by
  rw [FpFmt.frac, Nat.testBit_mod_two_pow, decide_eq_true hi, Bool.true_and]

/-- A number with the greatest exponent and the top fraction bit is a NaN. -/
theorem FpFmt.Proper.isNaN_of_testBit (hk : k.Proper) {v : Nat} (hexp : k.exp v = k.emax) (hbit : v.testBit (k.fw - 1) = true) :
    k.isNaN v = true := by
  have hfw := hk.one_le_fw
  have hfrac : k.frac v ≠ 0 := fun h0 => by
    rw [← FpFmt.testBit_frac (k := k) v (by omega), h0, Nat.zero_testBit] at hbit
    cases hbit
  simp [FpFmt.isNaN, hexp, hfrac]

theorem FpFmt.not_isNaN_inf (sg : Bool) : k.isNaN (k.inf sg) = false := by
  simp [FpFmt.isNaN, FpFmt.inf, FpFmt.frac_mk']

/-- A field that is neither a NaN nor an infinity is finite. -/
theorem FpFmt.finite_of_not {v : Nat} (hv : v < 2 ^ (1 + k.ew + k.fw)) (hnan : k.isNaN v = false) (hinf : k.isInf v = false) :
    k.Finite v := by
  refine ⟨hv, fun hexp => ?_⟩
  rw [FpFmt.isInf, hexp] at hinf
  rw [FpFmt.isNaN, hexp, beq_self_eq_true, Bool.true_and, bne_eq_false_iff_eq] at hnan
  simp [hnan] at hinf

theorem FpFmt.Proper.not_isNaN_dazStep (hk : k.Proper) {v : Nat} (env : FpEnv) (h : k.isNaN v = false) :
    k.isNaN (k.dazStep env v) = false := by
  unfold FpFmt.dazStep
  split
  · exact (hk.finite_zero _).not_isNaN
  · exact h

/-- An answer of an operation on operands that are not NaNs: the indefinite, or a field that is no NaN. -/
def NoOtherNaN (k : FpFmt) (r : Nat) : Prop := r = k.indefinite ∨ k.isNaN r = false ∧ r < 2 ^ (1 + k.ew + k.fw)

theorem FpFmt.RoundedOp.noOtherNaN (hk : k.Proper) {env : FpEnv} {de f : FpFlags} {x : ℚ} {zneg : Bool} {r : Nat}
    (h : k.RoundedOp env de x zneg r f) : NoOtherNaN k r := by
  refine .inr ⟨?_, h.lt hk⟩
  rcases h.finite_or_inf hk with h | ⟨sg, rfl⟩
  · exact h.not_isNaN
  · exact FpFmt.not_isNaN_inf sg

section
variable {a b : Nat} (hk : k.Proper) (env : FpEnv) (ha : a < 2 ^ (1 + k.ew + k.fw)) (hb : b < 2 ^ (1 + k.ew + k.fw))
  (ha' : k.isNaN a = false) (hb' : k.isNaN b = false)
include hk ha hb ha' hb'

theorem FpFmt.mulCore_noOtherNaN : NoOtherNaN k (k.mulCore env a b).1 := by
  have hinf : ∀ {a b : Nat}, k.isInf a = true → NoOtherNaN k (k.mulCore env a b).1 := fun {a b} hinf => by
    cases hzero : k.isZero b
    · rw [hk.mulCore_inf env hinf hzero]
      exact .inr ⟨FpFmt.not_isNaN_inf _, k.inf_lt _⟩
    · rw [k.mulCore_invalid env hinf hzero]
      exact .inl rfl
  cases hinfa : k.isInf a
  · cases hinfb : k.isInf b
    · exact (hk.mulCore_roundedOp env (FpFmt.finite_of_not ha ha' hinfa) (FpFmt.finite_of_not hb hb' hinfb) 0).noOtherNaN hk
    · rw [k.mulCore_comm]
      exact hinf hinfb
  · exact hinf hinfa

theorem FpFmt.addCore_noOtherNaN : NoOtherNaN k (k.addCore env a b).1 := by
  cases hinfa : k.isInf a
  · cases hinfb : k.isInf b
    · exact (hk.addCore_roundedOp env (FpFmt.finite_of_not ha ha' hinfa) (FpFmt.finite_of_not hb hb' hinfb) 0).noOtherNaN hk
    · rw [k.addCore_comm env ha hb, k.addCore_inf env hinfb fun h => absurd h (by rw [hinfa]; decide)]
      exact .inr ⟨hb', hb⟩
  · by_cases hopp : k.isInf b = true ∧ k.sign a ≠ k.sign b
    · rw [k.addCore_opposite env hinfa hopp.1 hopp.2]
      exact .inl rfl
    · rw [k.addCore_inf env hinfa fun h => not_not.mp fun hne => hopp ⟨h, hne⟩]
      exact .inr ⟨ha', ha⟩

end

variable {w : Nat} {a b : BitVec w}

/-- The quieted NaN is a quiet NaN. -/
theorem QuietNaN.of_isNaN (hk : k.Proper) (hw : w = 1 + k.ew + k.fw) (h : k.isNaN a.toNat = true) :
    QuietNaN k (a ||| BitVec.twoPow w (k.fw - 1)) := by
  have hfw := hk.one_le_fw
  have hbit : (a ||| BitVec.twoPow w (k.fw - 1)).getLsbD (k.fw - 1) = true := by
    rw [BitVec.getLsbD_or, BitVec.getLsbD_twoPow]
    simp
    omega
  have hexp : k.exp (a ||| BitVec.twoPow w (k.fw - 1)).toNat = k.exp a.toNat := by
    have hlt : 2 ^ (k.fw - 1) < 2 ^ k.fw := Nat.pow_lt_pow_right (by decide) (by omega)
    rw [FpFmt.exp, FpFmt.exp, BitVec.toNat_or, BitVec.toNat_twoPow, Nat.mod_eq_of_lt (Nat.pow_lt_pow_right (by decide) (by omega)),
      Nat.or_div_two_pow, Nat.div_eq_of_lt hlt, Nat.or_zero]
  obtain ⟨hexp', -⟩ := Bool.and_eq_true_iff.mp h
  exact ⟨hk.isNaN_of_testBit (hexp.trans (eq_of_beq hexp')) hbit, hbit⟩

theorem quietNaN_indefinite (hk : k.Proper) (hw : w = 1 + k.ew + k.fw) : QuietNaN k (BitVec.ofNat w k.indefinite) := by
  have hfw := hk.one_le_fw
  have hlt : 2 ^ (k.fw - 1) < 2 ^ k.fw := Nat.pow_lt_pow_right (by decide) (by omega)
  have hbit : k.indefinite.testBit (k.fw - 1) = true := by
    rw [← FpFmt.testBit_frac (k := k) k.indefinite (by omega), FpFmt.indefinite, FpFmt.frac_mk' _ _ hlt, Nat.testBit_two_pow_self]
  have hself : (BitVec.ofNat w k.indefinite).toNat = k.indefinite :=
    BitVec.toNat_ofNat .. ▸ Nat.mod_eq_of_lt (hw ▸ FpFmt.mk'_lt true k.emax_lt hlt)
  refine ⟨?_, by rwa [← BitVec.testBit_toNat, hself]⟩
  rw [hself]
  exact hk.isNaN_of_testBit (FpFmt.exp_mk' true k.emax_lt hlt) hbit

/-- A NaN operand makes the answer a quiet NaN. -/
theorem onFields_quietNaN (hk : k.Proper) (hw : w = 1 + k.ew + k.fw) (env : FpEnv) (op : Nat → Nat → Nat × FpFlags)
    (h : k.isNaN a.toNat = true ∨ k.isNaN b.toNat = true) : QuietNaN k (onFields w (k.binary env op) a b).1 := by
  rw [onFields_of_isNaN env op h]
  apply QuietNaN.of_isNaN hk hw
  cases ha : k.isNaN a.toNat
  · exact h.resolve_left (by rw [ha]; decide)
  · exact ha

/-- A NaN that no operand is was made by an invalid operation. -/
theorem onFields_eq_indefinite (hw : w = 1 + k.ew + k.fw) {env : FpEnv} {op : Nat → Nat → Nat × FpFlags}
    (ha : k.isNaN a.toNat = false) (hb : k.isNaN b.toNat = false)
    (hop : NoOtherNaN k (op (k.dazStep env a.toNat) (k.dazStep env b.toNat)).1)
    (h : k.isNaN (onFields w (k.binary env op) a b).1.toNat = true) :
    (onFields w (k.binary env op) a b).1 = BitVec.ofNat w k.indefinite := by
  rw [onFields_of_not_isNaN ha hb rfl] at h ⊢
  rcases hop with hop | ⟨hnan, hlt⟩
  · rw [hop]
  · rw [BitVec.toNat_ofNat, Nat.mod_eq_of_lt (hw ▸ hlt), hnan] at h
    cases h

section
variable (hk : k.Proper) (hw : w = 1 + k.ew + k.fw) {env : FpEnv}
include hk hw

theorem onFields_mul_eq_indefinite (ha : k.isNaN a.toNat = false) (hb : k.isNaN b.toNat = false)
    (h : k.isNaN (onFields w (k.binary env (k.mulCore env)) a b).1.toNat = true) :
    (onFields w (k.binary env (k.mulCore env)) a b).1 = BitVec.ofNat w k.indefinite :=
  onFields_eq_indefinite hw ha hb (FpFmt.mulCore_noOtherNaN hk env (FpFmt.dazStep_lt (FpFmt.toNat_lt hw a) env)
    (FpFmt.dazStep_lt (FpFmt.toNat_lt hw b) env) (hk.not_isNaN_dazStep env ha) (hk.not_isNaN_dazStep env hb)) h

theorem onFields_add_eq_indefinite (ha : k.isNaN a.toNat = false) (hb : k.isNaN b.toNat = false)
    (h : k.isNaN (onFields w (k.binary env (k.addCore env)) a b).1.toNat = true) :
    (onFields w (k.binary env (k.addCore env)) a b).1 = BitVec.ofNat w k.indefinite :=
  onFields_eq_indefinite hw ha hb (FpFmt.addCore_noOtherNaN hk env (FpFmt.dazStep_lt (FpFmt.toNat_lt hw a) env)
    (FpFmt.dazStep_lt (FpFmt.toNat_lt hw b) env) (hk.not_isNaN_dazStep env ha) (hk.not_isNaN_dazStep env hb)) h

/-- Every NaN a multiply answers is quiet. -/
theorem onFields_mul_quietNaN (h : k.isNaN (onFields w (k.binary env (k.mulCore env)) a b).1.toNat = true) :
    QuietNaN k (onFields w (k.binary env (k.mulCore env)) a b).1 := by
  by_cases hnan : k.isNaN a.toNat = true ∨ k.isNaN b.toNat = true
  · exact onFields_quietNaN hk hw env _ hnan
  · simp only [not_or, Bool.not_eq_true] at hnan
    rw [onFields_mul_eq_indefinite hk hw hnan.1 hnan.2 h]
    exact quietNaN_indefinite hk hw

omit hk in
/-- An add answers the same in both orders, unless its operands are two different NaNs. -/
theorem onFields_add_comm_of_indefinite (ha : k.isNaN a.toNat = true → a = BitVec.ofNat w k.indefinite)
    (hb : k.isNaN b.toNat = true → b = BitVec.ofNat w k.indefinite) :
    (onFields w (k.binary env (k.addCore env)) b a).1 = (onFields w (k.binary env (k.addCore env)) a b).1 := by
  cases ha' : k.isNaN a.toNat <;> cases hb' : k.isNaN b.toNat
  case false.false => rw [onFields_add_comm hw env ha' hb']
  case true.true => rw [ha ha', hb hb']
  all_goals rw [onFields_of_isNaN env _ (by simp [ha', hb']), onFields_of_isNaN env _ (by simp [ha', hb']), ha', hb']; rfl

end

end

end Sys2Proof.Machine

namespace Sys2Proof.Machine

/-! ## The NaN of a result field (43_dot_product.md R152, U3) -/

section
variable {w : Nat} {s : State} {sum host : BitVec w} {isOpen : Bool} {cands : List (BitVec w)}

theorem dpField_of_tree (h : s.nanDp = .tree) (k : Nat) : dpField s sum host isOpen cands k = sum := by rw [dpField, h]

theorem dpField_of_host (h : s.nanDp = .host) (k : Nat) : dpField s sum host isOpen cands k = host := by rw [dpField, h]

theorem dpField_of_closed (hdraw : s.nanDp = .draw) (hopen : isOpen = false) (k : Nat) : dpField s sum host isOpen cands k = sum := by
  rw [dpField, hdraw, hopen]
  rfl

/-- Where the orders agree and nothing is open, the field is the sum under every NAN_DP. -/
theorem dpField_eq_sum (hhost : host = sum) (hopen : isOpen = false) (k : Nat) : dpField s sum host isOpen cands k = sum := by
  cases h : s.nanDp with
  | tree => exact dpField_of_tree h k
  | host => exact (dpField_of_host h k).trans hhost
  | draw => exact dpField_of_closed h hopen k

/-- What holds of the sum, of the other order and of every candidate holds of the field. -/
theorem dpField_induction {P : BitVec w → Prop} (hsum : P sum) (hhost : P host) (hcands : ∀ c ∈ cands, P c) (k : Nat) :
    P (dpField s sum host isOpen cands k) := by
  have hchoice : ∀ i, P (cands.getD i sum) := fun i => by
    rw [List.getD_eq_getElem?_getD]
    cases hi : cands[i]? with
    | none => exact hsum
    | some c => exact hcands c (List.mem_of_getElem? hi)
  unfold dpField
  split
  · exact hsum
  · exact hhost
  · split
    · exact hchoice _
    · exact hsum

/-- What one lane offers is quiet, if its product is quiet where that is a NaN. -/
theorem quietNaN_of_mem_laneNaNs {k : FpFmt} (hk : k.Proper) (hw : w = 1 + k.ew + k.fw) {a b t c : BitVec w}
    (ht : k.isNaN t.toNat = true → QuietNaN k t)
    (hc : c ∈ laneNaNs (fun v => k.isNaN v.toNat) (fun v => BitVec.ofNat w (k.quiet v.toNat)) a b t) : QuietNaN k c := by
  have hquiet (v : BitVec w) (hv : c ∈ if k.isNaN v.toNat = true then [BitVec.ofNat w (k.quiet v.toNat)] else []) : QuietNaN k c := by
    split at hv
    next hnan =>
      rw [List.mem_singleton.mp hv, ofNat_quiet]
      exact .of_isNaN hk hw hnan
    next => cases hv
  unfold laneNaNs at hc
  split at hc
  · exact (List.mem_append.mp hc).elim (hquiet a) (hquiet b)
  · split at hc
    next hnan => rw [List.mem_singleton.mp hc]; exact ht hnan
    next => cases hc

end

/-! ## DPPS (43_dot_product.md R155) -/

section
variable {env : FpEnv} {a b : BitVec 32} {t : Nat → Fp 32}

theorem fadd32_quietNaN (h : isNaN32 a = true ∨ isNaN32 b = true) : QuietNaN fmt32 (fadd32 env a b).1 := by
  rw [fadd32_eq]
  exact onFields_quietNaN fmt32_proper rfl env _ h

theorem fmul32_quietNaN (h : isNaN32 (fmul32 env a b).1 = true) : QuietNaN fmt32 (fmul32 env a b).1 := by
  rw [fmul32_eq] at h ⊢
  exact onFields_mul_quietNaN fmt32_proper rfl h

theorem fadd32_comm (ha : isNaN32 a = false) (hb : isNaN32 b = false) : fadd32 env b a = fadd32 env a b := by
  rw [fadd32_eq]
  exact onFields_add_comm (k := fmt32) rfl env ha hb

/-- A NaN among the four terms is quieted, or replaced by a quiet one, in a pair sum and again in the sum. -/
theorem sum4_quietNaN {i j k l : Nat}
    (h : isNaN32 (t i).1 = true ∨ isNaN32 (t j).1 = true ∨ isNaN32 (t k).1 = true ∨ isNaN32 (t l).1 = true) :
    QuietNaN fmt32 (sum4 env t i j k l) := by
  rw [← or_assoc] at h
  refine fadd32_quietNaN (h.imp (fun h => ?_) fun h => ?_)
  · exact (fadd32_quietNaN h).1
  · exact (fadd32_quietNaN h).1

theorem dppsSums_quietNaN (h : ∃ j < 4, isNaN32 (t j).1 = true) (k : Nat) :
    QuietNaN fmt32 (dppsSum env t) ∧ QuietNaN fmt32 (dppsHost env t k) := by
  have h' : isNaN32 (t 0).1 = true ∨ isNaN32 (t 1).1 = true ∨ isNaN32 (t 2).1 = true ∨ isNaN32 (t 3).1 = true := by
    obtain ⟨j, hj, h⟩ := h
    interval_cases j <;> simp [h]
  refine ⟨sum4_quietNaN h', ?_⟩
  unfold dppsHost
  split <;> refine sum4_quietNaN ?_ <;> tauto

/-- Where no term is a NaN, the sum does not depend on the order in a pair or on that of the pairs. -/
theorem sum4_swap {i j k l : Nat} (h : ∀ m < 4, isNaN32 (t m).1 = false) (hi : i < 4) (hj : j < 4) (hk : k < 4) (hl : l < 4) :
    sum4 env t j i l k = sum4 env t i j k l ∧ sum4 env t k l i j = sum4 env t i j k l := by
  refine ⟨?_, onFields_add_comm_of_indefinite (k := fmt32) rfl
    (onFields_add_eq_indefinite fmt32_proper rfl (h i hi) (h j hj)) (onFields_add_eq_indefinite fmt32_proper rfl (h k hk) (h l hl))⟩
  rw [sum4, fadd32_comm (h i hi) (h j hj), fadd32_comm (h k hk) (h l hl), sum4]

theorem dppsHost_eq_sum (h : ∀ m < 4, isNaN32 (t m).1 = false) (k : Nat) : dppsHost env t k = dppsSum env t := by
  obtain ⟨h0, h2⟩ := sum4_swap (env := env) h (i := 0) (j := 1) (k := 2) (l := 3) (by decide) (by decide) (by decide) (by decide)
  obtain ⟨h3, -⟩ := sum4_swap (env := env) h (i := 2) (j := 3) (k := 0) (l := 1) (by decide) (by decide) (by decide) (by decide)
  unfold dppsHost
  split
  · exact h0
  · rfl
  · exact h3.trans h2
  · exact h2

/-- Without a NaN term at most an invalid add is a NaN, and nothing is open. -/
theorem dppsOpen_eq_false (h : ∀ m < 4, isNaN32 (t m).1 = false) : dppsOpen env t = false := by
  have hnone : ([0, 1, 2, 3].filter fun i => isNaN32 (t i).1) = [] :=
    List.filter_eq_nil_iff.mpr fun m hm => by simp [h m (by simp at hm; omega)]
  have := (dppsInvalid env t).toNat_le
  rw [dppsOpen, hnone, decide_eq_false_iff_not, List.length_nil]
  omega

end

section
variable {s : State} {imm : Byte} {a b : XWord}

theorem lane_dpps {k : Nat} (hk : k < 4) : lane 32 k (dpps s imm a b).1 =
    if imm.getLsbD k then dpField s (dppsSum s.fpEnv (dppsTerm s.fpEnv imm a b)) (dppsHost s.fpEnv (dppsTerm s.fpEnv imm a b) k)
      (dppsOpen s.fpEnv (dppsTerm s.fpEnv imm a b)) (dppsCandidates s.fpEnv imm a b (dppsTerm s.fpEnv imm a b)) k
    else 0 :=
  lane_pack 32 4 _ k (by decide) hk

theorem dppsTerm_of_selected {env : FpEnv} {i : Nat} (h : imm.getLsbD (4 + i) = true) :
    dppsTerm env imm a b i = fmul32 env (lane 32 i a) (lane 32 i b) := if_pos h

theorem dppsTerm_of_not_selected {env : FpEnv} {i : Nat} (h : imm.getLsbD (4 + i) = false) : dppsTerm env imm a b i = (0, 0) :=
  if_neg (by rw [h]; decide)

theorem quietNaN_of_mem_dppsCandidates {env : FpEnv} {c : BitVec 32}
    (hc : c ∈ dppsCandidates env imm a b (dppsTerm env imm a b)) : QuietNaN fmt32 c := by
  rcases List.mem_append.mp hc with hc | hc
  · obtain ⟨i, -, hc⟩ := List.mem_flatMap.mp hc
    split at hc
    next hsel =>
      refine quietNaN_of_mem_laneNaNs fmt32_proper rfl (fun hnan => ?_) hc
      rw [dppsTerm_of_selected hsel] at hnan ⊢
      exact fmul32_quietNaN hnan
    next => cases hc
  · split at hc
    next => rw [List.mem_singleton.mp hc]; exact quietNaN_indefinite fmt32_proper rfl
    next => cases hc

/-- With a NaN term every selected field is a quiet NaN, whatever is drawn. -/
theorem lane_dpps_quietNaN (h : ∃ j < 4, isNaN32 (dppsTerm s.fpEnv imm a b j).1 = true) {k : Nat} (hk : k < 4)
    (hsel : imm.getLsbD k = true) : QuietNaN fmt32 (lane 32 k (dpps s imm a b).1) := by
  rw [lane_dpps hk, if_pos hsel]
  obtain ⟨hsum, hhost⟩ := dppsSums_quietNaN (env := s.fpEnv) h k
  exact dpField_induction hsum hhost (fun c hc => quietNaN_of_mem_dppsCandidates hc) k

/-- Without a NaN term every selected field is the sum, under every NAN_DP. -/
theorem lane_dpps_eq_sum (h : ∀ j < 4, isNaN32 (dppsTerm s.fpEnv imm a b j).1 = false) {k : Nat} (hk : k < 4) :
    lane 32 k (dpps s imm a b).1 = if imm.getLsbD k then dppsSum s.fpEnv (dppsTerm s.fpEnv imm a b) else 0 := by
  rw [lane_dpps hk, dpField_eq_sum (dppsHost_eq_sum h k) (dppsOpen_eq_false h)]

theorem dppsLevels_eq (s : State) (t : Nat → Fp 32) : dppsLevels s t =
    [Detects s 0 (t 0).2 ||| Detects s 0 (t 1).2 ||| Detects s 0 (t 2).2 ||| Detects s 0 (t 3).2,
     Detects s ((t 0).2 ||| (t 1).2) (fadd32 s.fpEnv (t 0).1 (t 1).1).2 |||
      Detects s ((t 2).2 ||| (t 3).2) (fadd32 s.fpEnv (t 2).1 (t 3).1).2,
     Detects s ((t 0).2 ||| (t 1).2 ||| (t 2).2 ||| (t 3).2 ||| (fadd32 s.fpEnv (t 0).1 (t 1).1).2 ||| (fadd32 s.fpEnv (t 2).1 (t 3).1).2)
      (fadd32 s.fpEnv (fadd32 s.fpEnv (t 0).1 (t 1).1).1 (fadd32 s.fpEnv (t 2).1 (t 3).1).1).2] := by
  simp only [dppsLevels, detected_eq]

theorem exec_dpps (e : Enc) (d : Reg) (x : Rm) (imm : Byte) (s : State) : exec (.dpps e d x imm) s =
    execFp s 16 true e (len3A e x) d x (s.draws + 1) (dpps s imm (s.getXmm d))
      fun v => dppsLevels s (dppsTerm s.fpEnv imm (s.getXmm d) v) := rfl

end

/-- What DPPS writes under the four clauses of R155, with the terms and the sum named. -/
theorem dpps_fields (s : State) (imm : Byte) (a b : XWord) :
    (∀ i < 4, imm.getLsbD i = false → lane 32 i (dpps s imm a b).1 = 0) ∧
    (s.nanDp = .tree → ∀ i < 4, imm.getLsbD i = true →
      lane 32 i (dpps s imm a b).1 = dppsSum s.fpEnv (dppsTerm s.fpEnv imm a b)) ∧
    (s.nanDp = .host → ∀ i < 4, imm.getLsbD i = true →
      lane 32 i (dpps s imm a b).1 = dppsHost s.fpEnv (dppsTerm s.fpEnv imm a b) i) ∧
    (s.nanDp = .draw → ∀ i < 4, imm.getLsbD i = true →
      ((∀ j < 4, isNaN32 (dppsTerm s.fpEnv imm a b j).1 = false) →
        lane 32 i (dpps s imm a b).1 = dppsSum s.fpEnv (dppsTerm s.fpEnv imm a b)) ∧
      ((∃ j < 4, isNaN32 (dppsTerm s.fpEnv imm a b j).1 = true) → QuietNaN fmt32 (lane 32 i (dpps s imm a b).1))) := by
  refine ⟨fun i hi hsel => ?_, fun hdp i hi hsel => ?_, fun hdp i hi hsel => ?_, fun hdp i hi hsel => ⟨fun hnum => ?_, fun hnan => ?_⟩⟩
  · rw [lane_dpps hi, hsel]
    rfl
  · rw [lane_dpps hi, if_pos hsel, dpField_of_tree hdp]
  · rw [lane_dpps hi, if_pos hsel, dpField_of_host hdp]
  · rw [lane_dpps_eq_sum hnum hi, if_pos hsel]
  · exact lane_dpps_quietNaN hnan hi hsel

/-- Settles O45: the terms and the sums of the statement are the model's, and so are the levels of what is detected. -/
theorem dppsSumsProducts : Obligations.DppsSumsProducts := by
  unfold Obligations.DppsSumsProducts
  intro e d x imm T A
  refine fpRule_of_exec (i := .dpps e d x imm) (fun s => s.draws + 1) (fun s => dpps s imm (s.getXmm d))
    (fun s v => dppsLevels s (dppsTerm s.fpEnv imm (s.getXmm d) v)) (fun s _ => exec_dpps e d x imm s)
    (fun s v => dppsLevels_unmasked) (fun s v => dppsLevels_noZe fun _ => dppsTerm_noZe ..) (fun s v => dppsLevels_sub)
    (fun s v => dppsLevels_eq s _) fun s v => ?_
  obtain ⟨hzero, htree, hhost, hdraw⟩ := dpps_fields s imm (s.getXmm d) v
  exact ⟨hzero, htree,
    fun hdp => ⟨hhost hdp 0 (by decide), hhost hdp 1 (by decide), hhost hdp 2 (by decide), hhost hdp 3 (by decide)⟩, hdraw⟩

end Sys2Proof.Machine

namespace Sys2Proof.Machine

/-! ## DPPD (43_dot_product.md R156) -/

section
variable {env : FpEnv} {a b : BitVec 64} {t : Nat → Fp 64}

theorem fadd64_quietNaN (h : isNaN64 a = true ∨ isNaN64 b = true) : QuietNaN fmt64 (fadd64 env a b).1 := by
  rw [fadd64_eq]
  exact onFields_quietNaN fmt64_proper rfl env _ h

theorem fmul64_quietNaN (h : isNaN64 (fmul64 env a b).1 = true) : QuietNaN fmt64 (fmul64 env a b).1 := by
  rw [fmul64_eq] at h ⊢
  exact onFields_mul_quietNaN fmt64_proper rfl h

theorem fadd64_comm (ha : isNaN64 a = false) (hb : isNaN64 b = false) : fadd64 env b a = fadd64 env a b := by
  rw [fadd64_eq]
  exact onFields_add_comm (k := fmt64) rfl env ha hb

/-- `SUM` of R156. -/
def dppdSum (env : FpEnv) (t : Nat → Fp 64) : BitVec 64 := (fadd64 env (t 0).1 (t 1).1).1

/-- The per-field sums of `NAN_DP = host` (R152). -/
def dppdHost (env : FpEnv) (t : Nat → Fp 64) (k : Nat) : BitVec 64 := if k = 0 then dppdSum env t else (fadd64 env (t 1).1 (t 0).1).1

theorem dppdSums_quietNaN (h : ∃ j < 2, isNaN64 (t j).1 = true) (k : Nat) :
    QuietNaN fmt64 (dppdSum env t) ∧ QuietNaN fmt64 (dppdHost env t k) := by
  have h' : isNaN64 (t 0).1 = true ∨ isNaN64 (t 1).1 = true := by
    obtain ⟨j, hj, h⟩ := h
    interval_cases j <;> simp [h]
  refine ⟨fadd64_quietNaN h', ?_⟩
  unfold dppdHost
  split
  · exact fadd64_quietNaN h'
  · exact fadd64_quietNaN h'.symm

theorem dppdHost_eq_sum (h : ∀ j < 2, isNaN64 (t j).1 = false) (k : Nat) : dppdHost env t k = dppdSum env t := by
  unfold dppdHost
  split
  · rfl
  · rw [fadd64_comm (h 0 (by decide)) (h 1 (by decide)), dppdSum]

end

section
variable {s : State} {imm : Byte} {a b : XWord}

theorem lane_dppd {k : Nat} (hk : k < 2) : lane 64 k (dppd s imm a b).1 =
    if imm.getLsbD k then dpField s (dppdSum s.fpEnv (dppdTerm s.fpEnv imm a b)) (dppdHost s.fpEnv (dppdTerm s.fpEnv imm a b) k)
      (isNaN64 (dppdTerm s.fpEnv imm a b 0).1 && isNaN64 (dppdTerm s.fpEnv imm a b 1).1)
      (dppdCandidates s.fpEnv imm a b (dppdTerm s.fpEnv imm a b)) k
    else 0 :=
  lane_pack 64 2 _ k (by decide) hk

theorem dppdTerm_of_selected {env : FpEnv} {i : Nat} (h : imm.getLsbD (4 + i) = true) :
    dppdTerm env imm a b i = fmul64 env (lane 64 i a) (lane 64 i b) := if_pos h

theorem dppdTerm_of_not_selected {env : FpEnv} {i : Nat} (h : imm.getLsbD (4 + i) = false) : dppdTerm env imm a b i = (0, 0) :=
  if_neg (by rw [h]; decide)

theorem quietNaN_of_mem_dppdCandidates {env : FpEnv} {c : BitVec 64}
    (hc : c ∈ dppdCandidates env imm a b (dppdTerm env imm a b)) : QuietNaN fmt64 c := by
  rcases List.mem_append.mp hc with hc | hc
  · obtain ⟨i, -, hc⟩ := List.mem_flatMap.mp hc
    split at hc
    next hsel =>
      refine quietNaN_of_mem_laneNaNs fmt64_proper rfl (fun hnan => ?_) hc
      rw [dppdTerm_of_selected hsel] at hnan ⊢
      exact fmul64_quietNaN hnan
    next => cases hc
  · split at hc
    next => rw [List.mem_singleton.mp hc]; exact quietNaN_indefinite fmt64_proper rfl
    next => cases hc

/-- With a NaN term every selected field is a quiet NaN, whatever is drawn. -/
theorem lane_dppd_quietNaN (h : ∃ j < 2, isNaN64 (dppdTerm s.fpEnv imm a b j).1 = true) {k : Nat} (hk : k < 2)
    (hsel : imm.getLsbD k = true) : QuietNaN fmt64 (lane 64 k (dppd s imm a b).1) := by
  rw [lane_dppd hk, if_pos hsel]
  obtain ⟨hsum, hhost⟩ := dppdSums_quietNaN (env := s.fpEnv) h k
  exact dpField_induction hsum hhost (fun c hc => quietNaN_of_mem_dppdCandidates hc) k

/-- Without a NaN term every selected field is the sum, under every NAN_DP. -/
theorem lane_dppd_eq_sum (h : ∀ j < 2, isNaN64 (dppdTerm s.fpEnv imm a b j).1 = false) {k : Nat} (hk : k < 2) :
    lane 64 k (dppd s imm a b).1 = if imm.getLsbD k then dppdSum s.fpEnv (dppdTerm s.fpEnv imm a b) else 0 := by
  rw [lane_dppd hk, dpField_eq_sum (dppdHost_eq_sum h k) (by rw [h 0 (by decide), Bool.false_and])]

theorem dppdLevels_eq (s : State) (t : Nat → Fp 64) : dppdLevels s t = [Detects s 0 (t 0).2 ||| Detects s 0 (t 1).2,
    Detects s ((t 0).2 ||| (t 1).2) (fadd64 s.fpEnv (t 0).1 (t 1).1).2] := by
  simp only [dppdLevels, detected_eq]

theorem exec_dppd (e : Enc) (d : Reg) (x : Rm) (imm : Byte) (s : State) : exec (.dppd e d x imm) s =
    execFp s 16 true e (len3A e x) d x (s.draws + 1) (dppd s imm (s.getXmm d))
      fun v => dppdLevels s (dppdTerm s.fpEnv imm (s.getXmm d) v) := rfl

end

/-- What DPPD writes under the four clauses of R156, with the terms and the sum named. -/
theorem dppd_fields (s : State) (imm : Byte) (a b : XWord) :
    (∀ i < 2, imm.getLsbD i = false → lane 64 i (dppd s imm a b).1 = 0) ∧
    (s.nanDp = .tree → ∀ i < 2, imm.getLsbD i = true →
      lane 64 i (dppd s imm a b).1 = dppdSum s.fpEnv (dppdTerm s.fpEnv imm a b)) ∧
    (s.nanDp = .host → ∀ i < 2, imm.getLsbD i = true →
      lane 64 i (dppd s imm a b).1 = dppdHost s.fpEnv (dppdTerm s.fpEnv imm a b) i) ∧
    (s.nanDp = .draw → ∀ i < 2, imm.getLsbD i = true →
      ((∀ j < 2, isNaN64 (dppdTerm s.fpEnv imm a b j).1 = false) →
        lane 64 i (dppd s imm a b).1 = dppdSum s.fpEnv (dppdTerm s.fpEnv imm a b)) ∧
      ((∃ j < 2, isNaN64 (dppdTerm s.fpEnv imm a b j).1 = true) → QuietNaN fmt64 (lane 64 i (dppd s imm a b).1))) := by
  refine ⟨fun i hi hsel => ?_, fun hdp i hi hsel => ?_, fun hdp i hi hsel => ?_, fun hdp i hi hsel => ⟨fun hnum => ?_, fun hnan => ?_⟩⟩
  · rw [lane_dppd hi, hsel]
    rfl
  · rw [lane_dppd hi, if_pos hsel, dpField_of_tree hdp]
  · rw [lane_dppd hi, if_pos hsel, dpField_of_host hdp]
  · rw [lane_dppd_eq_sum hnum hi, if_pos hsel]
  · exact lane_dppd_quietNaN hnan hi hsel

/-- Settles O46: the terms and the sum of the statement are the model's, and so are the levels of what is detected. -/
theorem dppdSumsProducts : Obligations.DppdSumsProducts := by
  unfold Obligations.DppdSumsProducts
  intro e d x imm T
  refine fpRule_of_exec (i := .dppd e d x imm) (fun s => s.draws + 1) (fun s => dppd s imm (s.getXmm d))
    (fun s v => dppdLevels s (dppdTerm s.fpEnv imm (s.getXmm d) v)) (fun s _ => exec_dppd e d x imm s)
    (fun s v => dppdLevels_unmasked) (fun s v => dppdLevels_noZe fun _ => dppdTerm_noZe ..) (fun s v => dppdLevels_sub)
    (fun s v => dppdLevels_eq s _) fun s v => ?_
  obtain ⟨hzero, htree, hhost, hdraw⟩ := dppd_fields s imm (s.getXmm d) v
  exact ⟨hzero, htree, fun hdp => ⟨hhost hdp 0 (by decide), hhost hdp 1 (by decide)⟩, hdraw⟩

end Sys2Proof.Machine

namespace Sys2Proof.Machine

/-! ## What NAN_DP does, and no product at all (43_dot_product.md R152, R155, R156) -/

/-- Settles O47: a NaN product is a NaN term. -/
theorem nanProductsGiveQuietNans : Obligations.NanProductsGiveQuietNans := by
  unfold Obligations.NanProductsGiveQuietNans
  intro e d x imm s t
  refine ⟨fun v hv hexec ⟨i, hi, hsel, hnan⟩ k hk hk' => ?_, fun v hv hexec ⟨i, hi, hsel, hnan⟩ k hk hk' => ?_⟩
  · rw [exec_dpps] at hexec
    rw [getXmm_of_execFp_eq_next hexec, ← hv]
    exact lane_dpps_quietNaN ⟨i, hi, by rwa [dppsTerm_of_selected hsel]⟩ hk hk'
  · rw [exec_dppd] at hexec
    rw [getXmm_of_execFp_eq_next hexec, ← hv]
    exact lane_dppd_quietNaN ⟨i, hi, by rwa [dppdTerm_of_selected hsel]⟩ hk hk'

/-! ### The machine under another NAN_DP -/

/-- The same machine under another NAN_DP. -/
def State.withNanDp (s : State) (p : NanDp) : State := { s with nanDp := p }

section
variable (s : State) (p : NanDp)

theorem firstPageError_withNanDp (acc : Access) (a n : Nat) : firstPageError (s.withNanDp p) acc a n = firstPageError s acc a n := by
  induction n generalizing a with
  | zero => rfl
  | succ n ih =>
    simp only [firstPageError, ih]
    rfl

/-- No check of an operand reads NAN_DP. -/
theorem xmmOperand_withNanDp (n : Nat) (align : Bool) (e : Enc) (len : Nat) (rm : Rm) :
    xmmOperand (s.withNanDp p) n align e len rm = xmmOperand s n align e len rm := by
  cases rm with
  | reg r => rfl
  | mem m =>
    simp only [xmmOperand, loadOperand, operandFault, firstPageError_withNanDp]
    rfl

theorem untilFault_withNanDp (levels : List FpFlags) : untilFault (s.withNanDp p) levels = untilFault s levels := by
  induction levels with
  | nil => rfl
  | cons f fs ih =>
    simp only [untilFault, ih]
    rfl

theorem fpComplete_withNanDp (t : State) (len : Nat) (dst : Reg) (v : XWord) (f : FpFlags) (levels : List FpFlags) :
    fpComplete (s.withNanDp p) (t.withNanDp p) len dst v f levels = mapNext (·.withNanDp p) (fpComplete s t len dst v f levels) := by
  simp only [fpComplete, mapNext_ite, faultFlagsOf, drawFlags, untilFault_withNanDp]
  rfl

/-- A floating-point instruction whose value and flags are the same under another NAN_DP answers the same, but for the parameter. -/
theorem execFp_withNanDp {n : Nat} {align : Bool} {e : Enc} {len : Nat} {dst : Reg} {src : Rm} {draws : Nat}
    {r r' : XWord → XWord × FpFlags} {l l' : XWord → List FpFlags} (hr : r' (srcXmm s n e len src) = r (srcXmm s n e len src))
    (hl : l' (srcXmm s n e len src) = l (srcXmm s n e len src)) : execFp (s.withNanDp p) n align e len dst src draws r' l' =
      mapNext (·.withNanDp p) (execFp s n align e len dst src draws r l) := by
  rw [execFp, execFp, mapNext_andThen, xmmOperand_withNanDp, show gate (s.withNanDp p) = gate s from rfl]
  congr 1
  funext _
  rw [mapNext_andThen]
  cases h : xmmOperand s n align e len src with
  | next v =>
    obtain ⟨-, rfl⟩ := xmmOperand_eq_next.mp h
    rw [andThen_next, andThen_next, hr, hl, ← fpComplete_withNanDp]
    rfl
  | fault | refused => rfl

end

section
variable {s : State} {imm : Byte} {a b : XWord}

/-- Without a NaN term DPPS writes the same fields and raises the same flags under every NAN_DP. -/
theorem dpps_withNanDp (p : NanDp) (h : ∀ j < 4, isNaN32 (dppsTerm s.fpEnv imm a b j).1 = false) :
    dpps (s.withNanDp p) imm a b = dpps s imm a b :=
  Prod.ext (eq_of_lanes 32 4 rfl _ _ fun _ hk => (lane_dpps_eq_sum (s := s.withNanDp p) h hk).trans (lane_dpps_eq_sum h hk).symm) rfl

theorem dppd_withNanDp (p : NanDp) (h : ∀ j < 2, isNaN64 (dppdTerm s.fpEnv imm a b j).1 = false) :
    dppd (s.withNanDp p) imm a b = dppd s imm a b :=
  Prod.ext (eq_of_lanes 64 2 rfl _ _ fun _ hk => (lane_dppd_eq_sum (s := s.withNanDp p) h hk).trans (lane_dppd_eq_sum h hk).symm) rfl

/-- A lane that is not selected has the term +0.0, which is no NaN. -/
theorem dppsTerm_not_isNaN {env : FpEnv} {j : Nat}
    (h : imm.getLsbD (4 + j) = true → isNaN32 (fmul32 env (lane 32 j a) (lane 32 j b)).1 = false) :
    isNaN32 (dppsTerm env imm a b j).1 = false := by
  cases hsel : imm.getLsbD (4 + j)
  · rw [dppsTerm_of_not_selected hsel]
    rfl
  · rw [dppsTerm_of_selected hsel]
    exact h hsel

theorem dppdTerm_not_isNaN {env : FpEnv} {j : Nat}
    (h : imm.getLsbD (4 + j) = true → isNaN64 (fmul64 env (lane 64 j a) (lane 64 j b)).1 = false) :
    isNaN64 (dppdTerm env imm a b j).1 = false := by
  cases hsel : imm.getLsbD (4 + j)
  · rw [dppdTerm_of_not_selected hsel]
    rfl
  · rw [dppdTerm_of_selected hsel]
    exact h hsel

end

/-- Settles O48: without a NaN term every field is the sum of the tree, under every NAN_DP. -/
theorem nanDpMattersOnlyForNans : Obligations.NanDpMattersOnlyForNans := by
  unfold Obligations.NanDpMattersOnlyForNans
  intro e d x imm s p
  refine ⟨fun v hv hnum => ?_, fun v hv hnum => ?_⟩
  · subst hv
    exact execFp_withNanDp s p (dpps_withNanDp p fun j hj => dppsTerm_not_isNaN (hnum j hj)) rfl
  · subst hv
    exact execFp_withNanDp s p (dppd_withNanDp p fun j hj => dppdTerm_not_isNaN (hnum j hj)) rfl

/-! ### No product -/

theorem fadd32_zero (env : FpEnv) : fadd32 env 0#32 0#32 = (0#32, 0) := (fmt32_proper.specialCases (w := 32) rfl env).zeros 0 (by decide)

theorem fadd64_zero (env : FpEnv) : fadd64 env 0#64 0#64 = (0#64, 0) := (fmt64_proper.specialCases (w := 64) rfl env).zeros 0 (by decide)

theorem not_selected_of_div : ∀ imm : Byte, imm.toNat / 16 = 0 → ∀ i < 4, imm.getLsbD (4 + i) = false := by decide

theorem not_selected_of_mod : ∀ imm : Byte, imm.toNat / 16 % 4 = 0 → ∀ i < 2, imm.getLsbD (4 + i) = false := by decide

section
variable {s : State} {imm : Byte} {a b : XWord}

/-- A selection of no product has only the terms +0.0, whose sums are +0.0 and raise nothing. -/
theorem dpps_of_not_selected (h : ∀ i < 4, imm.getLsbD (4 + i) = false) : dpps s imm a b = (0, 0) := by
  have hterm : ∀ i < 4, dppsTerm s.fpEnv imm a b i = (0, 0) := fun i hi => dppsTerm_of_not_selected (h i hi)
  have hnum : ∀ j < 4, isNaN32 (dppsTerm s.fpEnv imm a b j).1 = false := fun j hj => by rw [hterm j hj]; rfl
  refine Prod.ext (eq_of_lanes 32 4 rfl _ _ fun k hk => ?_) ?_
  · rw [lane_dpps_eq_sum hnum hk]
    simp [dppsSum, sum4, hterm, fadd32_zero, lane]
  · simp [dpps, dppsFlags, hterm, fadd32_zero]

theorem dppd_of_not_selected (h : ∀ i < 2, imm.getLsbD (4 + i) = false) : dppd s imm a b = (0, 0) := by
  have hterm : ∀ i < 2, dppdTerm s.fpEnv imm a b i = (0, 0) := fun i hi => dppdTerm_of_not_selected (h i hi)
  have hnum : ∀ j < 2, isNaN64 (dppdTerm s.fpEnv imm a b j).1 = false := fun j hj => by rw [hterm j hj]; rfl
  refine Prod.ext (eq_of_lanes 64 2 rfl _ _ fun k hk => ?_) ?_
  · rw [lane_dppd_eq_sum hnum hk]
    simp [dppdSum, hterm, fadd64_zero, lane]
  · simp [dppd, hterm, fadd64_zero]

end

/-- A floating-point instruction that computes zero without a flag completes, and changes its destination alone. -/
theorem execFp_zero {s : State} {n : Nat} {align : Bool} {e : Enc} {len : Nat} {dst : Reg} {src : Rm} {draws : Nat}
    {r : XWord → XWord × FpFlags} {l : XWord → List FpFlags} (henabled : Enabled s) (hread : ReadOk s n align e len src)
    (hr : r (srcXmm s n e len src) = (0, 0)) : ∃ t, execFp s n align e len dst src draws r l = .next t ∧ t.getXmm dst = 0 ∧
      Frame s t len (some dst) none 0 0 ∧ t.rflags = s.rflags ∧ t.mxcsr = s.mxcsr := by
  refine ⟨_, execFp_eq_next henabled hread (by rw [hr]; exact unmasked_zero s), ?_, frame_afterFp .., rfl, ?_⟩
  · rw [State.getXmm_afterFp, hr]
  · rw [hr]
    exact BitVec.or_zero

/-- Settles O49: all terms and sums are +0.0. -/
theorem noProductSelectedGivesZero : Obligations.NoProductSelectedGivesZero := by
  unfold Obligations.NoProductSelectedGivesZero
  intro e d x imm s henabled hread
  exact ⟨fun himm => execFp_zero henabled hread (dpps_of_not_selected (not_selected_of_div imm himm)),
    fun himm => execFp_zero henabled hread (dppd_of_not_selected (not_selected_of_mod imm himm))⟩

end Sys2Proof.Machine

namespace Sys2Proof.Machine

/-! ## Blends (44_blend.md R160 to R165) -/

theorem lane_blend (w : Nat) (sel : Nat → Bool) (a b : XWord) :
    ∀ i < 128 / w, lane w i (blend w sel a b) = if sel i then lane w i b else lane w i a := fun _ hi =>
  lane_pack _ _ _ _ (Nat.mul_div_le 128 w) hi

/-- The sign bit of a field of the mask is one bit of the mask. -/
theorem signSel_eq_getLsbD {w : Nat} (hw : 0 < w) (m : XWord) (i : Nat) : signSel w m i = m.getLsbD (w * i + (w - 1)) := by
  have htop : w - 1 < w := by omega
  rw [signSel, lane, BitVec.getLsbD_extractLsb', decide_eq_true htop, Bool.true_and]

theorem lane_blend_signSel {w : Nat} (hw : 0 < w) (m a b : XWord) : ∀ i < 128 / w,
    lane w i (blend w (signSel w m) a b) = if m.getLsbD (w * i + (w - 1)) then lane w i b else lane w i a := fun i hi => by
  rw [lane_blend _ _ _ _ i hi, signSel_eq_getLsbD hw]

/-- Settles O52: the mask is the XMM0 of the state before the write, so it does not matter whether XMM0 is the destination. -/
theorem variableBlends : Obligations.VariableBlends := by
  unfold Obligations.VariableBlends
  intro e d x
  exact ⟨xmmRule_of_exec (fun s => blend 32 (signSel 32 (s.getXmm 0))) (fun _ => rfl)
      fun s => lane_blend_signSel (w := 32) (by decide) (s.getXmm 0) (s.getXmm d),
    xmmRule_of_exec (fun s => blend 64 (signSel 64 (s.getXmm 0))) (fun _ => rfl)
      fun s => lane_blend_signSel (w := 64) (by decide) (s.getXmm 0) (s.getXmm d),
    xmmRule_of_exec (fun s => blend 8 (signSel 8 (s.getXmm 0))) (fun _ => rfl)
      fun s => lane_blend_signSel (w := 8) (by decide) (s.getXmm 0) (s.getXmm d)⟩

/-- Settles O53: the `128 / w` fields are chosen by as many low bits of imm8, and no other bit of it is read. -/
theorem immediateBlends : Obligations.ImmediateBlends := by
  unfold Obligations.ImmediateBlends
  intro e d x imm
  exact ⟨xmmRule_of_exec (fun _ => blend 32 imm.getLsbD) (fun _ => rfl) fun s => lane_blend 32 imm.getLsbD (s.getXmm d),
    xmmRule_of_exec (fun _ => blend 64 imm.getLsbD) (fun _ => rfl) fun s => lane_blend 64 imm.getLsbD (s.getXmm d),
    xmmRule_of_exec (fun _ => blend 16 imm.getLsbD) (fun _ => rfl) fun s => lane_blend 16 imm.getLsbD (s.getXmm d)⟩

end Sys2Proof.Machine

namespace Sys2Proof.Machine

/-! ## PTEST (45_ptest.md R170) -/

section
variable (r : Quad) (zf cf : Bool)

@[simp] theorem getLsbD_ptestFlags_zf : (ptestFlags r zf cf).getLsbD 6 = zf := by
  cases zf <;> cases cf <;> simp [ptestFlags, statusMask]

@[simp] theorem getLsbD_ptestFlags_cf : (ptestFlags r zf cf).getLsbD 0 = cf := by
  cases zf <;> cases cf <;> simp [ptestFlags, statusMask]

/-- PF, AF, SF and OF. -/
theorem getLsbD_ptestFlags_cleared : ∀ k ∈ [2, 4, 7, 11], (ptestFlags r zf cf).getLsbD k = false := by
  cases zf <;> cases cf <;> simp [ptestFlags, statusMask]

end

/-- No bit of `v` is marked by the mask `m`. -/
theorem and_beq_zero_iff {w : Nat} {v m : BitVec w} : (v &&& m == 0) = true ↔ ∀ k, v.getLsbD k = true → m.getLsbD k = false := by
  rw [beq_iff_eq, BitVec.ofNat_eq_ofNat, BitVec.zero_iff_eq_false]
  simp only [BitVec.getLsbD_and, Bool.and_eq_false_imp]

/-- No bit of `v` is unmarked by the mask `m`. -/
theorem and_not_beq_zero_iff {w : Nat} {v m : BitVec w} :
    (v &&& ~~~m == 0) = true ↔ ∀ k, v.getLsbD k = true → m.getLsbD k = true := by
  rw [and_beq_zero_iff]
  refine forall₂_congr fun k hk => ?_
  rw [BitVec.getLsbD_not, decide_eq_true (BitVec.lt_of_getLsbD hk), Bool.true_and, Bool.not_eq_false']

/-- The write of the status flags, with the advance of RIP, leaves everything but RFLAGS as it was. -/
theorem frame_setStatusFlags_advance (s : State) (zf cf : Bool) (len : Nat) :
    Frame s (State.advance { s with rflags := ptestFlags s.rflags zf cf } len) len none none 0 0 where
  system := by constructor <;> rfl
  rip := rfl
  xmm _ _ := rfl
  gpr _ _ := rfl
  mem _ _ := rfl

/-- Where the extension is enabled and the source raises nothing, PTEST sets the flags of `SRC` against `DEST` and advances. -/
theorem execPtest_eq_next {s : State} {e : Enc} {dst : Reg} {src : Rm} {v : XWord} (henabled : Enabled s)
    (hv : xmmOperand s 16 true e (len38 e src) src = .next v) : execPtest e dst src s =
      .next (State.advance { s with rflags := ptestFlags s.rflags (v &&& s.getXmm dst == 0) (v &&& ~~~(s.getXmm dst) == 0) }
        (len38 e src)) := by
  rw [execPtest, gate_of_enabled henabled, andThen_next, hv, andThen_next]

/-- Settles O54: the two tests for zero speak of every bit of the source, and the four cleared flags and the kept bits are those of
`ptestFlags`. -/
theorem ptestSetsZfAndCf : Obligations.PtestSetsZfAndCf := by
  unfold Obligations.PtestSetsZfAndCf
  intro e d x
  refine ⟨rfl, fun s f => exec_mayRaise, fun s henabled hread => ?_⟩
  have hv := xmmOperand_eq_next.mpr ⟨hread, rfl⟩
  refine ⟨_, execPtest_eq_next henabled hv, frame_setStatusFlags_advance .., rfl, ?_⟩
  rw [State.advance_rflags, getLsbD_ptestFlags_zf, getLsbD_ptestFlags_cf]
  have hcleared := getLsbD_ptestFlags_cleared s.rflags
  exact ⟨and_beq_zero_iff, and_not_beq_zero_iff, hcleared _ _ 2 (by decide), hcleared _ _ 4 (by decide), hcleared _ _ 7 (by decide),
    hcleared _ _ 11 (by decide), fun _ => getLsbD_ptestFlags _ _ _⟩

end Sys2Proof.Machine

namespace Sys2Proof.Machine

/-! ## Rounding to an integer (46_round.md R181) -/

/-- `z` is `x` rounded to an integer under mode `m`. -/
structure RoundsToInt (m : BitVec 2) (x : ℚ) (z : Int) : Prop where
  nearest : m = 0 → |x - z| ≤ 1 / 2 ∧ (|x - z| = 1 / 2 → z % 2 = 0)
  floor : m = 1 → z = ⌊x⌋
  ceil : m = 2 → z = ⌈x⌉
  trunc : m = 3 → z = if 0 ≤ x then ⌊x⌋ else ⌈x⌉

/-- An integer is its own rounding. -/
theorem RoundsToInt.self (m : BitVec 2) (z : Int) : RoundsToInt m z z where
  nearest _ := by norm_num
  floor _ := (Int.floor_intCast z).symm
  ceil _ := (Int.ceil_intCast z).symm
  trunc _ := by rw [Int.floor_intCast, Int.ceil_intCast, ite_self]

/-- An integer less than one away is the floor of what is not below it. -/
theorem eq_floor_of_le {x : ℚ} {z : Int} (h : |x - z| < 1) (hle : z ≤ x) : z = ⌊x⌋ :=
  (Int.floor_eq_iff.mpr ⟨hle, by linarith [(abs_lt.mp h).2]⟩).symm

/-- An integer less than one away is the ceiling of what is not above it. -/
theorem eq_ceil_of_le {x : ℚ} {z : Int} (h : |x - z| < 1) (hle : x ≤ z) : z = ⌈x⌉ :=
  (Int.ceil_eq_iff.mpr ⟨by linarith [(abs_lt.mp h).1], hle⟩).symm

/-- An integer magnitude with a sign. -/
def signedInt (neg : Bool) (n : Nat) : Int := if neg then -n else n

theorem cast_signedInt (neg : Bool) (n : Nat) : (signedInt neg n : ℚ) = signFactor neg * n := by
  cases neg <;> simp [signedInt]

theorem signedInt_mod_two {neg : Bool} {n : Nat} (h : n % 2 = 0) : signedInt neg n % 2 = 0 := by
  unfold signedInt
  split <;> omega

section
variable {m : BitVec 2} {neg : Bool} {a : ℚ} {q n : Nat}

theorem RoundsMagnitude.abs_sub_lt (h : RoundsMagnitude m neg a q n) : |a - n| < 1 := by
  have hfloor := h.floor_le
  have hsucc := h.lt_succ
  rw [abs_lt]
  rcases h.adjacent with rfl | ⟨rfl, hlt⟩
  · constructor <;> linarith
  · rw [Nat.cast_succ]
    constructor <;> linarith

/-- A rounded magnitude with its sign is the rounding to an integer. -/
theorem RoundsMagnitude.roundsToInt (h : RoundsMagnitude m neg a q n) : RoundsToInt m (signFactor neg * a) (signedInt neg n) := by
  have ha : 0 ≤ a := le_trans (by positivity) h.floor_le
  have habs : |signFactor neg * a - signedInt neg n| = |a - n| := by rw [cast_signedInt, ← mul_sub, abs_signFactor_mul]
  have hlt : |signFactor neg * a - signedInt neg n| < 1 := habs ▸ h.abs_sub_lt
  refine ⟨fun hm => ?nearest, fun hm => eq_floor_of_le hlt ?below, fun hm => eq_ceil_of_le hlt ?above, fun hm => ?trunc⟩
  case nearest =>
    obtain ⟨hhalf, heven⟩ := h.nearest hm
    rw [habs, abs_sub_comm]
    exact ⟨hhalf, fun heq => signedInt_mod_two (heven heq)⟩
  case below =>
    obtain ⟨hpos, hneg⟩ := h.below hm
    rw [cast_signedInt]
    cases neg
    · simpa using hpos rfl
    · simpa using hneg rfl
  case above =>
    obtain ⟨hpos, hneg⟩ := h.above hm
    rw [cast_signedInt]
    cases neg
    · simpa using hpos rfl
    · simpa using hneg rfl
  case trunc =>
    have hle := h.within hm
    have hn : (0 : ℚ) ≤ n := n.cast_nonneg
    -- A value of at least 0 with a negative sign is a zero, and so is what it is rounded to.
    split
    next hx =>
      refine eq_floor_of_le hlt ?_
      rw [cast_signedInt]
      cases neg <;> simp only [signFactor_false, signFactor_true] at hx ⊢ <;> linarith
    next hx =>
      refine eq_ceil_of_le hlt ?_
      rw [cast_signedInt]
      cases neg <;> simp only [signFactor_false, signFactor_true] at hx ⊢ <;> linarith

end

/-! ### Integers as fields -/

section
variable {k : FpFmt}

/-- An integer scaled to a significand of `fw + 1` bits. -/
theorem normalised_bounds {n fw : Nat} (h0 : n ≠ 0) (hlog : Nat.log2 n ≤ fw) :
    2 ^ fw ≤ n * 2 ^ (fw - Nat.log2 n) ∧ n * 2 ^ (fw - Nat.log2 n) < 2 ^ (fw + 1) := by
  have hsplit : 2 ^ fw = 2 ^ Nat.log2 n * 2 ^ (fw - Nat.log2 n) := by rw [← Nat.pow_add, Nat.add_sub_cancel' hlog]
  rw [Nat.pow_succ', hsplit, ← Nat.mul_assoc, ← Nat.pow_succ']
  exact ⟨Nat.mul_le_mul_right _ (Nat.log2_self_le h0), Nat.mul_lt_mul_of_pos_right Nat.lt_log2_self (Nat.two_pow_pos _)⟩

/-- The field of an integer, scaled to a full significand; the exponent of the largest is within the format where the significand is no
longer than the bias. -/
theorem FpFmt.ofNat_spec (hk : k.Proper) (hbias : k.fw ≤ k.bias) (neg : Bool) {n : Nat} (hn : n ≤ 2 ^ k.fw) :
    k.Finite (k.ofNat neg n) ∧ k.sign (k.ofNat neg n) = neg ∧ k.value (k.ofNat neg n) = signedInt neg n := by
  unfold FpFmt.ofNat
  split
  next h0 =>
    refine ⟨hk.finite_zero neg, FpFmt.sign_zero neg, ?_⟩
    rw [(k.value_eq_zero_iff _).mpr (FpFmt.isZero_zero neg), cast_signedInt, h0, Nat.cast_zero, mul_zero]
  next h0 =>
    have hlog : Nat.log2 n ≤ k.fw :=
      Nat.lt_succ_iff.mp ((Nat.log2_lt h0).mpr (hn.trans_lt (Nat.pow_lt_pow_right (by decide) (Nat.lt_succ_self _))))
    obtain ⟨hlow, hhigh⟩ := normalised_bounds h0 hlog
    have hexp : Nat.log2 n + k.bias < k.emax := by
      rw [hk.emax_eq]
      omega
    have hfrac : n * 2 ^ (k.fw - Nat.log2 n) - 2 ^ k.fw < 2 ^ k.fw := by
      rw [Nat.pow_succ] at hhigh
      omega
    have hexp' := hexp.trans k.emax_lt
    have hone := hk.one_le_bias
    refine ⟨FpFmt.finite_mk' neg hexp hfrac, FpFmt.sign_mk' neg hexp' hfrac, ?_⟩
    rw [FpFmt.value_mk'_normal neg hexp' (by omega) hlow hhigh, cast_signedInt]
    congr 1
    have hunit : ((Nat.log2 n + k.bias : Nat) : Int) - k.bias - k.fw = -((k.fw - Nat.log2 n : Nat) : Int) := by omega
    rw [hunit, zpow_neg, zpow_natCast]
    push_cast
    rw [mul_assoc, mul_inv_cancel₀ (by positivity), mul_one]

/-! ### `rti`, case by case -/

section
variable (daz : Bool) (m : BitVec 2) (p : Bool) {v : Nat}

theorem FpFmt.not_isSNaN (h : k.isNaN v = false) : k.isSNaN v = false := by rw [FpFmt.isSNaN, h, Bool.false_and]

theorem FpFmt.rti_of_isSNaN (h : k.isSNaN v = true) : k.rti daz m p v = (k.quiet v, fIE) := if_pos h

theorem FpFmt.rti_of_isNaN (h : k.isNaN v = true) (h' : k.isSNaN v = false) : k.rti daz m p v = (v, 0) := by simp [FpFmt.rti, h, h']

theorem FpFmt.rti_of_isDenormal (hv : k.Finite v) (h : k.isDenormal v = true) : k.rti true m p v = (k.zero (k.sign v), 0) := by
  simp [FpFmt.rti, h, hv.not_isNaN, FpFmt.not_isSNaN hv.not_isNaN]

theorem FpFmt.rti_of_isInf (h : k.isInf v = true) : k.rti daz m p v = (v, 0) := by
  have hnan := k.not_isNaN_of_isInf h
  simp [FpFmt.rti, h, hnan, FpFmt.not_isSNaN hnan, k.not_isDenormal_of_isInf h]

theorem FpFmt.rti_of_isZero (hv : k.Finite v) (h : k.isZero v = true) : k.rti daz m p v = (v, 0) := by
  simp [FpFmt.rti, h, hv.not_isNaN, FpFmt.not_isSNaN hv.not_isNaN, k.not_isDenormal_of_isZero h]

/-- Any other finite field: an integer already, or its magnitude rounded. -/
theorem FpFmt.rti_of_finite (hv : k.Finite v) (hdaz : k.isDenormal v = true → daz = false) (hzero : k.isZero v = false) :
    k.rti daz m p v = if 0 ≤ k.qexp v then (v, 0) else
      (k.ofNat (k.sign v) (scaleRound m (k.sign v) (k.mant v) (-k.qexp v)).1,
        if (scaleRound m (k.sign v) (k.mant v) (-k.qexp v)).2 && !p then fPE else 0) := by
  have hden : (k.isDenormal v && daz) = false := by
    cases h : k.isDenormal v
    · rfl
    · rw [hdaz h, Bool.and_false]
  simp only [FpFmt.rti, FpFmt.not_isSNaN hv.not_isNaN, hv.not_isNaN, hden, hv.not_isInf, hzero, Bool.or_self, Bool.false_eq_true, if_false]

end

/-- The answer is the field of an integer that the value rounds to, and PE says whether that changed it. -/
theorem FpFmt.RoundedToInt.of_roundsToInt {m : BitVec 2} {p inexact : Bool} {v r : Nat} {z : Int} (hr : k.Finite r)
    (hsign : k.sign r = k.sign v) (hvalue : k.value r = z) (hround : RoundsToInt m (k.value v) z)
    (hexact : inexact = false ↔ k.value r = k.value v) :
    k.RoundedToInt m p v r (if inexact && !p then fPE else 0) := by
  refine ⟨hr, hsign, fun hm => ⟨z, hvalue, hround.nearest hm⟩, fun hm => ?_, fun hm => ?_, fun hm => ?_, ?_⟩
  · rw [hvalue, hround.floor hm]
  · rw [hvalue, hround.ceil hm]
  · rw [hvalue, hround.trunc hm]
    split <;> rfl
  · simp only [ne_eq, ← hexact]
    cases inexact <;> cases p <;> rfl

/-- A field of integer value is its own rounding. -/
theorem FpFmt.RoundedToInt.self {v : Nat} (m : BitVec 2) (p : Bool) (hv : k.Finite v) {z : Int} (hvalue : k.value v = z) :
    k.RoundedToInt m p v v 0 :=
  .of_roundsToInt (inexact := false) hv rfl hvalue (hvalue ▸ .self m z) (by simp)

/-- A finite field whose unit is a fraction is less than a full significand. -/
theorem FpFmt.mant_mul_lt {v : Nat} (h : k.qexp v < 0) : (k.mant v : ℚ) * 2 ^ k.qexp v < 2 ^ k.fw := by
  have hfrac := k.frac_lt v
  have hmant : k.mant v < 2 ^ (k.fw + 1) := by
    rw [FpFmt.mant, Nat.pow_succ]
    split <;> omega
  have hmant' : (k.mant v : ℚ) < 2 ^ (k.fw + 1) := by exact_mod_cast hmant
  calc (k.mant v : ℚ) * 2 ^ k.qexp v ≤ k.mant v * 2 ^ (-1 : Int) :=
        mul_le_mul_of_nonneg_left (zpow_le_zpow_right₀ one_le_two (by omega)) (by positivity)
    _ < 2 ^ (k.fw + 1) * 2 ^ (-1 : Int) := mul_lt_mul_of_pos_right hmant' (by positivity)
    _ = 2 ^ k.fw := by rw [pow_succ, mul_assoc]; norm_num

/-- Every finite field but a denormal that DAZ reads as zero is rounded to an integer. -/
theorem FpFmt.rti_roundedToInt (hk : k.Proper) (hbias : k.fw ≤ k.bias) {daz : Bool} (m : BitVec 2) (p : Bool) {v : Nat} (hv : k.Finite v)
    (hdaz : k.isDenormal v = true → daz = false) : k.RoundedToInt m p v (k.rti daz m p v).1 (k.rti daz m p v).2 := by
  cases hzero : k.isZero v
  case true =>
    rw [FpFmt.rti_of_isZero daz m p hv hzero]
    exact .self m p hv (z := 0) (by simpa using (k.value_eq_zero_iff v).mpr hzero)
  rw [FpFmt.rti_of_finite daz m p hv hdaz hzero]
  split
  next hunit =>
    exact .self m p hv ((FpFmt.value_eq_of_le hunit).trans (by rw [zpow_zero, mul_one]))
  next hunit =>
    obtain ⟨q, hround, hexact⟩ := scaleRound_spec m (k.sign v) (k.mant v) (-k.qexp v)
    generalize scaleRound m (k.sign v) (k.mant v) (-k.qexp v) = rounded at *
    obtain ⟨n, inexact⟩ := rounded
    dsimp only at hround hexact ⊢
    rw [neg_neg] at hround hexact
    have hq : q < 2 ^ k.fw := by exact_mod_cast hround.floor_le.trans_lt (FpFmt.mant_mul_lt (not_le.mp hunit))
    have hn : n ≤ 2 ^ k.fw := by rcases hround.adjacent with rfl | ⟨rfl, -⟩ <;> omega
    obtain ⟨hfinite, hsign, hvalue⟩ := FpFmt.ofNat_spec hk hbias (k.sign v) hn
    refine .of_roundsToInt hfinite hsign hvalue ?_ ?_
    · rw [k.value_eq]
      exact hround.roundsToInt
    · rw [hvalue, cast_signedInt, k.value_eq, mul_right_inj' signFactor_ne_zero, hexact]

end

/-! ### Fields as bit vectors -/

/-- An operation on one field held as a number, on a bit vector. -/
def onField (w : Nat) (op : Nat → Nat × FpFlags) (f : BitVec w) : BitVec w × FpFlags := (BitVec.ofNat w (op f.toNat).1, (op f.toNat).2)

section
variable {k : FpFmt} {w : Nat} {f : BitVec w}

theorem onField_of_self {op : Nat → Nat × FpFlags} (h : op f.toNat = (f.toNat, 0)) : onField w op f = (f, 0) := by
  rw [onField, h, BitVec.ofNat_toNat, BitVec.setWidth_eq]

/-- R181 for a format, its constants as powers of two and fields. -/
theorem FpFmt.Proper.onField_rti (hk : k.Proper) (hbias : k.fw ≤ k.bias) (hw : w = 1 + k.ew + k.fw) (daz : Bool) (m : BitVec 2) (p : Bool)
    (f : BitVec w) :
    (k.isSNaN f.toNat = true → onField w (k.rti daz m p) f = (f ||| BitVec.twoPow w (k.fw - 1), fIE)) ∧
    (k.isNaN f.toNat = true → k.isSNaN f.toNat = false → onField w (k.rti daz m p) f = (f, 0)) ∧
    (k.isDenormal f.toNat = true → daz = true → onField w (k.rti daz m p) f = (f &&& BitVec.twoPow w (k.ew + k.fw), 0)) ∧
    (f &&& ~~~BitVec.twoPow w (k.ew + k.fw) = 0 ∨ f &&& ~~~BitVec.twoPow w (k.ew + k.fw) = BitVec.ofNat w (k.inf false) →
      onField w (k.rti daz m p) f = (f, 0)) ∧
    (k.Finite f.toNat → (k.isDenormal f.toNat = true → daz = false) →
      k.RoundedToInt m p f.toNat (onField w (k.rti daz m p) f).1.toNat (onField w (k.rti daz m p) f).2) := by
  have hw' : w = k.ew + k.fw + 1 := by omega
  have hf := FpFmt.toNat_lt hw f
  refine ⟨fun hsnan => ?signalling, fun hnan hquiet => ?quiet, fun hden hdaz => ?denormal, fun h => ?zeroOrInf,
    fun hfinite hdaz => ?rounded⟩
  case signalling => rw [onField, FpFmt.rti_of_isSNaN daz m p hsnan, ofNat_quiet]
  case quiet => exact onField_of_self (FpFmt.rti_of_isNaN daz m p hnan hquiet)
  case denormal =>
    have hfinite := hk.finite_of_isZero_or_isDenormal hf (.inr hden)
    rw [onField, hdaz, FpFmt.rti_of_isDenormal m p hfinite hden, ofNat_zero, BitVec.and_twoPow]
    rfl
  case zeroOrInf =>
    rw [isZero_iff hw', isInf_iff hw'] at h
    rcases h with hzero | hinf
    · exact onField_of_self (FpFmt.rti_of_isZero daz m p (hk.finite_of_isZero_or_isDenormal hf (.inl hzero)) hzero)
    · exact onField_of_self (FpFmt.rti_of_isInf daz m p hinf)
  case rounded =>
    have hround := FpFmt.rti_roundedToInt hk hbias m p hfinite hdaz
    have ⟨⟨hlt, _⟩, _⟩ := hround
    rwa [onField, BitVec.toNat_ofNat, Nat.mod_eq_of_lt (hw ▸ hlt)]

end

/-- Settles O57: `onField_rti` of both formats, in each of which every rounded magnitude has a field. -/
theorem roundsToTheNamedInteger : Obligations.RoundsToTheNamedInteger := by
  unfold Obligations.RoundsToTheNamedInteger
  exact fun daz m p => ⟨fmt32_proper.onField_rti (by decide) rfl daz m p, fmt64_proper.onField_rti (by decide) rfl daz m p⟩

end Sys2Proof.Machine

namespace Sys2Proof.Machine

/-! ## ROUNDPS, ROUNDPD, ROUNDSS and ROUNDSD (46_round.md R180, R182 to R185) -/

section
variable {s : State} {n : Nat} {align : Bool} {e : Enc} {dst : Reg} {src : Rm} {imm : Byte} {f : XWord → XWord → XWord × FpFlags}

/-- Where the reserved bits are not refused, a rounding is a floating-point instruction of one level that draws nothing. -/
theorem execRound_eq_execFp (himm : s.roundImmHi = .refuse → imm.extractLsb' 4 4 = 0) : execRound s n align e dst src imm f =
    execFp s n align e (len3A e src) dst src s.draws (f (s.getXmm dst)) fun v => [(f (s.getXmm dst) v).2] :=
  congrArg (andThen (gate s)) (funext fun _ => if_neg fun ⟨hrefuse, hne⟩ => hne (himm hrefuse))

/-- Where the reserved bits are ignored, the control byte is felt through what is computed alone. -/
theorem execRound_congr {b c : Byte} {g : XWord → XWord → XWord × FpFlags} (hignore : s.roundImmHi = .ignore) (h : g = f) :
    execRound s n align e dst src c g = execRound s n align e dst src b f := by
  have hnot (imm : Byte) (hrefuse : s.roundImmHi = .refuse) : imm.extractLsb' 4 4 = 0 := nomatch hignore.symm.trans hrefuse
  rw [h, execRound_eq_execFp (hnot c), execRound_eq_execFp (hnot b)]

end

/-- An instruction whose meaning is `execRound` keeps its rule when what it writes and what it detects are as the rule says. -/
theorem fpRule_of_execRound {i : Instr} {imm : Byte} {post : State → XWord → XWord → Prop} {levels : State → XWord → List FpFlags}
    (f : State → XWord → XWord → XWord × FpFlags) (himm : i.roundImm = some imm) (hlen : i.len = len3A i.operands.enc i.operands.rm)
    (hexec : ∀ s, exec i s = execRound s i.memBytes i.excClass.aligned16 i.operands.enc i.operands.reg i.operands.rm imm (f s))
    (honly : ∀ s a v, OnlyIePe (f s a v).2) (hlevels : ∀ s v, [(f s (s.getXmm i.operands.reg) v).2] = levels s v)
    (hpost : ∀ s v, post s v (f s (s.getXmm i.operands.reg) v).1) :
    FpRule i i.key i.excClass i.memBytes i.operands.reg i.operands.rm (fun s v => (f s (s.getXmm i.operands.reg) v).2) levels post := by
  refine fpRule_of_exec State.draws (fun s => f s (s.getXmm i.operands.reg)) (fun s v => [(f s (s.getXmm i.operands.reg) v).2])
    (fun s hready => ?_) (fun s v hraised => ⟨_, List.mem_singleton_self _, hraised⟩) (fun s v => ?_) (fun s v => ?_) hlevels hpost
  · obtain ⟨-, -, hreserved⟩ := hready
    rw [himm, Option.getD_some] at hreserved
    rw [hexec, execRound_eq_execFp hreserved, hlen]
  · exact List.forall_mem_singleton.mpr (honly ..).noZe
  · exact List.forall_mem_singleton.mpr BitVec.and_self

/-- What a rounding detects is what it raises (R208): it raises I or P, and never both. -/
theorem detects_rti32 (s : State) (daz : Bool) (m : BitVec 2) (p : Bool) (f : BitVec 32) :
    Detects s 0 (rti32 daz m p f).2 = (rti32 daz m p f).2 := detects_rti ..

theorem detects_rti64 (s : State) (daz : Bool) (m : BitVec 2) (p : Bool) (f : BitVec 64) :
    Detects s 0 (rti64 daz m p f).2 = (rti64 daz m p f).2 := detects_rti ..

/-- Replacing field 0 keeps every bit above it. -/
theorem getLsbD_setLane_zero {w : Nat} (hw : w ∣ 128) (v : BitVec w) (x : XWord) {k : Nat} (hk : w ≤ k) :
    (setLane w 0 v x).getLsbD k = x.getLsbD k := by
  have hpos : 0 < w := Nat.pos_of_dvd_of_pos hw (by decide)
  have hfield : k / w ≠ 0 := (Nat.div_pos hk hpos).ne'
  rw [setLane, getLsbD_pack _ _ _ _ (Nat.mul_div_le 128 w), if_neg hfield, getLsbD_lane, Nat.div_add_mod, Nat.mul_div_cancel' hw,
    decide_eq_true (Nat.mod_lt k hpos), Bool.true_and]
  by_cases h : k < 128
  · rw [decide_eq_true h, Bool.true_and]
  · rw [BitVec.getLsbD_of_ge x k (not_lt.mp h), Bool.and_false]

/-- Settles O55: every field is rounded by itself, and what it raises is what it detects. -/
theorem packedRoundings : Obligations.PackedRoundings := by
  unfold Obligations.PackedRoundings
  intro e d x imm mode
  refine ⟨fpRule_of_execRound (i := .roundps e d x imm) (fun s _ => roundps s imm) rfl rfl (fun _ => rfl)
      (fun s _ => roundps_onlyIePe s imm) (fun s v => ?_) fun s v i hi => ?_,
    fpRule_of_execRound (i := .roundpd e d x imm) (fun s _ => roundpd s imm) rfl rfl (fun _ => rfl)
      (fun s _ => roundpd_onlyIePe s imm) (fun s v => ?_) fun s v i hi => ?_⟩
  · simp only [detects_rti32]
    rfl
  · exact lane_pack 32 4 _ i (by decide) hi
  · simp only [detects_rti64]
    rfl
  · exact lane_pack 64 2 _ i (by decide) hi

/-- Settles O56: the rounded field 0 of the source replaces field 0 of the destination. -/
theorem scalarRoundings : Obligations.ScalarRoundings := by
  unfold Obligations.ScalarRoundings
  intro e d x imm mode
  refine ⟨fpRule_of_execRound (i := .roundss e d x imm) (fun s => roundss s imm) rfl rfl (fun _ => rfl)
      (fun s => roundss_onlyIePe s imm) (fun s v => ?_) fun s v => ⟨?_, fun k hk => ?_⟩,
    fpRule_of_execRound (i := .roundsd e d x imm) (fun s => roundsd s imm) rfl rfl (fun _ => rfl)
      (fun s => roundsd_onlyIePe s imm) (fun s v => ?_) fun s v => ⟨?_, fun k hk => ?_⟩⟩
  · rw [detects_rti32]
    rfl
  · exact lane_setLane 32 0 0 _ _ (by decide)
  · exact getLsbD_setLane_zero (by decide) _ _ hk
  · rw [detects_rti64]
    rfl
  · exact lane_setLane 64 0 0 _ _ (by decide)
  · exact getLsbD_setLane_zero (by decide) _ _ hk

/-! ## The reserved bits of the control byte (46_round.md R180, U1) -/

/-- Where the reserved bits are refused and the extension is enabled, a ROUND* with one of them set is refused, whatever its operands. -/
theorem exec_of_reservedBits {i : Instr} {s : State} {b : Byte} (henabled : Enabled s) (himm : i.roundImm = some b)
    (hrefuse : s.roundImmHi = .refuse) (hb : b.extractLsb' 4 4 ≠ 0) : exec i s = .refused .roundImmReserved := by
  have hgate : ∀ k : Unit → Outcome State, andThen (gate s) k = k () := fun k => by rw [gate_of_enabled henabled, andThen_next]
  cases i
  case roundps | roundpd | roundss | roundsd => cases himm; exact (hgate _).trans (if_pos ⟨hrefuse, hb⟩)
  all_goals cases himm

/-- Two control bytes of the same low half give the same mode and suppression. -/
theorem roundMode_congr {b c : Byte} (h : c.extractLsb' 0 4 = b.extractLsb' 0 4) (rc : BitVec 2) :
    roundMode c rc = roundMode b rc ∧ c.getLsbD 3 = b.getLsbD 3 := by
  have hbit : ∀ k < 4, c.getLsbD k = b.getLsbD k := fun k hk => by
    have := congrArg (·.getLsbD k) h
    simpa [BitVec.getLsbD_extractLsb', hk] using this
  have hlow : c.extractLsb' 0 2 = b.extractLsb' 0 2 := by
    apply BitVec.eq_of_getLsbD_eq
    intro k hk
    simp [BitVec.getLsbD_extractLsb', hbit k (by omega)]
  exact ⟨by rw [roundMode, hbit 2 (by decide), hlow, roundMode], hbit 3 (by decide)⟩

section
variable {s : State} {b c : Byte} (h : c.extractLsb' 0 4 = b.extractLsb' 0 4)
include h

theorem round32_congr : round32 s c = round32 s b := by
  obtain ⟨hmode, hsuppress⟩ := roundMode_congr h s.rc
  funext f
  rw [round32, hmode, hsuppress, round32]

theorem round64_congr : round64 s c = round64 s b := by
  obtain ⟨hmode, hsuppress⟩ := roundMode_congr h s.rc
  funext f
  rw [round64, hmode, hsuppress, round64]

theorem roundps_congr : roundps s c = roundps s b := by
  funext v
  rw [roundps, round32_congr h, roundps]

theorem roundpd_congr : roundpd s c = roundpd s b := by
  funext v
  rw [roundpd, round64_congr h, roundpd]

theorem roundss_congr : roundss s c = roundss s b := by
  funext a v
  rw [roundss, round32_congr h, roundss]

theorem roundsd_congr : roundsd s c = roundsd s b := by
  funext a v
  rw [roundsd, round64_congr h, roundsd]

end

/-- REX.W is free for ROUND* (30_encoding.md R77). -/
theorem requiredW_of_roundImm {i : Instr} {b : Byte} (h : i.roundImm = some b) : i.requiredW = none := by
  cases i
  case roundps | roundpd | roundss | roundsd => rfl
  all_goals cases h

/-- Where the reserved bits are ignored, a ROUND* with another control byte of the same low half does the same. -/
theorem exec_of_ignoredBits {i j : Instr} {s : State} {b c : Byte} (hignore : s.roundImmHi = .ignore) (hi : i.roundImm = some b)
    (hj : j.roundImm = some c) (hkey : j.key = i.key) (hops : j.operands = { i.operands with imm := some c })
    (hlow : c.extractLsb' 0 4 = b.extractLsb' 0 4) : exec j s = exec i s := by
  have hself (i' : Instr) (hkey' : i'.key = i.key) (hops' : i'.operands = { i.operands with imm := some c })
      (hw : i'.requiredW = none) : exec j s = exec i' s :=
    congrArg (exec · s) (Instr.eq_of_key_of_operands (hkey.trans hkey'.symm) (hops.trans hops'.symm) (by rw [hw]; rfl)
      (by rw [requiredW_of_roundImm hj]; rfl))
  cases i <;> cases hi
  case roundps.refl e d x =>
    exact (hself (.roundps e d x c) rfl rfl rfl).trans (execRound_congr hignore (funext fun _ => roundps_congr hlow))
  case roundpd.refl e d x =>
    exact (hself (.roundpd e d x c) rfl rfl rfl).trans (execRound_congr hignore (funext fun _ => roundpd_congr hlow))
  case roundss.refl e d x => exact (hself (.roundss e d x c) rfl rfl rfl).trans (execRound_congr hignore (roundss_congr hlow))
  case roundsd.refl e d x => exact (hself (.roundsd e d x c) rfl rfl rfl).trans (execRound_congr hignore (roundsd_congr hlow))

/-- Settles O58: the bits are tested once, behind the gate and before the operands, and nothing else reads them. -/
theorem reservedRoundingBits : Obligations.ReservedRoundingBits := by
  unfold Obligations.ReservedRoundingBits
  exact ⟨fun _ _ _ => exec_of_reservedBits, fun _ _ _ _ _ => exec_of_ignoredBits⟩

end Sys2Proof.Machine

namespace Sys2Proof.Machine

/-! ## The fetch of bytes that lie at RIP (60_exceptions.md R200, 30_encoding.md R73) -/

/-- What the fetch makes of the bytes it read, and of the fault it ran into behind them. -/
def decodeFetched (s : State) (fetched : List Byte × Option Fault) : Outcome Instr :=
  match decode s.mode fetched.1 with
  | .ok (i, _) => .next i
  | .error x => decodeFailure s fetched.2 x

/-- With bytes at RIP every check before the fetch is passed. -/
theorem CodeAt.fetchInstr_eq {s : State} {bytes : List Byte} (h : CodeAt s bytes) (hpos : 0 < bytes.length) :
    fetchInstr s = decodeFetched s (fetchBytes s 15 s.rip.toNat) := by
  obtain ⟨hmode, htf, hbreak, hcanonical, htext, hbase, hend, -⟩ := h
  have haddr : s.fetchAddress = s.rip := by
    cases hm : s.mode with
    | mode16 => exact absurd hm hmode
    | mode32 | mode64 => simp only [State.fetchAddress, hm]
  have hnotEnd : s.rip.toNat ≠ s.codeEnd := by omega
  have hinside : ¬ (s.rip.toNat < s.codeBase ∨ s.codeEnd < s.rip.toNat) := by omega
  have hreach : ¬ (s.mode = .mode64 ∧ (!canonicalRange s.vaBits s.rip.toNat 1) = true) := by
    rintro ⟨h64, hfar⟩
    rw [hcanonical h64] at hfar
    cases hfar
  simp only [fetchInstr, haddr, hmode, hnotEnd, htf, hbreak, hreach, htext, hinside, Bool.or_self, Bool.not_true, Bool.false_eq_true,
    if_false]
  rfl

/-- The fetch reads every byte of the text that permits it, up to the length asked for, and goes on behind them. -/
theorem fetchBytes_eq_append {s : State} {bytes : List Byte} {n a : Nat} (hn : bytes.length ≤ n) (hend : a + bytes.length ≤ s.codeEnd)
    (hbytes : ∀ k < bytes.length, pageError s .fetch (a + k) = none ∧ s.mem.read (a + k) = bytes[k]?.getD 0) :
    ∃ rest, (fetchBytes s n a).1 = bytes ++ rest := by
  induction bytes generalizing n a with
  | nil => exact ⟨_, rfl⟩
  | cons b bs ih =>
    simp only [List.length_cons] at hn hend hbytes
    obtain ⟨m, rfl⟩ : ∃ m, n = m + 1 := ⟨n - 1, by omega⟩
    have hinside : ¬ s.codeEnd ≤ a := by omega
    obtain ⟨hpage, hread⟩ := hbytes 0 (by omega)
    obtain ⟨rest, hrest⟩ := ih (n := m) (a := a + 1) (by omega) (by omega) fun k hk => by
      rw [Nat.add_right_comm]
      exact hbytes (k + 1) (by omega)
    refine ⟨rest, ?_⟩
    rw [Nat.add_zero] at hpage hread
    simp only [fetchBytes, if_neg hinside, hpage, hrest, hread]
    rfl

/-- Bytes at RIP that are refused whatever follows them leave the fetch with their decode error. -/
theorem CodeAt.fetchInstr_of_decode_error {s : State} {bytes : List Byte} {x : DecodeError} (h : CodeAt s bytes)
    (hpos : 0 < bytes.length) (hlen : bytes.length ≤ 15) (hx : ∀ rest, decode s.mode (bytes ++ rest) = .error x) :
    ∃ pf, fetchInstr s = decodeFailure s pf x := by
  have hfetch := h.fetchInstr_eq hpos
  obtain ⟨-, -, -, -, -, -, hend, hbytes⟩ := h
  obtain ⟨rest, hrest⟩ := fetchBytes_eq_append hlen hend hbytes
  rw [decodeFetched, hrest, hx rest] at hfetch
  exact ⟨_, hfetch⟩

/-! ## MOVNTDQA (47_movntdqa.md R190) -/

/-- A spelling of the register form: what `e` takes before the escape, then escape, map, opcode and ModR/M. -/
theorem length_movntdqaRegBytes {e : Enc} {l : List Byte} (hl : l.Perm e.legacy) (modrm : Byte) :
    (movntdqaRegBytes e l modrm).length = e.len + 4 := by
  simp only [movntdqaRegBytes, List.length_append, hl.length_eq, e.length_legacy_rexBytes, List.length_cons, List.length_nil]

/-- The register form is #UD as a step: no byte behind it changes its decode error (60_exceptions.md R202). -/
theorem step_movntdqaRegBytes {s : State} {e : Enc} {l : List Byte} {modrm : Byte} (he : e.modeOk s.mode = true) (hl : l.Perm e.legacy)
    (hmod : modrm.extractLsb' 6 2 = 3) (hcode : CodeAt s (movntdqaRegBytes e l modrm)) : step s = .fault (.invalidOpcode s.rip) := by
  have hlen := length_movntdqaRegBytes hl modrm
  have hbounds := e.len_bounds
  obtain ⟨pf, hfetch⟩ := hcode.fetchInstr_of_decode_error (by omega) (by omega) (decode_movntdqaRegBytes he hl hmod)
  rw [step, hfetch]
  rfl

/-- A rule may say less of the new value, where it says so of the value of `SRC` the rule has. -/
theorem XmmRule.imp {i : Instr} {key : OpKey} {c : ExcClass} {n : Nat} {dst : Reg} {rm : Rm} {src : State → XWord}
    {post post' : State → XWord → XWord → Prop} (h : XmmRule i key c n dst rm src post)
    (himp : ∀ s r, post s (src s) r → post' s (src s) r) : XmmRule i key c n dst rm src post' where
  key := h.key
  faults := h.faults
  runs s hready hread := by
    obtain ⟨t, hexec, hpost, hsame⟩ := h.runs s hready hread
    exact ⟨t, hexec, himp s _ hpost, hsame⟩

/-- Settles O59: the register form ends in the decoder; the memory form writes `SRC` itself, whose bytes are those of memory. -/
theorem movntdqaLoadsSixteenBytes : Obligations.MovntdqaLoadsSixteenBytes := by
  unfold Obligations.MovntdqaLoadsSixteenBytes
  refine ⟨fun s e l modrm => step_movntdqaRegBytes, fun e d m => ?_⟩
  have hcopies : XRule (.movntdqa e d m) ⟨.m38, 0x2A⟩ .a16 16 d (.mem m) fun _ v r => r = v :=
    xmmRule_of_exec (fun _ _ b => b) (fun _ => rfl) fun _ _ => rfl
  refine hcopies.imp fun s r hr k hk => ?_
  rw [hr]
  exact s.mem.extract_readLE (by decide) hk

end Sys2Proof.Machine

namespace Sys2Proof.Machine

/-! ## The program text and the length of a run (70_reset_and_hazards.md R244) -/

/-- Outside the 16-bit modes the fetch is at RIP. -/
theorem State.fetchAddress_eq {s : State} (h : s.mode ≠ .mode16) : s.fetchAddress = s.rip := by
  cases hm : s.mode with
  | mode16 => exact absurd hm h
  | mode32 | mode64 => simp only [State.fetchAddress, hm]

/-- The fetch reads no byte from `code_end` on. -/
theorem add_length_fetchBytes_le {s : State} {n a : Nat} (ha : a ≤ s.codeEnd) : a + (fetchBytes s n a).1.length ≤ s.codeEnd := by
  induction n generalizing a with
  | zero => exact ha
  | succ n ih =>
    rw [fetchBytes]
    split
    · exact ha
    next hinside =>
      cases pageError s .fetch a with
      | some c => exact ha
      | none =>
        have hrest := ih (a := a + 1) (by omega)
        simp only [List.length_cons]
        omega

/-- Bytes that do not decode give no instruction. -/
theorem decodeFailure_ne_next {α : Type} {s : State} {pf : Option Fault} {x : DecodeError} {a : α} : decodeFailure s pf x ≠ .next a := by
  cases x <;> cases pf <;> exact nofun

/-- INVERSION: where the fetch answers an instruction, its bytes lie in the program text, which lies where RIP can go. -/
theorem fetchInstr_next {s : State} {i : Instr} (h : fetchInstr s = .next i) :
    s.mode ≠ .mode16 ∧ textOk s = true ∧ s.codeBase ≤ s.rip.toNat ∧ s.rip.toNat + i.len ≤ s.codeEnd := by
  simp only [fetchInstr] at h
  split at h
  · cases h
  next h16 =>
  rw [State.fetchAddress_eq h16] at h
  split at h
  · cases h
  split at h
  · cases h
  split at h
  · cases h
  split at h
  · cases h
  next htext =>
  split at h
  · cases h
  next hinside =>
  split at h
  next j rest hdecode =>
    cases h
    obtain ⟨-, hlength, -⟩ := decodedLength
    obtain ⟨hlen, -⟩ := hlength _ _ _ _ hdecode
    have hend := add_length_fetchBytes_le (s := s) (n := 15) (a := s.rip.toNat) (by omega)
    exact ⟨h16, by simpa using htext, by omega, by omega⟩
  · exact absurd h decodeFailure_ne_next

/-- RIP can hold every address up to the end of the text, so that its advance within the text does not wrap. -/
theorem toNat_nextRip {s : State} {n : Nat} (h16 : s.mode ≠ .mode16) (htext : textOk s = true) (hend : s.rip.toNat + n ≤ s.codeEnd) :
    (s.nextRip n).toNat = s.rip.toNat + n := by
  have hsum : s.rip.toNat + n < 2 ^ 64 → (s.rip + BitVec.ofNat 64 n).toNat = s.rip.toNat + n := fun hlt => by
    rw [BitVec.toNat_add, BitVec.toNat_ofNat]
    omega
  cases hm : s.mode with
  | mode16 => exact absurd hm h16
  | mode32 =>
    have hlimit : s.codeEnd < 2 ^ 32 := by simpa [textOk, hm] using htext
    simp only [State.nextRip, hm, modeWidth, toNat_lowHalf, hsum (by omega)]
    omega
  | mode64 =>
    have hlimit : s.codeEnd < 2 ^ 64 := by
      simp only [textOk, hm, Bool.and_eq_true, decide_eq_true_eq] at htext
      exact htext.2
    rw [State.nextRip, hm]
    exact hsum (by omega)

/-- A step that completes moves RIP by the length of an instruction within the text, and keeps the text's end. -/
theorem step_next {s t : State} (h : step s = .next t) : s.codeBase ≤ s.rip.toNat ∧ t.rip.toNat ≤ s.codeEnd ∧ t.codeEnd = s.codeEnd ∧
    ∃ i : Instr, t.rip.toNat = s.rip.toNat + i.len := by
  obtain ⟨i, hfetch, hexec⟩ := andThen_eq_next.mp h
  obtain ⟨h16, htext, hbase, hend⟩ := fetchInstr_next hfetch
  obtain ⟨hrip, hsame⟩ := ripMovesPastTheInstruction i s t hexec
  have hmoved : t.rip.toNat = s.rip.toNat + i.len := hrip ▸ toNat_nextRip h16 htext hend
  exact ⟨hbase, by omega, hsame.codeEnd, i, hmoved⟩

/-- Each of `k` steps that complete takes at least 5 of the bytes up to the end of the text. -/
theorem add_le_codeEnd_of_stepN {k : Nat} {s t : State} (hend : s.rip.toNat ≤ s.codeEnd) (h : stepN k s = some t) :
    s.rip.toNat + 5 * k ≤ s.codeEnd := by
  induction k generalizing s with
  | zero => exact hend
  | succ k ih =>
    rw [stepN] at h
    cases hstep : step s with
    | fault | refused => simp only [hstep, reduceCtorEq] at h
    | next u =>
      simp only [hstep] at h
      obtain ⟨-, hle, hsame, i, hmoved⟩ := step_next hstep
      have hlen := i.len_bounds
      have hrest := ih (hsame ▸ hle) h
      omega

/-- At `code_end` the run is over, whatever else would stop a step there (R244; log 16, 18). -/
theorem step_of_rip_eq_codeEnd {s : State} (h16 : s.mode ≠ .mode16) (hend : s.rip.toNat = s.codeEnd) :
    step s = .refused .endOfProgram := by
  have hfetch : fetchInstr s = .refused .endOfProgram := by
    rw [fetchInstr, if_neg h16, State.fetchAddress_eq h16]
    exact if_pos hend
  rw [step, hfetch, andThen_refused]

/-- Settles O10: a step moves RIP by the length of an instruction, so a run of `k` steps takes at least `5 * k` bytes of the text. -/
theorem everyRunTerminates : Obligations.EveryRunTerminates := by
  unfold Obligations.EveryRunTerminates
  refine ⟨fun s t h => ?_, fun s t n k hstart hn h => ?_, fun s => step_of_rip_eq_codeEnd⟩
  · obtain ⟨hbase, hend, -, i, hmoved⟩ := step_next h
    have hlen := i.len_bounds
    exact ⟨hbase, by omega, by omega, hend⟩
  · have hbytes := add_le_codeEnd_of_stepN (by omega) h
    omega

end Sys2Proof.Machine

namespace Sys2Proof

/-- A well-formed instruction exists in the mode, which is not a 16-bit one. -/
theorem Instr.exists_of_wf {i : Instr} {md : Mode} (h : i.wf md = true) : md ≠ .mode16 ∧ (i.requiredW = some true → md ≠ .mode32) := by
  obtain ⟨hmode, -⟩ := Instr.wf_iff.mp h
  refine ⟨(Enc.modeOk_iff.mp hmode).1, ?_⟩
  rintro hw rfl
  obtain ⟨-, -, -, -, hno⟩ := Instr.of_wf_mode32 h
  exact hno hw

/-- The floating-point classes do not store. -/
theorem ExcClass.stores_of_fp {c : ExcClass} : c.fp = true → c.stores = false := by
  cases c <;> simp [ExcClass.fp, ExcClass.stores]

end Sys2Proof

namespace Sys2Proof.Machine

/-! ## The step at bytes that decode, and at the illegal encodings (60_exceptions.md R200, R202) -/

/-- Settles O8: no byte behind the instruction changes what its own bytes decode to. -/
theorem stepRunsTheDecodedInstruction : Obligations.StepRunsTheDecodedInstruction := by
  unfold Obligations.StepRunsTheDecodedInstruction
  intro s bytes i hcode hdecode
  obtain ⟨hwf, l, hl, hbytes⟩ := decode_eq_ok.mp hdecode
  have hlen : bytes.length = i.len := by
    rw [hbytes, List.append_nil, List.length_append, hl.length_eq, length_encodeBody]
  have hbounds := i.len_bounds
  have hfetch := hcode.fetchInstr_eq (by omega)
  obtain ⟨-, -, -, -, -, -, hend, hread⟩ := hcode
  obtain ⟨rest, hrest⟩ := fetchBytes_eq_append (n := 15) (by omega) hend hread
  have hagain : decode s.mode (bytes ++ rest) = .ok (i, rest) := decode_eq_ok.mpr ⟨hwf, l, hl, by rw [hbytes, List.append_nil]⟩
  rw [decodeFetched, hrest, hagain] at hfetch
  rw [step, hfetch, andThen_next]

/-- MOVNTDQA's row is found before its operand is read, so LOCK is refused in its register form too. -/
theorem decode_lock_movntdqaRegBytes {md : Mode} {e : Enc} {l : List Byte} (he : e.modeOk md = true)
    (hl : l.Perm (0xF0 :: e.legacy)) (modrm : Byte) (rest : List Byte) :
    decode md (movntdqaRegBytes e l modrm ++ rest) = .error .lockByte := by
  have hbytes : movntdqaRegBytes e l modrm ++ rest = l ++ (e.rexBytes ++ 0x0F#8 :: OpMap.m38.escape :: 0x2A#8 :: modrm :: rest) := by
    simp [movntdqaRegBytes, OpMap.escape]
  rw [hbytes, decode_append he (hl.trans e.bytes_scanned_lock.symm), decodeBody_lock (Enc.modeOk_iff.mp he).2.1 rfl]

/-- Bytes at RIP that are refused for LOCK whatever follows them are #UD as a step. -/
theorem step_of_lockByte {s : State} {bytes : List Byte} (hcode : CodeAt s bytes) (hpos : 0 < bytes.length) (hlen : bytes.length ≤ 15)
    (h : ∀ rest, decode s.mode (bytes ++ rest) = .error .lockByte) : step s = .fault (.invalidOpcode s.rip) := by
  obtain ⟨pf, hfetch⟩ := hcode.fetchInstr_of_decode_error hpos hlen h
  rw [step, hfetch]
  rfl

/-- Settles O9: the decode errors of the two encodings do not depend on the bytes behind them, nor on any operand. -/
theorem illegalEncodingsRaiseUd : Obligations.IllegalEncodingsRaiseUd := by
  unfold Obligations.IllegalEncodingsRaiseUd
  refine ⟨fun s i l hwf hl hcode => ?lock, fun s e l modrm he hl hmod hcode => ?register⟩
  case lock =>
    obtain ⟨hrefused, -⟩ := forbiddenPrefixes
    have hlen : (l ++ encodeBody i).length = i.len + 1 := by
      rw [List.length_append, hl.length_eq, List.length_cons, Nat.add_right_comm, length_encodeBody]
    have hbounds := i.len_bounds
    exact step_of_lockByte hcode (by omega) (by omega) fun rest => hrefused s.mode i l rest hwf hl
  case register =>
    rcases hl with hl | hl
    · exact step_movntdqaRegBytes he hl hmod hcode
    · have hlen : (movntdqaRegBytes e l modrm).length = e.len + 5 := by
        have henc := e.length_legacy_rexBytes
        simp only [movntdqaRegBytes, List.length_append, hl.length_eq, List.length_cons, List.length_nil]
        omega
      have hbounds := e.len_bounds
      exact step_of_lockByte hcode (by omega) (by omega) (decode_lock_movntdqaRegBytes he hl modrm)

end Sys2Proof.Machine

namespace Sys2Proof.Machine

/-! ## The gating checks (60_exceptions.md R202, R203) -/

/-- Where the instruction exists in the mode, an exception of the gate is what it answers: every meaning begins with the gate. -/
theorem exec_of_gate_fault {i : Instr} {s : State} {f : Fault} (hexists : i.requiredW = some true → s.mode ≠ .mode32)
    (hgate : gate s = .fault f) : exec i s = .fault f := by
  have hsh := exec_shape i s
  generalize exec i s = o at hsh
  cases hsh with
  | wrongMode hw h32 => exact absurd h32 (hexists hw)
  | xmm => rw [execXmm, hgate, andThen_fault]
  | insert | extract | fp | test => rw [hgate, andThen_fault]

/-- Without the extension, with EM or without OSFXSR the gate is #UD. -/
theorem gate_eq_invalidOpcode {s : State} (h16 : s.mode ≠ .mode16) (h : s.hasSse41 = false ∨ s.em = true ∨ s.osfxsr = false) :
    gate s = .fault (.invalidOpcode s.rip) := by
  have hdisabled : (!s.hasSse41 || s.em || !s.osfxsr) = true := by
    rcases h with h | h | h <;> simp [h]
  rw [gate, if_neg h16, if_pos hdisabled, raise]

/-- Where the extension is enabled but for TS the gate is #NM. -/
theorem gate_eq_deviceNotAvailable {s : State} (h16 : s.mode ≠ .mode16) (hsse : s.hasSse41 = true) (hem : s.em = false)
    (hosfxsr : s.osfxsr = true) (hts : s.ts = true) : gate s = .fault (.deviceNotAvailable s.rip) := by
  simp [gate, h16, hsse, hem, hosfxsr, hts, raise]

/-- Settles O23: the gate comes before the operands in every meaning. -/
theorem gatingExceptions : Obligations.GatingExceptions := by
  unfold Obligations.GatingExceptions
  refine ⟨fun i s hwf h => ?_, fun i s hwf hsse hem hosfxsr hts => ?_⟩ <;> obtain ⟨h16, hexists⟩ := Instr.exists_of_wf hwf
  · exact exec_of_gate_fault hexists (gate_eq_invalidOpcode h16 h)
  · exact exec_of_gate_fault hexists (gate_eq_deviceNotAvailable h16 hsse hem hosfxsr hts)

/-- Settles O14: the mode after reset is a 16-bit one, and OSFXSR is clear. -/
theorem nothingRunsAtReset : Obligations.NothingRunsAtReset := by
  unfold Obligations.NothingRunsAtReset
  refine ⟨rfl, fun i => ⟨fun t h => ?_, fun md hwf => ?_⟩⟩
  · obtain ⟨⟨⟨h16, -⟩, -⟩, -⟩ := exec_next h
    exact h16 rfl
  · obtain ⟨hud, -⟩ := gatingExceptions
    have hosfxsr : State.reset.cr4.getLsbD 9 = false := by decide
    exact hud i { State.reset with mode := md } hwf (.inr (.inr hosfxsr))

end Sys2Proof.Machine

namespace Sys2Proof.Machine

/-! ## Where an instruction completes (60_exceptions.md R200, R209, R214) -/

/-- With every exception masked, none is raised. -/
theorem unmasked_of_masked {s : State} (h : s.mxcsr.extractLsb' 7 6 = 0x3F) (f : FpFlags) : unmasked s f = 0 := by
  have hall : ∀ f : FpFlags, f &&& ~~~(0x3F : FpFlags) = 0 := by decide
  rw [unmasked, State.fpMasks, h, hall]

/-- Where it may run, its operands raise nothing and no floating-point exception is unmasked, an instruction completes. -/
theorem exec_completes {i : Instr} {s : State} (hready : Ready i s) (hok : OperandsOk i s)
    (hmasked : i.excClass.fp = true → s.mxcsr.extractLsb' 7 6 = 0x3F) : ∃ t, exec i s = .next t := by
  obtain ⟨henabled, hmode, hround⟩ := hready
  have hread : i.excClass.stores = false → ReadOk s i.memBytes i.excClass.aligned16 i.operands.enc i.len i.operands.rm := fun hs => by
    rwa [OperandsOk, hs] at hok
  have hsh := exec_shape i s
  generalize exec i s = o at hsh
  cases hsh with
  | xmm f hc =>
    have hs : i.excClass.stores = false := by rcases hc with hc | hc <;> rw [hc] <;> rfl
    exact ⟨_, execXmm_eq_next henabled (hread hs)⟩
  | insert f hc =>
    have hs : i.excClass.stores = false := by rw [hc]; rfl
    have hvalue := hread hs
    rw [hc] at hvalue
    rw [gate_of_enabled henabled, andThen_next, gprOperand_eq_next.mpr ⟨hvalue, rfl⟩]
    exact ⟨_, rfl⟩
  | extract v hc =>
    rw [OperandsOk, hc] at hok
    rw [gate_of_enabled henabled, andThen_next]
    have ⟨u, hu⟩ : ∃ u, writeGprOrMem s i.memBytes v i.operands.enc i.len i.operands.rm = .next u := by
      cases hrm : i.operands.rm with
      | reg r => exact ⟨_, rfl⟩
      | mem m => exact ⟨_, storeOperand_eq_next.mpr ⟨by rwa [hrm] at hok, rfl⟩⟩
    rw [hu]
    exact ⟨_, rfl⟩
  | fp n r l hfp =>
    rw [gate_of_enabled henabled, andThen_next, if_neg fun h => h.2 (hround h.1),
      xmmOperand_eq_next.mpr ⟨hread (ExcClass.stores_of_fp hfp), rfl⟩, andThen_next]
    exact ⟨_, fpComplete_eq_next.mpr ⟨unmasked_of_masked (hmasked hfp) _, rfl⟩⟩
  | test hc =>
    have hs : i.excClass.stores = false := by rw [hc]; rfl
    rw [gate_of_enabled henabled, andThen_next, xmmOperand_eq_next.mpr ⟨hread hs, rfl⟩]
    exact ⟨_, rfl⟩
  | wrongMode hw h32 => exact nomatch (hmode hw).symm.trans h32

/-- Settles O20: `exec_completes`, and its converse is part of the inversion `exec_next`. -/
theorem everyInstructionCompletes : Obligations.EveryInstructionCompletes := by
  unfold Obligations.EveryInstructionCompletes
  refine ⟨fun i s => exec_completes, fun i s t h => ?_⟩
  obtain ⟨hready, hok, -⟩ := exec_next h
  exact ⟨hready, hok⟩

/-- What a write asks of a page unless it heeds no read-only page, it asks at every CPL under CR0.WP. -/
theorem State.of_or_heedsReadOnly {s : State} {p : Prop} (hpage : s.wp = true ∨ p) (h : p ∨ s.heedsReadOnly = false) : p := by
  rcases hpage with hwp | hp
  · exact h.resolve_right (by rw [State.heedsReadOnly, hwp, Bool.or_true]; decide)
  · exact hp

section
variable {s : State} (hpages : ∀ g ∈ s.mapped, g.supervisor = false ∧ (s.wp = true ∨ g.writable = true ∧ g.key ≠ .noWrite))
include hpages

/-- A byte that permits an access at one CPL permits it at every CPL, where no page is the supervisor's and CR0.WP is set or nothing is
read-only. -/
theorem pageError_withPages_of_eq_none {c : BitVec 2} {acc : Access} {a : Nat} (h : pageError s acc a = none) :
    pageError (s.withPages s.mapped c) acc a = none := by
  obtain ⟨g, hfind, hreserved, hkey, hforbids⟩ := pageError_eq_none.mp h
  obtain ⟨hsupervisor, hwrite⟩ := hpages g (List.mem_of_find?_eq_some hfind)
  rw [Region.keyForbids_eq_false] at hkey
  rw [Region.forbids_eq_false] at hforbids
  obtain ⟨hread, hkeyWrite⟩ := hkey
  obtain ⟨hpageWrite, -⟩ := hforbids
  refine pageError_eq_none.mpr ⟨g, hfind, hreserved, Region.keyForbids_eq_false.mpr ⟨hread, fun hacc => .inl ?_⟩,
    Region.forbids_eq_false.mpr ⟨fun hacc => .inl ?_, fun _ => hsupervisor⟩⟩
  · exact State.of_or_heedsReadOnly (hwrite.imp_right And.right) (hkeyWrite hacc)
  · exact State.of_or_heedsReadOnly (hwrite.imp_right And.left) (hpageWrite hacc)

/-- So an operand that raises nothing at one CPL raises nothing at any, where AM or AC is clear too. -/
theorem operandOk_withPages (halign : s.am = false ∨ s.ac = false) {c : BitVec 2} {acc : Access} {n : Nat} {align : Bool} {e : Enc} {len : Nat}
    {m : Mem} (h : OperandOk s acc n align e len m) : OperandOk (s.withPages s.mapped c) acc n align e len m := by
  obtain ⟨hrights, hreach, haligned, hbytes, -⟩ := h
  refine ⟨hrights, hreach, haligned, fun k hk => pageError_withPages_of_eq_none hpages (hbytes k hk), ?_⟩
  rintro ⟨hon, -⟩
  have hboth : (s.am && s.ac) = true := (Bool.and_eq_true_iff.mp hon).1
  rcases halign with h | h <;> simp [h] at hboth

end

/-- Where the operands raise nothing, the memory operand is read or written without an exception. -/
theorem OperandsOk.operandOk {i : Instr} {s : State} {m : Mem} (h : OperandsOk i s) (hm : i.operands.rm = .mem m) :
    OperandOk s (if i.excClass.stores then .write else .read) i.memBytes i.excClass.aligned16 i.operands.enc i.len m := by
  rw [OperandsOk, hm] at h
  cases hs : i.excClass.stores with
  | false => rwa [hs] at h
  | true =>
    rw [hs] at h
    rw [ExcClass.stores_iff.mp hs]
    exact h.1

/-- Settles O21: CPL enters an instruction by the checks of its operand alone, and these find nothing at any CPL. -/
theorem cplDoesNotMatter : Obligations.CplDoesNotMatter := by
  unfold Obligations.CplDoesNotMatter
  intro i s t c hpages halign h
  obtain ⟨-, hok, heff⟩ := exec_next h
  have hchecks : SameChecks s s.mapped c (if i.excClass.stores then .write else .read) i.memBytes i.excClass.aligned16 i.operands.enc i.len
      i.operands.rm := fun m hm => by
    have hnone := OperandsOk.operandOk hok hm
    rw [operandFault_eq_none.mpr hnone, operandFault_eq_none.mpr (operandOk_withPages hpages halign hnone)]
  calc exec i (s.withPages s.mapped c)
    _ = mapNext (·.withPages s.mapped c) (exec i s) := exec_withPages hchecks
    _ = .next (t.withPages t.mapped c) := by
      rw [h, heff.systemSame.mapped]
      rfl

end Sys2Proof.Machine

namespace Sys2Proof

/-- The aligned classes are those of 16 bytes. -/
theorem Instr.aligned16_iff {i : Instr} : i.excClass.aligned16 = true ↔ i.memBytes = 16 := by
  refine ⟨fun h => (Instr.of_aligned16 h).1, ?_⟩
  cases i <;> simp [Instr.excClass, ExcClass.aligned16, Instr.memBytes]

/-- The operand of a class without 16-byte alignment has 1, 2, 4 or 8 bytes. -/
theorem Instr.memBytes_of_not_aligned16 {i : Instr} : i.excClass.aligned16 = false →
    i.memBytes = 1 ∨ i.memBytes = 2 ∨ i.memBytes = 4 ∨ i.memBytes = 8 := by
  cases i <;> simp [Instr.excClass, ExcClass.aligned16, Instr.memBytes]

end Sys2Proof

namespace Sys2Proof.Machine

/-! ## What a fault carries and leaves (60_exceptions.md R200, R201, R208, R209, R211) -/

/-- Settles O31. -/
theorem vectorsAndErrorCodes : Obligations.VectorsAndErrorCodes := by
  unfold Obligations.VectorsAndErrorCodes
  exact fun p a c m => ⟨rfl, rfl, rfl, rfl, rfl, rfl, rfl, rfl⟩

/-- Settles O29: the exceptions are those of the class by `exec_mayRaise`. -/
theorem exceptionClasses : Obligations.ExceptionClasses := by
  unfold Obligations.ExceptionClasses
  exact ⟨fun i s f => exec_mayRaise, fun i => Instr.aligned16_iff⟩

/-- An exception of a class saves RIP. -/
theorem MayRaise.rip_eq {c : ExcClass} {memForm : Prop} {n : Nat} {s : State} {f : Fault} (h : MayRaise c memForm n s f) : f.rip = s.rip := by
  cases f with
  | invalidOpcode | deviceNotAvailable => exact h
  | stackSegment | generalProtection | pageFault | alignmentCheck | simdFloatingPoint | simdInvalidOpcode => exact h.1

/-- Only a floating-point exception leaves another MXCSR. -/
theorem MayRaise.leaves_mxcsr {c : ExcClass} {memForm : Prop} {n : Nat} {s : State} {f : Fault} (h : MayRaise c memForm n s f)
    (hc : c.fp = false) : (f.leaves s).mxcsr = s.mxcsr := by
  cases f with
  | simdFloatingPoint | simdInvalidOpcode => exact nomatch hc.symm.trans h.2.1
  | invalidOpcode | deviceNotAvailable | stackSegment | generalProtection | pageFault | alignmentCheck => rfl

/-- Only #PF leaves another CR2. -/
theorem Fault.leaves_cr2 {f : Fault} (s : State) (h : f.vector ≠ 14) : (f.leaves s).cr2 = s.cr2 := by
  cases f with
  | pageFault => exact absurd rfl h
  | invalidOpcode | deviceNotAvailable | stackSegment | generalProtection | alignmentCheck | simdFloatingPoint | simdInvalidOpcode => rfl

/-- What a fault leaves is the state as it was, but for CR2 and MXCSR. -/
theorem FaultLeaves.eq {s u : State} (h : FaultLeaves s u) : u = { s with cr2 := u.cr2, mxcsr := u.mxcsr } := by
  cases h <;> rfl

/-- MXCSR is kept or has accumulated flags. -/
theorem FaultLeaves.mxcsr_cases {s u : State} (h : FaultLeaves s u) : u.mxcsr = s.mxcsr ∨ ∃ g, u.mxcsr = orFlags s.mxcsr g := by
  cases h with
  | same | cr2 => exact .inl rfl
  | flags g => exact .inr ⟨g, rfl⟩

/-- Settles O30: CR2 and MXCSR are all that `FaultLeaves` lets differ, and MXCSR by accumulated flags alone. -/
theorem faultsLeaveTheState : Obligations.FaultsLeaveTheState := by
  unfold Obligations.FaultsLeaveTheState
  intro i s f h
  have hclass := exec_mayRaise h
  have hleaves := exec_fault_leaves h
  refine ⟨hclass.rip_eq, hleaves.eq, f.leaves_cr2 s, hclass.leaves_mxcsr, fun k hk => ?above, fun k hk => ?sticky⟩ <;>
    rcases hleaves.mxcsr_cases with hsame | ⟨g, hor⟩
  case above.inl => rw [hsame]
  case above.inr => rw [hor, getLsbD_orFlags_of_false (BitVec.getLsbD_of_ge _ _ hk)]
  case sticky.inl => rw [hsame, hk]
  case sticky.inr => rw [hor, getLsbD_orFlags, hk, Bool.true_or]

end Sys2Proof.Machine

namespace Sys2Proof.Machine

/-! ## The exceptions of a memory operand, in the order of the checks (60_exceptions.md R204 to R207, R210) -/

section
variable {s : State} {acc : Access} {n : Nat} {align : Bool} {e : Enc} {len : Nat} {m : Mem}

/-- An operand aligned as it must be is not misaligned. -/
theorem misaligned_eq_false (haligned : align = true → addrOf s e len m % 16 = 0) : (align && addrOf s e len m % 16 != 0) = false := by
  simpa using haligned

/-- Against its segment's rights or out of its reach an operand raises #SS when it goes through SS and is aligned or the draw says so, else
#GP. -/
theorem operandFault_of_segment (h : segmentPermits s acc e m = false ∨ inReach s e len n m = false) :
    operandFault s acc n align e len m =
      some (if throughSS s.mode e m && (!(align && addrOf s e len m % 16 != 0) || Config.stackFaultFirst s.draws) then .stackSegment
        else .generalProtection) := by
  have hrefused : (segmentPermits s acc e m && inReach s e len n m) = false := by rcases h with h | h <;> simp [h]
  simp only [operandFault, hrefused, Bool.not_false, if_true]
  split <;> rfl

section
variable (hrights : segmentPermits s acc e m = true) (hreach : inReach s e len n m = true)
  (haligned : align = true → addrOf s e len m % 16 = 0)
include hrights hreach haligned

/-- Within rights and reach and aligned as it must be, an operand raises #PF for its lowest byte that does not permit the access. -/
theorem operandFault_of_pageError {k : Nat} {c : BitVec 32} (hk : k < n) (hlow : ∀ j < k, pageError s acc (addrOf s e len m + j) = none)
    (hc : pageError s acc (addrOf s e len m + k) = some c) :
    operandFault s acc n align e len m = some fun p => .pageFault p c (BitVec.ofNat 64 (addrOf s e len m + k)) := by
  simp only [operandFault, hrights, hreach, misaligned_eq_false haligned, firstPageError_eq_some hk hlow hc, Bool.and_self, Bool.not_true,
    Bool.false_eq_true, if_false]

/-- Where its pages permit the access it raises #AC when alignment checking finds a fault. -/
theorem operandFault_of_acFault (hpages : ∀ k < n, pageError s acc (addrOf s e len m + k) = none) (hac : AcFault s n (addrOf s e len m)) :
    operandFault s acc n align e len m = some .alignmentCheck := by
  obtain ⟨hon, hn, hmod⟩ := hac
  have hfault : (s.acEnabled && (n == 2 || n == 4 || n == 8) && addrOf s e len m % n != 0) = true := by
    simpa [hon, hmod, or_assoc] using hn
  simp only [operandFault, hrights, hreach, misaligned_eq_false haligned, firstPageError_eq_none.mpr hpages, hfault, Bool.and_self,
    Bool.not_true, Bool.false_eq_true, if_false, if_true]

end

end

/-- `AC_ENABLED` by the places of its three conditions (20_memory.md R45). -/
theorem State.acEnabled_iff {s : State} : s.acEnabled = true ↔ s.cr0.getLsbD 18 = true ∧ s.rflags.getLsbD 18 = true ∧ s.cpl = 3 := by
  simp [State.acEnabled, State.am, State.ac, State.user, and_assoc]

/-- An #AC comes from a memory operand in which alignment checking finds a fault. -/
theorem acFault_of_exec {i : Instr} {s : State} {p : Quad} (h : exec i s = .fault (.alignmentCheck p)) :
    ∃ m, i.operands.rm = .mem m ∧ AcFault s i.memBytes (addrOf s i.operands.enc i.len m) := by
  rcases exec_fault h with ⟨-, hf | hf⟩ | ⟨-, m, g, hm, hf, hg⟩ | ⟨-, -, x, levels, -, hf⟩
  · cases hf
  · cases hf
  · rcases operandFault_cases hg with rfl | rfl | ⟨b, c, rfl, -⟩ | ⟨-, hac⟩
    · cases hf
    · cases hf
    · cases hf
    · exact ⟨m, hm, hac⟩
  · cases hx : s.osxmmexcpt <;> rw [hx] at hf <;> cases hf

/-- Settles O28: the check of alignment checking is the last of an operand's, and no other raises #AC. -/
theorem alignmentChecking : Obligations.AlignmentChecking := by
  unfold Obligations.AlignmentChecking
  refine ⟨fun i s m hready hm hnarrow hrights hreach hpages ham hac hcpl hmod => ?raised, fun i s p h => ?only⟩
  case raised =>
    have hn := Instr.memBytes_of_not_aligned16 hnarrow
    have hfault : AcFault s i.memBytes (addrOf s i.operands.enc i.len m) :=
      ⟨State.acEnabled_iff.mpr ⟨ham, hac, hcpl⟩, hn.resolve_left fun h1 => hmod (by rw [h1, Nat.mod_one]), hmod⟩
    exact exec_operandFault hready hm (operandFault_of_acFault hrights hreach (fun h => nomatch hnarrow.symm.trans h) hpages hfault)
  case only =>
    obtain ⟨m, hm, hon, hn, hmod⟩ := acFault_of_exec h
    exact ⟨State.acEnabled_iff.mp hon, hn, m, hm, hmod⟩

/-! ### The code of a page fault (R206) -/

/-- A store heeds read-only pages and keys in user mode and under CR0.WP. -/
theorem State.heedsReadOnly_iff {s : State} : s.heedsReadOnly = true ↔ s.cpl = 3 ∨ s.cr0.getLsbD 16 = true := by
  simp [State.heedsReadOnly, State.user, State.wp]

/-- A key forbids a data access that it permits nothing, or a write it does not permit. -/
theorem Region.keyForbids_iff {g : Region} {s : State} {stores : Bool} : g.keyForbids s (if stores then .write else .read) = true ↔
    g.key = .nothing ∨ g.key = .noWrite ∧ stores = true ∧ (s.cpl = 3 ∨ s.cr0.getLsbD 16 = true) := by
  rw [← State.heedsReadOnly_iff, ← Bool.not_eq_false, Region.keyForbids_eq_false]
  cases g.key <;> cases stores <;> simp

/-- The code of a byte that does not permit an access: P where a region holds it, RSVD where the first that does has a reserved bit set, PK
where it has none and its key forbids the access (log 14). -/
theorem pageError_bits {s : State} {acc : Access} {a : Nat} {code : BitVec 32} (h : pageError s acc a = some code) :
    ∃ present rsvd pk, code = pageCode s acc present rsvd pk ∧ (present = true ↔ ∃ g ∈ s.mapped, g.holds a = true) ∧
      (rsvd = true ↔ ∃ g, s.mapped.find? (·.holds a) = some g ∧ g.reserved = true) ∧
      (pk = true ↔ ∃ g, s.mapped.find? (·.holds a) = some g ∧ g.reserved = false ∧ g.keyForbids s acc = true) := by
  rcases pageError_eq_some h with ⟨hnone, rfl⟩ | ⟨g, hfirst, rfl⟩
  · refine ⟨_, _, _, rfl, ?_, by simp [hnone], by simp [hnone]⟩
    simpa using List.find?_eq_none.mp hnone
  · have hheld : ∃ g ∈ s.mapped, g.holds a = true :=
      ⟨g, List.mem_of_find?_eq_some hfirst, List.find?_some (p := fun g : Region => g.holds a) hfirst⟩
    exact ⟨_, _, _, rfl, by simpa using hheld, by simp [hfirst], by simp [hfirst]⟩

/-- Settles O26: the lowest failing byte is the one reported, and its code is `pageCode` of what the first region that holds it says. -/
theorem pageFaultNamesTheLowestByte : Obligations.PageFaultNamesTheLowestByte := by
  unfold Obligations.PageFaultNamesTheLowestByte
  intro i s m k hready hm hk hrights hreach haligned hlow hfails
  obtain ⟨code, hcode⟩ := Option.isSome_iff_exists.mp hfails
  have hexec := exec_operandFault hready hm (operandFault_of_pageError hrights hreach haligned hk hlow hcode)
  obtain ⟨present, rsvd, pk, rfl, hpresent, hrsvd, hpk⟩ := pageError_bits hcode
  obtain ⟨hbit0, hbit1, hbit2, hbit3, hbit4, hbit5, hhigh⟩ :=
    getLsbD_pageCode s (if i.excClass.stores then .write else .read) present rsvd pk
  refine ⟨_, hexec, ?present, ?write, ?user, ?rsvd, ?key, fun b hb h5 => ?other⟩
  case present => rw [hbit0, hpresent]
  case write =>
    rw [hbit1]
    cases i.excClass.stores <;> rfl
  case user =>
    rw [hbit2]
    exact beq_iff_eq
  case rsvd => rw [hbit3, hrsvd]
  case key =>
    rw [hbit5, hpk]
    simp only [Region.keyForbids_iff]
  case other =>
    rcases Nat.eq_or_lt_of_le hb with rfl | hb
    · rw [hbit4]
      cases i.excClass.stores <;> rfl
    · exact hhigh b (by omega)

/-! ## Operands of mode32 outside their segment (60_exceptions.md R204, R205; D7) -/

/-- In mode32 an operand reaches past 4 GiB where its offset or its linear address does. -/
theorem inReach_mode32_eq_false {s : State} {e : Enc} {len n : Nat} {m : Mem} (h32 : s.mode = .mode32) : inReach s e len n m = false ↔
    (2 ^ 32 : Int) < eaInt s len m % 2 ^ 32 + n ∨ 2 ^ 32 < addrOf s e len m + n := by
  have hoffset := effAddr_low (e := e) (len := len) (m := m) (.inl (show s.mode ≠ .mode64 by rw [h32]; decide))
  have hsum := addressSum_toNat s len m
  have heff : ((effAddr s e len m).toNat : Int) = eaInt s len m % 2 ^ 32 := by omega
  rw [← heff, inReach, h32]
  simp only [addrOf, Bool.and_eq_false_iff, decide_eq_false_iff_not]
  omega

/-- Settles O60: such an operand fails its segment's check, which comes first, and the draw decides only where it is misaligned too. -/
theorem operandPastFourGiBFaults : Obligations.OperandPastFourGiBFaults := by
  unfold Obligations.OperandPastFourGiBFaults
  intro i s m hready h32 hm hbad
  have hsegment : segmentPermits s (if i.excClass.stores then .write else .read) i.operands.enc m = false ∨
      inReach s i.operands.enc i.len i.memBytes m = false :=
    hbad.imp (segmentPermits_mode32 h32).mpr (inReach_mode32_eq_false h32).mpr
  have hexec := exec_operandFault hready hm (operandFault_of_segment hsegment)
  rw [h32] at hexec
  refine ⟨fun hbase => ?other, fun hbase halign => ?stack, fun _ => ?either⟩
  case other =>
    rw [← throughSS_mode32, Bool.not_eq_true] at hbase
    simpa only [hbase, Bool.false_and, Bool.false_eq_true, if_false] using hexec
  case stack =>
    simpa only [throughSS_mode32.mpr hbase, misaligned_eq_false halign, Bool.not_false, Bool.true_or, Bool.and_self, if_true] using hexec
  case either =>
    split at hexec
    · exact .inl hexec
    · exact .inr hexec

end Sys2Proof.Machine
